-- ==== Sys2Proof/Word.lean ====
section
/-! DEFINITION. The plain types of the block's values (spec 00_scope.md, rules R7 to R12): a byte, a bit sequence, a
Sample, a Symbol, a probability, and the index of one Sample in image memory. Nothing here computes. -/

namespace Sys2Proof

/-- One byte of the byte sink or the byte source (R42, R43). -/
abbrev Byte := BitVec 8

/-- A bit sequence (R12): element 0 is the FIRST bit, the first written, the first read and the most significant. -/
abbrev Bits := List Bool

/-- A Sample is an unbounded mathematical integer (R9 `SampleInt`, R11). -/
abbrev Sample := Int

/-- A symbol is a residual value (or a raw sample when prediction is off); the codable ones are −255 to 255 (R7). -/
abbrev Symbol := Int

/-- A probability is an exact rational (R9 `ProbArith`, R133). -/
abbrev Prob := Rat

/-- The index `(r, c, k)` of one Sample in image memory: row, column, channel (R41). -/
structure Loc where
  r : Nat
  c : Nat
  k : Nat
  deriving DecidableEq, Repr

end Sys2Proof
end

