-- ==== Sys2Proof/Config.lean ====
section
/-! DEFINITION. The fixed parameters the spec gives (00_scope.md R7, R8), the parameters it fixes by its own decision
(R9), and the one free value of the model: what a `draw SampleInt` yields (R17, R41, R199). -/

namespace Sys2Proof.Config

/-- `CH`: "Channel count is fixed at 3" (R7). -/
def channels : Nat := 3

/-- `DIM_W`: bit width of the height field and of the width field (R7). -/
def dimWidth : Nat := 16

/-- `SYM_W`: bit width of the biased-symbol field (R7). -/
def symWidth : Nat := 9

/-- `LEN_W`: bit width of the codeword-length field (R7). -/
def lenWidth : Nat := 5

/-- `BIAS`: added to a symbol before it is written (R7). -/
def bias : Int := 255

/-- `SENTINEL`: the reserved biased value marking the end of the table (R7). -/
def sentinel : Nat := 511

/-- `SYM_MIN`: the smallest codable symbol (R7). -/
def symMin : Int := -255

/-- `SYM_MAX`: the largest codable symbol (R7). -/
def symMax : Int := 255

/-- `LEN_MAX`: the largest codeword length the length field can carry (R7). -/
def lenMax : Nat := 31

/-- `NSYM`: the number of codable symbols (R8). -/
def symbolCount : Nat := 511

/-- `NNODE`: the most nodes a Huffman tree can have (R8). -/
def maxNodes : Nat := 1021

/-- `CW_MAX`: the longest codeword the block can generate (R8). -/
def maxCodeword : Nat := 510

/-- `SingleCode`: the codeword of the only symbol of a one-symbol alphabet (R9, R154; decision D9 of the spec). -/
def singleCode : Bits := [false]

/-- The value the `n`-th `draw SampleInt` of a run yields (R17, R41, R199). It has NO body: no rule chooses it, and no
proof can know it. State's counter `draws` says which draw comes next (notes/assumptions/1.md). -/
opaque freeSample : Nat → Sample

end Sys2Proof.Config
end

