-- ==== Sys2Proof/Machine/Bits.lean ====
section
/-! DEFINITION. Bit order (00_scope.md R12, R13; 20_memory.md R51, R52): the value of a bit sequence, the bit sequence of
a value, most significant bit first; and the bytes of a bit sequence. The FixedWidthCodec (R121, R124), the BitWriter
(R107, R108), the BitReader (R111) and the encodings use these and nothing else. -/

namespace Sys2Proof.Machine

/-- `valof(s) = Σ s[i] · 2^(|s|−1−i)` (R13), read from the left: the value so far is doubled and the next bit added. -/
def valOf (s : Bits) : Nat := s.foldl (fun v b => 2 * v + b.toNat) 0

/-- `bitsof_n(v)` (R13): the `n` low-order bits of `v`, bit `n − 1` first. -/
def bitsOf : Nat → Nat → Bits
  | 0, _ => []
  | n + 1, v => v.testBit n :: bitsOf n v

/-- `zeros(n)` (R12). -/
def zeros (n : Nat) : Bits := List.replicate n false

/-- The byte whose bit 7 is the first of eight bits (R51, R107). -/
def byteOf (s : Bits) : Byte := BitVec.ofNat 8 (valOf s)

/-- The eight bits of a byte, bit 7 first (R51, R111). -/
def bitsOfByte (b : Byte) : Bits := bitsOf 8 b.toNat

end Sys2Proof.Machine
end

