-- ==== Sys2Proof/Syntax.lean ====
section
/-! DEFINITION. The instructions of the block: one constructor for each row of spec/opcode_table.json, that is the 29
operations of the command port (30_encoding.md R91) and the 5 records of the container format (R75 to R80); and the
words they travel in: an operation code with the operand lines beside it (R90, R93), or the bits of one record. -/

namespace Sys2Proof

/-- The instructions. Operand types follow R93. The last five are the stream records: what the decoder does with one
record of the stream it reads is that record's meaning (notes/assumptions/2.md). -/
inductive Instr where
  /-- `SYS.RESET` (R228). -/
  | sysReset
  /-- `SYS.STATUS` (R229). -/
  | sysStatus
  /-- `BW.OPEN` (R106). -/
  | bwOpen
  /-- `BW.WRITE bits` (R107). -/
  | bwWrite (bits : Bits)
  /-- `BW.CLOSE` (R108). -/
  | bwClose
  /-- `BR.OPEN` (R110). -/
  | brOpen
  /-- `BR.READ_BIT` (R111). -/
  | brReadBit
  /-- `BR.READ_BITS n` (R112). -/
  | brReadBits (n : Nat)
  /-- `BR.CLOSE` (R113). -/
  | brClose
  /-- `FW.ENC x, width` (R121). -/
  | fwEnc (x : Int) (width : Nat)
  /-- `FW.DEC bits` (R124). -/
  | fwDec (bits : Bits)
  /-- `HG.CLEAR` (R129). -/
  | hgClear
  /-- `HG.ACC s` (R130). -/
  | hgAcc (x : Sample)
  /-- `HG.EMIT lo, hi` (R131). -/
  | hgEmit (lo hi : Int)
  /-- `HG.BUILD samples, lo, hi` (R132). -/
  | hgBuild (samples : List Sample) (lo hi : Int)
  /-- `HT.BUILD symbols, probabilities` (R141). -/
  | htBuild (symbols : List Symbol) (probs : List Prob)
  /-- `HT.GEN` (R151). -/
  | htGen
  /-- `DP.FWD H, W` (R161). -/
  | dpFwd (h w : Int)
  /-- `DP.INV H, W` (R163). -/
  | dpInv (h w : Int)
  /-- `VE.HDR H, W` (R173). -/
  | veHdr (h w : Int)
  /-- `VE.TABLE` (R176). -/
  | veTable
  /-- `VE.SYM s` (R178). -/
  | veSym (x : Sample)
  /-- `VE.PAYLOAD` (R179). -/
  | vePayload
  /-- `ENCODE H, W, P` (R184). -/
  | encode (h w : Int) (p : Bool)
  /-- `VD.HDR` (R191). -/
  | vdHdr
  /-- `VD.TABLE` (R192). -/
  | vdTable
  /-- `VD.SYM` (R194). -/
  | vdSym
  /-- `VD.PAYLOAD` (R196). -/
  | vdPayload
  /-- `DECODE P` (R203). -/
  | decode (p : Bool)
  /-- The stream record `HEADER`: height, width (R76). -/
  | header (height width : BitVec 16)
  /-- The stream record `ENTRY`: the symbol (not yet biased) and its codeword (R77). -/
  | entry (sym : Symbol) (cw : Bits)
  /-- The stream record `SENTINEL` (R78). -/
  | sentinel
  /-- The stream record `CODEWORD` (R79). -/
  | codeword (cw : Bits)
  /-- The stream record `PAD`: that many zero bits (R80). -/
  | pad (n : Nat)
  deriving DecidableEq, Repr

/-- The operand lines of the command port (R44, R90: "Operands are not packed into the code: they travel beside it").
An operation reads the lines of its own operands and no other. A line no one drives is zero or empty
(notes/assumptions/3.md); line `P` is 1 then, the default that R180 and R202 give it. -/
structure Operands where
  bits : Bits := []
  n : Nat := 0
  x : Int := 0
  width : Nat := 0
  s : Sample := 0
  lo : Int := 0
  hi : Int := 0
  samples : List Sample := []
  symbols : List Symbol := []
  probs : List Prob := []
  h : Int := 0
  w : Int := 0
  p : Bool := true
  deriving DecidableEq, Repr

/-- The part of the stream a record stands in. A reader knows it from what it has read before (R84, R85). -/
inductive StreamPart where
  | header
  | table
  | payload
  | padding
  deriving DecidableEq, Repr

/-- What the block is asked to run next: an operation offered on the command port (R44, R90), or one record of the
stream, handed to the decoder by itself (notes/assumptions/2.md). -/
inductive Request where
  | command (op : Byte) (operands : Operands)
  | record (part : StreamPart) (bits : Bits)
  deriving DecidableEq, Repr

end Sys2Proof
end

