-- ==== Sys2Proof/Machine/State.lean ====
section
/-! DEFINITION. The state of the block (10_state.md, rules R20 to R48) as plain data, its value after reset, the causes
an operation can end abnormally for (60_exceptions.md R211, R218), and the reasons a step of the MODEL can stop. -/

namespace Sys2Proof.Machine

/-- The host-level faults. The spec's own faults are not among them: R222 says what the block does after one, so they
are taken, in a next state. -/
inductive Fault where
  /-- Raised by `HT.GEN` alone, when `ht.root` names a node but the arena is no tree of distinct codable symbols (R29,
  R142). No run reaches such an arena, and the spec gives the traversal no effect on one. SAFE: the model stops. -/
  | brokenTree
  deriving DecidableEq, Repr

/-- The host-level refusals. The spec's own refusals are not among them: R217 says what the block does on one. -/
inductive Refusal where
  /-- Raised by `exec` for an instruction that has no meaning yet. SAFE. -/
  | notModelled (mnemonic : String)
  /-- Raised by `step` for a record request whose bits are no record of their part of the stream (R76 to R80). SAFE. -/
  | notARecord
  deriving DecidableEq, Repr

/-- The faults the spec names (R211). -/
inductive FaultKind where
  | rangeError
  | sampleRangeError
  | lengthMismatch
  | ioFailure
  deriving DecidableEq, Repr

/-- The refusal reasons the spec names (R218). -/
inductive RefuseKind where
  | illegalOp
  | faulted
  | busy
  | notOpen
  | alreadyOpen
  | emptyHistogram
  | emptyAlphabet
  | badProbability
  | badSymbol
  | noTree
  | noCode
  deriving DecidableEq, Repr

/-- Why an operation ended abnormally (R16, R210): a fault with the values `st.info` records, or a refusal. -/
inductive Cause where
  | fault (e : FaultKind) (info : Int × Int)
  | refuse (r : RefuseKind)
  deriving DecidableEq, Repr

/-- `bw.buf` and `bw.open` (R21, R22). -/
structure BitWriter where
  buf : Bits
  isOpen : Bool
  /-- The completed byte on its way to the sink, the eight bits of `bw.buf` in the middle of R107's loop. `bw.buf` is "the bits
  written since the last completed byte" (R21), so the byte is not among them. It is there only while `SinkAppend` runs, and
  stays when that fails, as R221 says (notes/assumptions/6.md). -/
  full : Option Byte := none
  deriving DecidableEq, Repr

/-- `br.cur`, `br.exh` and `br.open` (R23 to R25). -/
structure BitReader where
  cur : Bits
  exh : Bool
  isOpen : Bool
  deriving DecidableEq, Repr

/-- `hg.count` and `hg.total` (R27, R28): entry `s + 255` of `count` is the counter of the symbol `s`. -/
structure Histogram where
  count : Vector Nat 511
  total : Nat
  deriving DecidableEq, Repr

/-- One entry of `ht.node` (R29): a leaf carries a symbol, an internal node exactly two children. -/
inductive Node where
  | leaf (sym : Symbol) (w : Prob)
  | internal (w : Prob) (left right : Nat)
  deriving DecidableEq, Repr

/-- `ht.node`, `ht.nn`, `ht.set` and `ht.root` (R29 to R31). -/
structure HuffmanTree where
  node : List Node
  nn : Nat
  set : List Nat
  root : Option Nat
  deriving DecidableEq, Repr

/-- `ct.code` and `ct.order` (R32), stored once: the (symbol, codeword) pairs in the order of `ct.order`. The two
registers of the spec are views of it (`CodeTable.code`, `CodeTable.order` in Machine/Huffman.lean). -/
structure CodeTable where
  entries : List (Symbol × Bits)
  deriving DecidableEq, Repr

/-- `vd.acc` and `vd.ndone` (R34). -/
structure Decoder where
  acc : Bits
  ndone : Nat
  deriving DecidableEq, Repr

/-- `dim.H` and `dim.W` (R35). -/
structure Dims where
  h : BitVec 16
  w : BitVec 16
  deriving DecidableEq, Repr

/-- `cfg.P` (R36): true when prediction is on. -/
structure Cfg where
  p : Bool
  deriving DecidableEq, Repr

/-- The values of `seq.op` (R37). -/
inductive SeqOp where
  | idle
  | encode
  | decode
  deriving DecidableEq, Repr

/-- `seq.op` and `seq.phase` (R37): the block's program counter. -/
structure Sequencer where
  op : SeqOp
  phase : Nat
  deriving DecidableEq, Repr

/-- The values of `st.dec` (R39, R204), in the order of their codes 0 to 3. -/
inductive DecStatus where
  | none
  | complete
  | short
  | noImage
  deriving DecidableEq, Repr

/-- `st.err`, `st.info`, `st.ref` and `st.dec` (R39). -/
structure Status where
  err : BitVec 3
  info : Int × Int
  ref : BitVec 4
  dec : DecStatus
  deriving DecidableEq, Repr

/-- `src` and `src.pos` (R43). -/
structure Source where
  bytes : List Byte
  pos : Nat
  deriving DecidableEq, Repr

/-- The record `SYS.STATUS` returns (R229). -/
structure StatusRecord where
  err : BitVec 3
  info : Int × Int
  ref : BitVec 4
  dec : DecStatus
  bwOpen : Bool
  brOpen : Bool
  brExh : Bool
  ndone : Nat
  h : BitVec 16
  w : BitVec 16
  op : SeqOp
  phase : Nat
  deriving DecidableEq, Repr

/-- The results operations return with the outcome `ok` (R91, third column). -/
inductive Result where
  /-- The operation has no result; `VD.TABLE` returns it for `done`. -/
  | done
  /-- `BR.READ_BIT`: a bit, or none. -/
  | bit (b : Option Bool)
  /-- `BR.READ_BITS`, `FW.ENC`: bits, or none. -/
  | bits (s : Option Bits)
  /-- `FW.DEC`: a non-negative integer. -/
  | value (v : Nat)
  /-- `HG.EMIT`, `HG.BUILD`: the pairs (symbol, probability). -/
  | pairs (ps : List (Symbol × Prob))
  /-- `HT.GEN`: the code table. -/
  | codes (cs : List (Symbol × Bits))
  /-- `VD.HDR`: the height and the width, or none. -/
  | dims (d : Option Dims)
  /-- `VD.TABLE`: none. -/
  | noTable
  /-- `VD.SYM`: a symbol, or none. -/
  | symbol (x : Option Symbol)
  /-- `VD.PAYLOAD`: the number of samples decoded. -/
  | count (n : Nat)
  /-- `DECODE`: the dimensions (absent when `VD.HDR` returned none) and `st.dec`. -/
  | decoded (d : Option Dims) (dec : DecStatus)
  /-- `SYS.STATUS`. -/
  | status (r : StatusRecord)
  deriving DecidableEq, Repr

/-- The outcome of one operation as the command port returns it (R16, R44). -/
inductive Reply where
  | ok (r : Result)
  | fault (e : FaultKind) (info : Int × Int)
  | refused (r : RefuseKind)
  deriving DecidableEq, Repr

/-- The command port (R44): the operations the host will offer, first first, and the outcome of the last one. -/
structure Port where
  pending : List Request
  reply : Option Reply
  deriving DecidableEq, Repr

/-- The state of the block and of the environment it reaches (R20, R41 to R44). -/
structure State where
  /-- The BitWriter registers (R21, R22). -/
  bw : BitWriter
  /-- The BitReader registers (R23 to R25). -/
  br : BitReader
  /-- The histogram counter file (R27, R28). -/
  hg : Histogram
  /-- The node arena, the node set and the root (R29 to R31). -/
  ht : HuffmanTree
  /-- The code table (R32). -/
  ct : CodeTable
  /-- The decode table (R33): a finite map from codewords to symbols, in the one canonical form of `Table.sorted`. -/
  dt : List (Bits × Symbol)
  /-- The decoder's accumulator and progress counter (R34). -/
  vd : Decoder
  /-- The call registers `dim.H`, `dim.W` (R35). -/
  dim : Dims
  /-- The call register `cfg.P` (R36). -/
  cfg : Cfg
  /-- The sequencer registers (R37). -/
  seq : Sequencer
  /-- The status registers (R39). -/
  st : Status
  /-- Image memory (R41): the locations that hold a Sample, in the one canonical form of `Memory.wf`. -/
  img : List (Loc × Sample)
  /-- The byte sink (R42): an append-only list, first byte first. -/
  sink : List Byte
  /-- The byte source (R43). -/
  src : Source
  /-- The command port (R44). -/
  port : Port
  /-- The environment's answers to the next accesses of the sink and the source, true for a failure
  (R56, R57, R215): an access past the end of the list succeeds. It is the environment's, not a register. -/
  ioFail : List Bool
  /-- How many draws (R17) have been made: the MODEL's own field, which numbers the free values. -/
  draws : Nat
  deriving DecidableEq, Repr

/-- What the host and its streams hold, which reset does not touch and the spec leaves unspecified (R41 to R44, R48, R236):
image memory, the sink, the source, the operations the host will offer, the answers of its streams. -/
structure Environment where
  img : List (Loc × Sample) := []
  sink : List Byte := []
  src : Source := { bytes := [], pos := 0 }
  pending : List Request := []
  ioFail : List Bool := []
  deriving DecidableEq, Repr

/-- The environment of a state. -/
def State.environment (s : State) : Environment :=
  { img := s.img, sink := s.sink, src := s.src, pending := s.port.pending, ioFail := s.ioFail }

/-- The state on leaving reset (R48, R236). Every register has the value the spec's table gives it; the environment is a
parameter, as R236 says: "a model must take them as parameters of the initial state". -/
def State.initial (e : Environment) : State where
  bw := { buf := [], isOpen := false }
  br := { cur := [], exh := true, isOpen := false }
  hg := { count := Vector.replicate 511 0, total := 0 }
  ht := { node := [], nn := 0, set := [], root := none }
  ct := { entries := [] }
  dt := []
  vd := { acc := [], ndone := 0 }
  dim := { h := 0, w := 0 }
  cfg := { p := true }
  seq := { op := .idle, phase := 0 }
  st := { err := 0, info := (0, 0), ref := 0, dec := .none }
  img := e.img
  sink := e.sink
  src := e.src
  port := { pending := e.pending, reply := none }
  ioFail := e.ioFail
  draws := 0

/-- The initial state of the host's interface: the one whose environment holds nothing (notes/assumptions/4.md). -/
def State.reset : State := State.initial {}

/-! Updates of one field. Laws/State.lean says what each of them leaves. -/

def State.withBw (s : State) (v : BitWriter) : State := { s with bw := v }
def State.withBr (s : State) (v : BitReader) : State := { s with br := v }
def State.withHg (s : State) (v : Histogram) : State := { s with hg := v }
def State.withHt (s : State) (v : HuffmanTree) : State := { s with ht := v }
def State.withCt (s : State) (v : CodeTable) : State := { s with ct := v }
def State.withDt (s : State) (v : List (Bits × Symbol)) : State := { s with dt := v }
def State.withVd (s : State) (v : Decoder) : State := { s with vd := v }
def State.withDim (s : State) (v : Dims) : State := { s with dim := v }
def State.withCfg (s : State) (v : Cfg) : State := { s with cfg := v }
def State.withSeq (s : State) (v : Sequencer) : State := { s with seq := v }
def State.withSt (s : State) (v : Status) : State := { s with st := v }
def State.withImg (s : State) (v : List (Loc × Sample)) : State := { s with img := v }
def State.withSink (s : State) (v : List Byte) : State := { s with sink := v }
def State.withSrc (s : State) (v : Source) : State := { s with src := v }
def State.withPort (s : State) (v : Port) : State := { s with port := v }
def State.withIoFail (s : State) (v : List Bool) : State := { s with ioFail := v }
def State.withDraws (s : State) (v : Nat) : State := { s with draws := v }

end Sys2Proof.Machine
end

