-- ==== Sys2Proof/Machine/Flags.lean ====
section
/-! DEFINITION. The flags and the status registers (10_state.md R39, R40): the codes of the faults (60_exceptions.md R211)
and of the refusals (R218), the sticky writes of `st.err` and `st.ref` (R222), and the writes of `st.dec`. The block has
no arithmetic condition codes (R40). -/

namespace Sys2Proof.Machine

/-- The code of a fault in `st.err` (R211). -/
def FaultKind.code : FaultKind → BitVec 3
  | .rangeError => 1
  | .sampleRangeError => 2
  | .lengthMismatch => 3
  | .ioFailure => 4

/-- The code of a refusal reason in `st.ref` (R218). -/
def RefuseKind.code : RefuseKind → BitVec 4
  | .illegalOp => 1
  | .faulted => 2
  | .busy => 3
  | .notOpen => 4
  | .alreadyOpen => 5
  | .emptyHistogram => 6
  | .emptyAlphabet => 7
  | .badProbability => 8
  | .badSymbol => 9
  | .noTree => 10
  | .noCode => 11

/-- `if st.err = 0: st.err <- code(E) ; st.info <- info` (R222): the first fault since reset is kept. -/
def Status.recordFault (st : Status) (e : FaultKind) (info : Int × Int) : Status :=
  if st.err = 0 then { st with err := e.code, info := info } else st

/-- `if st.ref = 0: st.ref <- code(reason)` (R222): the first refusal since reset is kept. -/
def Status.recordRefusal (st : Status) (r : RefuseKind) : Status :=
  if st.ref = 0 then { st with ref := r.code } else st

/-- The recording half of the abort procedure (R222). -/
def Status.record (st : Status) : Cause → Status
  | .fault e info => st.recordFault e info
  | .refuse r => st.recordRefusal r

/-- `st.dec <- d` (R39). -/
def setDec (d : DecStatus) (s : State) : State := s.withSt { s.st with dec := d }

/-- The code of a value of `st.dec` (R39). -/
def DecStatus.code : DecStatus → BitVec 2
  | .none => 0
  | .complete => 1
  | .short => 2
  | .noImage => 3

end Sys2Proof.Machine
end

