-- ==== Sys2Proof/Machine/Memory.lean ====
section
/-! DEFINITION. Sparse data in one canonical form (10_state.md R33, R41; 20_memory.md R50, R54): a list of key and value
pairs, keys strictly rising, so that equal maps are equal lists. Image memory and the decode table are such lists.
A location of image memory that is not listed holds no value: reading it is a draw (R41). -/

namespace Sys2Proof.Machine

/-- The order of image locations: by row, then column, then channel. -/
def locLt (a b : Loc) : Bool := decide (a.r < b.r ∨ a.r = b.r ∧ (a.c < b.c ∨ a.c = b.c ∧ a.k < b.k))

/-- The order of codewords as keys: lexicographic, `0` before `1`, a shorter sequence before its extensions. -/
def bitsLt : Bits → Bits → Bool
  | [], [] => false
  | [], _ :: _ => true
  | _ :: _, [] => false
  | a :: as, b :: bs => if a = b then bitsLt as bs else !a && b

/-- The value at a key, if it is listed. -/
def Table.get {κ ν : Type} [DecidableEq κ] (m : List (κ × ν)) (k : κ) : Option ν :=
  match m with
  | [] => none
  | (k', v) :: rest => if k' = k then some v else Table.get rest k

/-- Set a key, keeping the keys rising: the value of a key that is listed is replaced. -/
def Table.put {κ ν : Type} [DecidableEq κ] (lt : κ → κ → Bool) (k : κ) (v : ν) (m : List (κ × ν)) : List (κ × ν) :=
  match m with
  | [] => [(k, v)]
  | (k', v') :: rest =>
    if k = k' then (k, v) :: rest
    else if lt k k' then (k, v) :: (k', v') :: rest
    else (k', v') :: Table.put lt k v rest

/-- Take every key out that `drop` names. -/
def Table.remove {κ ν : Type} (drop : κ → Bool) (m : List (κ × ν)) : List (κ × ν) := m.filter (fun e => !drop e.1)

/-- The canonical form: every key before all the keys after it. -/
def Table.sorted {κ ν : Type} (lt : κ → κ → Bool) (m : List (κ × ν)) : Bool :=
  match m with
  | [] => true
  | e :: rest => rest.all (fun e' => lt e.1 e'.1) && Table.sorted lt rest

/-- The Sample a location of image memory holds, if it holds one (R41). -/
def Memory.read (m : List (Loc × Sample)) (l : Loc) : Option Sample := Table.get m l

/-- `img[r][c][k] <- v` (R54). -/
def Memory.write (m : List (Loc × Sample)) (l : Loc) (v : Sample) : List (Loc × Sample) := Table.put locLt l v m

/-- The flat index of a location in an image of width `w` (R55). -/
def flatIndex (w : Nat) (l : Loc) : Nat := (l.r * w + l.c) * 3 + l.k

/-- The location of flat index `i` in an image of width `w` (R55). -/
def flatLoc (w i : Nat) : Loc := { r := i / (3 * w), c := i / 3 % w, k := i % 3 }

/-- The location lies in the shape of an `h` by `w` image (R54). -/
def inShape (h w : Nat) (l : Loc) : Bool := decide (l.r < h) && decide (l.c < w) && decide (l.k < 3)

/-- The locations of an `h` by `w` image from flat index `i` on hold no value any more: each is a draw (R199). -/
def Memory.forgetFrom (h w i : Nat) (m : List (Loc × Sample)) : List (Loc × Sample) :=
  Table.remove (fun l => inShape h w l && decide (i ≤ flatIndex w l)) m

/-- The location holds no value any more: it is a draw (R17). -/
def Memory.forget (l : Loc) (m : List (Loc × Sample)) : List (Loc × Sample) := Table.remove (fun l' => decide (l' = l)) m

/-- `f` of two Samples; no value where one of the two is none: a value computed from a draw is a draw too (R163,
93_implementation_defined.md section 1). -/
def ofBoth (f : Sample → Sample → Sample) : Option Sample → Option Sample → Option Sample
  | some x, some y => some (f x y)
  | _, _ => none

/-- `f` of the Samples at `a` and at `b`, stored at `l`; `l` holds no value where `a` or `b` holds none. -/
def Memory.combine (f : Sample → Sample → Sample) (a b l : Loc) (m : List (Loc × Sample)) : List (Loc × Sample) :=
  match ofBoth f (Memory.read m a) (Memory.read m b) with
  | some v => Memory.write m l v
  | none => Memory.forget l m

/-- Image memory is in the canonical form. -/
def Memory.wf (m : List (Loc × Sample)) : Bool := Table.sorted locLt m

end Sys2Proof.Machine
end

