-- ==== Sys2Proof/Machine/Ops.lean ====
section
/-! DEFINITION. The shared operations: how an operation ends (00_scope.md R16), how pseudocode goes on from line to line
(R15), the four memory primitives (20_memory.md R54 to R57), the abort procedure, which is what taking an exception is in
this block (60_exceptions.md R222), and the gate every operation passes first (R226). There is no return from an
exception (R224): the way on is `SYS.RESET`. -/

namespace Sys2Proof.Machine

/-- What a step answers. -/
abbrev Answer := Host.Outcome State Fault Refusal

/-- How a piece of pseudocode ends (R15, R16): it goes on with a value, or it stops for a cause; in either case in the
state its lines so far have made (R221). -/
inductive Ending (α : Type) where
  | ok (a : α) (s : State)
  | stop (c : Cause) (s : State)

/-- A piece of pseudocode: from the state before it, how it ends. -/
abbrev Op (α : Type) := State → Ending α

/-- A value, with no effect. -/
def give {α : Type} (a : α) : Op α := fun s => .ok a s

/-- An assignment. -/
def assign (f : State → State) : Op Unit := fun s => .ok () (f s)

/-- `raise E(info)` (R15). -/
def raise {α : Type} (e : FaultKind) (info : Int × Int) : Op α := fun s => .stop (.fault e info) s

/-- `refuse Reason` (R15). -/
def refuse {α : Type} (r : RefuseKind) : Op α := fun s => .stop (.refuse r) s

/-- One line, then the rest with its value: a stop of the first ends the whole (R15, R172). -/
def Op.andThen {α β : Type} (m : Op α) (f : α → Op β) : Op β := fun s =>
  match m s with
  | .ok a t => f a t
  | .stop c t => .stop c t

/-- One line, then the rest. -/
def Op.next {α β : Type} (m : Op α) (rest : Op β) : Op β := m.andThen fun _ => rest

/-- `for x in l` (R15). -/
def forEach {α : Type} : List α → (α → Op Unit) → Op Unit
  | [], _ => give ()
  | x :: rest, body => (body x).next (forEach rest body)

/-- `for i in start .. start + n − 1`. -/
def forUp : Nat → Nat → (Nat → Op Unit) → Op Unit
  | _, 0, _ => give ()
  | start, n + 1, body => (body start).next (forUp (start + 1) n body)

/-- `for i in n down to 1`. -/
def forDown : Nat → (Nat → Op Unit) → Op Unit
  | 0, _ => give ()
  | n + 1, body => (body (n + 1)).next (forDown n body)

/-! The memory primitives. -/

/-- The environment has answered one access: the next one has the next answer. -/
def tickIo (s : State) : State := s.withIoFail s.ioFail.tail

/-- The environment fails the next access (R56, R57, R215). -/
def ioFailsNow (s : State) : Bool := s.ioFail.headD false

/-- `SinkAppend(B)` (R56). A failing access appends nothing (R215). -/
def sinkAppend (b : Byte) : Op Unit := fun s =>
  if ioFailsNow s then .stop (.fault .ioFailure (0, 0)) (tickIo s)
  else .ok () ((tickIo s).withSink (s.sink ++ [b]))

/-- `SrcNext()` (R43, R57): the next byte, or none at the end of the data. A failing access consumes nothing (R215). -/
def srcNext : Op (Option Byte) := fun s =>
  if ioFailsNow s then .stop (.fault .ioFailure (1, 0)) (tickIo s)
  else
    match s.src.bytes[s.src.pos]? with
    | some b => .ok (some b) ((tickIo s).withSrc { s.src with pos := s.src.pos + 1 })
    | none => .ok none (tickIo s)

/-- `ImgRead(r, c, k)` (R54). A location that holds no value yields a draw (R41): the next free value. -/
def imgRead (l : Loc) : Op Sample := fun s =>
  match Memory.read s.img l with
  | some v => .ok v s
  | none => .ok (Config.freeSample s.draws) (s.withDraws (s.draws + 1))

/-- `ImgWrite(r, c, k, v)` (R54). -/
def imgWrite (l : Loc) (v : Sample) : Op Unit := assign fun s => s.withImg (Memory.write s.img l v)

/-- `ImgWrite` at `l` of `f` of what `ImgRead` gives at `a` and at `b` (R161, R163). -/
def imgCombine (f : Sample → Sample → Sample) (a b l : Loc) : Op Unit :=
  assign fun s => s.withImg (Memory.combine f a b l s.img)

/-- The samples of flat index `start` to `start + n − 1` of an image of width `w`, read in flat order (R55). -/
def readFlat (w : Nat) : Nat → Nat → Op (List Sample)
  | _, 0 => give []
  | start, n + 1 => (imgRead (flatLoc w start)).andThen fun x => (readFlat w (start + 1) n).andThen fun xs => give (x :: xs)

/-! Closing a stream, which the abort procedure needs. -/

/-- The writer released: nothing is in its buffer and it is not open. -/
def releaseWriter (s : State) : State := s.withBw { buf := [], isOpen := false }

/-- The byte that `BW.CLOSE` sends (R108): the bits in hand, padded with zero bits; eight bits, which a failed append has left
(R221), need no padding. -/
def BitWriter.lastByte (w : BitWriter) : Option Byte :=
  w.full <|> if w.buf = [] then none else some (byteOf (w.buf ++ zeros (8 - w.buf.length)))

/-- `BW.CLOSE` on an open writer (R108): the last byte, if there is one, is appended; the writer is released even when that
append fails. -/
def closeWriter : Op Unit := fun s =>
  match s.bw.lastByte with
  | none => .ok () (releaseWriter s)
  | some b =>
    match sinkAppend b s with
    | .ok _ t => .ok () (releaseWriter t)
    | .stop c t => .stop c (releaseWriter t)

/-- `BR.CLOSE` on an open reader (R113): unread bits are dropped and the exhausted state is forced. -/
def closeReader (s : State) : State := s.withBr { cur := [], exh := true, isOpen := false }

/-! The abort procedure (R222): taking an exception. -/

/-- The state an ending leaves, whether it went on or stopped (R225: a failure of the close inside an abort is ignored). -/
def Ending.state {α : Type} : Ending α → State
  | .ok _ s => s
  | .stop _ s => s

/-- `seq.op <- Idle ; seq.phase <- 0`. -/
def idle (s : State) : State := s.withSeq { op := .idle, phase := 0 }

/-- The cause is an `IOFailure` (R222). -/
def Cause.isIo : Cause → Bool
  | .fault .ioFailure _ => true
  | _ => false

/-- The stream of the call in progress is closed (R222): the writer of an `Encode` by the ordinary close, or released
without flushing after an `IOFailure`; the reader of a `Decode`. -/
def abortStream (c : Cause) (s : State) : State :=
  if s.seq.op = .encode ∧ s.bw.isOpen = true then
    if c.isIo then releaseWriter s else (closeWriter s).state
  else if s.seq.op = .decode ∧ s.br.isOpen = true then closeReader s
  else s

/-- The abort procedure, the last thing a failing operation does (R222): record the cause, close the stream of the call in
progress, return the sequencer to `Idle`. -/
def abort (c : Cause) (s : State) : State := idle (abortStream c (s.withSt (s.st.record c)))

/-! The sequencer and the call registers. -/

/-- `seq.phase <- p` (R37). -/
def setPhase (p : Nat) : Op Unit := assign fun s => s.withSeq { s.seq with phase := p }

/-- `seq.op <- op ; seq.phase <- 1`: a call begins (R184, R203). -/
def beginCall (op : SeqOp) : Op Unit := assign fun s => s.withSeq { op := op, phase := 1 }

/-- `cfg.P <- P` (R36). -/
def setPrediction (p : Bool) : Op Unit := assign fun s => s.withCfg { p := p }

/-! The command port. -/

/-- The outcome of the operation is returned on the command port (R44). -/
def reply (r : Reply) (s : State) : State := s.withPort { s.port with reply := some r }

/-- The reply that reports a cause (R16). -/
def Cause.reply : Cause → Reply
  | .fault e info => .fault e info
  | .refuse r => .refused r

/-- An operation ends (R16): with its result, or through the abort procedure. -/
def deliver : Ending Result → Answer
  | .ok r s => .next (reply (.ok r) s)
  | .stop c s => .next (reply c.reply (abort c s))

/-- A refusal decided before the operation begins (R92, R217, R226): it records its reason and does nothing else
(notes/assumptions/5.md). -/
def refuseAtGate (r : RefuseKind) (s : State) : Answer :=
  .next (reply (.refused r) (s.withSt (s.st.recordRefusal r)))

/-- The gate of R226, the first step of every operation but `SYS.RESET`, `SYS.STATUS`, `BW.CLOSE` and `BR.CLOSE`: while
`st.err ≠ 0` the operation is refused with `Faulted`. -/
def gate (body : State → Answer) (s : State) : Answer :=
  if s.st.err ≠ 0 then refuseAtGate .faulted s else body s

/-- An operation behind the gate. -/
def issue (body : Op Result) : State → Answer := gate fun s => deliver (body s)

end Sys2Proof.Machine
end

