-- ==== Sys2Proof/Machine/Operands.lean ====
section
/-! DEFINITION. The checks and views of operands that several operations share: the range of codable symbols (00_scope.md
R7), the biased symbol (30_encoding.md R82), the number of samples of an image (R8), the range a histogram spans (45_encoder.md
R183), and the requirement that the writer is open (60_exceptions.md R218). -/

namespace Sys2Proof.Machine

/-- `−255 ≤ x ≤ 255` (R7, R130, R175, R178). -/
def isCodable (x : Int) : Bool := decide (Config.symMin ≤ x) && decide (x ≤ Config.symMax)

/-- The number of samples of an image, `H · W · 3` (R8, R35). -/
def sampleCount (h w : Nat) : Nat := h * w * Config.channels

/-- The number of samples of the image of the current call, `dim.N` (R35). -/
def Dims.count (d : Dims) : Nat := sampleCount d.h.toNat d.w.toNat

/-- The least element of a list, 0 for the empty one. -/
def minOf : List Int → Int
  | [] => 0
  | x :: rest => rest.foldl min x

/-- The greatest element of a list, 0 for the empty one. -/
def maxOf : List Int → Int
  | [] => 0
  | x :: rest => rest.foldl max x

/-- `if bw.open = 0: refuse NotOpen` (R218). -/
def needWriter : Op Unit := fun s => if s.bw.isOpen then .ok () s else .stop (.refuse .notOpen) s

/-- The result of an operation that has none. -/
def Op.done {α : Type} (m : Op α) : Op Result := m.andThen fun _ => give .done

end Sys2Proof.Machine
end

