-- ==== Sys2Proof/Machine/Predictor.lean ====
section
/-! DEFINITION. The differential predictor (44_predictor.md R161 to R166). Samples are unbounded integers: nothing wraps. -/

namespace Sys2Proof.Machine

/-- `ImgWrite(r, c, k, ImgRead(r, c, k) − ImgRead(r, c−1, k))` (R161). -/
def differenceAt (k r c : Nat) : Op Unit :=
  imgCombine (· - ·) { r := r, c := c, k := k } { r := r, c := c - 1, k := k } { r := r, c := c, k := k }

/-- `ImgWrite(r, c, k, ImgRead(r, c−1, k) + ImgRead(r, c, k))` (R163). -/
def sumAt (k r c : Nat) : Op Unit :=
  imgCombine (· + ·) { r := r, c := c - 1, k := k } { r := r, c := c, k := k } { r := r, c := c, k := k }

/-- `DP.FWD H, W` past its gate (R161): channel by channel, row by row, from the last column down to column 1 (R162). -/
def predictForward (h w : Nat) : Op Unit :=
  forUp 0 Config.channels fun k => forUp 0 h fun r => forDown (w - 1) fun c => differenceAt k r c

/-- `DP.INV H, W` past its gate (R163): channel by channel, row by row, from column 1 to the last. -/
def predictInverse (h w : Nat) : Op Unit :=
  forUp 0 Config.channels fun k => forUp 0 h fun r => forUp 1 (w - 1) fun c => sumAt k r c

/-- `DP.FWD H, W` (R161). The ranges of its loops are empty for a negative `H` or `W`, as they are for 0
(notes/assumptions/11.md). -/
def execDpFwd (h w : Int) (s : State) : Answer := issue (predictForward h.toNat w.toNat).done s

/-- `DP.INV H, W` (R163), a negative `H` or `W` as for `DP.FWD`. -/
def execDpInv (h w : Int) (s : State) : Answer := issue (predictInverse h.toNat w.toNat).done s

end Sys2Proof.Machine
end

