-- ==== Sys2Proof/Machine/Streams.lean ====
section
/-! DEFINITION. The BitWriter and the BitReader (40_bitwriter_bitreader.md R106 to R115). -/

namespace Sys2Proof.Machine

/-- `BW.OPEN` past its gate (R106). -/
def openWriter : Op Unit := fun s =>
  if s.bw.isOpen then .stop (.refuse .alreadyOpen) s else .ok () (s.withBw { buf := [], isOpen := true })

/-- The eight bits of a completed byte go to the sink (R107). When the append fails they are still there (R221). -/
def flushByte (b : Byte) : Op Unit :=
  (assign fun s => s.withBw { s.bw with buf := [], full := some b }).next <| (sinkAppend b).next <|
    assign fun s => s.withBw { s.bw with full := none }

/-- One bit into the buffer; the byte is appended to the sink as soon as it is complete (R107). -/
def pushBit (b : Bool) : Op Unit := fun s =>
  let buf := s.bw.buf ++ [b]
  if buf.length = 8 then flushByte (byteOf buf) s else .ok () (s.withBw { s.bw with buf := buf })

/-- `BW.WRITE bits` past its gate (R107). -/
def writeBits (bits : Bits) : Op Unit := needWriter.next (forEach bits pushBit)

/-- `BR.OPEN` past its gate (R110). -/
def openReader : Op Unit := fun s =>
  if s.br.isOpen then .stop (.refuse .alreadyOpen) s
  else .ok () (setDec .none (s.withBr { cur := [], exh := false, isOpen := true }))

/-- The first unread bit is delivered (R111). -/
def takeBit : Op (Option Bool) := fun s =>
  match s.br.cur with
  | [] => .ok none s
  | b :: rest => .ok (some b) (s.withBr { s.br with cur := rest })

/-- `BR.READ_BIT` past its gate (R111): an exhausted reader gives none; an empty `br.cur` is refilled with one byte; at the
end of the data the reader becomes exhausted. -/
def readBit : Op (Option Bool) := fun s =>
  if s.br.exh then .ok none s
  else if s.br.cur = [] then
    (srcNext.andThen fun
      | some b => (assign fun t => t.withBr { t.br with cur := bitsOfByte b }).next takeBit
      | none => (assign fun t => t.withBr { t.br with exh := true }).next (give none)) s
  else takeBit s

/-- `BR.READ_BITS n` past its gate, the bits read so far in hand (R112): none when the source runs out, and the bits
already consumed are lost. -/
def readBitsFrom : Nat → Bits → Op (Option Bits)
  | 0, sofar => give (some sofar)
  | n + 1, sofar => readBit.andThen fun
    | some b => readBitsFrom n (sofar ++ [b])
    | none => give none

/-- `BR.READ_BITS n` past its gate (R112). -/
def readBits (n : Nat) : Op (Option Bits) := readBitsFrom n []

/-- The bits that a reader can still deliver, counted: a bound on every loop that reads (R57: the source is finite). -/
def bitsLeft (s : State) : Nat := s.br.cur.length + 8 * (s.src.bytes.length - s.src.pos)

/-- `BW.OPEN` (R106). -/
def execBwOpen (s : State) : Answer := issue openWriter.done s

/-- `BW.WRITE bits` (R107). -/
def execBwWrite (bits : Bits) (s : State) : Answer := issue (writeBits bits).done s

/-- `BW.CLOSE` (R108): accepted when `st.err ≠ 0` (R226). -/
def execBwClose (s : State) : Answer := deliver ((needWriter.next closeWriter).done s)

/-- `BR.OPEN` (R110). -/
def execBrOpen (s : State) : Answer := issue openReader.done s

/-- `BR.READ_BIT` (R111). -/
def execBrReadBit (s : State) : Answer := issue (readBit.andThen fun b => give (.bit b)) s

/-- `BR.READ_BITS n` (R112). -/
def execBrReadBits (n : Nat) (s : State) : Answer := issue ((readBits n).andThen fun b => give (.bits b)) s

/-- `BR.CLOSE` (R113): accepted when `st.err ≠ 0` (R226). -/
def execBrClose (s : State) : Answer :=
  deliver (if s.br.isOpen then .ok .done (closeReader s) else .stop (.refuse .notOpen) s)

end Sys2Proof.Machine
end

