-- ==== Sys2Proof/Machine/Decoder.lean ====
section
/-! DEFINITION. The variable-length Huffman decoder and the `DECODE` pipeline (46_decoder.md R191 to R209). -/

namespace Sys2Proof.Machine

/-- The effect of a `HEADER` record on the decoder (R76, R191): `dim.H` and `dim.W` are loaded. -/
def loadHeader (h w : BitVec 16) (s : State) : State := s.withDim { h := h, w := w }

/-- The effect of an `ENTRY` record on the decoder (R77, R192): `dt[cw] <- symbol`, replacing an entry for `cw` (R193). -/
def insertEntry (x : Symbol) (cw : Bits) (s : State) : State := s.withDt (Table.put bitsLt cw x s.dt)

/-- `st.dec <- NoImage ; return none` (R191, R192). -/
def noImage {α : Type} (a : α) : Op α := (assign (setDec .noImage)).next (give a)

/-- `VD.HDR` past its gate (R191). -/
def readHeader : Op (Option Dims) := (readBits 32).andThen fun
  | none => noImage none
  | some s =>
    let h := BitVec.ofNat 16 (valOf (s.take 16))
    let w := BitVec.ofNat 16 (valOf (s.drop 16))
    (assign (loadHeader h w)).next (give (some { h := h, w := w }))

/-- The loop of `VD.TABLE` (R192); true for `done`, false for `none`. The first argument bounds the rounds: each consumes at
least 14 bits of a finite source, so a bound above the bits left is never met. -/
def readEntries : Nat → Op Bool
  | 0 => noImage false
  | rounds + 1 => (readBits 9).andThen fun
    | none => noImage false
    | some sb =>
      if valOf sb = Config.sentinel then give true
      else (readBits 5).andThen fun
        | none => noImage false
        | some lb => (readBits (valOf lb)).andThen fun
          | none => noImage false
          | some cw => (assign (insertEntry ((valOf sb : Int) - Config.bias) cw)).next (readEntries rounds)

/-- `VD.TABLE` past its gate (R192). -/
def readTable : Op Bool := (assign fun s => s.withDt []).next fun s => readEntries (bitsLeft s + 1) s

/-- `vd.acc <- acc` (R34). -/
def setAcc (acc : Bits) (s : State) : State := s.withVd { s.vd with acc := acc }

/-- The loop of `VD.SYM` (R194): a match is tested after every appended bit (R195). The first argument bounds the bits read;
a bound above the bits left is never met. -/
def matchLoop : Nat → Op (Option Symbol)
  | 0 => give none
  | bits + 1 => readBit.andThen fun
    | none => give none
    | some b => fun s =>
      match Table.get s.dt (s.vd.acc ++ [b]) with
      | some x => .ok (some x) (setAcc [] s)
      | none => matchLoop bits (setAcc (s.vd.acc ++ [b]) s)

/-- `VD.SYM` past its gate (R194). -/
def readSymbol : Op (Option Symbol) := (assign (setAcc [])).next fun s => matchLoop (bitsLeft s + 1) s

/-- `vd.ndone <- n` (R34). -/
def setDone (n : Nat) (s : State) : State := s.withVd { s.vd with ndone := n }

/-- The early stop of `VD.PAYLOAD` at flat index `i` (R199): the samples from `i` on become draws. -/
def stopShort (i : Nat) (s : State) : State :=
  setDec .short (s.withImg (Memory.forgetFrom s.dim.h.toNat s.dim.w.toNat i s.img))

/-- The loop of `VD.PAYLOAD` (R196) from flat index `i` over the `n` samples left. -/
def readSamples (w : Nat) : Nat → Nat → Op Nat
  | i, 0 => (assign (setDec .complete)).next (give i)
  | i, n + 1 => readSymbol.andThen fun
    | some x => (imgWrite (flatLoc w i) x).next <| (assign (setDone (i + 1))).next (readSamples w (i + 1) n)
    | none => (assign (stopShort i)).next fun s => .ok s.vd.ndone s

/-- `VD.PAYLOAD` past its gate (R196). -/
def readPayload : Op Nat := (assign (setDone 0)).next fun s => readSamples s.dim.w.toNat 0 s.dim.count s

/-- The label `finish` of `DECODE` (R203): the reader is closed, the sequencer returns to `Idle`, and the result is read. -/
def finishDecode (gotHeader : Bool) : Op Result :=
  (assign closeReader).next <| (assign idle).next fun s =>
    .ok (.decoded (if gotHeader then some s.dim else none) s.st.dec) s

/-- Step 5 of `DECODE` (R203): `cfg.P <- P`, and the inverse predictor when `P = 1`. -/
def undoPrediction (p : Bool) : Op Unit := (setPrediction p).next fun s =>
  if p then predictInverse s.dim.h.toNat s.dim.w.toNat s else .ok () s

/-- The steps of `DECODE` after `BR.OPEN` (R203). -/
def decodeSteps (p : Bool) : Op Result :=
  (beginCall .decode).next <| readHeader.andThen fun
    | none => finishDecode false
    | some _ => (setPhase 2).next <| readTable.andThen fun
      | false => finishDecode true
      | true =>
        (setPhase 3).next <| readPayload.next <|
        (setPhase 4).next <|
        (setPhase 5).next <| (undoPrediction p).next <| finishDecode true

/-- `VD.HDR` (R191). -/
def execVdHdr (s : State) : Answer := issue (readHeader.andThen fun d => give (.dims d)) s

/-- `VD.TABLE` (R192). -/
def execVdTable (s : State) : Answer := issue (readTable.andThen fun ok => give (if ok then .done else .noTable)) s

/-- `VD.SYM` (R194). -/
def execVdSym (s : State) : Answer := issue (readSymbol.andThen fun x => give (.symbol x)) s

/-- `VD.PAYLOAD` (R196). -/
def execVdPayload (s : State) : Answer := issue (readPayload.andThen fun n => give (.count n)) s

/-- `DECODE P` (R203). A refusal of its `BR.OPEN` ends it with no abort. -/
def execDecode (p : Bool) (s : State) : Answer :=
  gate (fun s =>
    if s.seq.op ≠ .idle then refuseAtGate .busy s
    else if s.br.isOpen then refuseAtGate .alreadyOpen s
    else deliver ((openReader.next (decodeSteps p)) s)) s

end Sys2Proof.Machine
end

