-- ==== Sys2Proof/Machine/FixedWidth.lean ====
section
/-! DEFINITION. The FixedWidthCodec (41_fixedwidth.md R121 to R126). -/

namespace Sys2Proof.Machine

/-- `FW.ENC x, width` past its gate (R121): `RangeError(x, width)` when `x < 0` or `x > 2^width − 1`. -/
def fixedEncode (x : Int) (width : Nat) : Op Bits :=
  if x < 0 ∨ 2 ^ width - 1 < x.toNat then raise .rangeError (x, width) else give (bitsOf width x.toNat)

/-- `FW.ENC x, width` (R121). -/
def execFwEnc (x : Int) (width : Nat) (s : State) : Answer :=
  issue ((fixedEncode x width).andThen fun b => give (.bits (some b))) s

/-- `FW.DEC bits` (R124). -/
def execFwDec (bits : Bits) (s : State) : Answer := issue (give (.value (valOf bits))) s

end Sys2Proof.Machine
end

