-- ==== Sys2Proof/Machine/Histogram.lean ====
section
/-! DEFINITION. The histogram accumulator (42_histogram.md R129 to R134). -/

namespace Sys2Proof.Machine

/-- The index of a symbol's counter in the counter file (R27). -/
def counterIndex (x : Symbol) : Nat := (x + Config.bias).toNat

/-- `hg.count[s]` (R27); 0 for a symbol that has no counter. -/
def Histogram.counter (hg : Histogram) (x : Symbol) : Nat := if isCodable x then hg.count.getD (counterIndex x) 0 else 0

/-- `HG.CLEAR` past its gate (R129). -/
def clearHistogram : Op Unit := assign fun s => s.withHg { count := Vector.replicate 511 0, total := 0 }

/-- `hg.count[s] <- hg.count[s] + 1 ; hg.total <- hg.total + 1` (R130). -/
def Histogram.bump (hg : Histogram) (x : Symbol) : Histogram where
  count := hg.count.setIfInBounds (counterIndex x) (hg.counter x + 1)
  total := hg.total + 1

/-- `HG.ACC s` past its gate (R130). -/
def accumulate (x : Sample) : Op Unit := fun s =>
  if isCodable x then .ok () (s.withHg (s.hg.bump x))
  else .stop (.fault .sampleRangeError (x, s.hg.total)) s

/-- The symbols −255 to 255 in ascending order (R131). -/
def allSymbols : List Symbol := (List.range Config.symbolCount).map fun (i : Nat) => (i : Int) - Config.bias

/-- The counted symbols of `lo .. hi` with their probabilities `count / total`, ascending (R131, R133). -/
def Histogram.emit (hg : Histogram) (lo hi : Int) : List (Symbol × Prob) :=
  (allSymbols.filter fun x => decide (lo ≤ x) && decide (x ≤ hi) && decide (0 < hg.counter x)).map
    fun x => (x, mkRat (hg.counter x) hg.total)

/-- `HG.EMIT lo, hi` past its gate (R131). -/
def emitHistogram (lo hi : Int) : Op (List (Symbol × Prob)) := fun s =>
  if s.hg.total = 0 then .stop (.refuse .emptyHistogram) s else .ok (s.hg.emit lo hi) s

/-- `HG.BUILD samples, lo, hi` past its gate (R132). -/
def buildHistogram (samples : List Sample) (lo hi : Int) : Op (List (Symbol × Prob)) :=
  clearHistogram.next ((forEach samples accumulate).next (emitHistogram lo hi))

/-- `HG.CLEAR` (R129). -/
def execHgClear (s : State) : Answer := issue clearHistogram.done s

/-- `HG.ACC s` (R130). -/
def execHgAcc (x : Sample) (s : State) : Answer := issue (accumulate x).done s

/-- `HG.EMIT lo, hi` (R131). -/
def execHgEmit (lo hi : Int) (s : State) : Answer := issue ((emitHistogram lo hi).andThen fun ps => give (.pairs ps)) s

/-- `HG.BUILD samples, lo, hi` (R132). -/
def execHgBuild (samples : List Sample) (lo hi : Int) (s : State) : Answer :=
  issue ((buildHistogram samples lo hi).andThen fun ps => give (.pairs ps)) s

end Sys2Proof.Machine
end

