-- ==== Sys2Proof/Machine/Huffman.lean ====
section
/-! DEFINITION. The Huffman tree builder and code generator (43_huffman_tree.md R141 to R157). -/

namespace Sys2Proof.Machine

/-- The weight of a node (R29). -/
def Node.weight : Node → Prob
  | .leaf _ w => w
  | .internal w _ _ => w

/-- `ht.node[i].w`; 0 for an index outside the arena, which no rule uses. -/
def weightAt (node : List Node) (i : Nat) : Prob :=
  match node[i]? with
  | some n => n.weight
  | none => 0

/-- Insert a node index into a sorted list, before every index that is not strictly lighter: it came before them. -/
def insertByWeight (node : List Node) (i : Nat) : List Nat → List Nat
  | [] => [i]
  | j :: rest => if weightAt node j < weightAt node i then j :: insertByWeight node i rest else i :: j :: rest

/-- `stable_sort_by_w` (R145): ascending weight, equal weights in their order of before. -/
def stableSort (node : List Node) (l : List Nat) : List Nat := l.foldr (insertByWeight node) []

/-- One round of the merge loop (R144 to R148). -/
def mergeRound (t : HuffmanTree) : HuffmanTree :=
  match stableSort t.node t.set with
  | a :: b :: rest =>
    let wa := weightAt t.node a
    let wb := weightAt t.node b
    let parent := if wa < wb then Node.internal (wa + wb) a b else Node.internal (wa + wb) b a
    { t with node := t.node ++ [parent], nn := t.nn + 1, set := rest ++ [t.nn] }
  | short => { t with set := short }

/-- `while |ht.set| > 1` (R144); each round takes one index away, so as many rounds as there are indices suffice. -/
def mergeAll : Nat → HuffmanTree → HuffmanTree
  | 0, t => t
  | n + 1, t => if 1 < t.set.length then mergeAll n (mergeRound t) else t

/-- The leaves, one for each pair, in input order (R143). -/
def leavesOf (symbols : List Symbol) (probs : List Prob) : HuffmanTree where
  node := List.zipWith Node.leaf symbols probs
  nn := symbols.length
  set := List.range symbols.length
  root := none

/-- The whole building algorithm past its checks (R141): leaves, merges, root. -/
def buildTree (symbols : List Symbol) (probs : List Prob) : HuffmanTree :=
  let t := mergeAll symbols.length (leavesOf symbols probs)
  { t with root := t.set.head? }

/-- A symbol occurs twice. -/
def hasRepeat : List Symbol → Bool
  | [] => false
  | x :: rest => rest.contains x || hasRepeat rest

/-- The checks before building, in the order of R142. -/
def alphabetCause (symbols : List Symbol) (probs : List Prob) : Option Cause :=
  if symbols.length ≠ probs.length then some (.fault .lengthMismatch (symbols.length, probs.length))
  else if symbols = [] then some (.refuse .emptyAlphabet)
  else if probs.any (fun p => decide (p ≤ 0)) then some (.refuse .badProbability)
  else if symbols.any (fun x => !isCodable x) || hasRepeat symbols || decide (Config.symbolCount < symbols.length) then
    some (.refuse .badSymbol)
  else none

/-- `HT.BUILD symbols, probabilities` past its gate (R141). -/
def buildHuffman (symbols : List Symbol) (probs : List Prob) : Op Unit := fun s =>
  match alphabetCause symbols probs with
  | some c => .stop c s
  | none => .ok () (s.withHt (buildTree symbols probs))

/-- `visit(i, so far)` (R151, R152): the (symbol, codeword) pairs of the leaves below node `i`, left before right. The first
argument bounds the depth; the arena's size suffices, since a child's index is below its parent's (R29). -/
def visit (node : List Node) : Nat → Nat → Bits → List (Symbol × Bits)
  | 0, _, _ => []
  | depth + 1, i, sofar =>
    match node[i]? with
    | some (.leaf x _) => [(x, sofar)]
    | some (.internal _ l r) => visit node depth l (sofar ++ [false]) ++ visit node depth r (sofar ++ [true])
    | none => []

/-- The code table of a tree (R151): a root that is a leaf gets the one-bit codeword (R154). -/
def codesOf (t : HuffmanTree) : List (Symbol × Bits) :=
  match t.root with
  | none => []
  | some r =>
    match t.node[r]? with
    | some (.leaf x _) => [(x, Config.singleCode)]
    | _ => visit t.node t.nn r []

/-- The children of the node at index `i` come before it in the arena (R29: nodes are numbered in creation order). -/
def childrenBelow (i : Nat) : Node → Bool
  | .leaf _ _ => true
  | .internal _ l r => decide (l < i) && decide (r < i)

/-- The arena holds a tree (R29): as many nodes as `ht.nn` says, every child before its parent, the root in it, and the
leaves below the root carry distinct codable symbols (R142). -/
def HuffmanTree.isTree (t : HuffmanTree) : Bool :=
  decide (t.nn = t.node.length) &&
  (t.node.zipIdx.all fun e => childrenBelow e.2 e.1) &&
  (match t.root with | some r => decide (r < t.node.length) | none => false) &&
  !hasRepeat ((codesOf t).map (·.1)) && (codesOf t).all fun e => isCodable e.1

/-- `HT.GEN` past its gate (R151). -/
def generateCodes : Op (List (Symbol × Bits)) := fun s =>
  match s.ht.root with
  | none => .stop (.refuse .noTree) s
  | some _ => .ok (codesOf s.ht) (s.withCt { entries := codesOf s.ht })

/-- `ct.order` (R32). -/
def CodeTable.order (ct : CodeTable) : List Symbol := ct.entries.map (·.1)

/-- `ct.code[s]` (R32). -/
def CodeTable.code (ct : CodeTable) (x : Symbol) : Option Bits := Table.get ct.entries x

/-- `HT.BUILD symbols, probabilities` (R141). -/
def execHtBuild (symbols : List Symbol) (probs : List Prob) (s : State) : Answer := issue (buildHuffman symbols probs).done s

/-- `HT.GEN` (R151). On an arena that is no tree, which no run reaches, the model stops (notes/assumptions/7.md). -/
def execHtGen (s : State) : Answer :=
  gate (fun s =>
    if s.ht.root ≠ none ∧ s.ht.isTree = false then .fault .brokenTree
    else deliver ((generateCodes.andThen fun cs => give (.codes cs)) s)) s

end Sys2Proof.Machine
end

