-- ==== Sys2Proof/Machine/Encoder.lean ====
section
/-! DEFINITION. The variable-length Huffman encoder and the `ENCODE` pipeline (45_encoder.md R173 to R188). -/

namespace Sys2Proof.Machine

/-- `BW.WRITE FW.ENC(x, width)` (R172). -/
def writeField (x : Int) (width : Nat) : Op Unit := (fixedEncode x width).andThen writeBits

/-- `VE.HDR H, W` past its gate (R173): the height is written before the width is examined (R174). -/
def writeHeader (h w : Int) : Op Unit :=
  needWriter.next <| (writeField h Config.dimWidth).next <| (writeField w Config.dimWidth).next <|
    assign fun s => s.withDim { h := BitVec.ofInt 16 h, w := BitVec.ofInt 16 w }

/-- One table entry (R176): the biased symbol, the codeword's length, the codeword verbatim. -/
def writeEntry (e : Symbol × Bits) : Op Unit :=
  (writeField (e.1 + Config.bias) Config.symWidth).next <| (writeField e.2.length Config.lenWidth).next <| writeBits e.2

/-- `VE.TABLE` past its gate (R176). -/
def writeTable : Op Unit := needWriter.next fun s =>
  ((forEach s.ct.entries writeEntry).next (writeField Config.sentinel Config.symWidth)) s

/-- `VE.SYM s` past its gate (R178). -/
def writeSymbol (x : Sample) : Op Unit := needWriter.next fun s =>
  match (if isCodable x then s.ct.code x else none) with
  | none => .stop (.refuse .noCode) s
  | some cw => writeBits cw s

/-- `VE.SYM flat[i]` (R179). -/
def writeSample (w i : Nat) : Op Unit := (imgRead (flatLoc w i)).andThen writeSymbol

/-- `VE.PAYLOAD` past its gate (R179): refused on a closed writer (R218) before a sample is read. -/
def writePayload : Op Unit := needWriter.next fun s => forUp 0 s.dim.count (writeSample s.dim.w.toNat) s

/-- One sample of the range scan (R175): the first sample outside −255 .. 255 is reported with its flat index. -/
def scanSample (w i : Nat) : Op Unit := (imgRead (flatLoc w i)).andThen fun x =>
  if isCodable x then give () else raise .sampleRangeError (x, i)

/-- The sample range scan (R175). -/
def rangeScan (w n : Nat) : Op Unit := forUp 0 n (scanSample w)

/-- Step 4 of `ENCODE` (R183, R184): one histogram over the flat sequence, the tree, the code table. -/
def buildCode (w n : Nat) : Op Unit :=
  (readFlat w 0 n).andThen fun flat =>
    (buildHistogram flat (minOf flat) (maxOf flat)).andThen fun pairs =>
      (buildHuffman (pairs.map (·.1)) (pairs.map (·.2))).next (generateCodes.andThen fun _ => give ())

/-- The steps of `ENCODE` after `BW.OPEN` (R184). -/
def encodeSteps (h w : Int) (p : Bool) : Op Unit :=
  (beginCall .encode).next <| (writeHeader h w).next <|
  (setPhase 2).next <| (setPrediction p).next <|
    (if p then predictForward h.toNat w.toNat else give ()).next <|
  (setPhase 3).next <| (rangeScan w.toNat (sampleCount h.toNat w.toNat)).next <|
  (setPhase 4).next <|
    (if h * w = 0 then refuse .emptyHistogram else buildCode w.toNat (sampleCount h.toNat w.toNat)).next <|
  (setPhase 5).next <| writeTable.next <|
  (setPhase 6).next <| writePayload.next <|
  (setPhase 7).next <| closeWriter.next <|
  assign idle

/-- `VE.HDR H, W` (R173). -/
def execVeHdr (h w : Int) (s : State) : Answer := issue (writeHeader h w).done s

/-- `VE.TABLE` (R176). -/
def execVeTable (s : State) : Answer := issue writeTable.done s

/-- `VE.SYM s` (R178). -/
def execVeSym (x : Sample) (s : State) : Answer := issue (writeSymbol x).done s

/-- `VE.PAYLOAD` (R179). -/
def execVePayload (s : State) : Answer := issue writePayload.done s

/-- `ENCODE H, W, P` (R184). A refusal of its `BW.OPEN` ends it with no abort. -/
def execEncode (h w : Int) (p : Bool) (s : State) : Answer :=
  gate (fun s =>
    if s.seq.op ≠ .idle then refuseAtGate .busy s
    else if s.bw.isOpen then refuseAtGate .alreadyOpen s
    else deliver ((openWriter.next (encodeSteps h w p)).done s)) s

end Sys2Proof.Machine
end

