-- ==== Sys2Proof/Machine/Records.lean ====
section
/-! DEFINITION. The records of the container format as instructions (30_encoding.md R75 to R80, 46_decoder.md R191 to
R198): what the decoder does with one record of the stream it reads (notes/assumptions/2.md). The decoder's operations
are sequences of these; a record handed over by itself passes the gate of R226, as an operation that reads it would. -/

namespace Sys2Proof.Machine

/-- A `HEADER` record (R76): what `VD.HDR` does with its 32 bits (R191). -/
def execHeader (h w : BitVec 16) (s : State) : Answer :=
  issue ((assign (loadHeader h w)).next (give (.dims (some { h := h, w := w })))) s

/-- An `ENTRY` record (R77): what one round of `VD.TABLE` does with it (R192). -/
def execEntry (x : Symbol) (cw : Bits) (s : State) : Answer := issue (assign (insertEntry x cw)).done s

/-- The `SENTINEL` record (R78): it ends the table; `VD.TABLE` returns `done` and changes nothing more (R192). -/
def execSentinel (s : State) : Answer := issue (give .done) s

/-- The bits of a codeword matched one by one against the decode table, from the bits held in `vd.acc` (R194, R195). -/
def matchBits : Bits → State → Option Symbol × State
  | [], s => (none, s)
  | b :: rest, s =>
    match Table.get s.dt (s.vd.acc ++ [b]) with
    | some x => (some x, setAcc [] s)
    | none => matchBits rest (setAcc (s.vd.acc ++ [b]) s)

/-- A `CODEWORD` record (R79): what `VD.SYM` does with its bits (R194). -/
def execCodeword (cw : Bits) (s : State) : Answer :=
  issue (fun s => .ok (.symbol (matchBits cw (setAcc [] s)).1) (matchBits cw (setAcc [] s)).2) s

/-- A `PAD` record (R80): padding "carries no information and the decoder does not look at" it (R59, R198). -/
def execPad (_n : Nat) (s : State) : Answer := issue (give .done) s

end Sys2Proof.Machine
end

