-- ==== Sys2Proof/Machine/System.lean ====
section
/-! DEFINITION. The housekeeping operations `SYS.RESET` and `SYS.STATUS` (60_exceptions.md R228, R229). -/

namespace Sys2Proof.Machine

/-- Every register at its reset value (R48, R235), the environment as it is; the port's reply and the number of draws made
stay too. An open stream is released without flushing. -/
def resetRegisters (s : State) : State := { State.initial s.environment with port := s.port, draws := s.draws }

/-- `SYS.RESET` (R228): accepted in every state. -/
def execSysReset (s : State) : Answer := deliver (.ok .done (resetRegisters s))

/-- The record `SYS.STATUS` returns (R229). -/
def statusRecord (s : State) : StatusRecord where
  err := s.st.err
  info := s.st.info
  ref := s.st.ref
  dec := s.st.dec
  bwOpen := s.bw.isOpen
  brOpen := s.br.isOpen
  brExh := s.br.exh
  ndone := s.vd.ndone
  h := s.dim.h
  w := s.dim.w
  op := s.seq.op
  phase := s.seq.phase

/-- `SYS.STATUS` (R229): reads only, accepted in every state. -/
def execSysStatus (s : State) : Answer := deliver (.ok (.status (statusRecord s)) s)

end Sys2Proof.Machine
end

