-- ==== Sys2Proof/Machine/Dispatch.lean ====
section
/-! DEFINITION. The meaning of every instruction: one arm for each row of spec/opcode_table.json. -/

namespace Sys2Proof.Machine

def exec (i : Instr) (s : State) : Host.Outcome State Fault Refusal :=
  match i with
  -- housekeeping (60_exceptions.md)
  | .sysReset => Sys2Proof.Machine.execSysReset s
  | .sysStatus => Sys2Proof.Machine.execSysStatus s
  -- BitWriter and BitReader (40_bitwriter_bitreader.md)
  | .bwOpen => Sys2Proof.Machine.execBwOpen s
  | .bwWrite bits => Sys2Proof.Machine.execBwWrite bits s
  | .bwClose => Sys2Proof.Machine.execBwClose s
  | .brOpen => Sys2Proof.Machine.execBrOpen s
  | .brReadBit => Sys2Proof.Machine.execBrReadBit s
  | .brReadBits n => Sys2Proof.Machine.execBrReadBits n s
  | .brClose => Sys2Proof.Machine.execBrClose s
  -- FixedWidthCodec (41_fixedwidth.md)
  | .fwEnc x width => Sys2Proof.Machine.execFwEnc x width s
  | .fwDec bits => Sys2Proof.Machine.execFwDec bits s
  -- Histogram (42_histogram.md)
  | .hgClear => Sys2Proof.Machine.execHgClear s
  | .hgAcc x => Sys2Proof.Machine.execHgAcc x s
  | .hgEmit lo hi => Sys2Proof.Machine.execHgEmit lo hi s
  | .hgBuild samples lo hi => Sys2Proof.Machine.execHgBuild samples lo hi s
  -- HuffmanTree (43_huffman_tree.md)
  | .htBuild symbols probs => Sys2Proof.Machine.execHtBuild symbols probs s
  | .htGen => Sys2Proof.Machine.execHtGen s
  -- DifferentialPredictor (44_predictor.md)
  | .dpFwd h w => Sys2Proof.Machine.execDpFwd h w s
  | .dpInv h w => Sys2Proof.Machine.execDpInv h w s
  -- variable-length encoder and ENCODE (45_encoder.md)
  | .veHdr h w => Sys2Proof.Machine.execVeHdr h w s
  | .veTable => Sys2Proof.Machine.execVeTable s
  | .veSym x => Sys2Proof.Machine.execVeSym x s
  | .vePayload => Sys2Proof.Machine.execVePayload s
  | .encode h w p => Sys2Proof.Machine.execEncode h w p s
  -- variable-length decoder and DECODE (46_decoder.md)
  | .vdHdr => Sys2Proof.Machine.execVdHdr s
  | .vdTable => Sys2Proof.Machine.execVdTable s
  | .vdSym => Sys2Proof.Machine.execVdSym s
  | .vdPayload => Sys2Proof.Machine.execVdPayload s
  | .decode p => Sys2Proof.Machine.execDecode p s
  -- the records of the container format (30_encoding.md)
  | .header height width => Sys2Proof.Machine.execHeader height width s
  | .entry sym cw => Sys2Proof.Machine.execEntry sym cw s
  | .sentinel => Sys2Proof.Machine.execSentinel s
  | .codeword cw => Sys2Proof.Machine.execCodeword cw s
  | .pad n => Sys2Proof.Machine.execPad n s

end Sys2Proof.Machine
end

