-- ==== Sys2Proof/WellFormed.lean ====
section
/-! DEFINITION. Which instructions are well formed: the operand bounds that the spec gives the encodings themselves
(R77, R79, R80). Everything an operation checks while it runs (R142, R121, …) is its meaning's, not this file's. -/

namespace Sys2Proof

/-- A symbol that has a biased value in 0 .. 510 (R7, R82). -/
def Symbol.codable (x : Symbol) : Bool := decide (Config.symMin ≤ x) && decide (x ≤ Config.symMax)

/-- The operand bounds of the encodings. A shape is any pair of integers: it is checked "by the operation, not
by the port" (R93); an `ENTRY` carries a codable symbol and at most 31 codeword bits (R77,
R87); a `CODEWORD` has 1 to 31 bits (R79); a `PAD` has 0 to 7 (R80). -/
def Instr.wf : Instr → Bool
  | .entry sym cw => Symbol.codable sym && decide (cw.length ≤ Config.lenMax)
  | .codeword cw => decide (1 ≤ cw.length) && decide (cw.length ≤ Config.lenMax)
  | .pad n => decide (n ≤ 7)
  | .sysReset | .sysStatus | .bwOpen | .bwWrite _ | .bwClose | .brOpen | .brReadBit | .brReadBits _ | .brClose
  | .fwEnc _ _ | .fwDec _ | .hgClear | .hgAcc _ | .hgEmit _ _ | .hgBuild _ _ _ | .htBuild _ _ | .htGen
  | .dpFwd _ _ | .dpInv _ _ | .veHdr _ _ | .veTable | .veSym _ | .vePayload | .encode _ _ _ | .vdHdr | .vdTable | .vdSym | .vdPayload
  | .decode _ | .header _ _ | .sentinel => true

end Sys2Proof
end

