-- ==== Sys2Proof/Decode.lean ====
section
/-! DEFINITION. The decoder, total on every request and rejecting by name, and after it the encoder, written from the
same tables of the spec: the operation codes (30_encoding.md R90 to R92) and the records of the container format (R76 to
R80, R84, R87). -/

namespace Sys2Proof

/-- Why the decoder rejects a request. -/
inductive DecodeError where
  /-- The operation code is not in the table of R91 (R92: refused with reason `IllegalOp`). -/
  | reservedOp (op : Byte)
  /-- The bits are no record of that part of the stream (R76 to R80). -/
  | notARecord (part : StreamPart)
  deriving DecidableEq, Repr

/-- An operation from its code and its operand lines (R91). The code alone selects the operation (R90, R96). -/
def decodeCommand (op : Byte) (o : Operands) : Except DecodeError Instr :=
  match op.toNat with
  | 0x00 => .ok .sysReset
  | 0x01 => .ok .sysStatus
  | 0x10 => .ok .bwOpen
  | 0x11 => .ok (.bwWrite o.bits)
  | 0x12 => .ok .bwClose
  | 0x20 => .ok .brOpen
  | 0x21 => .ok .brReadBit
  | 0x22 => .ok (.brReadBits o.n)
  | 0x23 => .ok .brClose
  | 0x30 => .ok (.fwEnc o.x o.width)
  | 0x31 => .ok (.fwDec o.bits)
  | 0x40 => .ok .hgClear
  | 0x41 => .ok (.hgAcc o.s)
  | 0x42 => .ok (.hgEmit o.lo o.hi)
  | 0x43 => .ok (.hgBuild o.samples o.lo o.hi)
  | 0x50 => .ok (.htBuild o.symbols o.probs)
  | 0x51 => .ok .htGen
  | 0x60 => .ok (.dpFwd o.h o.w)
  | 0x61 => .ok (.dpInv o.h o.w)
  | 0x70 => .ok (.veHdr o.h o.w)
  | 0x71 => .ok .veTable
  | 0x72 => .ok (.veSym o.s)
  | 0x73 => .ok .vePayload
  | 0x7F => .ok (.encode o.h o.w o.p)
  | 0x80 => .ok .vdHdr
  | 0x81 => .ok .vdTable
  | 0x82 => .ok .vdSym
  | 0x83 => .ok .vdPayload
  | 0x8F => .ok (.decode o.p)
  | _ => .error (.reservedOp op)

/-- The biased symbol of a table record: its first 9 bits (R77, R82). -/
def biasedField (bits : Bits) : Nat := Machine.valOf (bits.take 9)

/-- The code length of an `ENTRY`: its bits 9 to 13 (R77). -/
def lengthField (bits : Bits) : Nat := Machine.valOf ((bits.drop 9).take 5)

/-- One record from its bits, in the part of the stream it stands in (R76 to R80, R84). The whole of the bits must be
the record. -/
def decodeRecord (part : StreamPart) (bits : Bits) : Except DecodeError Instr :=
  match part with
  | .header =>
    if bits.length = 32 then
      .ok (.header (BitVec.ofNat 16 (Machine.valOf (bits.take 16))) (BitVec.ofNat 16 (Machine.valOf (bits.drop 16))))
    else .error (.notARecord .header)
  | .table =>
    if bits.length = 9 ∧ biasedField bits = Config.sentinel then .ok .sentinel
    else if 14 ≤ bits.length ∧ biasedField bits ≠ Config.sentinel ∧ bits.length = 14 + lengthField bits then
      .ok (.entry ((biasedField bits : Int) - Config.bias) (bits.drop 14))
    else .error (.notARecord .table)
  | .payload =>
    if 1 ≤ bits.length ∧ bits.length ≤ Config.lenMax then .ok (.codeword bits) else .error (.notARecord .payload)
  | .padding =>
    if bits.length ≤ 7 ∧ bits.all (! ·) then .ok (.pad bits.length) else .error (.notARecord .padding)

/-- The decoder. -/
def decode : Request → Except DecodeError Instr
  | .command op operands => decodeCommand op operands
  | .record part bits => decodeRecord part bits

/-- The bits of a `HEADER` record (R76). -/
def headerBits (h w : BitVec 16) : Bits := Machine.bitsOf 16 h.toNat ++ Machine.bitsOf 16 w.toNat

/-- The bits of an `ENTRY` record (R77): the biased symbol, the length, the codeword verbatim (R83). -/
def entryBits (sym : Symbol) (cw : Bits) : Bits :=
  Machine.bitsOf 9 (sym + Config.bias).toNat ++ Machine.bitsOf 5 cw.length ++ cw

/-- The bits of the `SENTINEL` record (R78). -/
def sentinelBits : Bits := Machine.bitsOf 9 Config.sentinel

/-- The encoder: the code of R91 with the operands on their own lines, or the bits of the record (R76 to R80). -/
def encode : Instr → Request
  | .sysReset => .command 0x00 {}
  | .sysStatus => .command 0x01 {}
  | .bwOpen => .command 0x10 {}
  | .bwWrite bits => .command 0x11 { bits := bits }
  | .bwClose => .command 0x12 {}
  | .brOpen => .command 0x20 {}
  | .brReadBit => .command 0x21 {}
  | .brReadBits n => .command 0x22 { n := n }
  | .brClose => .command 0x23 {}
  | .fwEnc x width => .command 0x30 { x := x, width := width }
  | .fwDec bits => .command 0x31 { bits := bits }
  | .hgClear => .command 0x40 {}
  | .hgAcc x => .command 0x41 { s := x }
  | .hgEmit lo hi => .command 0x42 { lo := lo, hi := hi }
  | .hgBuild samples lo hi => .command 0x43 { samples := samples, lo := lo, hi := hi }
  | .htBuild symbols probs => .command 0x50 { symbols := symbols, probs := probs }
  | .htGen => .command 0x51 {}
  | .dpFwd h w => .command 0x60 { h := h, w := w }
  | .dpInv h w => .command 0x61 { h := h, w := w }
  | .veHdr h w => .command 0x70 { h := h, w := w }
  | .veTable => .command 0x71 {}
  | .veSym x => .command 0x72 { s := x }
  | .vePayload => .command 0x73 {}
  | .encode h w p => .command 0x7F { h := h, w := w, p := p }
  | .vdHdr => .command 0x80 {}
  | .vdTable => .command 0x81 {}
  | .vdSym => .command 0x82 {}
  | .vdPayload => .command 0x83 {}
  | .decode p => .command 0x8F { p := p }
  | .header h w => .record .header (headerBits h w)
  | .entry sym cw => .record .table (entryBits sym cw)
  | .sentinel => .record .table sentinelBits
  | .codeword cw => .record .payload cw
  | .pad n => .record .padding (Machine.zeros n)

/-- The bytes of a table word: its least significant byte is the first byte. -/
def tableBytes : Nat → Nat → List Byte
  | 0, _ => []
  | n + 1, w => BitVec.ofNat 8 w :: tableBytes n (w / 256)

/-- The bits of a table word of `nbits` bits, byte by byte, bit 7 of each byte first (R51). -/
def tableBits (nbits w : Nat) : Bits := (tableBytes ((nbits + 7) / 8) w).flatMap Machine.bitsOfByte

/-- Exactly one table record out of a word that may be shorter or longer than it: nine bits when they spell the
sentinel, else 14 bits and the codeword bits the length field asks for, zeros where the word has none. -/
def tableRecordOf (bits : Bits) : Bits :=
  if biasedField bits = Config.sentinel then bits.take 9
  else (bits ++ Machine.zeros 45).take (14 + lengthField (bits ++ Machine.zeros 14))

/-- The request that a word of the opcode table stands for (notes/assumptions/2.md): 8 bits are an operation code, with
no operand line driven; 32 bits a `HEADER`; another width over 8 bits an `ENTRY` or the `SENTINEL`; fewer than 8 bits a
`PAD` when they are all zero, else a `CODEWORD`. -/
def requestOfTableWord (nbits w : Nat) : Request :=
  if nbits = 8 then .command (BitVec.ofNat 8 w) {}
  else if nbits = 32 then .record .header (tableBits 32 w)
  else if 8 < nbits then .record .table (tableRecordOf (tableBits nbits w))
  else if w = 0 then .record .padding (Machine.zeros nbits)
  else .record .payload (Machine.bitsOf nbits w)

/-- The instruction the decoder reads from a word numbered as spec/opcode_table.json numbers it. -/
def decodeTableWord (nbits w : Nat) : Option Instr :=
  match decode (requestOfTableWord nbits w) with
  | .ok i => some i
  | .error _ => none

end Sys2Proof
end

