-- ==== Sys2Proof/Machine/Fetch.lean ====
section
/-! DEFINITION. What a step does before and instead of an instruction: taking the next request from the command port
(10_state.md R44, 70_reset_and_hazards.md R236), and a request the decoder rejects (30_encoding.md R92). -/

namespace Sys2Proof.Machine

/-- The next request, and the state in which the port has offered it; none when the host offers nothing (R236). -/
def nextRequest (s : State) : Option (Request × State) :=
  match s.port.pending with
  | [] => none
  | r :: rest => some (r, s.withPort { s.port with pending := rest })

/-- A rejected request: a reserved operation code is refused with `IllegalOp` (R92, R218), before anything else is looked at
(R220); bits that are no record stop the model. -/
def rejectRequest (e : DecodeError) (s : State) : Answer :=
  match e with
  | .reservedOp _ => refuseAtGate .illegalOp s
  | .notARecord _ => .refused .notARecord

/-- The state with a request placed where the next step takes it. -/
def offer (r : Request) (s : State) : State := s.withPort { s.port with pending := r :: s.port.pending }

end Sys2Proof.Machine
end

