-- ==== Sys2Proof/Machine/Step.lean ====
section
/-! DEFINITION. One step of the block: the operation the command port offers is decoded and runs to its end (00_scope.md
R10, R16, 10_state.md R44). With nothing offered the block waits (70_reset_and_hazards.md R236). -/

namespace Sys2Proof.Machine

def step (s : State) : Host.Outcome State Fault Refusal :=
  match nextRequest s with
  | none => .next s
  | some (r, t) =>
    match decode r with
    | .ok i => exec i t
    | .error e => rejectRequest e t

/-- `s` with an instruction of the opcode table offered as the port's next request. -/
def State.withFetchWord (s : State) (nbits w : Nat) : State := offer (requestOfTableWord nbits w) s

end Sys2Proof.Machine
end

