-- ==== Sys2Proof/Safety.lean ====
section
/-! DEFINITION. The terms in which claims about the block are stated: when the environment is reliable, what a sequence of
bits is as bytes, which bits a reader can still deliver, which images are defined, what a stream of the container format
is, and the invariant every step keeps. None of it is used by the machine. -/

namespace Sys2Proof.Machine

/-! Runs. -/

/-- Instructions one after the other, stopping at the first that is not answered by a next state. -/
def runAll : List Instr → State → Answer
  | [], s => .next s
  | i :: rest, s =>
    match exec i s with
    | .next t => runAll rest t
    | .fault f => .fault f
    | .refused r => .refused r

/-- The outcome of the last operation, as the port reports it. -/
abbrev State.says (s : State) (r : Reply) : Prop := s.port.reply = some r

/-- No fault since reset (R39): the gate of R226 is open. -/
abbrev State.unfaulted (s : State) : Prop := s.st.err = 0

/-- `IOReliable` for this run: the environment fails no access (R9, R56, R57). -/
abbrev State.reliable (s : State) : Prop := s.ioFail.all (! ·) = true

/-- The instruction is one of the four that R226 lets pass while `st.err ≠ 0`. -/
def ungated : Instr → Bool
  | .sysReset | .sysStatus | .bwClose | .brClose => true
  | _ => false

/-- No call is in progress: the sequencer stands as it does between operations (R44). -/
abbrev State.idleNow (s : State) : Prop := s.seq = { op := .idle, phase := 0 }

/-- The instruction is one of the five records of the stream, not an operation of the command port (R75, R91). -/
def isRecord : Instr → Bool
  | .header _ _ | .entry _ _ | .sentinel | .codeword _ | .pad _ => true
  | _ => false

/-- The block takes an operation and is between operations: no fault is recorded and no call is in progress. -/
abbrev State.ready (s : State) : Prop := s.unfaulted ∧ s.idleNow

/-- The writer is open with at most seven bits waiting (R21) and no byte that a failed append left, and the environment fails
no access. -/
abbrev State.canWrite (s : State) : Prop :=
  s.bw.isOpen = true ∧ s.bw.buf.length ≤ 7 ∧ s.reliable ∧ s.bw.full = none

/-- The reader is not exhausted, and the environment fails no access. -/
abbrev State.canRead (s : State) : Prop := s.br.exh = false ∧ s.reliable

/-- The environment answers the next `j` accesses and fails the one after them (R215). -/
abbrev State.failsAfter (s : State) (j : Nat) (rest : List Bool) : Prop := s.ioFail = List.replicate j false ++ true :: rest

/-- A closed reader (R113). -/
def closedReader : BitReader := { cur := [], exh := true, isOpen := false }

/-- A closed writer (R108). -/
def closedWriter : BitWriter := { buf := [], isOpen := false }

/-- A dimension that fits the 16-bit fields of the header (R7, R174). -/
abbrev fits16 (x : Int) : Prop := 0 ≤ x ∧ x ≤ 65535

/-- The codes of the operations (R91). -/
def operationCodes : List Nat :=
  [0x00, 0x01, 0x10, 0x11, 0x12, 0x20, 0x21, 0x22, 0x23, 0x30, 0x31, 0x40, 0x41, 0x42, 0x43, 0x50, 0x51, 0x60, 0x61,
    0x70, 0x71, 0x72, 0x73, 0x7F, 0x80, 0x81, 0x82, 0x83, 0x8F]

/-- The codes of the faults in `st.err`, as R211 numbers them. -/
def faultNumber : FaultKind → BitVec 3
  | .rangeError => 1 | .sampleRangeError => 2 | .lengthMismatch => 3 | .ioFailure => 4

/-- The codes of the refusal reasons in `st.ref`, as R218 numbers them. -/
def refusalNumber : RefuseKind → BitVec 4
  | .illegalOp => 1 | .faulted => 2 | .busy => 3 | .notOpen => 4 | .alreadyOpen => 5 | .emptyHistogram => 6
  | .emptyAlphabet => 7 | .badProbability => 8 | .badSymbol => 9 | .noTree => 10 | .noCode => 11

/-- The port reports an outcome. -/
def State.replied (s : State) (r : Reply) : State := { s with port := { s.port with reply := some r } }

/-- An operation ended well: its result is on the port (R16). -/
def State.finished (s : State) (r : Result) : State := s.replied (.ok r)

/-- What a fault leaves when none was recorded before and no call is in progress (R222). -/
def State.faultedBy (s : State) (e : FaultKind) (info : Int × Int) : State :=
  { s with
    st := { s.st with err := faultNumber e, info := info }
    port := { s.port with reply := some (.fault e info) } }

/-- What a refusal leaves when no call is in progress (R217): the first refusal since reset is kept. -/
def State.refusedBy (s : State) (r : RefuseKind) : State :=
  { s with
    st := { s.st with ref := if s.st.ref = 0 then refusalNumber r else s.st.ref }
    port := { s.port with reply := some (.refused r) } }

/-! What an instruction may write (R50, and the "written by" of R21 to R39). -/

/-- The parts of the state, but for the recorded outcome (`st.err`, `st.info`, `st.ref`, the port's reply). -/
inductive Part where
  | bw | br | hg | ht | ct | dt | vd | dim | cfg | seq | dec | img | sink | src | io | draws | pending
  deriving DecidableEq, Repr

/-- A part is the same in two states. -/
def Part.same : Part → State → State → Prop
  | .bw, s, t => t.bw = s.bw
  | .br, s, t => t.br = s.br
  | .hg, s, t => t.hg = s.hg
  | .ht, s, t => t.ht = s.ht
  | .ct, s, t => t.ct = s.ct
  | .dt, s, t => t.dt = s.dt
  | .vd, s, t => t.vd = s.vd
  | .dim, s, t => t.dim = s.dim
  | .cfg, s, t => t.cfg = s.cfg
  | .seq, s, t => t.seq = s.seq
  | .dec, s, t => t.st.dec = s.st.dec
  | .img, s, t => t.img = s.img
  | .sink, s, t => t.sink = s.sink
  | .src, s, t => t.src = s.src
  | .io, s, t => t.ioFail = s.ioFail
  | .draws, s, t => t.draws = s.draws
  | .pending, s, t => t.port.pending = s.port.pending

/-- The parts the spec's rule for an instruction writes, or advances by reaching the environment. No instruction writes the
sequencer, which is idle again when its outcome is returned (R44), or the requests still pending. -/
def touches : Instr → List Part
  | .sysReset => [.bw, .br, .hg, .ht, .ct, .dt, .vd, .dim, .cfg, .dec]
  | .sysStatus => []
  | .bwOpen => [.bw]
  | .bwWrite _ | .bwClose | .veTable | .veSym _ => [.bw, .sink, .io]
  | .brOpen => [.br, .dec]
  | .brReadBit | .brReadBits _ => [.br, .src, .io]
  | .brClose => [.br]
  | .fwEnc _ _ | .fwDec _ | .hgEmit _ _ | .sentinel | .pad _ => []
  | .hgClear | .hgAcc _ | .hgBuild _ _ _ => [.hg]
  | .htBuild _ _ => [.ht]
  | .htGen => [.ct]
  | .dpFwd _ _ | .dpInv _ _ => [.img]
  | .veHdr _ _ => [.bw, .sink, .io, .dim]
  | .vePayload => [.bw, .sink, .io, .draws]
  | .encode _ _ _ => [.bw, .sink, .io, .dim, .cfg, .img, .draws, .hg, .ht, .ct]
  | .vdHdr => [.br, .src, .io, .dim, .dec]
  | .vdTable => [.br, .src, .io, .dt, .dec]
  | .vdSym => [.br, .src, .io, .vd]
  | .vdPayload => [.br, .src, .io, .vd, .img, .dec]
  | .decode _ => [.br, .src, .io, .dim, .dt, .vd, .img, .cfg, .dec]
  | .header _ _ => [.dim]
  | .entry _ _ => [.dt]
  | .codeword _ => [.vd]

/-! Bits as bytes (R51, R59, R69, R109). -/

/-- The whole bytes of a bit sequence, eight bits at a time from the first. -/
def packBytes : Bits → List Byte
  | b0 :: b1 :: b2 :: b3 :: b4 :: b5 :: b6 :: b7 :: rest => byteOf [b0, b1, b2, b3, b4, b5, b6, b7] :: packBytes rest
  | _ => []

/-- The bits after the last whole byte. -/
def leftover : Bits → Bits
  | _ :: _ :: _ :: _ :: _ :: _ :: _ :: _ :: rest => leftover rest
  | short => short

/-- The bits with zero bits to the next byte boundary (R59). -/
def padded (bits : Bits) : Bits := bits ++ zeros ((8 - bits.length % 8) % 8)

/-- The state after `bits` went through an open writer whose sink is reliable (R69). -/
def afterWrite (bits : Bits) (s : State) : State :=
  let all := s.bw.buf ++ bits
  { s with
    sink := s.sink ++ packBytes all
    bw := { s.bw with buf := leftover all }
    ioFail := s.ioFail.drop (packBytes all).length }

/-- The bits a reader can still deliver, in order (R70, R114). -/
def unread (s : State) : Bits := s.br.cur ++ (s.src.bytes.drop s.src.pos).flatMap bitsOfByte

/-- How many whole bytes a reader fetches to deliver its next `n` bits (R70). -/
def fetches (n : Nat) (s : State) : Nat := (n - s.br.cur.length + 7) / 8

/-- The state after a reader that is not exhausted delivered its next `n` bits, the source being reliable. -/
def afterRead (n : Nat) (s : State) : State :=
  { s with
    br := { s.br with cur := (s.br.cur ++ ((s.src.bytes.drop s.src.pos).take (fetches n s)).flatMap bitsOfByte).drop n }
    src := { s.src with pos := s.src.pos + fetches n s }
    ioFail := s.ioFail.drop (fetches n s) }

/-- The state after a reader ran out (R111): every byte is consumed, the answer `end` took one access more, and the
reader is exhausted. -/
def afterExhaustion (s : State) : State :=
  { s with
    br := { s.br with cur := [], exh := true }
    src := { s.src with pos := max s.src.pos s.src.bytes.length }
    ioFail := s.ioFail.drop (s.src.bytes.length - s.src.pos + 1) }

/-- Every byte of the source from its position on, as bits. -/
def sourceBits (s : State) : Bits := (s.src.bytes.drop s.src.pos).flatMap bitsOfByte

/-! The decoder's table and codewords (R192 to R195). -/

/-- The symbol of the LAST entry for a codeword: a later entry replaces an earlier one (R193). -/
def lastFor (es : List (Symbol × Bits)) (cw : Bits) : Option Symbol := (es.reverse.find? fun e => e.2 == cw).map (·.1)

/-- The entries a stream can carry (R77). -/
def carriable (es : List (Symbol × Bits)) : Bool := es.all fun e => isCodable e.1 && decide (e.2.length ≤ 31)

/-- The bits of a table (R63): the entries, then the sentinel. -/
def tableOf (es : List (Symbol × Bits)) : Bits := es.flatMap (fun e => entryBits e.1 e.2) ++ sentinelBits

/-- The first `k` of the bits are the shortest key of the decode table among their beginnings, for the symbol `x` (R195). -/
def ShortestKey (d : Bits → Option Symbol) (u : Bits) (k : Nat) (x : Symbol) : Prop :=
  0 < k ∧ k ≤ u.length ∧ d (u.take k) = some x ∧ ∀ j, 0 < j → j < k → d (u.take j) = none

/-- No beginning of the bits is a key of the decode table. -/
def NoKey (d : Bits → Option Symbol) (u : Bits) : Prop := ∀ j, 0 < j → j ≤ u.length → d (u.take j) = none

/-- The bits begin with codewords of the symbols, one after the other, `n` bits in all (R85). -/
def Spells (d : Bits → Option Symbol) : List Symbol → Bits → Nat → Prop
  | [], _, n => n = 0
  | x :: xs, u, n => ∃ k, ShortestKey d u k x ∧ k ≤ n ∧ Spells d xs (u.drop k) (n - k)

/-- The node a codeword leads to from a node of the arena: left on 0, right on 1 (R152). -/
def walk (node : List Node) : Nat → Bits → Option Nat
  | i, [] => some i
  | i, b :: rest =>
    match node[i]? with
    | some (.internal _ l r) => walk node (if b then r else l) rest
    | _ => none

/-- The operands `HT.BUILD` accepts (R142). -/
abbrev validAlphabet (xs : List Symbol) (ps : List Prob) : Prop :=
  xs.length = ps.length ∧ xs ≠ [] ∧ (∀ p ∈ ps, 0 < p) ∧ (∀ x ∈ xs, -255 ≤ x ∧ x ≤ 255) ∧ xs.Nodup ∧ xs.length ≤ 511

/-- Node `j` is a child of node `k` (R29). -/
def isChild (node : List Node) (k j : Nat) : Prop := ∃ w l r, node[k]? = some (.internal w l r) ∧ (j = l ∨ j = r)

/-- Node `a` stands before node `b` in the order of a round: it is lighter, or as heavy and older (R145, R148). -/
def standsBefore (node : List Node) (a b : Nat) : Prop :=
  weightAt node a < weightAt node b ∨ weightAt node a = weightAt node b ∧ a < b

/-! Images (R41, R55, R161, R163). -/

/-- Every location of an `h` by `w` image holds a Sample. -/
abbrev imageDefined (h w : Nat) (m : List (Loc × Sample)) : Prop :=
  ∀ r, r < h → ∀ c, c < w → ∀ k, k < 3 → (Memory.read m { r := r, c := c, k := k }).isSome = true

/-- The Sample at a location that holds one. -/
def sampleAt (m : List (Loc × Sample)) (l : Loc) : Sample := (Memory.read m l).getD 0

/-- The value coded for a location (R161, R181): with prediction, the difference from the left neighbour, the anchor as it
is; without, the Sample. -/
def codedAt (p : Bool) (m : List (Loc × Sample)) (l : Loc) : Sample :=
  if p = true ∧ 0 < l.c then sampleAt m l - sampleAt m { l with c := l.c - 1 } else sampleAt m l

/-- The flat sequence of coded values of an `h` by `w` image (R55, R182). -/
def codedFlat (p : Bool) (h w : Nat) (m : List (Loc × Sample)) : List Sample :=
  (List.range (sampleCount h w)).map fun i => codedAt p m (flatLoc w i)

/-- What the predictor makes of a location (R161): the difference from the left neighbour, the anchor as it is; no value
where one of the two holds none. -/
def residualAt (m : List (Loc × Sample)) (l : Loc) : Option Sample :=
  if l.c = 0 then Memory.read m l
  else ofBoth (· - ·) (Memory.read m l) (Memory.read m { l with c := l.c - 1 })

/-- The sum of the Samples of row `r` and channel `k` from column 0 to column `c` (R163); no value where one of them holds
none. -/
def rowSum (m : List (Loc × Sample)) (r k : Nat) : Nat → Option Sample
  | 0 => Memory.read m { r := r, c := 0, k := k }
  | c + 1 => ofBoth (· + ·) (rowSum m r k c) (Memory.read m { r := r, c := c + 1, k := k })

/-- The image holds the samples of a flat sequence in the shape of width `w`, and elsewhere what it held before (R196,
R197). -/
def HoldsFlat (w : Nat) (xs : List Sample) (m before : List (Loc × Sample)) (h : Nat) : Prop :=
  ∀ l, Memory.read m l = if inShape h w l then xs[flatIndex w l]? else Memory.read before l

/-- The sum of a flat sequence along row `r` and channel `k` up to column `c` (R163, R203). -/
def flatRowSum (w : Nat) (xs : List Sample) (r k c : Nat) : Sample :=
  ((List.range (c + 1)).map fun j => xs.getD (flatIndex w { r := r, c := j, k := k }) 0).sum

/-! The code of a sequence of samples (R131, R141, R151, R183). -/

/-- The occurring symbols in ascending order, each with the fraction of the samples it is (R131, R133). -/
def empirical (flat : List Sample) : List (Symbol × Prob) :=
  (allSymbols.filter fun x => flat.contains x).map fun x => (x, mkRat (flat.count x) flat.length)

/-- The code table of the block for a sequence of samples (R183). -/
def codeFor (flat : List Sample) : List (Symbol × Bits) :=
  codesOf (buildTree ((empirical flat).map (·.1)) ((empirical flat).map (·.2)))

/-- The codeword of a symbol in a code table, empty when it has none. -/
def codewordIn (codes : List (Symbol × Bits)) (x : Symbol) : Bits := (Table.get codes x).getD []

/-- The bits of a container stream before its padding (R63): header, entries, sentinel, payload. -/
def streamBits (h w : BitVec 16) (codes : List (Symbol × Bits)) (flat : List Sample) : Bits :=
  headerBits h w ++ codes.flatMap (fun e => entryBits e.1 e.2) ++ sentinelBits ++ flat.flatMap (codewordIn codes)

/-- No codeword of the table is a beginning of another entry's codeword (R32, R155). -/
def beginsNoOther : List (Symbol × Bits) → Bool
  | [] => true
  | e :: rest => (rest.all fun e' => !(e.2.isPrefixOf e'.2) && !(e'.2.isPrefixOf e.2)) && beginsNoOther rest

/-- The code table is one `HT.GEN` can have made (R32, R155, R156): distinct codable symbols, codewords of 1 to 510 bits,
the prefix property. -/
def CodeTable.wf (ct : CodeTable) : Bool :=
  !hasRepeat ct.order && (ct.entries.all fun e => isCodable e.1 && decide (1 ≤ e.2.length) &&
    decide (e.2.length ≤ Config.maxCodeword)) && beginsNoOther ct.entries

/-! The invariant of the block: what its state keeps from one step to the next. -/

/-- Image memory and the decode table are in their canonical form, and the decode table holds what a stream can carry (R33,
R41). -/
abbrev MapsOk (s : State) : Prop :=
  Memory.wf s.img = true ∧ Table.sorted bitsLt s.dt = true ∧
    (s.dt.all fun e => decide (e.1.length ≤ Config.lenMax) && isCodable e.2) = true

/-- The stream units (R21, R23, R25, R43): at most 7 bits wait in the writer; a completed byte waits there only when a
fault was recorded, and no bit beside it (R107, R221); the reader holds at most one byte; a closed reader is exhausted; the source's position is in it. -/
abbrev StreamsOk (s : State) : Prop :=
  s.bw.buf.length ≤ 7 ∧ (s.bw.full ≠ none → s.st.err ≠ 0 ∧ s.bw.buf = []) ∧ s.br.cur.length ≤ 8 ∧
    (s.br.isOpen = false → s.br.exh = true) ∧ s.src.pos ≤ s.src.bytes.length

/-- `hg.total = Σ hg.count[s]` (R28). -/
abbrev HistogramOk (s : State) : Prop := s.hg.total = s.hg.count.toList.sum

/-- The arena holds a tree of at most 1021 nodes once one was built, and the code table is one `HT.GEN` can have made (R29,
R32). -/
abbrev TreeOk (s : State) : Prop :=
  (s.ht.root = none ∨ s.ht.isTree = true) ∧ s.ht.nn ≤ Config.maxNodes ∧ s.ct.wf = true

/-- The sequencer is idle between operations (R44), and the status registers hold codes the spec gives (R211, R218). -/
abbrev SequencerOk (s : State) : Prop :=
  s.seq = { op := .idle, phase := 0 } ∧ s.st.err.toNat ≤ 4 ∧ s.st.ref.toNat ≤ 11

/-- The whole invariant. -/
abbrev Inv (s : State) : Prop := MapsOk s ∧ StreamsOk s ∧ HistogramOk s ∧ TreeOk s ∧ SequencerOk s

end Sys2Proof.Machine
end

