-- ==== Sys2Proof/Certificates/Slice0/Obligations.lean ====
section
/-! DEFINITION. The statements about the model, each from a numbered rule of the spec. A result is stated as the next state
itself, so that what it does not name is unchanged. The terms are those of Safety.lean: `finished`, `faultedBy` and
`refusedBy` are the three outcomes of R16, and `ready` says that no fault is recorded and no call is in progress. -/

open Sys2Proof Sys2Proof.Machine

/-! Encodings and steps. -/

/-- Every well-formed instruction, at every operand value its encoding admits, is decoded from its encoding (R76 to R80,
R91). -/
def Obligations.DecodeOfEncodeIsTheInstruction : Prop := ∀ i : Instr, i.wf = true → decode (encode i) = .ok i

/-- What the decoder accepts is well formed and is the encoding of the instruction it reads: a record bit for bit, an
operation by its code (R75, R90). -/
def Obligations.DecodedRequestIsItsEncoding : Prop :=
  ∀ r i, decode r = .ok i → i.wf = true ∧
    match r with
    | .record part bits => encode i = .record part bits
    | .command op _ => ∃ o, encode i = .command op o

/-- R92, with R218 and R220: a code outside the table of R91 is refused with `IllegalOp`, whatever travels beside it and
whatever the state is, and no other code is. -/
def Obligations.ReservedCodesAreRefused : Prop :=
  (∀ op o, decode (.command op o) = .error (.reservedOp op) ↔ op.toNat ∉ operationCodes) ∧
  ∀ s op o rest, op.toNat ∉ operationCodes → s.port.pending = .command op o :: rest →
    step s = .next { s with
      st := { s.st with ref := if s.st.ref = 0 then 1 else s.st.ref }
      port := { pending := rest, reply := some (.refused .illegalOp) } }

/-- A step takes the first request the port offers; when it decodes to an instruction, the step is that instruction's
meaning in the state without the request; with nothing offered the block waits (R44, R236). That a record is a request at
all, and that bits which are no record stop the model, is the model's choice (notes/assumptions/2.md), as is the form of an
operation's operands (notes/assumptions/3.md). -/
def Obligations.StepRunsTheDecodedInstruction : Prop :=
  (∀ s r rest i, s.port.pending = r :: rest → decode r = .ok i →
    step s = exec i { s with port := { s.port with pending := rest } }) ∧
  (∀ s r rest part, s.port.pending = r :: rest → decode r = .error (.notARecord part) → step s = .refused .notARecord) ∧
  ∀ s, s.port.pending = [] → step s = .next s

/-- Words written out from the spec: operation codes of R91, the header of an image of 2 rows and 3 columns (R76), and an
entry, the sentinel, a codeword and the padding of the worked encoding R97 (R77 to R80). -/
def Obligations.SpecWordsDecode : Prop :=
  decode (.command 0x11 { bits := [true, false, true] }) = .ok (.bwWrite [true, false, true]) ∧
  decode (.command 0x30 { x := 2, width := 16 }) = .ok (.fwEnc 2 16) ∧
  decode (.command 0x7F { h := 2, w := 3, p := true }) = .ok (.encode 2 3 true) ∧
  decode (.record .header [false, false, false, false, false, false, false, false, false, false, false, false, false, false,
    true, false, false, false, false, false, false, false, false, false, false, false, false, false, false, false, true,
    true]) = .ok (.header 2 3) ∧
  decode (.record .table [true, false, false, false, false, false, false, true, false, false, false, false, true, false,
    false, false]) = .ok (.entry 3 [false, false]) ∧
  decode (.record .table [true, true, true, true, true, true, true, true, true]) = .ok .sentinel ∧
  decode (.record .payload [false, true]) = .ok (.codeword [false, true]) ∧
  decode (.record .padding [false, false, false, false, false, false]) = .ok (.pad 6)

/-! Housekeeping and outcomes. -/

/-- R48, R236 and R228: on leaving reset every register has its reset value, and image memory, the sink and the source are
what the environment holds; `SYS.RESET`, accepted in every state, gives every register that value and leaves the environment
as it is. That the requests still pending, the I/O answers and the count of draws stay too is the model's choice
(notes/assumptions/17.md). Of the port's reply and the count of draws in the initial state nothing is said. -/
def Obligations.ResetLoadsEveryRegister : Prop :=
  (∀ e, ∃ reply draws, State.initial e = {
    bw := { buf := [], isOpen := false }
    br := { cur := [], exh := true, isOpen := false }
    hg := { count := Vector.replicate 511 0, total := 0 }
    ht := { node := [], nn := 0, set := [], root := none }
    ct := { entries := [] }
    dt := []
    vd := { acc := [], ndone := 0 }
    dim := { h := 0, w := 0 }
    cfg := { p := true }
    seq := { op := .idle, phase := 0 }
    st := { err := 0, info := (0, 0), ref := 0, dec := .none }
    img := e.img
    sink := e.sink
    src := e.src
    port := { pending := e.pending, reply := reply }
    ioFail := e.ioFail
    draws := draws }) ∧
  ∀ s, exec .sysReset s = .next ({ State.initial {
    img := s.img
    sink := s.sink
    src := s.src
    pending := s.port.pending
    ioFail := s.ioFail } with draws := s.draws }.finished .done)

/-- R229: `SYS.STATUS` returns the status record and changes nothing, in every state. -/
def Obligations.StatusReadsAndChangesNothing : Prop :=
  ∀ s, exec .sysStatus s = .next (s.finished (.status {
    err := s.st.err, info := s.st.info, ref := s.st.ref, dec := s.st.dec, bwOpen := s.bw.isOpen, brOpen := s.br.isOpen,
    brExh := s.br.exh, ndone := s.vd.ndone, h := s.dim.h, w := s.dim.w, op := s.seq.op, phase := s.seq.phase }))

/-- R226: while `st.err ≠ 0` every operation but the four exceptions is refused with `Faulted` and has no effect, and the
exceptions are not; the recorded fault stays until `SYS.RESET`; a recorded refusal blocks nothing and stays. -/
def Obligations.FaultedBlockRefuses : Prop :=
  (∀ i s, isRecord i = false → s.st.err ≠ 0 → ungated i = false → exec i s = .next (s.refusedBy .faulted)) ∧
  (∀ i s t, isRecord i = false → exec i s = .next t → (t.says (.refused .faulted) ↔ s.st.err ≠ 0 ∧ ungated i = false)) ∧
  (∀ i s t, exec i s = .next t → s.st.err ≠ 0 → i ≠ .sysReset → t.st.err = s.st.err ∧ t.st.info = s.st.info) ∧
  ∀ i s t r, exec i s = .next t → i ≠ .sysStatus →
    ∃ u, exec i { s with st := { s.st with ref := r } } = .next u ∧ u.port.reply = t.port.reply ∧
      (r ≠ 0 → i ≠ .sysReset → u.st.ref = r)

/-- R39, R211, R217, R218 and R222: an operation that ends well leaves the recorded outcome alone; a fault is recorded in
`st.err` and `st.info`, a refusal in `st.ref`, each when it is the first since reset. -/
def Obligations.OutcomesAreRecorded : Prop :=
  ∀ i s t, exec i s = .next t → i ≠ .sysReset →
    match t.port.reply with
    | none => False
    | some (.ok _) => t.st.err = s.st.err ∧ t.st.info = s.st.info ∧ t.st.ref = s.st.ref
    | some (.fault e info) => t.st.ref = s.st.ref ∧
        (s.st.err = 0 → t.st.err = faultNumber e ∧ t.st.info = info) ∧
        (s.st.err ≠ 0 → t.st.err = s.st.err ∧ t.st.info = s.st.info)
    | some (.refused r) => t.st.err = s.st.err ∧ t.st.info = s.st.info ∧
        t.st.ref = if s.st.ref = 0 then refusalNumber r else s.st.ref

/-- R16: every instruction ends in a next state that reports its outcome. The one exception is `HT.GEN` on an arena that is
no tree, which no run reaches (notes/assumptions/7.md). -/
def Obligations.EveryInstructionAnswers : Prop :=
  ∀ i s, (∃ t, exec i s = .next t ∧ t.port.reply.isSome = true) ∨
    (i = .htGen ∧ s.st.err = 0 ∧ s.ht.root ≠ none ∧ s.ht.isTree = false ∧ exec i s = .fault .brokenTree)

/-- The frame of every instruction, from the "written by" of R21 to R39 and the owners of R50: between calls, the parts of
the state an instruction's rule does not write are the same after it. -/
def Obligations.InstructionsLeaveOtherPartsAlone : Prop :=
  ∀ i s t (p : Part), s.idleNow → exec i s = .next t → p ∉ touches i → p.same s t

/-- R42: every instruction only appends to the sink, and what it does and what it appends do not depend on the bytes that
are there already. -/
def Obligations.SinkGrowsAndIsNeverRead : Prop :=
  ∀ i s t, exec i s = .next t → ∃ bytes, t.sink = s.sink ++ bytes ∧
    ∀ other, exec i { s with sink := other } = .next { t with sink := other ++ bytes }

/-- R24, R43 and R57: no instruction changes the source's bytes or moves its position backwards or past its end; an
exhausted reader stays exhausted until `BR.OPEN`; between calls a reader becomes exhausted only at the end of the data, by
`BR.CLOSE` (which ends a `DECODE`), or by reset. -/
def Obligations.SourceAdvancesAndExhaustionSticks : Prop :=
  ∀ i s t, exec i s = .next t → t.src.bytes = s.src.bytes ∧ s.src.pos ≤ t.src.pos ∧
    (s.src.pos ≤ s.src.bytes.length → t.src.pos ≤ s.src.bytes.length) ∧
    (s.br.exh = true → i ≠ .brOpen → t.br.exh = true) ∧
    (s.idleNow → s.br.exh = false → t.br.exh = true →
      i = .brClose ∨ i = .sysReset ∨ (∃ p, i = .decode p) ∨ s.src.bytes.length ≤ t.src.pos)

/-- R222, R241 and the last line of R185: however a call that began ends, its stream is closed and the sequencer is
idle. -/
def Obligations.CallsReleaseTheirStreams : Prop :=
  (∀ s h w p, s.ready → s.bw.isOpen = false →
    ∃ t, exec (.encode h w p) s = .next t ∧ t.bw = closedWriter ∧ t.idleNow) ∧
  ∀ s p, s.ready → s.br.isOpen = false →
    ∃ t, exec (.decode p) s = .next t ∧ t.br = closedReader ∧ t.idleNow

/-- The first lines of R184 and R203: a call is refused with `Busy` while one is in progress, and with `AlreadyOpen` when
its stream is open; either way nothing but the refusal is recorded (notes/assumptions/5.md). -/
def Obligations.CallsAreRefusedBusyOrOpen : Prop :=
  (∀ s h w p, s.unfaulted → s.seq.op ≠ .idle → exec (.encode h w p) s = .next (s.refusedBy .busy)) ∧
  (∀ s h w p, s.unfaulted → s.seq.op = .idle → s.bw.isOpen = true →
    exec (.encode h w p) s = .next (s.refusedBy .alreadyOpen)) ∧
  (∀ s p, s.unfaulted → s.seq.op ≠ .idle → exec (.decode p) s = .next (s.refusedBy .busy)) ∧
  ∀ s p, s.unfaulted → s.seq.op = .idle → s.br.isOpen = true → exec (.decode p) s = .next (s.refusedBy .alreadyOpen)

/-- R184 (its faults), R142 and R203 (its faults): a call that began ends only as its rule says. None of the refusals of
`HT.BUILD`, `HT.GEN` or `VE.SYM` can occur inside `ENCODE` on a written image, and `DECODE` can fail only by an
`IOFailure` of the source. -/
def Obligations.CallsEndAsTheirRulesSay : Prop :=
  (∀ s (h w : Int) p, s.ready → s.bw.isOpen = false → imageDefined h.toNat w.toNat s.img →
    ∃ t, exec (.encode h w p) s = .next t ∧
      (t.says (.ok .done) ∨ (∃ x n, t.says (.fault .rangeError (x, n))) ∨
        (∃ x n, t.says (.fault .sampleRangeError (x, n))) ∨ t.says (.fault .ioFailure (0, 0)) ∨
        t.says (.refused .emptyHistogram))) ∧
  ∀ s p, s.ready → s.br.isOpen = false →
    ∃ t, exec (.decode p) s = .next t ∧
      ((∃ d, t.says (.ok (.decoded d t.st.dec))) ∨ t.says (.fault .ioFailure (1, 0)))

/-! BitWriter and BitReader. -/

/-- R115: the operations on a unit that is not open, or is open already. -/
def Obligations.UnitsNotOpenRefuse : Prop :=
  (∀ s bits, s.ready → s.bw.isOpen = false → exec (.bwWrite bits) s = .next (s.refusedBy .notOpen)) ∧
  (∀ s, s.idleNow → s.bw.isOpen = false → exec .bwClose s = .next (s.refusedBy .notOpen)) ∧
  (∀ s, s.idleNow → s.br.isOpen = false → exec .brClose s = .next (s.refusedBy .notOpen)) ∧
  (∀ s, s.ready → s.bw.isOpen = true → exec .bwOpen s = .next (s.refusedBy .alreadyOpen)) ∧
  (∀ s, s.ready → s.br.isOpen = true → exec .brOpen s = .next (s.refusedBy .alreadyOpen)) ∧
  ∀ s, s.unfaulted → s.br.isOpen = false → s.br.exh = true →
    exec .brReadBit s = .next (s.finished (.bit none)) ∧
    ∀ n, exec (.brReadBits n) s = .next (s.finished (.bits (if n = 0 then some [] else none)))

/-- R106 and R110: opening the writer, and opening the reader. -/
def Obligations.OpeningAStream : Prop :=
  (∀ s, s.st.err ≠ 0 → exec .bwOpen s = .next (s.refusedBy .faulted) ∧ exec .brOpen s = .next (s.refusedBy .faulted)) ∧
  (∀ s, s.ready → s.bw.isOpen = true → exec .bwOpen s = .next (s.refusedBy .alreadyOpen)) ∧
  (∀ s, s.unfaulted → s.bw.isOpen = false →
    exec .bwOpen s = .next ({ s with bw := { buf := [], isOpen := true } }.finished .done)) ∧
  (∀ s, s.ready → s.br.isOpen = true → exec .brOpen s = .next (s.refusedBy .alreadyOpen)) ∧
  ∀ s, s.unfaulted → s.br.isOpen = false →
    exec .brOpen s = .next ({ s with
      br := { cur := [], exh := false, isOpen := true }, st := { s.st with dec := .none } }.finished .done)

/-- R107: `BW.WRITE` appends a byte as soon as eight bits have come together, first bit highest, and keeps the rest, at most
seven bits; a failing append ends it with `IOFailure`, the bytes before it being in the sink and at most seven bits in the
buffer. -/
def Obligations.WritingBits : Prop :=
  (∀ s bits, s.st.err ≠ 0 → exec (.bwWrite bits) s = .next (s.refusedBy .faulted)) ∧
  (∀ s bits, s.ready → s.bw.isOpen = false → exec (.bwWrite bits) s = .next (s.refusedBy .notOpen)) ∧
  (∀ s bits, s.unfaulted → s.canWrite → (leftover (s.bw.buf ++ bits)).length ≤ 7 ∧
    exec (.bwWrite bits) s = .next ({ s with
      sink := s.sink ++ packBytes (s.bw.buf ++ bits)
      bw := { s.bw with buf := leftover (s.bw.buf ++ bits) }
      ioFail := s.ioFail.drop (packBytes (s.bw.buf ++ bits)).length }.finished .done)) ∧
  ∀ s bits j rest, s.ready → s.bw.isOpen = true → s.bw.buf.length ≤ 7 → s.failsAfter j rest →
    j < (packBytes (s.bw.buf ++ bits)).length →
    ∃ t, exec (.bwWrite bits) s = .next t ∧ t.says (.fault .ioFailure (0, 0)) ∧ t.st.err = 4 ∧ t.st.info = (0, 0) ∧
      t.sink = s.sink ++ (packBytes (s.bw.buf ++ bits)).take j ∧ t.bw.buf.length ≤ 7

/-- R108: `BW.CLOSE`, accepted also while a fault is recorded, pads a partial byte with zero bits, appends it and releases
the writer, and it releases the writer even when that append fails. A byte that an earlier failed append left is the matter of
`IoFailureStopsTheTransfer`. -/
def Obligations.ClosingTheWriter : Prop :=
  (∀ s, s.idleNow → s.bw.isOpen = false → exec .bwClose s = .next (s.refusedBy .notOpen)) ∧
  (∀ s, s.bw.isOpen = true → s.bw.full = none → s.bw.buf = [] →
    exec .bwClose s = .next ({ s with bw := closedWriter }.finished .done)) ∧
  (∀ s, s.bw.isOpen = true → s.bw.full = none → s.bw.buf ≠ [] → s.bw.buf.length ≤ 7 → s.ioFail.headD false = false →
    exec .bwClose s = .next ({ s with
      sink := s.sink ++ [BitVec.ofNat 8 (valOf (s.bw.buf ++ List.replicate (8 - s.bw.buf.length) false))]
      bw := closedWriter
      ioFail := s.ioFail.tail }.finished .done)) ∧
  ∀ s, s.idleNow → s.bw.isOpen = true → s.bw.buf ≠ [] → s.bw.buf.length ≤ 7 → s.ioFail.headD false = true →
    exec .bwClose s = .next ({ s with
      bw := closedWriter
      ioFail := s.ioFail.tail
      st := if s.st.err = 0 then { s.st with err := 4, info := (0, 0) } else s.st }.replied (.fault .ioFailure (0, 0)))

/-- R109, the law of the BitWriter: between its opening and its closing the bytes appended are the written bits in order,
whatever pieces they came in, with zero bits to the next byte boundary. -/
def Obligations.WriterLaw : Prop :=
  ∀ s (pieces : List Bits), s.unfaulted → s.bw.isOpen = false → s.reliable →
    ∃ t, runAll (.bwOpen :: (pieces.map .bwWrite ++ [.bwClose])) s = .next t ∧ t.says (.ok .done) ∧
      t.bw = closedWriter ∧
      t.sink = s.sink ++ (List.range ((pieces.flatten.length + 7) / 8)).map fun j =>
        BitVec.ofNat 8 (valOf (((pieces.flatten ++
          List.replicate ((8 - pieces.flatten.length % 8) % 8) false).drop (8 * j)).take 8))

/-- R215 with R221 and R222: a failing access transfers no byte; every earlier one has been done; the operation ends there
with `IOFailure`, and nothing is lost: the completed byte stays in the writer, and the host's `BW.CLOSE` sends it. That it
stands beside `bw.buf` and not in it is the model's choice (notes/assumptions/6.md). -/
def Obligations.IoFailureStopsTheTransfer : Prop :=
  (∀ s bits j rest, s.ready → s.bw.isOpen = true → s.bw.buf.length ≤ 7 → s.failsAfter j rest →
    j < (packBytes (s.bw.buf ++ bits)).length →
    exec (.bwWrite bits) s = .next ({ s with
      sink := s.sink ++ (packBytes (s.bw.buf ++ bits)).take j
      bw := { s.bw with buf := [], full := (packBytes (s.bw.buf ++ bits))[j]? }
      ioFail := rest }.faultedBy .ioFailure (0, 0))) ∧
  (∀ s B, s.bw.isOpen = true → s.bw.full = some B → s.ioFail.headD false = false →
    exec .bwClose s = .next ({ s with
      sink := s.sink ++ [B], bw := closedWriter, ioFail := s.ioFail.tail }.finished .done)) ∧
  ∀ s n j rest, s.ready → s.br.exh = false → s.failsAfter j rest → j ≤ s.src.bytes.length - s.src.pos →
    s.br.cur.length + 8 * j < n →
    exec (.brReadBits n) s = .next ({ s with
      br := { s.br with cur := [] }
      src := { s.src with pos := s.src.pos + j }
      ioFail := rest }.faultedBy .ioFailure (1, 0))

/-- R111: `BR.READ_BIT` in each of its cases: faulted, exhausted, a bit in hand, a refill, the end of the data, a failing
source. -/
def Obligations.ReadingABit : Prop :=
  (∀ s, s.st.err ≠ 0 → exec .brReadBit s = .next (s.refusedBy .faulted)) ∧
  (∀ s, s.unfaulted → s.br.exh = true → exec .brReadBit s = .next (s.finished (.bit none))) ∧
  (∀ s b rest, s.unfaulted → s.br.exh = false → s.br.cur = b :: rest →
    exec .brReadBit s = .next ({ s with br := { s.br with cur := rest } }.finished (.bit (some b)))) ∧
  (∀ s (B : Byte), s.unfaulted → s.br.exh = false → s.br.cur = [] → s.ioFail.headD false = false →
    s.src.bytes[s.src.pos]? = some B →
    exec .brReadBit s = .next ({ s with
      br := { s.br with cur := [6, 5, 4, 3, 2, 1, 0].map fun k => B.getLsbD k }
      src := { s.src with pos := s.src.pos + 1 }
      ioFail := s.ioFail.tail }.finished (.bit (some (B.getLsbD 7))))) ∧
  (∀ s, s.unfaulted → s.br.exh = false → s.br.cur = [] → s.ioFail.headD false = false →
    s.src.bytes.length ≤ s.src.pos →
    exec .brReadBit s = .next ({ s with
      br := { s.br with exh := true }, ioFail := s.ioFail.tail }.finished (.bit none))) ∧
  ∀ s, s.ready → s.br.exh = false → s.br.cur = [] → s.ioFail.headD false = true →
    exec .brReadBit s = .next ({ s with ioFail := s.ioFail.tail }.faultedBy .ioFailure (1, 0))

/-- R112 on a reliable source: `BR.READ_BITS n` returns the next `n` unread bits; when fewer are left it returns none, those
are lost, and the reader is exhausted; `n = 0` returns no bits even then. -/
def Obligations.ReadingBits : Prop :=
  (∀ s n, s.unfaulted → s.canRead → n ≤ (unread s).length →
    exec (.brReadBits n) s = .next ((afterRead n s).finished (.bits (some ((unread s).take n))))) ∧
  (∀ s n, s.unfaulted → s.canRead → (unread s).length < n →
    exec (.brReadBits n) s = .next ((afterExhaustion s).finished (.bits none))) ∧
  ∀ s n, s.unfaulted → s.br.exh = true →
    exec (.brReadBits n) s = .next (s.finished (.bits (if n = 0 then some [] else none)))

/-- R114, the law of the BitReader, with R70: the `q`-th bit read after `BR.OPEN` is bit `7 − (q mod 8)` of unread byte
`⌊q/8⌋`, and none past the last; a sink written under R109 reads back as the written bits and the pad zeros. -/
def Obligations.ReaderLaw : Prop :=
  (∀ s q, s.unfaulted → s.br.isOpen = false → s.reliable →
    ∃ t, runAll (.brOpen :: List.replicate (q + 1) .brReadBit) s = .next t ∧
      t.says (.ok (.bit (((s.src.bytes.drop s.src.pos)[q / 8]?).map fun B => B.getLsbD (7 - q % 8)))) ∧
      (q < 8 * (s.src.bytes.length - s.src.pos) → t.src.pos = s.src.pos + (q + 8) / 8)) ∧
  ∀ s (bits : Bits), s.unfaulted → s.br.isOpen = false → s.reliable →
    s.src.bytes.drop s.src.pos = packBytes (padded bits) →
    ∃ t, runAll [.brOpen, .brReadBits (padded bits).length] s = .next t ∧ t.says (.ok (.bits (some (padded bits))))

/-- R113: `BR.CLOSE`, accepted also while a fault is recorded, drops the unread bits and forces the exhausted state. -/
def Obligations.ClosingTheReader : Prop :=
  (∀ s, s.idleNow → s.br.isOpen = false → exec .brClose s = .next (s.refusedBy .notOpen)) ∧
  (∀ s, s.br.isOpen = true → exec .brClose s = .next ({ s with br := closedReader }.finished .done)) ∧
  ∀ s, s.unfaulted → s.br.isOpen = true →
    ∃ t, runAll [.brClose, .brReadBit] s = .next t ∧ t.says (.ok (.bit none))

/-! FixedWidthCodec. -/

/-- R121: element `i` of `FW.ENC x, width` is bit `width − 1 − i` of `x`; a value outside `0 .. 2^width − 1` raises
`RangeError(x, width)`. -/
def Obligations.FixedWidthEncode : Prop :=
  (∀ s x width, s.st.err ≠ 0 → exec (.fwEnc x width) s = .next (s.refusedBy .faulted)) ∧
  (∀ s (x : Int) width, s.unfaulted → 0 ≤ x → x ≤ 2 ^ width - 1 →
    exec (.fwEnc x width) s =
      .next (s.finished (.bits (some ((List.range width).map fun i => x.toNat.testBit (width - 1 - i)))))) ∧
  ∀ s (x : Int) (width : Nat), s.ready → x < 0 ∨ x > 2 ^ width - 1 →
    exec (.fwEnc x width) s = .next (s.faultedBy .rangeError (x, width))

/-- R124: `FW.DEC bits` is `Σ bits[i] · 2^(|bits|−1−i)`. -/
def Obligations.FixedWidthDecode : Prop :=
  (∀ s bits, s.st.err ≠ 0 → exec (.fwDec bits) s = .next (s.refusedBy .faulted)) ∧
  ∀ s (bits : Bits), s.unfaulted → exec (.fwDec bits) s = .next (s.finished (.value
    ((List.range bits.length).map fun i => (bits.getD i false).toNat * 2 ^ (bits.length - 1 - i)).sum))

/-- R126, the inverse laws of the FixedWidthCodec. -/
def Obligations.FixedWidthInverse : Prop :=
  (∀ s (bits : Bits), s.unfaulted → ∃ v : Nat, exec (.fwDec bits) s = .next (s.finished (.value v)) ∧
    exec (.fwEnc v bits.length) s = .next (s.finished (.bits (some bits)))) ∧
  ∀ s (x width : Nat), s.unfaulted → x < 2 ^ width →
    ∃ bits, bits.length = width ∧ exec (.fwEnc x width) s = .next (s.finished (.bits (some bits))) ∧
      exec (.fwDec bits) s = .next (s.finished (.value x))

/-! Histogram. -/

/-- R129 and R130: `HG.CLEAR` sets every counter and the total to 0; `HG.ACC s` adds one to the counter of `s` and to the
total and leaves the other counters, or raises `SampleRangeError(s, hg.total)`. -/
def Obligations.CountingSamples : Prop :=
  (∀ s x, s.st.err ≠ 0 → exec .hgClear s = .next (s.refusedBy .faulted) ∧ exec (.hgAcc x) s = .next (s.refusedBy .faulted)) ∧
  (∀ s, s.unfaulted →
    exec .hgClear s = .next ({ s with hg := { count := Vector.replicate 511 0, total := 0 } }.finished .done)) ∧
  (∀ s (x : Sample), s.unfaulted → -255 ≤ x → x ≤ 255 →
    ∃ g : Histogram, exec (.hgAcc x) s = .next ({ s with hg := g }.finished .done) ∧ g.total = s.hg.total + 1 ∧
      g.counter x = s.hg.counter x + 1 ∧ ∀ y, y ≠ x → g.counter y = s.hg.counter y) ∧
  ∀ s (x : Sample), s.ready → x < -255 ∨ 255 < x →
    exec (.hgAcc x) s = .next (s.faultedBy .sampleRangeError (x, s.hg.total))

/-- R131 with R133: `HG.EMIT` returns exactly the counted symbols of `lo .. hi`, ascending, each with the exact rational
`count / total`, or is refused with `EmptyHistogram`. -/
def Obligations.EmittingProbabilities : Prop :=
  (∀ s lo hi, s.st.err ≠ 0 → exec (.hgEmit lo hi) s = .next (s.refusedBy .faulted)) ∧
  (∀ s lo hi, s.ready → s.hg.total = 0 → exec (.hgEmit lo hi) s = .next (s.refusedBy .emptyHistogram)) ∧
  ∀ s lo hi, s.unfaulted → s.hg.total ≠ 0 →
    ∃ ps, exec (.hgEmit lo hi) s = .next (s.finished (.pairs ps)) ∧ (ps.map (·.1)).Pairwise (· < ·) ∧
      ∀ (x : Symbol) (p : Prob), (x, p) ∈ ps ↔
        lo ≤ x ∧ x ≤ hi ∧ 0 < s.hg.counter x ∧ p = (s.hg.counter x : Rat) / (s.hg.total : Rat)

/-- R132: `HG.BUILD` expands to `HG.CLEAR`, one `HG.ACC` for each sample and `HG.EMIT`; the first sample outside
−255 .. 255 ends it as it ends its `HG.ACC`. That the counters stay cleared when no sample is given and the emission is
refused is the model's choice (notes/assumptions/12.md). -/
def Obligations.HistogramBuildExpands : Prop :=
  (∀ s samples lo hi, s.st.err ≠ 0 → exec (.hgBuild samples lo hi) s = .next (s.refusedBy .faulted)) ∧
  (∀ s (samples : List Sample) lo hi, s.ready → (∀ x ∈ samples, -255 ≤ x ∧ x ≤ 255) →
    exec (.hgBuild samples lo hi) s = runAll (.hgClear :: (samples.map .hgAcc ++ [.hgEmit lo hi])) s) ∧
  ∀ s (before : List Sample) (x : Sample) after lo hi, s.ready → (∀ y ∈ before, -255 ≤ y ∧ y ≤ 255) →
    x < -255 ∨ 255 < x →
    exec (.hgBuild (before ++ x :: after) lo hi) s = runAll (.hgClear :: (before ++ [x]).map .hgAcc) s

/-- R134 and the corner case of R132: over samples that `lo .. hi` covers, the symbols are strictly ascending, every
probability is positive, they sum to 1, there are 1 to 511 of them, one alone when all samples are equal; and the order of
the samples does not matter. -/
def Obligations.HistogramProperties : Prop :=
  ∀ s (samples : List Sample) lo hi, s.ready → samples ≠ [] →
    (∀ x ∈ samples, -255 ≤ x ∧ x ≤ 255 ∧ lo ≤ x ∧ x ≤ hi) →
    ∃ t ps, exec (.hgBuild samples lo hi) s = .next t ∧ t.says (.ok (.pairs ps)) ∧
      (ps.map (·.1)).Pairwise (· < ·) ∧ (∀ e ∈ ps, 0 < e.2) ∧ (ps.map (·.2)).sum = 1 ∧
      1 ≤ ps.length ∧ ps.length ≤ 511 ∧ (∀ x, (∀ y ∈ samples, y = x) → ps = [(x, 1)]) ∧
      ∀ samples', samples'.Perm samples → exec (.hgBuild samples' lo hi) s = .next t

/-! Huffman tree and code table. -/

/-- R142 and R220: the checks of `HT.BUILD`, the lengths before the others, and that what passes them is built. That
`BadProbability` is reported before `BadSymbol` is the model's choice (notes/assumptions/13.md). -/
def Obligations.HuffmanBuildChecks : Prop :=
  (∀ s xs ps, s.ready → xs.length ≠ ps.length →
    exec (.htBuild xs ps) s = .next (s.faultedBy .lengthMismatch (xs.length, ps.length))) ∧
  (∀ s, s.ready → exec (.htBuild [] []) s = .next (s.refusedBy .emptyAlphabet)) ∧
  (∀ s (xs : List Symbol) (ps : List Prob), s.ready → xs.length = ps.length → (∃ p ∈ ps, p ≤ 0) →
    exec (.htBuild xs ps) s = .next (s.refusedBy .badProbability)) ∧
  (∀ s (xs : List Symbol) (ps : List Prob), s.ready → xs.length = ps.length → xs ≠ [] → (∀ p ∈ ps, 0 < p) →
    (∃ x ∈ xs, x < -255 ∨ 255 < x) ∨ ¬xs.Nodup ∨ 511 < xs.length →
    exec (.htBuild xs ps) s = .next (s.refusedBy .badSymbol)) ∧
  ∀ s xs ps, s.unfaulted → validAlphabet xs ps →
    ∃ t, exec (.htBuild xs ps) s = .next ({ s with ht := t }.finished .done)

/-- R143 to R149: the arena `HT.BUILD` leaves. Its leaves are the pairs in input order; each later node has the exact sum of
its children's weights, the strictly lighter child on the left and on a tie the younger one; its children are the first two,
in the stable order by weight, of the nodes that had no parent then; the last node is the root. -/
def Obligations.HuffmanTreeMergesTheLightest : Prop :=
  ∀ s xs ps, s.unfaulted → validAlphabet xs ps →
    ∃ t : HuffmanTree, exec (.htBuild xs ps) s = .next ({ s with ht := t }.finished .done) ∧
      t.nn = 2 * xs.length - 1 ∧ t.node.length = t.nn ∧ t.root = some (t.nn - 1) ∧ t.set = [t.nn - 1] ∧
      weightAt t.node (t.nn - 1) = ps.sum ∧
      (∀ i, i < xs.length → ∃ x p, xs[i]? = some x ∧ ps[i]? = some p ∧ t.node[i]? = some (.leaf x p)) ∧
      ∀ i, xs.length ≤ i → i < t.nn → ∃ l r, l < i ∧ r < i ∧ l ≠ r ∧
        t.node[i]? = some (.internal (weightAt t.node l + weightAt t.node r) l r) ∧
        (weightAt t.node l < weightAt t.node r ∨ weightAt t.node l = weightAt t.node r ∧ r < l) ∧
        (∀ k, k < i → ¬isChild t.node k l ∧ ¬isChild t.node k r) ∧
        ∀ j, j < i → j ≠ l → j ≠ r → (∀ k, k < i → ¬isChild t.node k j) →
          standsBefore t.node l j ∧ standsBefore t.node r j

/-- R145: `stable_sort_by_w` is the permutation that puts lighter before heavier and keeps the order of equals. -/
def Obligations.SortIsStable : Prop :=
  ∀ (node : List Node) (l : List Nat), (stableSort node l).Perm l ∧
    (stableSort node l).Pairwise (fun i j => weightAt node i ≤ weightAt node j) ∧
    ∀ w : Prob, (stableSort node l).filter (fun i => weightAt node i == w) = l.filter fun i => weightAt node i == w

/-- R151 to R154: `HT.GEN` lists exactly the leaves below the root, each with its path, 0 for left and 1 for right, in
ascending lexicographic order; a root that is a leaf gets the codeword `[0]`; without a tree it is refused. -/
def Obligations.CodesAreTheLeafPaths : Prop :=
  (∀ s, s.st.err ≠ 0 → exec .htGen s = .next (s.refusedBy .faulted)) ∧
  (∀ s, s.ready → s.ht.root = none → exec .htGen s = .next (s.refusedBy .noTree)) ∧
  ∀ s r, s.unfaulted → s.ht.root = some r → s.ht.isTree = true →
    ∃ cs, exec .htGen s = .next ({ s with ct := { entries := cs } }.finished (.codes cs)) ∧
      (∀ x w, s.ht.node[r]? = some (.leaf x w) → cs = [(x, [false])]) ∧
      ∀ w a b, s.ht.node[r]? = some (.internal w a b) →
        (cs.map (·.2)).Pairwise (fun u v => bitsLt u v = true) ∧
        ∀ x cw, (x, cw) ∈ cs ↔ ∃ i p, walk s.ht.node r cw = some i ∧ s.ht.node[i]? = some (.leaf x p)

/-- R155 (a) to (d) and R156, for a tree that was built: exactly the input symbols have a codeword, of 1 to `n − 1` bits (1
bit for one symbol); no codeword is a beginning of another; with two symbols or more every long enough bit sequence begins
with exactly one codeword. -/
def Obligations.BuiltCodeIsComplete : Prop :=
  ∀ s xs ps, s.unfaulted → validAlphabet xs ps →
    ∃ t cs, runAll [.htBuild xs ps, .htGen] s = .next t ∧ t.says (.ok (.codes cs)) ∧ t.ct.entries = cs ∧
      (cs.map (·.1)).Perm xs ∧ (∀ e ∈ cs, 1 ≤ e.2.length ∧ e.2.length ≤ max 1 (xs.length - 1)) ∧
      cs.Pairwise (fun a b => ¬a.2 <+: b.2 ∧ ¬b.2 <+: a.2) ∧
      (2 ≤ xs.length → ∀ u : Bits, xs.length ≤ u.length + 1 → ∃! e, e ∈ cs ∧ e.2 <+: u)

/-- Of two symbols of a built tree, the strictly lighter one never has the shorter codeword: property (e) of R155, which R155
marks as general knowledge, not in the source. -/
def Obligations.LighterSymbolsAreNotShorter : Prop :=
  ∀ s xs ps, s.unfaulted → validAlphabet xs ps →
    ∃ t cs, runAll [.htBuild xs ps, .htGen] s = .next t ∧ t.says (.ok (.codes cs)) ∧
      ∀ x p u y q v, (x, p) ∈ xs.zip ps → (y, q) ∈ xs.zip ps → p < q → (x, u) ∈ cs → (y, v) ∈ cs → v.length ≤ u.length

/-! Predictor. -/

/-- R161, R162 and R165: after `DP.FWD H, W` every column but 0 of the shape holds the difference of the two pixels that were
there and to its left; column 0 and everything outside the shape is as before. That the difference holds no value where one
of the two holds none is the model's choice (notes/assumptions/1.md), as is that a negative `H` or `W` is a shape without
pixels (notes/assumptions/11.md). -/
def Obligations.ForwardPrediction : Prop :=
  (∀ s h w, s.st.err ≠ 0 → exec (.dpFwd h w) s = .next (s.refusedBy .faulted)) ∧
  ∀ s (h w : Int), s.unfaulted → ∃ m, exec (.dpFwd h w) s = .next ({ s with img := m }.finished .done) ∧
    ∀ l, Memory.read m l = if inShape h.toNat w.toNat l then residualAt s.img l else Memory.read s.img l

/-- R163 and R165: after `DP.INV H, W` every location of the shape holds the sum of its row and channel up to its column;
everything outside the shape is as before. A location that holds no value spreads to every one to its right. That a
negative `H` or `W` is a shape without pixels is the model's choice (notes/assumptions/11.md). -/
def Obligations.InversePrediction : Prop :=
  (∀ s h w, s.st.err ≠ 0 → exec (.dpInv h w) s = .next (s.refusedBy .faulted)) ∧
  ∀ s (h w : Int), s.unfaulted → ∃ m, exec (.dpInv h w) s = .next ({ s with img := m }.finished .done) ∧
    ∀ l, Memory.read m l = if inShape h.toNat w.toNat l then rowSum s.img l.r l.k l.c else Memory.read s.img l

/-- R164, the inverse law: `DP.INV` after `DP.FWD`, and `DP.FWD` after `DP.INV`, restore every sample of a written image. -/
def Obligations.PredictionInverseLaw : Prop :=
  ∀ s (h w : Nat), s.unfaulted → imageDefined h w s.img →
    (∃ t, runAll [.dpFwd h w, .dpInv h w] s = .next t ∧ { t with img := s.img } = s.finished .done ∧
      ∀ l, Memory.read t.img l = Memory.read s.img l) ∧
    ∃ t, runAll [.dpInv h w, .dpFwd h w] s = .next t ∧ { t with img := s.img } = s.finished .done ∧
      ∀ l, Memory.read t.img l = Memory.read s.img l

/-! Encoder. -/

/-- R174 with R173: `VE.HDR` writes the height's 16 bits and then the width's, and loads `dim`; a dimension outside
0 .. 65535 raises `RangeError`, a bad height before anything is written, a bad width after the height's bits are, and `dim` is
then not loaded. -/
def Obligations.HeaderWriting : Prop :=
  (∀ s h w, s.ready → s.bw.isOpen = false → exec (.veHdr h w) s = .next (s.refusedBy .notOpen)) ∧
  (∀ s h w, s.unfaulted → s.canWrite → fits16 h → fits16 w →
    exec (.veHdr h w) s = .next ({ afterWrite (bitsOf 16 h.toNat ++ bitsOf 16 w.toNat) s with
      dim := { h := BitVec.ofNat 16 h.toNat, w := BitVec.ofNat 16 w.toNat } }.finished .done)) ∧
  (∀ s h w, s.ready → s.bw.isOpen = true → ¬fits16 h → exec (.veHdr h w) s = .next (s.faultedBy .rangeError (h, 16))) ∧
  ∀ s h w, s.ready → s.canWrite → fits16 h → ¬fits16 w →
    exec (.veHdr h w) s = .next ((afterWrite (bitsOf 16 h.toNat) s).faultedBy .rangeError (w, 16))

/-- R176 and R177: `VE.TABLE` writes each entry of the code table in order and then the sentinel; the first codeword longer
than 31 bits raises `RangeError`, the entries before it and its own biased symbol having been written. -/
def Obligations.TableWriting : Prop :=
  (∀ s, s.ready → s.bw.isOpen = false → exec .veTable s = .next (s.refusedBy .notOpen)) ∧
  (∀ s, s.unfaulted → s.canWrite → carriable s.ct.entries = true →
    exec .veTable s = .next ((afterWrite (tableOf s.ct.entries) s).finished .done)) ∧
  ∀ s before x cw after, s.ready → s.canWrite → s.ct.entries = before ++ (x, cw) :: after → carriable before = true →
    -255 ≤ x → x ≤ 255 → 31 < cw.length →
    exec .veTable s = .next ((afterWrite (before.flatMap (fun e => entryBits e.1 e.2) ++ bitsOf 9 (x + 255).toNat)
      s).faultedBy .rangeError (cw.length, 5))

/-- R178: `VE.SYM s` writes the codeword of `s`, or is refused with `NoCode` when it has none. -/
def Obligations.SymbolWriting : Prop :=
  (∀ s x, s.st.err ≠ 0 → exec (.veSym x) s = .next (s.refusedBy .faulted)) ∧
  (∀ s x, s.ready → s.bw.isOpen = false → exec (.veSym x) s = .next (s.refusedBy .notOpen)) ∧
  (∀ s (x : Sample), s.ready → s.bw.isOpen = true → x < -255 ∨ 255 < x ∨ s.ct.code x = none →
    exec (.veSym x) s = .next (s.refusedBy .noCode)) ∧
  ∀ s (x : Sample) cw, s.unfaulted → s.canWrite → -255 ≤ x → x ≤ 255 → s.ct.code x = some cw →
    exec (.veSym x) s = .next ((afterWrite cw s).finished .done)

/-- R179 and R218: on a closed writer `VE.PAYLOAD` is refused; on an open one it writes the codewords of the samples of a
written image in flat order, and nothing when there is none; the first sample without a codeword ends it with `NoCode`. That
the codewords before that one stay written is the model's choice (notes/assumptions/12.md). -/
def Obligations.PayloadWriting : Prop :=
  (∀ s, s.unfaulted → s.canWrite → imageDefined s.dim.h.toNat s.dim.w.toNat s.img →
    (∀ x ∈ codedFlat false s.dim.h.toNat s.dim.w.toNat s.img, -255 ≤ x ∧ x ≤ 255 ∧ (s.ct.code x).isSome = true) →
    exec .vePayload s = .next ((afterWrite
      ((codedFlat false s.dim.h.toNat s.dim.w.toNat s.img).flatMap (codewordIn s.ct.entries)) s).finished .done)) ∧
  (∀ s before x after, s.ready → s.canWrite → imageDefined s.dim.h.toNat s.dim.w.toNat s.img →
    codedFlat false s.dim.h.toNat s.dim.w.toNat s.img = before ++ x :: after →
    (∀ y ∈ before, -255 ≤ y ∧ y ≤ 255 ∧ (s.ct.code y).isSome = true) → x < -255 ∨ 255 < x ∨ s.ct.code x = none →
    exec .vePayload s = .next ((afterWrite (before.flatMap (codewordIn s.ct.entries)) s).refusedBy .noCode)) ∧
  (∀ s, s.ready → s.bw.isOpen = false → exec .vePayload s = .next (s.refusedBy .notOpen)) ∧
  ∀ s, s.unfaulted → s.bw.isOpen = true → s.dim.h = 0 ∨ s.dim.w = 0 → exec .vePayload s = .next (s.finished .done)

/-- R63, R184 and R187: `ENCODE` of a written image whose coded values lie in −255 .. 255 and whose codewords are at most 31
bits appends exactly the header, the table entries, the sentinel, the payload codewords in flat order and the zero padding;
the code is the block's for the coded values (R183). With prediction on image memory then holds the residuals (R181, R186). -/
def Obligations.EncodeWritesTheStream : Prop :=
  ∀ s (h w : BitVec 16) p, s.ready → s.bw.isOpen = false → s.reliable → h ≠ 0 → w ≠ 0 →
    imageDefined h.toNat w.toNat s.img → (∀ x ∈ codedFlat p h.toNat w.toNat s.img, -255 ≤ x ∧ x ≤ 255) →
    (∀ e ∈ codeFor (codedFlat p h.toNat w.toNat s.img), e.2.length ≤ 31) →
    ∃ t, exec (.encode h.toNat w.toNat p) s = .next t ∧ t.says (.ok .done) ∧
      t.sink = s.sink ++ packBytes (padded (streamBits h w (codeFor (codedFlat p h.toNat w.toNat s.img))
        (codedFlat p h.toNat w.toNat s.img))) ∧
      t.sink.length = s.sink.length +
        (41 + ((codeFor (codedFlat p h.toNat w.toNat s.img)).map fun e => 14 + e.2.length).sum +
          ((codedFlat p h.toNat w.toNat s.img).map fun x => (codewordIn t.ct.entries x).length).sum + 7) / 8 ∧
      t.ct.entries = codeFor (codedFlat p h.toNat w.toNat s.img) ∧
      t.bw = closedWriter ∧ t.seq = s.seq ∧ t.st = s.st ∧ t.dim = { h := h, w := w } ∧ t.cfg.p = p ∧ t.draws = s.draws ∧
      ∀ l, Memory.read t.img l =
        if inShape h.toNat w.toNat l then some (codedAt p s.img l) else Memory.read s.img l

/-- R185, row by row: what a failed `ENCODE` has appended, with the outcome, the writer closed in every row; and R186: image
memory after a `SampleRangeError`. -/
def Obligations.EncodeFailures : Prop :=
  (∀ s h w p, s.ready → s.bw.isOpen = false → ¬fits16 h →
    ∃ t, exec (.encode h w p) s = .next t ∧ t.says (.fault .rangeError (h, 16)) ∧ t.sink = s.sink ∧ t.bw = closedWriter) ∧
  (∀ s h w p, s.ready → s.bw.isOpen = false → s.reliable → fits16 h → ¬fits16 w →
    ∃ t, exec (.encode h w p) s = .next t ∧ t.says (.fault .rangeError (w, 16)) ∧
      t.sink = s.sink ++ packBytes (bitsOf 16 h.toNat) ∧ t.bw = closedWriter) ∧
  (∀ s (h w : BitVec 16) p before x after, s.ready → s.bw.isOpen = false → s.reliable →
    imageDefined h.toNat w.toNat s.img → codedFlat p h.toNat w.toNat s.img = before ++ x :: after →
    (∀ y ∈ before, -255 ≤ y ∧ y ≤ 255) → x < -255 ∨ 255 < x →
    ∃ t, exec (.encode h.toNat w.toNat p) s = .next t ∧ t.says (.fault .sampleRangeError (x, before.length)) ∧
      t.sink = s.sink ++ packBytes (headerBits h w) ∧ t.bw = closedWriter ∧
      ∀ l, Memory.read t.img l =
        if inShape h.toNat w.toNat l then some (codedAt p s.img l) else Memory.read s.img l) ∧
  (∀ s (h w : BitVec 16) p, s.ready → s.bw.isOpen = false → s.reliable → h = 0 ∨ w = 0 →
    ∃ t, exec (.encode h.toNat w.toNat p) s = .next t ∧ t.says (.refused .emptyHistogram) ∧
      t.sink = s.sink ++ packBytes (headerBits h w) ∧ t.bw = closedWriter) ∧
  (∀ s (h w : BitVec 16) p before x cw after, s.ready → s.bw.isOpen = false → s.reliable → h ≠ 0 → w ≠ 0 →
    imageDefined h.toNat w.toNat s.img → (∀ y ∈ codedFlat p h.toNat w.toNat s.img, -255 ≤ y ∧ y ≤ 255) →
    codeFor (codedFlat p h.toNat w.toNat s.img) = before ++ (x, cw) :: after → (∀ e ∈ before, e.2.length ≤ 31) →
    31 < cw.length →
    ∃ t, exec (.encode h.toNat w.toNat p) s = .next t ∧ t.says (.fault .rangeError (cw.length, 5)) ∧
      t.sink = s.sink ++ packBytes (padded (headerBits h w ++ before.flatMap (fun e => entryBits e.1 e.2) ++
        bitsOf 9 (x + 255).toNat)) ∧ t.bw = closedWriter) ∧
  ∀ s (h w : BitVec 16) p j rest, s.ready → s.bw.isOpen = false → s.failsAfter j rest → h ≠ 0 → w ≠ 0 →
    imageDefined h.toNat w.toNat s.img → (∀ y ∈ codedFlat p h.toNat w.toNat s.img, -255 ≤ y ∧ y ≤ 255) →
    (∀ e ∈ codeFor (codedFlat p h.toNat w.toNat s.img), e.2.length ≤ 31) →
    j < (packBytes (padded (streamBits h w (codeFor (codedFlat p h.toNat w.toNat s.img))
      (codedFlat p h.toNat w.toNat s.img)))).length →
    ∃ t, exec (.encode h.toNat w.toNat p) s = .next t ∧ t.says (.fault .ioFailure (0, 0)) ∧
      t.sink = s.sink ++ (packBytes (padded (streamBits h w (codeFor (codedFlat p h.toNat w.toNat s.img))
        (codedFlat p h.toNat w.toNat s.img)))).take j ∧ t.bw = closedWriter

/-! Decoder. -/

/-- R191 on a reliable source: `VD.HDR` reads 32 bits into `dim.H` and `dim.W`, or sets `st.dec` to `NoImage` and leaves the
dimensions. -/
def Obligations.HeaderReading : Prop :=
  (∀ s (h w : BitVec 16) rest, s.unfaulted → s.canRead → unread s = headerBits h w ++ rest →
    exec .vdHdr s = .next ({ afterRead 32 s with dim := { h := h, w := w } }.finished
      (.dims (some { h := h, w := w })))) ∧
  (∀ s, s.unfaulted → s.canRead → (unread s).length < 32 →
    exec .vdHdr s = .next ({ afterExhaustion s with st := { s.st with dec := .noImage } }.finished (.dims none))) ∧
  ∀ s, s.unfaulted → s.br.exh = true →
    exec .vdHdr s = .next ({ s with st := { s.st with dec := .noImage } }.finished (.dims none))

/-- R192 and R193 on a reliable source: `VD.TABLE` reads entries until the sentinel; the decode table then maps each codeword
to the symbol of its last entry and has no other key; bits that hold no sentinel after whole entries end it with
`NoImage`. -/
def Obligations.TableReading : Prop :=
  (∀ s es rest, s.unfaulted → s.canRead → carriable es = true → unread s = tableOf es ++ rest →
    ∃ d, exec .vdTable s = .next ({ afterRead (tableOf es).length s with dt := d }.finished .done) ∧
      ∀ cw, Table.get d cw = lastFor es cw) ∧
  (∀ s, s.unfaulted → s.canRead → (∀ es rest, carriable es = true → unread s ≠ tableOf es ++ rest) →
    ∃ d, exec .vdTable s = .next ({ afterExhaustion s with
      dt := d, st := { s.st with dec := .noImage } }.finished .noTable)) ∧
  ∀ s, s.unfaulted → s.br.exh = true →
    exec .vdTable s = .next ({ s with dt := [], st := { s.st with dec := .noImage } }.finished .noTable)

/-- R194, R195 and R201 on a reliable source: `VD.SYM` takes the shortest key of the decode table that begins the unread
bits; when none does it reads to the end of the data and returns none, the unmatched bits being in `vd.acc`. -/
def Obligations.ShortestKeyIsMatched : Prop :=
  (∀ s k x, s.unfaulted → s.canRead → ShortestKey (Table.get s.dt) (unread s) k x →
    exec .vdSym s = .next ({ afterRead k s with vd := { s.vd with acc := [] } }.finished (.symbol (some x)))) ∧
  (∀ s, s.unfaulted → s.canRead → NoKey (Table.get s.dt) (unread s) →
    exec .vdSym s = .next ({ afterExhaustion s with vd := { s.vd with acc := unread s } }.finished (.symbol none))) ∧
  ∀ s, s.unfaulted → s.br.exh = true →
    exec .vdSym s = .next ({ s with vd := { s.vd with acc := [] } }.finished (.symbol none))

/-- R196 to R199 on a reliable source: `VD.PAYLOAD` stores the decoded samples at their flat indices and reads no further bit;
when the source runs out first it says `Short`, the samples decoded are stored, and the others hold no value. -/
def Obligations.PayloadReading : Prop :=
  (∀ s xs n, s.unfaulted → s.canRead → Spells (Table.get s.dt) xs (unread s) n →
    xs.length = s.dim.h.toNat * s.dim.w.toNat * 3 →
    ∃ m, exec .vdPayload s = .next ({ afterRead n s with
        img := m
        vd := { acc := if xs = [] then s.vd.acc else [], ndone := xs.length }
        st := { s.st with dec := .complete } }.finished (.count xs.length)) ∧
      HoldsFlat s.dim.w.toNat xs m s.img s.dim.h.toNat) ∧
  (∀ s xs n, s.unfaulted → s.canRead → Spells (Table.get s.dt) xs (unread s) n →
    NoKey (Table.get s.dt) ((unread s).drop n) → xs.length < s.dim.h.toNat * s.dim.w.toNat * 3 →
    ∃ m, exec .vdPayload s = .next ({ afterExhaustion s with
        img := m
        vd := { acc := (unread s).drop n, ndone := xs.length }
        st := { s.st with dec := .short } }.finished (.count xs.length)) ∧
      HoldsFlat s.dim.w.toNat xs m s.img s.dim.h.toNat) ∧
  ∀ s, s.unfaulted → s.br.exh = true → s.dim.h ≠ 0 → s.dim.w ≠ 0 →
    ∃ m, exec .vdPayload s = .next ({ s with
        img := m
        vd := { acc := [], ndone := 0 }
        st := { s.st with dec := .short } }.finished (.count 0)) ∧
      HoldsFlat s.dim.w.toNat [] m s.img s.dim.h.toNat

/-- R203, R204 and R209: `DECODE` of a source that begins with a header, a table and codewords for all the samples the header
asks for returns `Complete`; image memory holds the samples, or with prediction on their sums along each row; exactly the
bytes that hold these bits were fetched (R198). -/
def Obligations.DecodeCompletes : Prop :=
  ∀ s (h w : BitVec 16) es payload xs n p, s.ready → s.br.isOpen = false → s.reliable → carriable es = true →
    sourceBits s = headerBits h w ++ (tableOf es ++ payload) → Spells (lastFor es) xs payload n →
    xs.length = h.toNat * w.toNat * 3 →
    ∃ t, exec (.decode p) s = .next t ∧ t.says (.ok (.decoded (some { h := h, w := w }) .complete)) ∧
      t.br = closedReader ∧ t.seq = s.seq ∧ t.st = { s.st with dec := .complete } ∧ t.dim = { h := h, w := w } ∧
      t.cfg.p = p ∧ t.vd.ndone = xs.length ∧ t.draws = s.draws ∧
      t.src.pos = s.src.pos + (32 + (tableOf es).length + n + 7) / 8 ∧
      ∀ l, Memory.read t.img l =
        if inShape h.toNat w.toNat l then
          some (if p then flatRowSum w.toNat xs l.r l.k l.c else xs.getD (flatIndex w.toNat l) 0)
        else Memory.read s.img l

/-- R199, R200 and R204: a source that ends in the header or in the table ends `DECODE` with `NoImage` and leaves image memory
alone; one that ends in the payload ends it with `Short`, and the pixel at flat index `i` is defined exactly when
`i < vd.ndone`. None of them is a fault. -/
def Obligations.DecodeStopsAtTheEndOfData : Prop :=
  (∀ s p, s.ready → s.br.isOpen = false → s.reliable → (sourceBits s).length < 32 →
    ∃ t, exec (.decode p) s = .next t ∧ t.says (.ok (.decoded none .noImage)) ∧ t.img = s.img ∧ t.dim = s.dim ∧
      t.br = closedReader ∧ t.st = { s.st with dec := .noImage }) ∧
  (∀ s (h w : BitVec 16) u p, s.ready → s.br.isOpen = false → s.reliable → sourceBits s = headerBits h w ++ u →
    (∀ es rest, carriable es = true → u ≠ tableOf es ++ rest) →
    ∃ t, exec (.decode p) s = .next t ∧ t.says (.ok (.decoded (some { h := h, w := w }) .noImage)) ∧ t.img = s.img ∧
      t.dim = { h := h, w := w } ∧ t.br = closedReader ∧ t.st = { s.st with dec := .noImage }) ∧
  ∀ s (h w : BitVec 16) es payload xs n p, s.ready → s.br.isOpen = false → s.reliable → carriable es = true →
    sourceBits s = headerBits h w ++ (tableOf es ++ payload) → Spells (lastFor es) xs payload n →
    NoKey (lastFor es) (payload.drop n) → xs.length < h.toNat * w.toNat * 3 →
    ∃ t, exec (.decode p) s = .next t ∧ t.says (.ok (.decoded (some { h := h, w := w }) .short)) ∧
      t.vd.ndone = xs.length ∧ t.dim = { h := h, w := w } ∧ t.br = closedReader ∧ t.st = { s.st with dec := .short } ∧
      ∀ l, Memory.read t.img l =
        if inShape h.toNat w.toNat l then
          if flatIndex w.toNat l < xs.length then
            some (if p then flatRowSum w.toNat xs l.r l.k l.c else xs.getD (flatIndex w.toNat l) 0)
          else none
        else Memory.read s.img l

/-! Records of the stream. -/

/-- What each of the five records does to the decoder (R76 to R80, R191 to R198). That a record is an instruction of its own,
behind the gate of R226, is the model's choice (notes/assumptions/2.md). -/
def Obligations.RecordsLoadTheDecoder : Prop :=
  (∀ i s, isRecord i = true → s.st.err ≠ 0 → exec i s = .next (s.refusedBy .faulted)) ∧
  (∀ s (h w : BitVec 16), s.unfaulted →
    exec (.header h w) s = .next ({ s with dim := { h := h, w := w } }.finished (.dims (some { h := h, w := w })))) ∧
  (∀ s x cw, s.unfaulted → ∃ d, exec (.entry x cw) s = .next ({ s with dt := d }.finished .done) ∧
    ∀ k, Table.get d k = if k = cw then some x else Table.get s.dt k) ∧
  (∀ s, s.unfaulted → exec .sentinel s = .next (s.finished .done)) ∧
  (∀ s cw k x, s.unfaulted → ShortestKey (Table.get s.dt) cw k x →
    exec (.codeword cw) s = .next ({ s with vd := { s.vd with acc := [] } }.finished (.symbol (some x)))) ∧
  (∀ s cw, s.unfaulted → NoKey (Table.get s.dt) cw →
    exec (.codeword cw) s = .next ({ s with vd := { s.vd with acc := cw } }.finished (.symbol none))) ∧
  ∀ s n, s.unfaulted → exec (.pad n) s = .next (s.finished .done)

/-- The decoder's operations are the records of the bits they read, run one after the other (R75, R84, R85); the model's
records are what the operations make of them (notes/assumptions/2.md). -/
def Obligations.DecoderRunsTheRecords : Prop :=
  (∀ s (h w : BitVec 16) rest, s.unfaulted → s.canRead → unread s = headerBits h w ++ rest →
    exec .vdHdr s = exec (.header h w) (afterRead 32 s)) ∧
  (∀ s es rest, s.unfaulted → s.canRead → carriable es = true → unread s = tableOf es ++ rest →
    exec .vdTable s =
      runAll (es.map (fun e => .entry e.1 e.2) ++ [.sentinel]) { afterRead (tableOf es).length s with dt := [] }) ∧
  ∀ s k x, s.unfaulted → s.canRead → ShortestKey (Table.get s.dt) (unread s) k x →
    exec .vdSym s = exec (.codeword ((unread s).take k)) (afterRead k s)

/-- R208, the round trip: `ENCODE` of an image whose coded values lie in −255 .. 255 and whose codewords are at most 31 bits
succeeds, and `DECODE` with the same `P`, on any source that begins with the bytes it appended, returns `Complete` with the
same dimensions and the same image. -/
def Obligations.RoundTrip : Prop :=
  ∀ s (h w : BitVec 16) p, s.ready → s.bw.isOpen = false → s.reliable → h ≠ 0 → w ≠ 0 →
    imageDefined h.toNat w.toNat s.img → (∀ x ∈ codedFlat p h.toNat w.toNat s.img, -255 ≤ x ∧ x ≤ 255) →
    (∀ e ∈ codeFor (codedFlat p h.toNat w.toNat s.img), e.2.length ≤ 31) →
    ∃ t bytes, exec (.encode h.toNat w.toNat p) s = .next t ∧ t.says (.ok .done) ∧ t.sink = s.sink ++ bytes ∧
      ∀ u trailing, u.ready → u.br.isOpen = false → u.reliable → u.src.bytes.drop u.src.pos = bytes ++ trailing →
        ∃ v, exec (.decode p) u = .next v ∧ v.says (.ok (.decoded (some { h := h, w := w }) .complete)) ∧
          ∀ l, inShape h.toNat w.toNat l = true → Memory.read v.img l = Memory.read s.img l

/-! Invariants. -/

/-- Every step keeps image memory and the decode table in their canonical form, with keys and symbols a stream can carry (R33,
R41), and the forms of the stream units (R21, R23, R25, R43), the total of the histogram (R28), the idle sequencer between
operations (R44) and the codes of the status registers (R211, R218). -/
def Obligations.StepsKeepTheRegistersForms : Prop :=
  (∀ s t, MapsOk s → step s = .next t → MapsOk t) ∧
  (∀ s t, StreamsOk s → step s = .next t → StreamsOk t) ∧
  (∀ s t, HistogramOk s → step s = .next t → HistogramOk t) ∧
  ∀ s t, SequencerOk s → step s = .next t → SequencerOk t

/-- Every step keeps the node arena empty of a root or a tree of at most 1021 nodes, and the code table one with distinct
codable symbols, codewords of 1 to 510 bits and the prefix property (R29, R32, R155, R156). -/
def Obligations.StepsKeepATree : Prop := ∀ s t, TreeOk s → step s = .next t → TreeOk t

/-- The state on leaving reset meets the whole invariant, whatever image memory, the sink, the source and the port hold (R48,
R236): image memory is in its canonical form and the source's position is in it. -/
def Obligations.ResetMeetsTheInvariant : Prop :=
  (∀ e : Environment, Memory.wf e.img = true → e.src.pos ≤ e.src.bytes.length → Inv (State.initial e)) ∧ Inv State.reset
end

