-- ==== Sys2Proof/Laws/Bits.lean ====
section
/-! SUPPORT. Bit sequences, their values and their bytes: `valOf` and `bitsOf` are inverse (R13, R123, R126), and packing
bits into bytes and unpacking them again is the identity up to the padding (R109, R114). -/

namespace Sys2Proof.Machine

@[simp] theorem valOf_nil : valOf [] = 0 := rfl

theorem foldl_double (s : Bits) (v : Nat) :
    s.foldl (fun v b => 2 * v + b.toNat) v = v * 2 ^ s.length + valOf s := by
  induction s generalizing v with
  | nil => simp
  | cons b rest ih =>
    simp only [List.foldl_cons, List.length_cons, valOf, Nat.mul_zero, Nat.zero_add]
    rw [ih, ih b.toNat, pow_succ]
    ring

theorem valOf_cons (b : Bool) (s : Bits) : valOf (b :: s) = b.toNat * 2 ^ s.length + valOf s := by
  rw [valOf, List.foldl_cons, foldl_double]; simp

theorem valOf_lt (s : Bits) : valOf s < 2 ^ s.length := by
  induction s with
  | nil => simp
  | cons b rest ih =>
    rw [valOf_cons, List.length_cons, pow_succ]
    have := Bool.toNat_le b
    nlinarith

@[simp] theorem bitsOf_length (n v : Nat) : (bitsOf n v).length = n := by
  induction n with
  | zero => rfl
  | succ n ih => simp [bitsOf, ih]

theorem bitsOf_mod (n m v : Nat) (h : n ≤ m) : bitsOf n (v % 2 ^ m) = bitsOf n v := by
  induction n with
  | zero => rfl
  | succ n ih => simp [bitsOf, Nat.testBit_mod_two_pow, ih (by omega), show n < m by omega]

theorem valOf_bitsOf_mod (n v : Nat) : valOf (bitsOf n v) = v % 2 ^ n := by
  induction n with
  | zero => simp [bitsOf, Nat.mod_one]
  | succ n ih =>
    rw [bitsOf, valOf_cons, ih, bitsOf_length, Nat.mod_pow_succ, Nat.testBit_eq_decide_div_mod_eq]
    rcases Nat.mod_two_eq_zero_or_one (v / 2 ^ n) with h | h <;> simp [h, Nat.add_comm]

/-- Encoding a value that fits and decoding it gives it back (R123, R126). -/
theorem valOf_bitsOf {n v : Nat} (h : v < 2 ^ n) : valOf (bitsOf n v) = v := by
  rw [valOf_bitsOf_mod, Nat.mod_eq_of_lt h]

/-- Decoding bits and encoding them at their own width gives them back (R126). -/
theorem bitsOf_valOf (s : Bits) : bitsOf s.length (valOf s) = s := by
  induction s with
  | nil => rfl
  | cons b rest ih =>
    have hlt := valOf_lt rest
    rw [List.length_cons, bitsOf, valOf_cons]
    congr 1
    · rw [Nat.testBit_eq_decide_div_mod_eq, Nat.add_comm, Nat.add_mul_div_right _ _ (by positivity),
        Nat.div_eq_of_lt hlt]
      cases b <;> simp
    · rw [← bitsOf_mod _ _ _ (le_refl _), Nat.add_comm, Nat.add_mul_mod_self_right, bitsOf_mod _ _ _ (le_refl _), ih]

@[simp] theorem zeros_length (n : Nat) : (zeros n).length = n := by simp [zeros]

@[simp] theorem bitsOfByte_length (b : Byte) : (bitsOfByte b).length = 8 := by simp [bitsOfByte]

/-- The bits of the byte made of eight bits are those bits (R51). -/
theorem bitsOfByte_byteOf {s : Bits} (h : s.length = 8) : bitsOfByte (byteOf s) = s := by
  have hlt := valOf_lt s
  rw [h] at hlt
  rw [bitsOfByte, byteOf, BitVec.toNat_ofNat, Nat.mod_eq_of_lt hlt, ← h, bitsOf_valOf]

/-- The byte of a byte's bits is the byte (R51). -/
theorem byteOf_bitsOfByte (b : Byte) : byteOf (bitsOfByte b) = b := by
  rw [bitsOfByte, byteOf, valOf_bitsOf b.isLt, BitVec.ofNat_toNat, BitVec.setWidth_eq]

/-- Fewer than eight bits hold no whole byte. -/
theorem packBytes_short {s : Bits} (h : s.length < 8) : packBytes s = [] ∧ leftover s = s := by
  match s, h with
  | [], _ | [_], _ | [_, _], _ | [_, _, _], _ | [_, _, _, _], _ | [_, _, _, _, _], _ | [_, _, _, _, _, _], _
  | [_, _, _, _, _, _, _], _ => exact ⟨rfl, rfl⟩
  | _ :: _ :: _ :: _ :: _ :: _ :: _ :: _ :: _, h => simp at h; omega

/-- Eight bits in front are one byte in front. -/
theorem packBytes_cons8 {a : Bits} (s : Bits) (h : a.length = 8) :
    packBytes (a ++ s) = byteOf a :: packBytes s ∧ leftover (a ++ s) = leftover s := by
  match a, h with
  | [_, _, _, _, _, _, _, _], _ => exact ⟨rfl, rfl⟩

/-- Eight bits are one byte. -/
theorem packBytes_eight {a : Bits} (h : a.length = 8) : packBytes a = [byteOf a] ∧ leftover a = [] := by
  match a, h with
  | [_, _, _, _, _, _, _, _], _ => exact ⟨rfl, rfl⟩

/-- Induction on a bit sequence, one byte at a time. -/
theorem byte_induction {motive : Bits → Prop} (short : ∀ s, s.length < 8 → motive s)
    (byte : ∀ a s, a.length = 8 → motive s → motive (a ++ s)) (s : Bits) : motive s := by
  induction hn : s.length using Nat.strong_induction_on generalizing s with
  | _ n ih =>
    by_cases h : s.length < 8
    · exact short s h
    · have := byte (s.take 8) (s.drop 8) (by simp; omega) (ih _ (by simp; omega) (s.drop 8) rfl)
      rwa [List.take_append_drop] at this

/-- The bytes and the leftover bits are the whole sequence (R69). -/
theorem unpack_pack (s : Bits) : (packBytes s).flatMap bitsOfByte ++ leftover s = s := by
  induction s using byte_induction with
  | short s h => simp [packBytes_short h]
  | byte a s h ih => simp [packBytes_cons8 s h, bitsOfByte_byteOf h, ih]

theorem leftover_length (s : Bits) : (leftover s).length = s.length % 8 := by
  induction s using byte_induction with
  | short s h => simp [packBytes_short h, Nat.mod_eq_of_lt h]
  | byte a s h ih => simp [packBytes_cons8 s h, ih, h]

theorem packBytes_length (s : Bits) : (packBytes s).length = s.length / 8 := by
  induction s using byte_induction with
  | short s h => simp [packBytes_short h, Nat.div_eq_of_lt h]
  | byte a s h ih => simp [packBytes_cons8 s h, ih, h]

/-- Bytes come out as the bytes their bits came from. -/
theorem pack_unpack (l : List Byte) : packBytes (l.flatMap bitsOfByte) = l ∧ leftover (l.flatMap bitsOfByte) = [] := by
  induction l with
  | nil => exact ⟨rfl, rfl⟩
  | cons b rest ih => simp [packBytes_cons8 _ (bitsOfByte_length b), byteOf_bitsOfByte, ih]

/-- Packing may stop and go on: only the leftover bits of the first part matter for the second (R109). -/
theorem packBytes_append (s u : Bits) :
    packBytes (s ++ u) = packBytes s ++ packBytes (leftover s ++ u) ∧ leftover (s ++ u) = leftover (leftover s ++ u) := by
  induction s using byte_induction with
  | short s h => simp [packBytes_short h]
  | byte a s h ih => simp [List.append_assoc, packBytes_cons8 _ h, ih]

theorem padded_length (s : Bits) : (padded s).length % 8 = 0 := by simp [padded]; omega

/-- A padded sequence is whole bytes: unpacking gives the bits and the pad zeros (R114). -/
theorem unpack_padded (s : Bits) : (packBytes (padded s)).flatMap bitsOfByte = padded s := by
  have h := unpack_pack (padded s)
  have h0 : leftover (padded s) = [] := List.eq_nil_of_length_eq_zero (by rw [leftover_length, padded_length])
  rwa [h0, List.append_nil] at h

end Sys2Proof.Machine
end

