-- ==== Sys2Proof/Laws/State.lean ====
section
/-! SUPPORT. What an update of one field of State leaves: one equation for every field and every update, so that no proof
unfolds a record update; and that writing a field back changes nothing. -/

namespace Sys2Proof.Machine

@[simp] theorem withBw_fields (s : State) (v : BitWriter) :
      (s.withBw v).bw = v ∧ (s.withBw v).br = s.br ∧ (s.withBw v).hg = s.hg ∧ (s.withBw v).ht = s.ht ∧
      (s.withBw v).ct = s.ct ∧ (s.withBw v).dt = s.dt ∧ (s.withBw v).vd = s.vd ∧ (s.withBw v).dim = s.dim ∧
      (s.withBw v).cfg = s.cfg ∧ (s.withBw v).seq = s.seq ∧ (s.withBw v).st = s.st ∧ (s.withBw v).img = s.img ∧
      (s.withBw v).sink = s.sink ∧ (s.withBw v).src = s.src ∧ (s.withBw v).port = s.port ∧ (s.withBw v).ioFail = s.ioFail ∧
      (s.withBw v).draws = s.draws :=
  ⟨rfl, rfl, rfl, rfl, rfl, rfl, rfl, rfl, rfl, rfl, rfl, rfl, rfl, rfl, rfl, rfl, rfl⟩

@[simp] theorem withBw_self (s : State) : s.withBw s.bw = s := rfl

@[simp] theorem withBw_withBw (s : State) (u v : BitWriter) : (s.withBw u).withBw v = s.withBw v := rfl

@[simp] theorem withBr_fields (s : State) (v : BitReader) :
      (s.withBr v).bw = s.bw ∧ (s.withBr v).br = v ∧ (s.withBr v).hg = s.hg ∧ (s.withBr v).ht = s.ht ∧
      (s.withBr v).ct = s.ct ∧ (s.withBr v).dt = s.dt ∧ (s.withBr v).vd = s.vd ∧ (s.withBr v).dim = s.dim ∧
      (s.withBr v).cfg = s.cfg ∧ (s.withBr v).seq = s.seq ∧ (s.withBr v).st = s.st ∧ (s.withBr v).img = s.img ∧
      (s.withBr v).sink = s.sink ∧ (s.withBr v).src = s.src ∧ (s.withBr v).port = s.port ∧ (s.withBr v).ioFail = s.ioFail ∧
      (s.withBr v).draws = s.draws :=
  ⟨rfl, rfl, rfl, rfl, rfl, rfl, rfl, rfl, rfl, rfl, rfl, rfl, rfl, rfl, rfl, rfl, rfl⟩

@[simp] theorem withBr_self (s : State) : s.withBr s.br = s := rfl

@[simp] theorem withBr_withBr (s : State) (u v : BitReader) : (s.withBr u).withBr v = s.withBr v := rfl

@[simp] theorem withHg_fields (s : State) (v : Histogram) :
      (s.withHg v).bw = s.bw ∧ (s.withHg v).br = s.br ∧ (s.withHg v).hg = v ∧ (s.withHg v).ht = s.ht ∧
      (s.withHg v).ct = s.ct ∧ (s.withHg v).dt = s.dt ∧ (s.withHg v).vd = s.vd ∧ (s.withHg v).dim = s.dim ∧
      (s.withHg v).cfg = s.cfg ∧ (s.withHg v).seq = s.seq ∧ (s.withHg v).st = s.st ∧ (s.withHg v).img = s.img ∧
      (s.withHg v).sink = s.sink ∧ (s.withHg v).src = s.src ∧ (s.withHg v).port = s.port ∧ (s.withHg v).ioFail = s.ioFail ∧
      (s.withHg v).draws = s.draws :=
  ⟨rfl, rfl, rfl, rfl, rfl, rfl, rfl, rfl, rfl, rfl, rfl, rfl, rfl, rfl, rfl, rfl, rfl⟩

@[simp] theorem withHg_self (s : State) : s.withHg s.hg = s := rfl

@[simp] theorem withHg_withHg (s : State) (u v : Histogram) : (s.withHg u).withHg v = s.withHg v := rfl

@[simp] theorem withHt_fields (s : State) (v : HuffmanTree) :
      (s.withHt v).bw = s.bw ∧ (s.withHt v).br = s.br ∧ (s.withHt v).hg = s.hg ∧ (s.withHt v).ht = v ∧
      (s.withHt v).ct = s.ct ∧ (s.withHt v).dt = s.dt ∧ (s.withHt v).vd = s.vd ∧ (s.withHt v).dim = s.dim ∧
      (s.withHt v).cfg = s.cfg ∧ (s.withHt v).seq = s.seq ∧ (s.withHt v).st = s.st ∧ (s.withHt v).img = s.img ∧
      (s.withHt v).sink = s.sink ∧ (s.withHt v).src = s.src ∧ (s.withHt v).port = s.port ∧ (s.withHt v).ioFail = s.ioFail ∧
      (s.withHt v).draws = s.draws :=
  ⟨rfl, rfl, rfl, rfl, rfl, rfl, rfl, rfl, rfl, rfl, rfl, rfl, rfl, rfl, rfl, rfl, rfl⟩

@[simp] theorem withHt_self (s : State) : s.withHt s.ht = s := rfl

@[simp] theorem withHt_withHt (s : State) (u v : HuffmanTree) : (s.withHt u).withHt v = s.withHt v := rfl

@[simp] theorem withCt_fields (s : State) (v : CodeTable) :
      (s.withCt v).bw = s.bw ∧ (s.withCt v).br = s.br ∧ (s.withCt v).hg = s.hg ∧ (s.withCt v).ht = s.ht ∧
      (s.withCt v).ct = v ∧ (s.withCt v).dt = s.dt ∧ (s.withCt v).vd = s.vd ∧ (s.withCt v).dim = s.dim ∧
      (s.withCt v).cfg = s.cfg ∧ (s.withCt v).seq = s.seq ∧ (s.withCt v).st = s.st ∧ (s.withCt v).img = s.img ∧
      (s.withCt v).sink = s.sink ∧ (s.withCt v).src = s.src ∧ (s.withCt v).port = s.port ∧ (s.withCt v).ioFail = s.ioFail ∧
      (s.withCt v).draws = s.draws :=
  ⟨rfl, rfl, rfl, rfl, rfl, rfl, rfl, rfl, rfl, rfl, rfl, rfl, rfl, rfl, rfl, rfl, rfl⟩

@[simp] theorem withCt_self (s : State) : s.withCt s.ct = s := rfl

@[simp] theorem withCt_withCt (s : State) (u v : CodeTable) : (s.withCt u).withCt v = s.withCt v := rfl

@[simp] theorem withDt_fields (s : State) (v : List (Bits × Symbol)) :
      (s.withDt v).bw = s.bw ∧ (s.withDt v).br = s.br ∧ (s.withDt v).hg = s.hg ∧ (s.withDt v).ht = s.ht ∧
      (s.withDt v).ct = s.ct ∧ (s.withDt v).dt = v ∧ (s.withDt v).vd = s.vd ∧ (s.withDt v).dim = s.dim ∧
      (s.withDt v).cfg = s.cfg ∧ (s.withDt v).seq = s.seq ∧ (s.withDt v).st = s.st ∧ (s.withDt v).img = s.img ∧
      (s.withDt v).sink = s.sink ∧ (s.withDt v).src = s.src ∧ (s.withDt v).port = s.port ∧ (s.withDt v).ioFail = s.ioFail ∧
      (s.withDt v).draws = s.draws :=
  ⟨rfl, rfl, rfl, rfl, rfl, rfl, rfl, rfl, rfl, rfl, rfl, rfl, rfl, rfl, rfl, rfl, rfl⟩

@[simp] theorem withDt_self (s : State) : s.withDt s.dt = s := rfl

@[simp] theorem withDt_withDt (s : State) (u v : List (Bits × Symbol)) : (s.withDt u).withDt v = s.withDt v := rfl

@[simp] theorem withVd_fields (s : State) (v : Decoder) :
      (s.withVd v).bw = s.bw ∧ (s.withVd v).br = s.br ∧ (s.withVd v).hg = s.hg ∧ (s.withVd v).ht = s.ht ∧
      (s.withVd v).ct = s.ct ∧ (s.withVd v).dt = s.dt ∧ (s.withVd v).vd = v ∧ (s.withVd v).dim = s.dim ∧
      (s.withVd v).cfg = s.cfg ∧ (s.withVd v).seq = s.seq ∧ (s.withVd v).st = s.st ∧ (s.withVd v).img = s.img ∧
      (s.withVd v).sink = s.sink ∧ (s.withVd v).src = s.src ∧ (s.withVd v).port = s.port ∧ (s.withVd v).ioFail = s.ioFail ∧
      (s.withVd v).draws = s.draws :=
  ⟨rfl, rfl, rfl, rfl, rfl, rfl, rfl, rfl, rfl, rfl, rfl, rfl, rfl, rfl, rfl, rfl, rfl⟩

@[simp] theorem withVd_self (s : State) : s.withVd s.vd = s := rfl

@[simp] theorem withVd_withVd (s : State) (u v : Decoder) : (s.withVd u).withVd v = s.withVd v := rfl

@[simp] theorem withDim_fields (s : State) (v : Dims) :
      (s.withDim v).bw = s.bw ∧ (s.withDim v).br = s.br ∧ (s.withDim v).hg = s.hg ∧ (s.withDim v).ht = s.ht ∧
      (s.withDim v).ct = s.ct ∧ (s.withDim v).dt = s.dt ∧ (s.withDim v).vd = s.vd ∧ (s.withDim v).dim = v ∧
      (s.withDim v).cfg = s.cfg ∧ (s.withDim v).seq = s.seq ∧ (s.withDim v).st = s.st ∧ (s.withDim v).img = s.img ∧
      (s.withDim v).sink = s.sink ∧ (s.withDim v).src = s.src ∧ (s.withDim v).port = s.port ∧ (s.withDim v).ioFail = s.ioFail ∧
      (s.withDim v).draws = s.draws :=
  ⟨rfl, rfl, rfl, rfl, rfl, rfl, rfl, rfl, rfl, rfl, rfl, rfl, rfl, rfl, rfl, rfl, rfl⟩

@[simp] theorem withDim_self (s : State) : s.withDim s.dim = s := rfl

@[simp] theorem withDim_withDim (s : State) (u v : Dims) : (s.withDim u).withDim v = s.withDim v := rfl

@[simp] theorem withCfg_fields (s : State) (v : Cfg) :
      (s.withCfg v).bw = s.bw ∧ (s.withCfg v).br = s.br ∧ (s.withCfg v).hg = s.hg ∧ (s.withCfg v).ht = s.ht ∧
      (s.withCfg v).ct = s.ct ∧ (s.withCfg v).dt = s.dt ∧ (s.withCfg v).vd = s.vd ∧ (s.withCfg v).dim = s.dim ∧
      (s.withCfg v).cfg = v ∧ (s.withCfg v).seq = s.seq ∧ (s.withCfg v).st = s.st ∧ (s.withCfg v).img = s.img ∧
      (s.withCfg v).sink = s.sink ∧ (s.withCfg v).src = s.src ∧ (s.withCfg v).port = s.port ∧ (s.withCfg v).ioFail = s.ioFail ∧
      (s.withCfg v).draws = s.draws :=
  ⟨rfl, rfl, rfl, rfl, rfl, rfl, rfl, rfl, rfl, rfl, rfl, rfl, rfl, rfl, rfl, rfl, rfl⟩

@[simp] theorem withCfg_self (s : State) : s.withCfg s.cfg = s := rfl

@[simp] theorem withCfg_withCfg (s : State) (u v : Cfg) : (s.withCfg u).withCfg v = s.withCfg v := rfl

@[simp] theorem withSeq_fields (s : State) (v : Sequencer) :
      (s.withSeq v).bw = s.bw ∧ (s.withSeq v).br = s.br ∧ (s.withSeq v).hg = s.hg ∧ (s.withSeq v).ht = s.ht ∧
      (s.withSeq v).ct = s.ct ∧ (s.withSeq v).dt = s.dt ∧ (s.withSeq v).vd = s.vd ∧ (s.withSeq v).dim = s.dim ∧
      (s.withSeq v).cfg = s.cfg ∧ (s.withSeq v).seq = v ∧ (s.withSeq v).st = s.st ∧ (s.withSeq v).img = s.img ∧
      (s.withSeq v).sink = s.sink ∧ (s.withSeq v).src = s.src ∧ (s.withSeq v).port = s.port ∧ (s.withSeq v).ioFail = s.ioFail ∧
      (s.withSeq v).draws = s.draws :=
  ⟨rfl, rfl, rfl, rfl, rfl, rfl, rfl, rfl, rfl, rfl, rfl, rfl, rfl, rfl, rfl, rfl, rfl⟩

@[simp] theorem withSeq_self (s : State) : s.withSeq s.seq = s := rfl

@[simp] theorem withSeq_withSeq (s : State) (u v : Sequencer) : (s.withSeq u).withSeq v = s.withSeq v := rfl

@[simp] theorem withSt_fields (s : State) (v : Status) :
      (s.withSt v).bw = s.bw ∧ (s.withSt v).br = s.br ∧ (s.withSt v).hg = s.hg ∧ (s.withSt v).ht = s.ht ∧
      (s.withSt v).ct = s.ct ∧ (s.withSt v).dt = s.dt ∧ (s.withSt v).vd = s.vd ∧ (s.withSt v).dim = s.dim ∧
      (s.withSt v).cfg = s.cfg ∧ (s.withSt v).seq = s.seq ∧ (s.withSt v).st = v ∧ (s.withSt v).img = s.img ∧
      (s.withSt v).sink = s.sink ∧ (s.withSt v).src = s.src ∧ (s.withSt v).port = s.port ∧ (s.withSt v).ioFail = s.ioFail ∧
      (s.withSt v).draws = s.draws :=
  ⟨rfl, rfl, rfl, rfl, rfl, rfl, rfl, rfl, rfl, rfl, rfl, rfl, rfl, rfl, rfl, rfl, rfl⟩

@[simp] theorem withSt_self (s : State) : s.withSt s.st = s := rfl

@[simp] theorem withSt_withSt (s : State) (u v : Status) : (s.withSt u).withSt v = s.withSt v := rfl

@[simp] theorem withImg_fields (s : State) (v : List (Loc × Sample)) :
      (s.withImg v).bw = s.bw ∧ (s.withImg v).br = s.br ∧ (s.withImg v).hg = s.hg ∧ (s.withImg v).ht = s.ht ∧
      (s.withImg v).ct = s.ct ∧ (s.withImg v).dt = s.dt ∧ (s.withImg v).vd = s.vd ∧ (s.withImg v).dim = s.dim ∧
      (s.withImg v).cfg = s.cfg ∧ (s.withImg v).seq = s.seq ∧ (s.withImg v).st = s.st ∧ (s.withImg v).img = v ∧
      (s.withImg v).sink = s.sink ∧ (s.withImg v).src = s.src ∧ (s.withImg v).port = s.port ∧ (s.withImg v).ioFail = s.ioFail ∧
      (s.withImg v).draws = s.draws :=
  ⟨rfl, rfl, rfl, rfl, rfl, rfl, rfl, rfl, rfl, rfl, rfl, rfl, rfl, rfl, rfl, rfl, rfl⟩

@[simp] theorem withImg_self (s : State) : s.withImg s.img = s := rfl

@[simp] theorem withImg_withImg (s : State) (u v : List (Loc × Sample)) : (s.withImg u).withImg v = s.withImg v := rfl

@[simp] theorem withSink_fields (s : State) (v : List Byte) :
      (s.withSink v).bw = s.bw ∧ (s.withSink v).br = s.br ∧ (s.withSink v).hg = s.hg ∧ (s.withSink v).ht = s.ht ∧
      (s.withSink v).ct = s.ct ∧ (s.withSink v).dt = s.dt ∧ (s.withSink v).vd = s.vd ∧ (s.withSink v).dim = s.dim ∧
      (s.withSink v).cfg = s.cfg ∧ (s.withSink v).seq = s.seq ∧ (s.withSink v).st = s.st ∧ (s.withSink v).img = s.img ∧
      (s.withSink v).sink = v ∧ (s.withSink v).src = s.src ∧ (s.withSink v).port = s.port ∧ (s.withSink v).ioFail = s.ioFail ∧
      (s.withSink v).draws = s.draws :=
  ⟨rfl, rfl, rfl, rfl, rfl, rfl, rfl, rfl, rfl, rfl, rfl, rfl, rfl, rfl, rfl, rfl, rfl⟩

@[simp] theorem withSink_self (s : State) : s.withSink s.sink = s := rfl

@[simp] theorem withSink_withSink (s : State) (u v : List Byte) : (s.withSink u).withSink v = s.withSink v := rfl

@[simp] theorem withSrc_fields (s : State) (v : Source) :
      (s.withSrc v).bw = s.bw ∧ (s.withSrc v).br = s.br ∧ (s.withSrc v).hg = s.hg ∧ (s.withSrc v).ht = s.ht ∧
      (s.withSrc v).ct = s.ct ∧ (s.withSrc v).dt = s.dt ∧ (s.withSrc v).vd = s.vd ∧ (s.withSrc v).dim = s.dim ∧
      (s.withSrc v).cfg = s.cfg ∧ (s.withSrc v).seq = s.seq ∧ (s.withSrc v).st = s.st ∧ (s.withSrc v).img = s.img ∧
      (s.withSrc v).sink = s.sink ∧ (s.withSrc v).src = v ∧ (s.withSrc v).port = s.port ∧ (s.withSrc v).ioFail = s.ioFail ∧
      (s.withSrc v).draws = s.draws :=
  ⟨rfl, rfl, rfl, rfl, rfl, rfl, rfl, rfl, rfl, rfl, rfl, rfl, rfl, rfl, rfl, rfl, rfl⟩

@[simp] theorem withSrc_self (s : State) : s.withSrc s.src = s := rfl

@[simp] theorem withSrc_withSrc (s : State) (u v : Source) : (s.withSrc u).withSrc v = s.withSrc v := rfl

@[simp] theorem withPort_fields (s : State) (v : Port) :
      (s.withPort v).bw = s.bw ∧ (s.withPort v).br = s.br ∧ (s.withPort v).hg = s.hg ∧ (s.withPort v).ht = s.ht ∧
      (s.withPort v).ct = s.ct ∧ (s.withPort v).dt = s.dt ∧ (s.withPort v).vd = s.vd ∧ (s.withPort v).dim = s.dim ∧
      (s.withPort v).cfg = s.cfg ∧ (s.withPort v).seq = s.seq ∧ (s.withPort v).st = s.st ∧ (s.withPort v).img = s.img ∧
      (s.withPort v).sink = s.sink ∧ (s.withPort v).src = s.src ∧ (s.withPort v).port = v ∧ (s.withPort v).ioFail = s.ioFail ∧
      (s.withPort v).draws = s.draws :=
  ⟨rfl, rfl, rfl, rfl, rfl, rfl, rfl, rfl, rfl, rfl, rfl, rfl, rfl, rfl, rfl, rfl, rfl⟩

@[simp] theorem withPort_self (s : State) : s.withPort s.port = s := rfl

@[simp] theorem withPort_withPort (s : State) (u v : Port) : (s.withPort u).withPort v = s.withPort v := rfl

@[simp] theorem withIoFail_fields (s : State) (v : List Bool) :
      (s.withIoFail v).bw = s.bw ∧ (s.withIoFail v).br = s.br ∧ (s.withIoFail v).hg = s.hg ∧ (s.withIoFail v).ht = s.ht ∧
      (s.withIoFail v).ct = s.ct ∧ (s.withIoFail v).dt = s.dt ∧ (s.withIoFail v).vd = s.vd ∧ (s.withIoFail v).dim = s.dim ∧
      (s.withIoFail v).cfg = s.cfg ∧ (s.withIoFail v).seq = s.seq ∧ (s.withIoFail v).st = s.st ∧ (s.withIoFail v).img = s.img ∧
      (s.withIoFail v).sink = s.sink ∧ (s.withIoFail v).src = s.src ∧ (s.withIoFail v).port = s.port ∧ (s.withIoFail v).ioFail = v ∧
      (s.withIoFail v).draws = s.draws :=
  ⟨rfl, rfl, rfl, rfl, rfl, rfl, rfl, rfl, rfl, rfl, rfl, rfl, rfl, rfl, rfl, rfl, rfl⟩

@[simp] theorem withIoFail_self (s : State) : s.withIoFail s.ioFail = s := rfl

@[simp] theorem withIoFail_withIoFail (s : State) (u v : List Bool) : (s.withIoFail u).withIoFail v = s.withIoFail v := rfl

@[simp] theorem withDraws_fields (s : State) (v : Nat) :
      (s.withDraws v).bw = s.bw ∧ (s.withDraws v).br = s.br ∧ (s.withDraws v).hg = s.hg ∧ (s.withDraws v).ht = s.ht ∧
      (s.withDraws v).ct = s.ct ∧ (s.withDraws v).dt = s.dt ∧ (s.withDraws v).vd = s.vd ∧ (s.withDraws v).dim = s.dim ∧
      (s.withDraws v).cfg = s.cfg ∧ (s.withDraws v).seq = s.seq ∧ (s.withDraws v).st = s.st ∧ (s.withDraws v).img = s.img ∧
      (s.withDraws v).sink = s.sink ∧ (s.withDraws v).src = s.src ∧ (s.withDraws v).port = s.port ∧ (s.withDraws v).ioFail = s.ioFail ∧
      (s.withDraws v).draws = v :=
  ⟨rfl, rfl, rfl, rfl, rfl, rfl, rfl, rfl, rfl, rfl, rfl, rfl, rfl, rfl, rfl, rfl, rfl⟩

@[simp] theorem withDraws_self (s : State) : s.withDraws s.draws = s := rfl

@[simp] theorem withDraws_withDraws (s : State) (u v : Nat) : (s.withDraws u).withDraws v = s.withDraws v := rfl

/-- The initial state takes its environment as it is (R236). -/
@[simp] theorem initial_environment (e : Environment) : (State.initial e).environment = e := rfl

/-- Two states with equal fields are equal. -/
theorem State.ext_fields {s t : State} (h0 : s.bw = t.bw) (h1 : s.br = t.br) (h2 : s.hg = t.hg) (h3 : s.ht = t.ht) (h4 : s.ct = t.ct) (h5 : s.dt = t.dt) (h6 : s.vd = t.vd) (h7 : s.dim = t.dim) (h8 : s.cfg = t.cfg) (h9 : s.seq = t.seq) (h10 : s.st = t.st) (h11 : s.img = t.img) (h12 : s.sink = t.sink) (h13 : s.src = t.src) (h14 : s.port = t.port) (h15 : s.ioFail = t.ioFail) (h16 : s.draws = t.draws) : s = t := by
  cases s; cases t; simp_all

end Sys2Proof.Machine
end

