-- ==== Sys2Proof/Laws/Memory.lean ====
section
/-! SUPPORT. The sparse maps of the state: read after write, what a write and a removal leave alone, and that every
operation on image memory and on the decode table keeps the canonical form (R33, R41, R54). -/

namespace Sys2Proof.Machine

/-- What a key order must satisfy for a table sorted by it to be canonical. -/
structure KeyOrder {κ : Type} (lt : κ → κ → Bool) : Prop where
  irrefl : ∀ a, lt a a = false
  trans : ∀ a b c, lt a b = true → lt b c = true → lt a c = true
  total : ∀ a b, a ≠ b → lt a b = false → lt b a = true

theorem locLt_order : KeyOrder locLt where
  irrefl a := by simp [locLt]
  trans a b c hab hbc := by simp only [locLt, decide_eq_true_eq] at *; omega
  total a b hne hn := by
    simp only [locLt, decide_eq_true_eq, decide_eq_false_iff_not] at *
    have : ¬ (a.r = b.r ∧ a.c = b.c ∧ a.k = b.k) := fun ⟨h1, h2, h3⟩ => hne (by cases a; cases b; simp_all)
    omega

theorem bitsLt_order : KeyOrder bitsLt where
  irrefl a := by induction a with
    | nil => rfl
    | cons b rest ih => simpa [bitsLt] using ih
  trans a b c hab hbc := by
    induction a generalizing b c with
    | nil => cases b <;> cases c <;> simp_all [bitsLt]
    | cons x as ih =>
      cases b with
      | nil => simp [bitsLt] at hab
      | cons y bs =>
        cases c with
        | nil => simp [bitsLt] at hbc
        | cons z cs =>
          have := ih bs cs
          cases x <;> cases y <;> cases z <;> simp_all [bitsLt]
  total a b hne hn := by
    induction a generalizing b with
    | nil => cases b <;> simp_all [bitsLt]
    | cons x as ih =>
      cases b with
      | nil => rfl
      | cons y bs =>
        have := ih bs
        cases x <;> cases y <;> simp_all [bitsLt]

section table

variable {κ ν : Type} [DecidableEq κ] {lt : κ → κ → Bool}

@[simp] theorem Table.get_nil (k : κ) : Table.get ([] : List (κ × ν)) k = none := rfl

/-- Read after write (R54). -/
@[simp] theorem Table.get_put_same (k : κ) (v : ν) (m : List (κ × ν)) : Table.get (Table.put lt k v m) k = some v := by
  induction m with
  | nil => simp [Table.put, Table.get]
  | cons e rest ih =>
    obtain ⟨k', v'⟩ := e
    simp only [Table.put]
    split
    · simp [Table.get]
    · split
      · simp [Table.get]
      · rename_i h _; simp [Table.get, Ne.symm h, ih]

/-- A write leaves every other key alone (R54). -/
theorem Table.get_put_other {k j : κ} (h : j ≠ k) (v : ν) (m : List (κ × ν)) :
    Table.get (Table.put lt k v m) j = Table.get m j := by
  induction m with
  | nil => simp [Table.put, Table.get, Ne.symm h]
  | cons e rest ih =>
    obtain ⟨k', v'⟩ := e
    simp only [Table.put]
    split
    · rename_i hk; subst hk; simp [Table.get, Ne.symm h]
    · split
      · simp [Table.get, Ne.symm h]
      · simp [Table.get, ih]

theorem Table.mem_put {k : κ} {v : ν} {m : List (κ × ν)} {e : κ × ν} (h : e ∈ Table.put lt k v m) :
    e = (k, v) ∨ e ∈ m := by
  induction m with
  | nil => simpa [Table.put] using h
  | cons e' rest ih =>
    obtain ⟨k', v'⟩ := e'
    simp only [Table.put] at h
    split at h
    · simp only [List.mem_cons] at h ⊢; tauto
    · split at h
      · simp only [List.mem_cons] at h ⊢; tauto
      · simp only [List.mem_cons] at h ⊢
        rcases h with h | h
        · tauto
        · rcases ih h with h | h <;> tauto

omit [DecidableEq κ] in
@[simp] theorem Table.sorted_nil : Table.sorted lt ([] : List (κ × ν)) = true := rfl

/-- A write keeps the canonical form. -/
theorem Table.sorted_put (ord : KeyOrder lt) (k : κ) (v : ν) {m : List (κ × ν)} (h : Table.sorted lt m = true) :
    Table.sorted lt (Table.put lt k v m) = true := by
  induction m with
  | nil => simp [Table.put, Table.sorted]
  | cons e rest ih =>
    obtain ⟨k', v'⟩ := e
    simp only [Table.sorted, Bool.and_eq_true, List.all_eq_true] at h
    simp only [Table.put]
    split
    · rename_i hk; subst hk; simpa [Table.sorted] using h
    · rename_i hne
      split
      · rename_i hlt
        simp only [Table.sorted, Bool.and_eq_true, List.all_eq_true, List.mem_cons]
        refine ⟨?_, h⟩
        rintro e (rfl | he)
        · exact hlt
        · exact ord.trans _ _ _ hlt (h.1 e he)
      · rename_i hlt
        simp only [Table.sorted, Bool.and_eq_true, List.all_eq_true]
        refine ⟨fun e he => ?_, ih h.2⟩
        rcases Table.mem_put he with rfl | he
        · exact ord.total _ _ hne (by simpa using hlt)
        · exact h.1 e he

omit [DecidableEq κ] in
/-- A removal keeps the canonical form. -/
theorem Table.sorted_remove (drop : κ → Bool) {m : List (κ × ν)} (h : Table.sorted lt m = true) :
    Table.sorted lt (Table.remove drop m) = true := by
  induction m with
  | nil => rfl
  | cons e rest ih =>
    simp only [Table.sorted, Bool.and_eq_true, List.all_eq_true] at h
    simp only [Table.remove, List.filter_cons]
    split
    · simp only [Table.sorted, Bool.and_eq_true, List.all_eq_true]
      exact ⟨fun e' he' => h.1 e' (List.mem_filter.mp he').1, ih h.2⟩
    · exact ih h.2

/-- What a removal leaves. -/
theorem Table.get_remove (drop : κ → Bool) (m : List (κ × ν)) (k : κ) :
    Table.get (Table.remove drop m) k = if drop k then none else Table.get m k := by
  induction m with
  | nil => simp [Table.remove]
  | cons e rest ih =>
    obtain ⟨k', v'⟩ := e
    simp only [Table.remove, List.filter_cons] at ih ⊢
    by_cases hd : drop k' = true
    · simp only [hd, Bool.not_true, Bool.false_eq_true, if_false, ih, Table.get]
      by_cases hk : k' = k
      · subst hk; simp [hd]
      · simp [hk]
    · simp only [hd, Bool.not_false, if_true, Table.get, ih]
      by_cases hk : k' = k
      · subst hk; simp [hd]
      · simp [hk]

omit [DecidableEq κ] in
theorem Table.mem_remove {drop : κ → Bool} {m : List (κ × ν)} {e : κ × ν} (h : e ∈ Table.remove drop m) : e ∈ m :=
  (List.mem_filter.mp h).1

theorem Table.get_eq_none {m : List (κ × ν)} {k : κ} (h : ∀ e ∈ m, e.1 ≠ k) : Table.get m k = none := by
  induction m with
  | nil => rfl
  | cons e rest ih =>
    simp only [Table.get, h e List.mem_cons_self, if_false]
    exact ih fun e' he' => h e' (List.mem_cons_of_mem _ he')

theorem Table.mem_of_get {m : List (κ × ν)} {k : κ} {v : ν} (h : Table.get m k = some v) : (k, v) ∈ m := by
  induction m with
  | nil => simp at h
  | cons e rest ih =>
    obtain ⟨k', v'⟩ := e
    simp only [Table.get] at h
    split at h
    · rename_i hk; subst hk; simp_all
    · exact List.mem_cons_of_mem _ (ih h)

/-- Canonical tables that hold the same values are the same list. -/
theorem Table.ext (ord : KeyOrder lt) {m n : List (κ × ν)} (hm : Table.sorted lt m = true) (hn : Table.sorted lt n = true)
    (h : ∀ k, Table.get m k = Table.get n k) : m = n := by
  induction m generalizing n with
  | nil =>
    cases n with
    | nil => rfl
    | cons e rest => have := h e.1; simp [Table.get] at this
  | cons a as ih =>
    cases n with
    | nil => have := h a.1; simp [Table.get] at this
    | cons b bs =>
      simp only [Table.sorted, Bool.and_eq_true, List.all_eq_true] at hm hn
      have nolt : ∀ {x : κ} {l : List (κ × ν)}, (∀ e ∈ l, lt x e.1 = true) → ∀ e ∈ l, e.1 ≠ x := by
        intro x l hl e he hx; have := hl e he; rw [hx, ord.irrefl] at this; cases this
      have key : a.1 = b.1 := by
        by_contra hne
        rcases hlt : lt a.1 b.1 with _ | _
        · have hba := ord.total _ _ hne hlt
          have hb := h b.1
          rw [Table.get_eq_none (m := a :: as)] at hb
          · simp [Table.get] at hb
          · intro e he hx
            rcases List.mem_cons.mp he with rfl | he
            · exact hne hx
            · have := ord.trans _ _ _ hba (hm.1 e he); rw [hx, ord.irrefl] at this; cases this
        · have ha := h a.1
          rw [Table.get_eq_none (m := b :: bs)] at ha
          · simp [Table.get] at ha
          · intro e he hx
            rcases List.mem_cons.mp he with rfl | he
            · exact hne hx.symm
            · have := ord.trans _ _ _ hlt (hn.1 e he); rw [hx, ord.irrefl] at this; cases this
      have val : a.2 = b.2 := by
        have := h a.1
        simpa [Table.get, key] using this
      have hab : a = b := Prod.ext key val
      subst hab
      congr 1
      refine ih hm.2 hn.2 fun k => ?_
      by_cases hk : a.1 = k
      · subst hk
        rw [Table.get_eq_none (nolt hm.1), Table.get_eq_none (nolt hn.1)]
      · have := h k
        simpa [Table.get, hk] using this

end table

/-- Read after write in image memory (R54). -/
@[simp] theorem Memory.read_write_same (m : List (Loc × Sample)) (l : Loc) (v : Sample) :
    Memory.read (Memory.write m l v) l = some v := Table.get_put_same l v m

/-- An image write leaves every other location alone (R54). -/
theorem Memory.read_write_other {l l' : Loc} (h : l' ≠ l) (m : List (Loc × Sample)) (v : Sample) :
    Memory.read (Memory.write m l v) l' = Memory.read m l' := Table.get_put_other h v m

/-- An image write keeps the canonical form. -/
theorem Memory.wf_write (l : Loc) (v : Sample) {m : List (Loc × Sample)} (h : Memory.wf m = true) :
    Memory.wf (Memory.write m l v) = true := Table.sorted_put locLt_order l v h

/-- Forgetting locations keeps the canonical form. -/
theorem Memory.wf_forgetFrom (h w i : Nat) {m : List (Loc × Sample)} (hm : Memory.wf m = true) :
    Memory.wf (Memory.forgetFrom h w i m) = true := Table.sorted_remove _ hm

/-- What forgetting leaves (R199). -/
theorem Memory.read_forgetFrom (h w i : Nat) (m : List (Loc × Sample)) (l : Loc) :
    Memory.read (Memory.forgetFrom h w i m) l =
      if inShape h w l && decide (i ≤ flatIndex w l) then none else Memory.read m l := Table.get_remove _ m l

/-- Forgetting one location keeps the canonical form. -/
theorem Memory.wf_forget (l : Loc) {m : List (Loc × Sample)} (hm : Memory.wf m = true) :
    Memory.wf (Memory.forget l m) = true := Table.sorted_remove _ hm

/-- What forgetting one location leaves (R17). -/
theorem Memory.read_forget (l : Loc) (m : List (Loc × Sample)) (l' : Loc) :
    Memory.read (Memory.forget l m) l' = if l' = l then none else Memory.read m l' := by
  simp [Memory.read, Memory.forget, Table.get_remove]

/-- Storing a combination keeps the canonical form. -/
theorem Memory.wf_combine (f : Sample → Sample → Sample) (a b l : Loc) {m : List (Loc × Sample)} (hm : Memory.wf m = true) :
    Memory.wf (Memory.combine f a b l m) = true := by
  simp only [Memory.combine]
  split
  · exact Memory.wf_write _ _ hm
  · exact Memory.wf_forget _ hm

/-- What storing a combination leaves (R161, R163). -/
theorem Memory.read_combine (f : Sample → Sample → Sample) (a b l l' : Loc) (m : List (Loc × Sample)) :
    Memory.read (Memory.combine f a b l m) l' =
      if l' = l then ofBoth f (Memory.read m a) (Memory.read m b) else Memory.read m l' := by
  simp only [Memory.combine]
  by_cases h : l' = l
  · subst h
    rw [if_pos rfl]
    split <;> simp_all [Memory.read_forget]
  · rw [if_neg h]
    split
    · exact Memory.read_write_other h _ _
    · rw [Memory.read_forget, if_neg h]

/-- Canonical image memories that read alike are equal. -/
theorem Memory.ext {m n : List (Loc × Sample)} (hm : Memory.wf m = true) (hn : Memory.wf n = true)
    (h : ∀ l, Memory.read m l = Memory.read n l) : m = n := Table.ext locLt_order hm hn h

/-- Reset's image memory is canonical. -/
theorem Memory.wf_reset : Memory.wf State.reset.img = true := rfl

/-- The flat index of a location and the location of a flat index are inverse (R55). -/
theorem flatIndex_flatLoc {w : Nat} (_hw : 0 < w) (i : Nat) : flatIndex w (flatLoc w i) = i := by
  simp only [flatIndex, flatLoc]
  have h1 : i / (3 * w) = i / 3 / w := (Nat.div_div_eq_div_mul i 3 w).symm
  rw [h1, Nat.div_add_mod' (i / 3) w]
  omega

/-- The location of a flat index and its flat index are inverse (R55). -/
theorem flatLoc_flatIndex {w : Nat} {l : Loc} (hc : l.c < w) (hk : l.k < 3) : flatLoc w (flatIndex w l) = l := by
  obtain ⟨r, c, k⟩ := l
  simp only at hc hk
  have h3 : ((r * w + c) * 3 + k) / 3 = r * w + c := by omega
  simp only [flatIndex, flatLoc, ← Nat.div_div_eq_div_mul, h3]
  congr 1
  · rw [Nat.add_comm, Nat.add_mul_div_right _ _ (by omega), Nat.div_eq_of_lt hc, Nat.zero_add]
  · rw [Nat.add_comm, Nat.add_mul_mod_self_right, Nat.mod_eq_of_lt hc]
  · omega

/-- A flat index below the number of samples is a location of the shape (R55). -/
theorem inShape_flatLoc {h w i : Nat} (hi : i < h * w * 3) : inShape h w (flatLoc w i) = true := by
  have hw : 0 < w := by exact Nat.pos_of_ne_zero fun h0 => by simp [h0] at hi
  have hr : i / (3 * w) < h := by
    rw [Nat.div_lt_iff_lt_mul (by omega)]; nlinarith
  have hc : i / 3 % w < w := Nat.mod_lt _ hw
  simp [inShape, flatLoc, hr, hc, Nat.mod_lt]

/-- A location of the shape has a flat index below the number of samples (R55). -/
theorem flatIndex_lt {h w : Nat} {l : Loc} (hl : inShape h w l = true) : flatIndex w l < h * w * 3 := by
  simp only [inShape, Bool.and_eq_true, decide_eq_true_eq] at hl
  obtain ⟨⟨hr, hc⟩, hk⟩ := hl
  have : l.r * w + w ≤ h * w := by nlinarith
  simp only [flatIndex]; omega

end Sys2Proof.Machine
end

