-- ==== Sys2Proof/Laws/Ops.lean ====
section
/-! SUPPORT. What each shared operation can do: one lemma per operation that says every way it can end, and the principle
by which a relation between the state before and the state after (a frame, an invariant) is carried through pseudocode,
its loops, the abort procedure and the gate. -/

namespace Sys2Proof.Machine

/-! Pseudocode that goes on. -/

@[simp] theorem give_apply {α : Type} (a : α) (s : State) : give a s = .ok a s := rfl

@[simp] theorem assign_apply (f : State → State) (s : State) : assign f s = .ok () (f s) := rfl

@[simp] theorem raise_apply {α : Type} (e : FaultKind) (info : Int × Int) (s : State) :
    (raise e info : Op α) s = .stop (.fault e info) s := rfl

@[simp] theorem refuse_apply {α : Type} (r : RefuseKind) (s : State) : (refuse r : Op α) s = .stop (.refuse r) s := rfl

theorem andThen_ok {α β : Type} {m : Op α} {f : α → Op β} {s t : State} {a : α} (h : m s = .ok a t) :
    m.andThen f s = f a t := by simp [Op.andThen, h]

theorem andThen_stop {α β : Type} {m : Op α} {f : α → Op β} {s t : State} {c : Cause} (h : m s = .stop c t) :
    m.andThen f s = .stop c t := by simp [Op.andThen, h]

theorem next_ok {α β : Type} {m : Op α} {f : Op β} {s t : State} {a : α} (h : m s = .ok a t) : m.next f s = f t :=
  andThen_ok h

theorem next_stop {α β : Type} {m : Op α} {f : Op β} {s t : State} {c : Cause} (h : m s = .stop c t) :
    m.next f s = .stop c t := andThen_stop h

@[simp] theorem assign_next {β : Type} (f : State → State) (m : Op β) (s : State) : (assign f).next m s = m (f s) := rfl

@[simp] theorem assign_andThen {β : Type} (f : State → State) (m : Unit → Op β) (s : State) :
    (assign f).andThen m s = m () (f s) := rfl

@[simp] theorem give_andThen {α β : Type} (a : α) (f : α → Op β) : (give a).andThen f = f a := rfl

@[simp] theorem give_next {α β : Type} (a : α) (m : Op β) : (give a).next m = m := rfl

theorem andThen_assoc {α β γ : Type} (m : Op α) (f : α → Op β) (g : β → Op γ) :
    (m.andThen f).andThen g = m.andThen fun a => (f a).andThen g := by
  funext s; simp only [Op.andThen]; cases m s <;> rfl

/-- A sequence that went on: its first part did, and its second. -/
theorem andThen_eq_ok {α β : Type} {m : Op α} {f : α → Op β} {s t : State} {b : β} (h : m.andThen f s = .ok b t) :
    ∃ a u, m s = .ok a u ∧ f a u = .ok b t := by
  simp only [Op.andThen] at h
  cases hm : m s with
  | ok a u => exact ⟨a, u, rfl, by simpa [hm] using h⟩
  | stop c u => simp [hm] at h

/-- A sequence that stopped: its first part did, or its second. -/
theorem andThen_eq_stop {α β : Type} {m : Op α} {f : α → Op β} {s t : State} {c : Cause} (h : m.andThen f s = .stop c t) :
    m s = .stop c t ∨ ∃ a u, m s = .ok a u ∧ f a u = .stop c t := by
  simp only [Op.andThen] at h
  cases hm : m s with
  | ok a u => exact .inr ⟨a, u, rfl, by simpa [hm] using h⟩
  | stop c' u => exact .inl (by simpa [hm] using h)

@[simp] theorem forEach_nil {α : Type} (body : α → Op Unit) : forEach [] body = give () := rfl

@[simp] theorem forEach_cons {α : Type} (x : α) (rest : List α) (body : α → Op Unit) :
    forEach (x :: rest) body = (body x).next (forEach rest body) := rfl

theorem forEach_append {α : Type} (l m : List α) (body : α → Op Unit) :
    forEach (l ++ m) body = (forEach l body).next (forEach m body) := by
  induction l with
  | nil => rfl
  | cons x rest ih => simp only [List.cons_append, forEach_cons, ih, Op.next, andThen_assoc]

/-- Counting up is going through a range. -/
theorem forUp_eq_forEach (start n : Nat) (body : Nat → Op Unit) : forUp start n body = forEach (List.range' start n) body := by
  induction n generalizing start with
  | zero => rfl
  | succ n ih => simp [forUp, List.range'_succ, ih]

/-- The last round of counting up. -/
theorem forUp_succ_last (start n : Nat) (body : Nat → Op Unit) :
    forUp start (n + 1) body = (forUp start n body).next (body (start + n)) := by
  rw [forUp_eq_forEach, forUp_eq_forEach, List.range'_concat, forEach_append]
  simp only [forEach_cons, forEach_nil, Nat.one_mul]
  congr 1
  funext s
  simp only [Op.next, Op.andThen]
  cases body (start + n) s <;> rfl

/-! The memory primitives (R54 to R57). -/

/-- All that an append can do (R56). -/
theorem sinkAppend_cases (b : Byte) (s : State) :
    (ioFailsNow s = true ∧ sinkAppend b s = .stop (.fault .ioFailure (0, 0)) (tickIo s)) ∨
    (ioFailsNow s = false ∧ sinkAppend b s = .ok () ((tickIo s).withSink (s.sink ++ [b]))) := by
  simp only [sinkAppend]; cases h : ioFailsNow s <;> simp

/-- All that a fetch of the next byte can do (R43, R57). -/
theorem srcNext_cases (s : State) :
    (ioFailsNow s = true ∧ srcNext s = .stop (.fault .ioFailure (1, 0)) (tickIo s)) ∨
    (ioFailsNow s = false ∧ ∃ b, s.src.bytes[s.src.pos]? = some b ∧
      srcNext s = .ok (some b) ((tickIo s).withSrc { s.src with pos := s.src.pos + 1 })) ∨
    (ioFailsNow s = false ∧ s.src.bytes.length ≤ s.src.pos ∧ srcNext s = .ok none (tickIo s)) := by
  simp only [srcNext]
  cases h : ioFailsNow s
  · cases hb : s.src.bytes[s.src.pos]? with
    | none => simp [List.getElem?_eq_none_iff.mp hb]
    | some b => simp
  · simp

/-- All that an image read can do (R41, R54). -/
theorem imgRead_cases (l : Loc) (s : State) :
    (∃ v, Memory.read s.img l = some v ∧ imgRead l s = .ok v s) ∨
    (Memory.read s.img l = none ∧ imgRead l s = .ok (Config.freeSample s.draws) (s.withDraws (s.draws + 1))) := by
  simp only [imgRead]; cases Memory.read s.img l <;> simp

theorem imgRead_some {l : Loc} {s : State} {v : Sample} (h : Memory.read s.img l = some v) : imgRead l s = .ok v s := by
  simp [imgRead, h]

@[simp] theorem imgWrite_apply (l : Loc) (v : Sample) (s : State) :
    imgWrite l v s = .ok () (s.withImg (Memory.write s.img l v)) := rfl

@[simp] theorem imgCombine_apply (f : Sample → Sample → Sample) (a b l : Loc) (s : State) :
    imgCombine f a b l s = .ok () (s.withImg (Memory.combine f a b l s.img)) := rfl

/-- All that closing an open writer can do (R108): it is released in every case. -/
theorem closeWriter_cases (s : State) :
    (s.bw.lastByte = none ∧ closeWriter s = .ok () (releaseWriter s)) ∨
    (∃ b, s.bw.lastByte = some b ∧ ioFailsNow s = false ∧
      closeWriter s = .ok () (releaseWriter ((tickIo s).withSink (s.sink ++ [b])))) ∨
    (∃ b, s.bw.lastByte = some b ∧ ioFailsNow s = true ∧
      closeWriter s = .stop (.fault .ioFailure (0, 0)) (releaseWriter (tickIo s))) := by
  cases h : s.bw.lastByte with
  | none => exact .inl ⟨rfl, by simp only [closeWriter, h]⟩
  | some b =>
    rcases sinkAppend_cases b s with ⟨hio, ha⟩ | ⟨hio, ha⟩
    · exact .inr (.inr ⟨b, rfl, hio, by simp only [closeWriter, h, ha]⟩)
    · exact .inr (.inl ⟨b, rfl, hio, by simp only [closeWriter, h, ha]⟩)

/-- The last byte of a writer whose appends went well (R108). -/
theorem lastByte_padded {w : BitWriter} (h : w.full = none) :
    w.lastByte = if w.buf = [] then none else some (byteOf (w.buf ++ zeros (8 - w.buf.length))) := by
  rw [BitWriter.lastByte, h]; rfl

/-- The last byte of a writer whose last append failed (R221). -/
theorem lastByte_full {w : BitWriter} {b : Byte} (h : w.full = some b) : w.lastByte = some b := by
  rw [BitWriter.lastByte, h]; rfl

@[simp] theorem Ending.state_ok {α : Type} (a : α) (s : State) : (Ending.ok a s).state = s := rfl

@[simp] theorem Ending.state_stop {α : Type} (c : Cause) (s : State) : (Ending.stop (α := α) c s).state = s := rfl

theorem deliver_ok (r : Result) (s : State) : deliver (.ok r s) = .next (reply (.ok r) s) := rfl

theorem deliver_stop (c : Cause) (s : State) : deliver (.stop c s) = .next (reply c.reply (abort c s)) := rfl

/-- An operation behind the open gate. -/
theorem issue_unfaulted {body : Op Result} {s : State} (h : s.st.err = 0) : issue body s = deliver (body s) := by
  simp [issue, gate, h]

/-- An operation behind the closed gate (R226). -/
theorem issue_faulted {body : Op Result} {s : State} (h : s.st.err ≠ 0) : issue body s = refuseAtGate .faulted s :=
  if_pos h

/-- An operation behind the open gate that goes on. -/
theorem issue_ok {body : Op Result} {s t : State} {r : Result} (h : s.st.err = 0) (hb : body s = .ok r t) :
    issue body s = .next (reply (.ok r) t) := by rw [issue_unfaulted h, hb, deliver_ok]

/-- An operation behind the open gate that stops. -/
theorem issue_stop {body : Op Result} {s t : State} {c : Cause} (h : s.st.err = 0) (hb : body s = .stop c t) :
    issue body s = .next (reply c.reply (abort c t)) := by rw [issue_unfaulted h, hb, deliver_stop]

/-- An operation always ends in a next state: its outcome is in the reply (R16). -/
theorem issue_next (body : Op Result) (s : State) : ∃ t, issue body s = .next t := by
  by_cases h : s.st.err = 0
  · rw [issue_unfaulted h]; cases body s with
    | ok r t => exact ⟨_, deliver_ok r t⟩
    | stop c t => exact ⟨_, deliver_stop c t⟩
  · exact ⟨_, issue_faulted h⟩

/-- What an abort leaves when no call is in progress (R222): the cause is recorded, and nothing else happens. -/
theorem abort_idle {c : Cause} {s : State} (h : s.seq.op = .idle) : abort c s = idle (s.withSt (s.st.record c)) := by
  simp [abort, abortStream, h]

/-! Relations carried through pseudocode. -/

/-- A relation between the state before and the state after that a sequence keeps when its parts do. -/
structure Carries (R : State → State → Prop) : Prop where
  refl : ∀ s, R s s
  trans : ∀ s t u, R s t → R t u → R s u

/-- The pseudocode relates the state before to the state it ends in, however it ends. -/
def Op.Keeps {α : Type} (R : State → State → Prop) (m : Op α) : Prop := ∀ s, R s (m s).state

section keeps

variable {R : State → State → Prop} (hR : Carries R)

include hR

theorem keeps_give {α : Type} (a : α) : (give a).Keeps R := fun s => hR.refl s

theorem keeps_raise {α : Type} (e : FaultKind) (info : Int × Int) : (raise e info : Op α).Keeps R := fun s => hR.refl s

theorem keeps_refuse {α : Type} (r : RefuseKind) : (refuse r : Op α).Keeps R := fun s => hR.refl s

theorem keeps_andThen {α β : Type} {m : Op α} {f : α → Op β} (hm : m.Keeps R) (hf : ∀ a, (f a).Keeps R) :
    (m.andThen f).Keeps R := by
  intro s
  have h := hm s
  simp only [Op.andThen]
  cases hs : m s with
  | ok a t => rw [hs] at h; exact hR.trans _ _ _ h (hf a t)
  | stop c t => rw [hs] at h; exact h

theorem keeps_next {α β : Type} {m : Op α} {f : Op β} (hm : m.Keeps R) (hf : f.Keeps R) : (m.next f).Keeps R :=
  keeps_andThen hR hm fun _ => hf

theorem keeps_done {α : Type} {m : Op α} (hm : m.Keeps R) : m.done.Keeps R := keeps_andThen hR hm fun _ => keeps_give hR _

theorem keeps_forEach {α : Type} {body : α → Op Unit} (l : List α) (h : ∀ x ∈ l, (body x).Keeps R) :
    (forEach l body).Keeps R := by
  induction l with
  | nil => exact keeps_give hR ()
  | cons x rest ih =>
    exact keeps_next hR (h x List.mem_cons_self) (ih fun y hy => h y (List.mem_cons_of_mem _ hy))

theorem keeps_forUp {body : Nat → Op Unit} (start n : Nat) (h : ∀ i, (body i).Keeps R) : (forUp start n body).Keeps R := by
  rw [forUp_eq_forEach]; exact keeps_forEach hR _ fun i _ => h i

theorem keeps_forDown {body : Nat → Op Unit} (n : Nat) (h : ∀ i, (body i).Keeps R) : (forDown n body).Keeps R := by
  induction n with
  | zero => exact keeps_give hR ()
  | succ n ih => exact keeps_next hR (h _) ih

theorem keeps_needWriter : needWriter.Keeps R := by
  intro s; simp only [needWriter]; split <;> exact hR.refl s

omit hR in
theorem keeps_assign {f : State → State} (h : ∀ s, R s (f s)) : (assign f).Keeps R := h

omit hR in
/-- Pseudocode that reads the state once at its beginning. -/
theorem keeps_read {α β : Type} {f : α → Op β} (g : State → α) (h : ∀ a, (f a).Keeps R) : Op.Keeps R fun s => f (g s) s :=
  fun s => h (g s) s

/-- What an ended operation leaves: its own effect, then the reply, and before it the abort procedure when it stopped. -/
theorem deliver_keeps {e : Ending Result} {s t : State} (he : R s e.state) (habort : ∀ c u, R u (abort c u))
    (hreply : ∀ r u, R u (reply r u)) (h : deliver e = .next t) : R s t := by
  cases e with
  | ok r u => cases h; exact hR.trans _ _ _ he (hreply _ _)
  | stop c u => cases h; exact hR.trans _ _ _ he (hR.trans _ _ _ (habort c u) (hreply _ _))

/-- The same for an operation behind the gate. -/
theorem issue_keeps {body : Op Result} {s t : State} (hbody : body.Keeps R) (habort : ∀ c u, R u (abort c u))
    (hrecord : ∀ r u, R u (u.withSt (u.st.recordRefusal r))) (hreply : ∀ r u, R u (reply r u))
    (h : issue body s = .next t) : R s t := by
  by_cases he : s.st.err = 0
  · rw [issue_unfaulted he] at h; exact deliver_keeps hR (hbody s) habort hreply h
  · rw [issue_faulted he] at h; cases h; exact hR.trans _ _ _ (hrecord _ _) (hreply _ _)

end keeps

end Sys2Proof.Machine
end

