-- ==== Sys2Proof/Laws/Huffman.lean ====
section
/-! SUPPORT. The Huffman tree builder (43_huffman_tree.md R141 to R150): what the stable sort, one round of the merge loop
and the whole loop keep, from which the arena of a built tree is described node by node. -/

namespace Sys2Proof.Machine

/-! The sort (R145). -/

theorem insertByWeight_perm (node : List Node) (i : Nat) (l : List Nat) : (insertByWeight node i l).Perm (i :: l) := by
  induction l with
  | nil => exact List.Perm.refl _
  | cons j rest ih =>
    rw [insertByWeight]
    split
    · exact (ih.cons j).trans (List.Perm.swap i j rest)
    · exact List.Perm.refl _

theorem stableSort_perm (node : List Node) (l : List Nat) : (stableSort node l).Perm l := by
  induction l with
  | nil => exact List.Perm.refl _
  | cons i rest ih => exact (insertByWeight_perm node i _).trans (ih.cons i)

/-- Inserting an index that is older than every equally heavy one keeps the order of a round. -/
theorem insertByWeight_order {node : List Node} {i : Nat} {l : List Nat} (hl : l.Pairwise (standsBefore node))
    (hi : ∀ j ∈ l, weightAt node i = weightAt node j → i < j) : (insertByWeight node i l).Pairwise (standsBefore node) := by
  induction l with
  | nil => simp [insertByWeight]
  | cons j rest ih =>
    rw [List.pairwise_cons] at hl
    rw [insertByWeight]
    split
    · rename_i hw
      refine List.pairwise_cons.mpr ⟨fun k hk => ?_, ih hl.2 fun k hk => hi k (List.mem_cons_of_mem _ hk)⟩
      rcases List.mem_cons.mp ((insertByWeight_perm node i rest).mem_iff.mp hk) with rfl | hk
      · exact .inl hw
      · exact hl.1 k hk
    · rename_i hw
      have hle : ∀ k ∈ j :: rest, weightAt node i ≤ weightAt node k := by
        intro k hk
        rcases List.mem_cons.mp hk with rfl | hk
        · exact not_lt.mp hw
        · rcases hl.1 k hk with h | h
          · exact (not_lt.mp hw).trans h.le
          · exact (not_lt.mp hw).trans h.1.le
      refine List.pairwise_cons.mpr ⟨fun k hk => ?_, List.pairwise_cons.mpr hl⟩
      rcases (hle k hk).lt_or_eq with h | h
      · exact .inl h
      · exact .inr ⟨h, hi k hk h⟩

/-- Sorting a set in which equally heavy indices stand in the order of their age. -/
theorem stableSort_order {node : List Node} {l : List Nat}
    (hl : l.Pairwise fun i j => weightAt node i = weightAt node j → i < j) :
    (stableSort node l).Pairwise (standsBefore node) := by
  induction l with
  | nil => exact List.Pairwise.nil
  | cons i rest ih =>
    rw [List.pairwise_cons] at hl
    exact insertByWeight_order (ih hl.2) fun j hj => hl.1 j ((stableSort_perm node rest).mem_iff.mp hj)

theorem standsBefore_le {node : List Node} {i j : Nat} (h : standsBefore node i j) : weightAt node i ≤ weightAt node j := by
  rcases h with h | h
  · exact h.le
  · exact h.1.le

/-! The arena grows at its end (R148). -/

theorem weightAt_append {node extra : List Node} {i : Nat} (h : i < node.length) :
    weightAt (node ++ extra) i = weightAt node i := by
  simp only [weightAt, List.getElem?_append_left h]

theorem isChild_lt {node : List Node} {k j : Nat} (h : isChild node k j) : k < node.length := by
  obtain ⟨w, l, r, hk, _⟩ := h
  exact (List.getElem?_eq_some_iff.mp hk).1

theorem isChild_append {node extra : List Node} {k j : Nat} (h : k < node.length) :
    isChild (node ++ extra) k j ↔ isChild node k j := by
  simp only [isChild, List.getElem?_append_left h]

theorem standsBefore_append {node extra : List Node} {i j : Nat} (hi : i < node.length) (hj : j < node.length) :
    standsBefore (node ++ extra) i j ↔ standsBefore node i j := by
  simp only [standsBefore, weightAt_append hi, weightAt_append hj]

/-- Node `i` is the merge of the two lightest of the nodes that had no parent when it was made (R144 to R148). -/
def MergedAt (node : List Node) (i : Nat) : Prop :=
  ∃ l r, l < i ∧ r < i ∧ l ≠ r ∧ node[i]? = some (.internal (weightAt node l + weightAt node r) l r) ∧
    (weightAt node l < weightAt node r ∨ weightAt node l = weightAt node r ∧ r < l) ∧
    (∀ k, k < i → ¬isChild node k l ∧ ¬isChild node k r) ∧
    ∀ j, j < i → j ≠ l → j ≠ r → (∀ k, k < i → ¬isChild node k j) → standsBefore node l j ∧ standsBefore node r j

theorem mergedAt_append {node extra : List Node} {i : Nat} (hi : i < node.length) (h : MergedAt node i) :
    MergedAt (node ++ extra) i := by
  obtain ⟨l, r, hl, hr, hne, hnode, hw, hc, hs⟩ := h
  refine ⟨l, r, hl, hr, hne, ?_, ?_, fun k hk => ?_, fun j hj h1 h2 h3 => ?_⟩
  · rw [List.getElem?_append_left hi, weightAt_append (by omega), weightAt_append (by omega), hnode]
  · rwa [weightAt_append (by omega), weightAt_append (by omega)]
  · rw [isChild_append (by omega), isChild_append (by omega)]; exact hc k hk
  · rw [standsBefore_append (by omega) (by omega), standsBefore_append (by omega) (by omega)]
    exact hs j hj h1 h2 fun k hk hch => h3 k hk ((isChild_append (by omega)).mpr hch)

/-- What every round of the merge loop keeps, from the leaves `leaves` on (R143 to R149). -/
structure Forest (leaves : List Node) (t : HuffmanTree) : Prop where
  size : t.nn = t.node.length
  count : t.nn + t.set.length = 2 * leaves.length
  grown : leaves.length ≤ t.nn
  leafy : ∀ n ∈ leaves, ∃ x w, n = Node.leaf x w
  leaf : ∀ i, i < leaves.length → t.node[i]? = leaves[i]?
  parentless : ∀ j, j ∈ t.set ↔ j < t.nn ∧ ∀ k, ¬isChild t.node k j
  aged : t.set.Pairwise fun i j => weightAt t.node i = weightAt t.node j → i < j
  nodup : t.set.Nodup
  total : (t.set.map (weightAt t.node)).sum = (leaves.map Node.weight).sum
  newest : t.nn - 1 ∈ t.set
  merged : ∀ i, leaves.length ≤ i → i < t.nn → MergedAt t.node i

/-- All that a round on a set of at least two does (R145 to R148). -/
theorem mergeRound_cases {t : HuffmanTree} (h2 : 1 < t.set.length) : ∃ a b rest l r,
    stableSort t.node t.set = a :: b :: rest ∧ (l = a ∧ r = b ∨ l = b ∧ r = a) ∧
    (weightAt t.node a < weightAt t.node b ∧ l = a ∨ ¬weightAt t.node a < weightAt t.node b ∧ l = b) ∧
    mergeRound t = { t with
      node := t.node ++ [.internal (weightAt t.node a + weightAt t.node b) l r], nn := t.nn + 1, set := rest ++ [t.nn] } := by
  have hlen := (stableSort_perm t.node t.set).length_eq
  rcases hs : stableSort t.node t.set with _ | ⟨a, _ | ⟨b, rest⟩⟩
  · rw [hs] at hlen; simp at hlen; omega
  · rw [hs] at hlen; simp at hlen; omega
  by_cases hw : weightAt t.node a < weightAt t.node b
  · exact ⟨a, b, rest, a, b, rfl, .inl ⟨rfl, rfl⟩, .inl ⟨hw, rfl⟩, by simp [mergeRound, hs, hw]⟩
  · exact ⟨a, b, rest, b, a, rfl, .inr ⟨rfl, rfl⟩, .inr ⟨hw, rfl⟩, by simp [mergeRound, hs, hw]⟩

/-- One round on a set of at least two (R144 to R148). -/
theorem mergeRound_forest {leaves : List Node} {t : HuffmanTree} (h : Forest leaves t) (h2 : 1 < t.set.length) :
    Forest leaves (mergeRound t) ∧ (mergeRound t).set.length + 1 = t.set.length := by
  have hp := stableSort_perm t.node t.set
  have ho := stableSort_order h.aged
  have hlen := hp.length_eq
  obtain ⟨a, b, rest, l, r, hs, hlr, hcase, hround⟩ := mergeRound_cases h2
  rw [hs] at hp ho hlen
  have hmem : ∀ j, j = a ∨ j = b ∨ j ∈ rest ↔ j ∈ t.set := fun j => by rw [← hp.mem_iff]; simp
  have hnd : (a :: b :: rest).Nodup := hp.nodup_iff.mpr h.nodup
  simp only [List.nodup_cons, List.mem_cons, not_or] at hnd
  simp only [List.pairwise_cons, List.mem_cons, forall_eq_or_imp] at ho
  have ha := (h.parentless a).mp ((hmem a).mp (.inl rfl))
  have hb := (h.parentless b).mp ((hmem b).mp (.inr (.inl rfl)))
  have hsz := h.size
  have hw : weightAt t.node l < weightAt t.node r ∨ weightAt t.node l = weightAt t.node r ∧ r < l := by
    rcases hlr with ⟨rfl, rfl⟩ | ⟨rfl, rfl⟩
    · refine .inl (hcase.resolve_right fun h => hnd.1.1 h.2).1
    · have hn := (hcase.resolve_left fun h => hnd.1.1 h.2.symm).1
      rcases ho.1.1 with h1 | h1
      · exact absurd h1 hn
      · exact .inr ⟨h1.1.symm, h1.2⟩
  have hch : ∀ j, j = l ∨ j = r ↔ j = a ∨ j = b := by
    intro j; rcases hlr with ⟨rfl, rfl⟩ | ⟨rfl, rfl⟩
    · exact Iff.rfl
    · exact or_comm
  have hsum : weightAt t.node a + weightAt t.node b = weightAt t.node l + weightAt t.node r := by
    rcases hlr with ⟨rfl, rfl⟩ | ⟨rfl, rfl⟩
    · rfl
    · exact add_comm _ _
  have hl : l < t.nn ∧ ∀ k, ¬isChild t.node k l := by rcases (hch l).mp (.inl rfl) with rfl | rfl <;> assumption
  have hr : r < t.nn ∧ ∀ k, ¬isChild t.node k r := by rcases (hch r).mp (.inr rfl) with rfl | rfl <;> assumption
  have hne : l ≠ r := by
    rcases hlr with ⟨rfl, rfl⟩ | ⟨rfl, rfl⟩
    · exact hnd.1.1
    · exact fun e => hnd.1.1 e.symm
  have hrest : ∀ j ∈ rest, j < t.nn := fun j hj => ((h.parentless j).mp ((hmem j).mp (.inr (.inr hj)))).1
  have hbefore : ∀ j ∈ rest, standsBefore t.node l j ∧ standsBefore t.node r j := by
    intro j hj
    rcases hlr with ⟨rfl, rfl⟩ | ⟨rfl, rfl⟩
    · exact ⟨ho.1.2 j hj, ho.2.1 j hj⟩
    · exact ⟨ho.2.1 j hj, ho.1.2 j hj⟩
  have hchild : ∀ k j, isChild (t.node ++ [.internal (weightAt t.node a + weightAt t.node b) l r]) k j ↔
      isChild t.node k j ∨ k = t.nn ∧ (j = a ∨ j = b) := by
    intro k j
    rcases Nat.lt_trichotomy k t.nn with hk | hk | hk
    · rw [isChild_append (by omega)]
      exact ⟨.inl, fun h => h.resolve_right fun h => by omega⟩
    · subst hk
      constructor
      · rintro ⟨w, l', r', hn, hj⟩
        rw [hsz, List.getElem?_concat_length, Option.some.injEq, Node.internal.injEq] at hn
        obtain ⟨-, rfl, rfl⟩ := hn
        exact .inr ⟨rfl, (hch j).mp hj⟩
      · rintro (hc | hc)
        · exact absurd (isChild_lt hc) (by omega)
        · exact ⟨_, l, r, by rw [hsz, List.getElem?_concat_length], (hch j).mpr hc.2⟩
    · constructor
      · intro hc; have := isChild_lt hc; simp at this; omega
      · rintro (hc | hc)
        · exact absurd (isChild_lt hc) (by omega)
        · omega
  have hwt : ∀ j, j < t.nn → weightAt (t.node ++ [.internal (weightAt t.node a + weightAt t.node b) l r]) j =
      weightAt t.node j := fun j hj => weightAt_append (by omega)
  have hwp : weightAt (t.node ++ [.internal (weightAt t.node a + weightAt t.node b) l r]) t.nn =
      weightAt t.node a + weightAt t.node b := by
    rw [weightAt, hsz, List.getElem?_concat_length]; rfl
  rw [hround]
  refine ⟨⟨?_, ?_, ?_, ?_, fun i hi => ?_, fun j => ?_, ?_, ?_, ?_, ?_, fun i hi hin => ?_⟩, ?_⟩
  · simp [hsz]
  · have := h.count; simp at hlen ⊢; omega
  · have := h.grown; show leaves.length ≤ t.nn + 1; omega
  · exact h.leafy
  · have := h.grown
    rw [← h.leaf i hi, List.getElem?_append_left (by omega)]
  · simp only [List.mem_append, List.mem_singleton, hchild]
    constructor
    · rintro (hj | rfl)
      · have hp := (h.parentless j).mp ((hmem j).mp (.inr (.inr hj)))
        refine ⟨by omega, fun k => ?_⟩
        rintro (hc | ⟨-, rfl | rfl⟩)
        · exact hp.2 k hc
        · exact hnd.1.2 hj
        · exact hnd.2.1 hj
      · refine ⟨by omega, fun k => ?_⟩
        rintro (hc | ⟨-, hc | hc⟩)
        · obtain ⟨w, l', r', hn, hj⟩ := hc
          have hk := (List.getElem?_eq_some_iff.mp hn).1
          by_cases hkl : k < leaves.length
          · obtain ⟨x, w', hx⟩ := h.leafy _ (List.getElem_mem hkl)
            rw [h.leaf k hkl, List.getElem?_eq_getElem hkl, hx] at hn
            simp at hn
          · obtain ⟨l2, r2, hl2, hr2, -, hn2, -⟩ := h.merged k (by omega) (by omega)
            rw [hn2, Option.some.injEq, Node.internal.injEq] at hn
            omega
        · omega
        · omega
    · rintro ⟨hj, hk⟩
      by_cases hjn : j = t.nn
      · exact .inr hjn
      · have hjs : j ∈ t.set := (h.parentless j).mpr ⟨by omega, fun k hc => hk k (.inl hc)⟩
        rcases (hmem j).mpr hjs with rfl | rfl | hj
        · exact absurd (.inr ⟨rfl, .inl rfl⟩) (hk t.nn)
        · exact absurd (.inr ⟨rfl, .inr rfl⟩) (hk t.nn)
        · exact .inl hj
  · refine List.pairwise_append.mpr ⟨?_, List.pairwise_singleton _ _, fun i hi j hj he => ?_⟩
    · refine ho.2.2.imp_of_mem fun {i j} hi hj hb he => ?_
      rw [hwt i (hrest i hi), hwt j (hrest j hj)] at he
      rcases hb with hb | hb
      · exact absurd he hb.ne
      · exact hb.2
    · rw [List.mem_singleton.mp hj]; exact hrest i hi
  · refine List.nodup_append.mpr ⟨hnd.2.2, List.nodup_singleton _, fun i hi j hj he => ?_⟩
    rw [List.mem_singleton.mp hj] at he
    exact absurd (hrest i hi) (by omega)
  · have hmap : rest.map (weightAt (t.node ++ [.internal (weightAt t.node a + weightAt t.node b) l r])) =
        rest.map (weightAt t.node) := List.map_congr_left fun j hj => hwt j (hrest j hj)
    have := (hp.map (weightAt t.node)).sum_eq
    rw [← h.total, ← this]
    simp only [List.map_append, List.sum_append, hmap, List.map_cons, List.map_nil, List.sum_cons, List.sum_nil, hwp]
    ring
  · simp
  · rcases Nat.lt_or_ge i t.nn with hlt | hge
    · exact mergedAt_append (by omega) (h.merged i hi hlt)
    · have : i = t.nn := by simp at hin; omega
      subst this
      refine ⟨l, r, hl.1, hr.1, hne, ?_, ?_, fun k hk => ?_, fun j hj h1 h2 h3 => ?_⟩
      · rw [hwt l hl.1, hwt r hr.1, ← hsum, hsz, List.getElem?_concat_length]
      · rw [hwt l hl.1, hwt r hr.1]; exact hw
      · rw [isChild_append (by omega), isChild_append (by omega)]; exact ⟨hl.2 k, hr.2 k⟩
      · rw [standsBefore_append (by omega) (by omega), standsBefore_append (by omega) (by omega)]
        refine hbefore j ?_
        have hjs : j ∈ t.set := (h.parentless j).mpr ⟨hj, fun k hc =>
          h3 k (by have := isChild_lt hc; omega) ((isChild_append (isChild_lt hc)).mpr hc)⟩
        rcases (hmem j).mpr hjs with hj' | hj' | hj'
        · rcases (hch j).mpr (.inl hj') with h4 | h4
          · exact absurd h4 h1
          · exact absurd h4 h2
        · rcases (hch j).mpr (.inr hj') with h4 | h4
          · exact absurd h4 h1
          · exact absurd h4 h2
        · exact hj'
  · simp at hlen ⊢; omega

/-! The checks (R142). -/

theorem hasRepeat_iff (xs : List Symbol) : hasRepeat xs = true ↔ ¬xs.Nodup := by
  induction xs with
  | nil => simp [hasRepeat]
  | cons x rest ih => simp only [hasRepeat, Bool.or_eq_true, ih, List.nodup_cons, List.contains_iff_mem]; tauto

theorem isCodable_iff (x : Int) : isCodable x = true ↔ -255 ≤ x ∧ x ≤ 255 := by
  rw [isCodable, Bool.and_eq_true, decide_eq_true_eq, decide_eq_true_eq]; rfl

/-- What passes the checks is exactly the valid alphabets (R142). -/
theorem alphabetCause_none (xs : List Symbol) (ps : List Prob) : alphabetCause xs ps = none ↔ validAlphabet xs ps := by
  simp only [alphabetCause, validAlphabet]
  split
  · simp_all
  split
  · simp_all
  split
  · rename_i h; simp at h; obtain ⟨p, hp, h0⟩ := h
    simp only [reduceCtorEq, false_iff]; rintro ⟨-, -, hall, -⟩; exact absurd (hall p hp) (not_lt.mpr h0)
  rename_i hl h0 hp
  have hpos : ∀ p ∈ ps, 0 < p := by simpa using hp
  split
  · rename_i h
    simp only [reduceCtorEq, false_iff]
    rintro ⟨-, -, -, hc, hn, h511⟩
    simp only [Bool.or_eq_true, List.any_eq_true, hasRepeat_iff, decide_eq_true_eq] at h
    rcases h with (⟨x, hx, hb⟩ | h) | h
    · have := (isCodable_iff x).mpr (hc x hx); simp [this] at hb
    · exact h hn
    · exact absurd h511 (by simpa [Config.symbolCount] using h)
  · rename_i h
    simp only [Bool.or_eq_true, List.any_eq_true, hasRepeat_iff, decide_eq_true_eq, not_or, not_not, not_exists, not_and] at h
    simp only [true_iff]
    refine ⟨by simpa using hl, h0, hpos, fun x hx => (isCodable_iff x).mp ?_, h.1.2, by simpa [Config.symbolCount] using h.2⟩
    have := h.1.1 x hx; simpa using this

/-- The leaves to begin with (R143). -/
theorem leavesOf_forest {xs : List Symbol} {ps : List Prob} (hl : xs.length = ps.length) (h0 : xs ≠ []) :
    Forest (List.zipWith Node.leaf xs ps) (leavesOf xs ps) := by
  have hlen : (List.zipWith Node.leaf xs ps).length = xs.length := by simp [hl]
  have hpos := List.length_pos_iff.mpr h0
  have hleaf : ∀ n ∈ List.zipWith Node.leaf xs ps, ∃ x w, n = Node.leaf x w := by
    intro n hn
    rw [List.zipWith_eq_zipWith_take_min, List.mem_iff_getElem] at hn
    obtain ⟨i, hi, rfl⟩ := hn
    exact ⟨_, _, by rw [List.getElem_zipWith]⟩
  have hno : ∀ k j, ¬isChild (leavesOf xs ps).node k j := by
    rintro k j ⟨w, l, r, hk, -⟩
    have hk' : (List.zipWith Node.leaf xs ps)[k]? = some (.internal w l r) := hk
    obtain ⟨x, w', hx⟩ := hleaf _ (List.mem_of_getElem? hk')
    cases hx
  refine ⟨hlen.symm, ?_, ?_, hleaf, fun i _ => rfl, fun j => ?_, ?_, ?_, ?_, ?_, fun i hi hin => ?_⟩
  · simp [hlen, leavesOf]; omega
  · simp [hlen, leavesOf]
  · simp only [leavesOf, List.mem_range]; exact ⟨fun h => ⟨h, fun k => hno k j⟩, And.left⟩
  · have h1 : (List.range xs.length).Pairwise (· < ·) := List.pairwise_lt_range
    exact List.Pairwise.imp (S := fun i j => weightAt (leavesOf xs ps).node i = weightAt (leavesOf xs ps).node j → i < j)
      (fun h _ => h) h1
  · exact List.nodup_range
  · congr 1
    refine List.ext_getElem (by simp [leavesOf, hl]) fun i h1 h2 => ?_
    have hi : i < (List.zipWith Node.leaf xs ps).length := by simpa using h2
    simp only [leavesOf, List.getElem_map, List.getElem_range, weightAt, List.getElem?_eq_getElem hi]
  · simp only [leavesOf, List.mem_range]; omega
  · simp only [leavesOf, hlen] at hi hin; omega

/-- The whole loop (R144, R149): one node is left. -/
theorem mergeAll_forest {leaves : List Node} (n : Nat) {t : HuffmanTree} (h : Forest leaves t) (hn : t.set.length ≤ n) :
    Forest leaves (mergeAll n t) ∧ (mergeAll n t).set.length = 1 := by
  have hpos : 0 < t.set.length := List.length_pos_of_mem h.newest
  induction n generalizing t with
  | zero => omega
  | succ n ih =>
    rw [mergeAll]
    split
    · rename_i h2
      obtain ⟨hf, hl⟩ := mergeRound_forest h h2
      exact ih hf (by omega) (List.length_pos_of_mem hf.newest)
    · exact ⟨h, by omega⟩

/-- What `HT.BUILD` leaves (R149): a forest of one tree, whose root is the last node. -/
theorem buildTree_forest {xs : List Symbol} {ps : List Prob} (hl : xs.length = ps.length) (h0 : xs ≠ []) :
    Forest (List.zipWith Node.leaf xs ps) (buildTree xs ps) ∧
      (buildTree xs ps).set = [(buildTree xs ps).nn - 1] ∧ (buildTree xs ps).root = some ((buildTree xs ps).nn - 1) ∧
      (buildTree xs ps).nn = 2 * xs.length - 1 := by
  obtain ⟨hf, h1⟩ := mergeAll_forest xs.length (leavesOf_forest hl h0) (by simp [leavesOf])
  have hset : (mergeAll xs.length (leavesOf xs ps)).set = [(mergeAll xs.length (leavesOf xs ps)).nn - 1] := by
    obtain ⟨i, hi⟩ := List.length_eq_one_iff.mp h1
    have := hf.newest
    rw [hi, List.mem_singleton] at this
    rw [hi, this]
  have hn := hf.count
  have hlen : (List.zipWith Node.leaf xs ps).length = xs.length := by simp [hl]
  exact ⟨⟨hf.size, hf.count, hf.grown, hf.leafy, hf.leaf, hf.parentless, hf.aged, hf.nodup, hf.total, hf.newest, hf.merged⟩,
    hset, by simp only [buildTree, hset, List.head?_cons], by simp only [buildTree]; omega⟩

end Sys2Proof.Machine
end

