-- ==== Sys2Proof/Laws/Codes.lean ====
section
/-! SUPPORT. The code generator (43_huffman_tree.md R151 to R156): the traversal of an arena whose children come before
their parents, as the codewords below a node; its leaves, order, lengths, prefix property and completeness. -/

namespace Sys2Proof.Machine

/-- Every child comes before its parent (R29). -/
def ChildrenFirst (node : List Node) : Prop :=
  ∀ (i : Nat) (w : Prob) (l r : Nat), node[i]? = some (.internal w l r) → l < i ∧ r < i

/-- The pairs (symbol, path) of the leaves below node `i` (R151, R152). -/
def codesBelow (node : List Node) (i : Nat) : List (Symbol × Bits) := visit node (i + 1) i []

/-- A bit in front of a path. -/
def under (b : Bool) (e : Symbol × Bits) : Symbol × Bits := (e.1, b :: e.2)

/-- A path of the traversal is the path so far and the path below (R151). -/
theorem visit_sofar (node : List Node) (d i : Nat) (u v : Bits) :
    visit node d i (u ++ v) = (visit node d i v).map fun e => (e.1, u ++ e.2) := by
  induction d generalizing i v with
  | zero => rfl
  | succ d ih =>
    simp only [visit]
    split
    · rfl
    · simp only [List.append_assoc, ih, List.map_append]
    · rfl

/-- The bound on the depth does not matter once it is above the node's index. -/
theorem visit_depth {node : List Node} (h : ChildrenFirst node) {d d' i : Nat} (hd : i < d) (hd' : i < d') (u : Bits) :
    visit node d i u = visit node d' i u := by
  induction i using Nat.strong_induction_on generalizing d d' u with
  | _ i ih =>
    obtain ⟨d, rfl⟩ : ∃ e, d = e + 1 := ⟨d - 1, by omega⟩
    obtain ⟨d', rfl⟩ : ∃ e, d' = e + 1 := ⟨d' - 1, by omega⟩
    simp only [visit]
    split
    · rfl
    · rename_i w l r hn
      have hlr := h i w l r hn
      rw [ih l hlr.1 (by omega) (d' := d') (by omega), ih r hlr.2 (by omega) (d' := d') (by omega)]
    · rfl

theorem codesBelow_leaf {node : List Node} {i : Nat} {x : Symbol} {w : Prob} (hn : node[i]? = some (.leaf x w)) :
    codesBelow node i = [(x, [])] := by simp [codesBelow, visit, hn]

/-- Below an internal node: the codewords below its left child, with 0 in front, then those below its right (R152, R153). -/
theorem codesBelow_internal {node : List Node} (h : ChildrenFirst node) {i l r : Nat} {w : Prob}
    (hn : node[i]? = some (.internal w l r)) :
    codesBelow node i = (codesBelow node l).map (under false) ++ (codesBelow node r).map (under true) := by
  have hlr := h i w l r hn
  have e (b : Bool) (j : Nat) (hj : j < i) : visit node i j [b] = (codesBelow node j).map (under b) := by
    rw [codesBelow, ← visit_depth h hj (Nat.lt_succ_self j) []]
    exact visit_sofar node i j [b] []
  rw [codesBelow, visit, hn]
  simp only [List.nil_append, e false l hlr.1, e true r hlr.2]

/-- The table of a tree whose root is internal is what lies below it (R151). -/
theorem codesOf_internal {t : HuffmanTree} (h : ChildrenFirst t.node) {i l r : Nat} {w : Prob} (hi : i < t.nn)
    (hroot : t.root = some i) (hn : t.node[i]? = some (.internal w l r)) : codesOf t = codesBelow t.node i := by
  simp only [codesOf, hroot, hn, codesBelow]
  exact visit_depth h hi (Nat.lt_succ_self i) []

/-- The table of a tree that is one leaf (R154). -/
theorem codesOf_leaf {t : HuffmanTree} {i : Nat} {x : Symbol} {w : Prob} (hroot : t.root = some i)
    (hn : t.node[i]? = some (.leaf x w)) : codesOf t = [(x, [false])] := by simp [codesOf, hroot, hn, Config.singleCode]

/-- Induction below a node of an arena whose children come first. -/
theorem arena_induction {node : List Node} (h : ChildrenFirst node) {motive : Nat → Prop}
    (leaf : ∀ i x w, node[i]? = some (.leaf x w) → motive i)
    (internal : ∀ i w l r, node[i]? = some (.internal w l r) → motive l → motive r → motive i)
    (i : Nat) (hi : i < node.length) : motive i := by
  induction i using Nat.strong_induction_on with
  | _ i ih =>
    cases hn : node[i] with
    | leaf x w => exact leaf i x w (by rw [List.getElem?_eq_getElem hi, hn])
    | internal w l r =>
      have hn' : node[i]? = some (.internal w l r) := by rw [List.getElem?_eq_getElem hi, hn]
      have hlr := h i w l r hn'
      exact internal i w l r hn' (ih l hlr.1 (by omega)) (ih r hlr.2 (by omega))

theorem codesBelow_append {node : List Node} (extra : List Node) (h : ChildrenFirst node)
    (h' : ChildrenFirst (node ++ extra)) (i : Nat) (hi : i < node.length) :
    codesBelow (node ++ extra) i = codesBelow node i := by
  refine arena_induction (motive := fun i => codesBelow (node ++ extra) i = codesBelow node i) h (fun i x w hn => ?_)
    (fun i w l r hn hl hr => ?_) i hi
  · have hlt := (List.getElem?_eq_some_iff.mp hn).1
    rw [codesBelow_leaf hn, codesBelow_leaf (by rw [List.getElem?_append_left hlt]; exact hn)]
  · have hlt := (List.getElem?_eq_some_iff.mp hn).1
    rw [codesBelow_internal h hn, codesBelow_internal h' (by rw [List.getElem?_append_left hlt]; exact hn), hl, hr]

/-- The pairs below a node are its leaves with their paths (R152). -/
theorem mem_codesBelow {node : List Node} (h : ChildrenFirst node) (i : Nat) (hi : i < node.length) (x : Symbol) (cw : Bits) :
    (x, cw) ∈ codesBelow node i ↔ ∃ j p, walk node i cw = some j ∧ node[j]? = some (.leaf x p) := by
  induction cw generalizing i with
  | nil =>
    cases hn : node[i] with
    | leaf y w =>
      have hn' : node[i]? = some (.leaf y w) := by rw [List.getElem?_eq_getElem hi, hn]
      simp only [codesBelow_leaf hn', List.mem_singleton, Prod.mk.injEq, and_true, walk, Option.some.injEq]
      constructor
      · rintro rfl; exact ⟨i, w, rfl, hn'⟩
      · rintro ⟨j, p, rfl, hj⟩; rw [hn'] at hj; cases hj; rfl
    | internal w l r =>
      have hn' : node[i]? = some (.internal w l r) := by rw [List.getElem?_eq_getElem hi, hn]
      rw [codesBelow_internal h hn']
      simp only [walk, Option.some.injEq]
      constructor
      · simp [under]
      · rintro ⟨j, p, rfl, hj⟩; rw [hn'] at hj; cases hj
  | cons b rest ih =>
    cases hn : node[i] with
    | leaf y w =>
      have hn' : node[i]? = some (.leaf y w) := by rw [List.getElem?_eq_getElem hi, hn]
      simp [codesBelow_leaf hn', walk, hn']
    | internal w l r =>
      have hn' : node[i]? = some (.internal w l r) := by rw [List.getElem?_eq_getElem hi, hn]
      have hlr := h i w l r hn'
      rw [codesBelow_internal h hn', walk, hn']
      simp only [List.mem_append, List.mem_map, under, Prod.mk.injEq]
      cases b with
      | false =>
        rw [if_neg (by simp), ← ih l (by omega)]
        constructor
        · rintro (⟨e, he, rfl, h2⟩ | ⟨e, he, -, h2⟩)
          · simp only [List.cons.injEq, true_and] at h2; rw [← h2]; exact he
          · simp at h2
        · exact fun he => .inl ⟨_, he, rfl, rfl⟩
      | true =>
        rw [if_pos rfl, ← ih r (by omega)]
        constructor
        · rintro (⟨e, he, -, h2⟩ | ⟨e, he, rfl, h2⟩)
          · simp at h2
          · simp only [List.cons.injEq, true_and] at h2; rw [← h2]; exact he
        · exact fun he => .inr ⟨_, he, rfl, rfl⟩

/-- The traversal meets the leaves in the lexicographic order of their paths (R153). -/
theorem codesBelow_sorted {node : List Node} (h : ChildrenFirst node) (i : Nat) (hi : i < node.length) :
    (codesBelow node i).Pairwise fun a b => bitsLt a.2 b.2 = true := by
  refine arena_induction (motive := fun i => (codesBelow node i).Pairwise fun a b => bitsLt a.2 b.2 = true) h
    (fun i x w hn => ?_) (fun i w l r hn hl hr => ?_) i hi
  · rw [codesBelow_leaf hn]; exact List.pairwise_singleton _ _
  · rw [codesBelow_internal h hn, List.pairwise_append]
    refine ⟨List.pairwise_map.mpr (hl.imp fun hb => ?_), List.pairwise_map.mpr (hr.imp fun hb => ?_), ?_⟩
    · simpa [under, bitsLt] using hb
    · simpa [under, bitsLt] using hb
    · intro a ha b hb
      obtain ⟨a, -, rfl⟩ := List.mem_map.mp ha
      obtain ⟨b, -, rfl⟩ := List.mem_map.mp hb
      simp [under, bitsLt]

/-- A path is shorter than the number of leaves (R156). -/
theorem codesBelow_length {node : List Node} (h : ChildrenFirst node) (i : Nat) (hi : i < node.length) :
    ∀ e ∈ codesBelow node i, e.2.length + 1 ≤ (codesBelow node i).length := by
  have hpos : ∀ i, i < node.length → 0 < (codesBelow node i).length := fun i hi =>
    arena_induction (motive := fun i => 0 < (codesBelow node i).length) h
      (fun i x w hn => by simp [codesBelow_leaf hn]) (fun i w l r hn hl _ => by rw [codesBelow_internal h hn]; simp; omega) i hi
  refine arena_induction (motive := fun i => ∀ e ∈ codesBelow node i, e.2.length + 1 ≤ (codesBelow node i).length) h
    (fun i x w hn => by simp [codesBelow_leaf hn]) (fun i w l r hn hl hr e he => ?_) i hi
  have hlr := h i w l r hn
  have hil := (List.getElem?_eq_some_iff.mp hn).1
  have h1 := hpos l (by omega)
  have h2 := hpos r (by omega)
  rw [codesBelow_internal h hn] at he ⊢
  simp only [List.mem_append, List.mem_map] at he
  simp only [List.length_append, List.length_map]
  rcases he with ⟨e, he, rfl⟩ | ⟨e, he, rfl⟩
  · have := hl e he; simp only [under, List.length_cons]; omega
  · have := hr e he; simp only [under, List.length_cons]; omega

theorem codesBelow_pos {node : List Node} (h : ChildrenFirst node) (i : Nat) (hi : i < node.length) :
    codesBelow node i ≠ [] :=
  arena_induction (motive := fun i => codesBelow node i ≠ []) h (fun i x w hn => by simp [codesBelow_leaf hn])
    (fun i w l r hn hl _ => by rw [codesBelow_internal h hn]; simp [hl]) i hi

/-- No path is a beginning of another (R155). -/
theorem codesBelow_prefix {node : List Node} (h : ChildrenFirst node) (i : Nat) (hi : i < node.length) :
    (codesBelow node i).Pairwise fun a b => ¬a.2 <+: b.2 ∧ ¬b.2 <+: a.2 := by
  refine arena_induction (motive := fun i => (codesBelow node i).Pairwise fun a b => ¬a.2 <+: b.2 ∧ ¬b.2 <+: a.2) h
    (fun i x w hn => ?_) (fun i w l r hn hl hr => ?_) i hi
  · rw [codesBelow_leaf hn]; exact List.pairwise_singleton _ _
  · rw [codesBelow_internal h hn, List.pairwise_append]
    refine ⟨List.pairwise_map.mpr (hl.imp fun hb => ?_), List.pairwise_map.mpr (hr.imp fun hb => ?_), ?_⟩
    · simpa [under, List.cons_prefix_cons] using hb
    · simpa [under, List.cons_prefix_cons] using hb
    · intro a ha b hb
      obtain ⟨a, -, rfl⟩ := List.mem_map.mp ha
      obtain ⟨b, -, rfl⟩ := List.mem_map.mp hb
      simp [under, List.cons_prefix_cons]

/-- Bits begin with one path at most (R155). -/
theorem codesBelow_unique {node : List Node} (h : ChildrenFirst node) (i : Nat) (hi : i < node.length) :
    ∀ e ∈ codesBelow node i, ∀ e' ∈ codesBelow node i, ∀ u : Bits, e.2 <+: u → e'.2 <+: u → e = e' := by
  refine arena_induction (motive := fun i => ∀ e ∈ codesBelow node i, ∀ e' ∈ codesBelow node i, ∀ u : Bits, e.2 <+: u →
    e'.2 <+: u → e = e') h (fun i x w hn => by simp [codesBelow_leaf hn]) (fun i w l r hn hl hr e he e' he' u hu hu' => ?_) i hi
  rw [codesBelow_internal h hn] at he he'
  simp only [List.mem_append, List.mem_map] at he he'
  rcases u with _ | ⟨b, u⟩
  · rcases he with ⟨e, -, rfl⟩ | ⟨e, -, rfl⟩ <;> simp [under] at hu
  · rcases he with ⟨e, he, rfl⟩ | ⟨e, he, rfl⟩ <;> rcases he' with ⟨e', he', rfl⟩ | ⟨e', he', rfl⟩ <;>
      simp only [under, List.cons_prefix_cons] at hu hu'
    · rw [hl e he e' he' u hu.2 hu'.2]
    · exact absurd (hu.1.trans hu'.1.symm) (by simp)
    · exact absurd (hu.1.trans hu'.1.symm) (by simp)
    · rw [hr e he e' he' u hu.2 hu'.2]

/-- Bits that are long enough begin with a path (R155). -/
theorem codesBelow_complete {node : List Node} (h : ChildrenFirst node) (i : Nat) (hi : i < node.length) :
    ∀ u : Bits, (codesBelow node i).length ≤ u.length + 1 → ∃ e ∈ codesBelow node i, e.2 <+: u := by
  refine arena_induction (motive := fun i => ∀ u : Bits, (codesBelow node i).length ≤ u.length + 1 →
    ∃ e ∈ codesBelow node i, e.2 <+: u) h (fun i x w hn u _ => ?_) (fun i w l r hn hl hr u hu => ?_) i hi
  · rw [codesBelow_leaf hn]; exact ⟨_, List.mem_singleton_self _, List.nil_prefix⟩
  · have hlr := h i w l r hn
    have hil := (List.getElem?_eq_some_iff.mp hn).1
    have h1 := List.length_pos_iff.mpr (codesBelow_pos h l (by omega))
    have h2 := List.length_pos_iff.mpr (codesBelow_pos h r (by omega))
    rw [codesBelow_internal h hn] at hu ⊢
    simp only [List.length_append, List.length_map] at hu
    rcases u with _ | ⟨b, u⟩
    · simp at hu; omega
    · simp only [List.length_cons] at hu
      cases b with
      | false =>
        obtain ⟨e, he, hp⟩ := hl u (by omega)
        exact ⟨under false e, List.mem_append_left _ (List.mem_map_of_mem he), List.cons_prefix_cons.mpr ⟨rfl, hp⟩⟩
      | true =>
        obtain ⟨e, he, hp⟩ := hr u (by omega)
        exact ⟨under true e, List.mem_append_right _ (List.mem_map_of_mem he), List.cons_prefix_cons.mpr ⟨rfl, hp⟩⟩

/-! The code of a built tree (R155). -/

theorem forest_childrenFirst {leaves : List Node} {t : HuffmanTree} (h : Forest leaves t) : ChildrenFirst t.node := by
  intro i w l r hn
  have hi := (List.getElem?_eq_some_iff.mp hn).1
  by_cases hl : i < leaves.length
  · obtain ⟨x, w', hx⟩ := h.leafy _ (List.getElem_mem hl)
    rw [h.leaf i hl, List.getElem?_eq_getElem hl, hx] at hn; cases hn
  · obtain ⟨l2, r2, hl2, hr2, -, hn2, -⟩ := h.merged i (by omega) (by rw [h.size]; exact hi)
    rw [hn2] at hn; cases hn; exact ⟨hl2, hr2⟩

/-- The symbol of a leaf. -/
def Node.symbol : Node → Symbol
  | .leaf x _ => x
  | .internal _ _ _ => 0

/-- The symbols below the nodes of the set are those of the leaves. -/
def Spread (leaves : List Node) (t : HuffmanTree) : Prop :=
  (t.set.flatMap fun i => (codesBelow t.node i).map (·.1)).Perm (leaves.map Node.symbol)

theorem map_under (b : Bool) (l : List (Symbol × Bits)) : (l.map (under b)).map (·.1) = l.map (·.1) := by
  rw [List.map_map]; rfl

theorem mergeRound_spread {leaves : List Node} {t : HuffmanTree} (hf : Forest leaves t) (h : Spread leaves t)
    (h2 : 1 < t.set.length) : Spread leaves (mergeRound t) := by
  have hcf := forest_childrenFirst hf
  have hcf' := forest_childrenFirst (mergeRound_forest hf h2).1
  obtain ⟨a, b, rest, l, r, hs, hlr, -, hround⟩ := mergeRound_cases h2
  have hp := stableSort_perm t.node t.set
  rw [hs] at hp
  have hlt : ∀ j ∈ t.set, j < t.node.length := fun j hj => by rw [← hf.size]; exact ((hf.parentless j).mp hj).1
  have hab : a < t.node.length ∧ b < t.node.length :=
    ⟨hlt a (hp.mem_iff.mp (by simp)), hlt b (hp.mem_iff.mp (by simp))⟩
  have hrest : ∀ j ∈ rest, j < t.node.length := fun j hj => hlt j (hp.mem_iff.mp (by simp [hj]))
  rw [hround] at hcf' ⊢
  have hold : ∀ j, j < t.node.length → codesBelow (t.node ++
      [.internal (weightAt t.node a + weightAt t.node b) l r]) j = codesBelow t.node j :=
    fun j hj => codesBelow_append _ hcf hcf' j hj
  have hl : l < t.node.length := by rcases hlr with h | h <;> omega
  have hr : r < t.node.length := by rcases hlr with h | h <;> omega
  have hnew : (codesBelow (t.node ++ [.internal (weightAt t.node a + weightAt t.node b) l r]) t.nn).map (·.1) =
      (codesBelow t.node l).map (·.1) ++ (codesBelow t.node r).map (·.1) := by
    rw [codesBelow_internal hcf' (by rw [hf.size, List.getElem?_concat_length]), hold l hl, hold r hr,
      List.map_append, map_under, map_under]
  have hperm : ((codesBelow t.node l).map (·.1) ++ (codesBelow t.node r).map (·.1)).Perm
      ((codesBelow t.node a).map (·.1) ++ (codesBelow t.node b).map (·.1)) := by
    rcases hlr with ⟨rfl, rfl⟩ | ⟨rfl, rfl⟩
    · exact List.Perm.refl _
    · exact List.perm_append_comm
  have hmid : ((rest.flatMap fun i => (codesBelow t.node i).map (·.1)) ++
      ((codesBelow t.node a).map (·.1) ++ (codesBelow t.node b).map (·.1))).Perm
      ((a :: b :: rest).flatMap fun i => (codesBelow t.node i).map (·.1)) := by
    simp only [List.flatMap_cons, ← List.append_assoc]
    rw [List.append_assoc]
    exact List.perm_append_comm
  show ((rest ++ [t.nn]).flatMap fun i => (codesBelow (t.node ++ _) i).map (·.1)).Perm _
  rw [List.flatMap_append, List.flatMap_cons, List.flatMap_nil, List.append_nil, hnew]
  have hsame : (rest.flatMap fun i => (codesBelow (t.node ++
      [.internal (weightAt t.node a + weightAt t.node b) l r]) i).map (·.1)) =
      rest.flatMap fun i => (codesBelow t.node i).map (·.1) := by
    rw [List.flatMap_def, List.flatMap_def, List.map_congr_left fun j hj => by rw [hold j (hrest j hj)]]
  rw [hsame]
  exact ((hperm.append_left _).trans hmid).trans ((List.Perm.flatMap_right _ hp).trans h)

theorem mergeAll_spread {leaves : List Node} (n : Nat) {t : HuffmanTree} (hf : Forest leaves t) (h : Spread leaves t) :
    Spread leaves (mergeAll n t) := by
  induction n generalizing t with
  | zero => exact h
  | succ n ih =>
    rw [mergeAll]
    split
    · rename_i h2; exact ih (mergeRound_forest hf h2).1 (mergeRound_spread hf h h2)
    · exact h

theorem leavesOf_spread {xs : List Symbol} {ps : List Prob} (hl : xs.length = ps.length) :
    Spread (List.zipWith Node.leaf xs ps) (leavesOf xs ps) := by
  have hlen : (List.zipWith Node.leaf xs ps).length = xs.length := by simp [hl]
  have : ((leavesOf xs ps).set.flatMap fun i => (codesBelow (leavesOf xs ps).node i).map (·.1)) =
      (List.zipWith Node.leaf xs ps).map Node.symbol := by
    have : ∀ i ∈ List.range xs.length, (codesBelow (leavesOf xs ps).node i).map (·.1) = [xs.getD i 0] := by
      intro i hi
      have hi' := List.mem_range.mp hi
      have h2 : i < ps.length := by omega
      rw [codesBelow_leaf (x := xs[i]) (w := ps[i]) (by simp [leavesOf, hi', h2])]
      simp [hi']
    show (List.range xs.length).flatMap _ = _
    rw [List.flatMap_def, List.map_congr_left this, ← List.flatMap_def, ← List.map_eq_flatMap]
    refine List.ext_getElem (by simp [hl]) fun i h1 h2 => ?_
    have hi : i < xs.length := by simpa using h1
    simp [Node.symbol, hi]
  rw [Spread, this]

/-- The table of a built tree, its root being a leaf or an internal node (R151, R154). -/
theorem buildTree_codes {xs : List Symbol} {ps : List Prob} (hl : xs.length = ps.length) (h0 : xs ≠ []) :
    (∃ x, xs = [x] ∧ codesOf (buildTree xs ps) = [(x, [false])]) ∨
    (2 ≤ xs.length ∧ codesOf (buildTree xs ps) = codesBelow (buildTree xs ps).node ((buildTree xs ps).nn - 1)) := by
  obtain ⟨hf, hset, hroot, hnn⟩ := buildTree_forest hl h0
  have hlen : (List.zipWith Node.leaf xs ps).length = xs.length := by simp [hl]
  have hcf := forest_childrenFirst hf
  have hpos := List.length_pos_iff.mpr h0
  rcases Nat.lt_or_ge xs.length 2 with h1 | h2
  · obtain ⟨x, rfl⟩ := List.length_eq_one_iff.mp (show xs.length = 1 by omega)
    obtain ⟨p, rfl⟩ := List.length_eq_one_iff.mp (show ps.length = 1 by simpa using hl.symm)
    exact .inl ⟨x, rfl, codesOf_leaf (i := 0) (w := p) (by rw [hroot, hnn]; rfl) (hf.leaf 0 (by simp))⟩
  · obtain ⟨l, r, -, -, -, hn, -⟩ := hf.merged ((buildTree xs ps).nn - 1) (by omega) (by omega)
    exact .inr ⟨h2, codesOf_internal hcf (by omega) hroot hn⟩

/-- Exactly the input symbols have a codeword (R155). -/
theorem buildTree_symbols {xs : List Symbol} {ps : List Prob} (hl : xs.length = ps.length) (h0 : xs ≠ []) :
    ((codesOf (buildTree xs ps)).map (·.1)).Perm xs := by
  rcases buildTree_codes hl h0 with ⟨x, rfl, hc⟩ | ⟨-, hc⟩
  · rw [hc]; exact List.Perm.refl _
  · obtain ⟨hf, hset, -⟩ := buildTree_forest hl h0
    have hs : Spread (List.zipWith Node.leaf xs ps) (buildTree xs ps) :=
      mergeAll_spread xs.length (leavesOf_forest hl h0) (leavesOf_spread hl)
    have hx : (List.zipWith Node.leaf xs ps).map Node.symbol = xs :=
      List.ext_getElem (by simp [hl]) fun i h1 h2 => by simp [Node.symbol]
    rw [Spread, hset, List.flatMap_cons, List.flatMap_nil, List.append_nil, hx] at hs
    rwa [hc]

/-- A built tree is a tree (R29). -/
theorem buildTree_isTree {xs : List Symbol} {ps : List Prob} (h : validAlphabet xs ps) : (buildTree xs ps).isTree = true := by
  obtain ⟨hf, hset, hroot, hnn⟩ := buildTree_forest h.1 h.2.1
  have hcf := forest_childrenFirst hf
  have hsym := buildTree_symbols h.1 h.2.1
  have hpos := List.length_pos_iff.mpr h.2.1
  simp only [HuffmanTree.isTree, hroot, Bool.and_eq_true, decide_eq_true_eq, Bool.not_eq_true', List.all_eq_true]
  refine ⟨⟨⟨⟨hf.size, fun e he => ?_⟩, ?_⟩, ?_⟩, fun e he => ?_⟩
  · obtain ⟨n, i⟩ := e
    have hn := List.mk_mem_zipIdx_iff_getElem?.mp he
    cases n with
    | leaf x w => rfl
    | internal w l r => have := hcf i w l r hn; simp [childrenBelow, this]
  · have := hf.size; omega
  · rw [Bool.eq_false_iff, Ne, hasRepeat_iff, not_not, hsym.nodup_iff]; exact h.2.2.2.2.1
  · exact (isCodable_iff _).mpr (h.2.2.2.1 _ (hsym.mem_iff.mp (List.mem_map_of_mem he)))

/-- The checked form of a tree, as facts (R29). -/
theorem isTree_facts {t : HuffmanTree} (h : t.isTree = true) :
    t.nn = t.node.length ∧ ChildrenFirst t.node ∧ (∃ r, t.root = some r ∧ r < t.node.length) ∧
      ((codesOf t).map (·.1)).Nodup ∧ ∀ e ∈ codesOf t, isCodable e.1 = true := by
  simp only [HuffmanTree.isTree, Bool.and_eq_true, decide_eq_true_eq, Bool.not_eq_true', List.all_eq_true] at h
  obtain ⟨⟨⟨⟨hn, hc⟩, hr⟩, hd⟩, hs⟩ := h
  refine ⟨hn, fun i w l r hi => ?_, ?_, ?_, hs⟩
  · have := hc (_, i) (List.mk_mem_zipIdx_iff_getElem?.mpr hi)
    simpa [childrenBelow] using this
  · cases hroot : t.root with
    | none => rw [hroot] at hr; cases hr
    | some r => rw [hroot] at hr; exact ⟨r, rfl, by simpa using hr⟩
  · rw [Bool.eq_false_iff, Ne, hasRepeat_iff, not_not] at hd; exact hd

/-! Depths (R155). -/

section depths

variable {leaves : List Node} {t : HuffmanTree}

/-- A child's parent is a merged node after it. -/
theorem isChild_merged (h : Forest leaves t) {k j : Nat} (hc : isChild t.node k j) : leaves.length ≤ k ∧ k < t.nn ∧ j < k := by
  obtain ⟨w, l, r, hn, hj⟩ := hc
  have hk := (List.getElem?_eq_some_iff.mp hn).1
  have hcf := forest_childrenFirst h k w l r hn
  refine ⟨?_, by rw [h.size]; exact hk, by rcases hj with rfl | rfl <;> omega⟩
  by_contra hlt
  obtain ⟨x, w', hx⟩ := h.leafy _ (List.getElem_mem (show k < leaves.length by omega))
  rw [h.leaf k (by omega), List.getElem?_eq_getElem (by omega), hx] at hn; cases hn

/-- The children of an internal node are its two. -/
theorem merged_child {k l r j : Nat} {w : Prob} (hn : t.node[k]? = some (.internal w l r)) : isChild t.node k j ↔ j = l ∨ j = r := by
  constructor
  · rintro ⟨w', l', r', hn', hj⟩; rw [hn] at hn'; cases hn'; exact hj
  · exact fun hj => ⟨w, l, r, hn, hj⟩

/-- Each node has one parent at most (R29). -/
theorem parent_unique (h : Forest leaves t) {k k' j : Nat} (hc : isChild t.node k j) (hc' : isChild t.node k' j) : k = k' := by
  have key : ∀ k k', isChild t.node k j → isChild t.node k' j → ¬k < k' := by
    intro k k' hc hc' hlt
    have hk' := isChild_merged h hc'
    obtain ⟨l, r, -, -, -, hn, -, hno, -⟩ := h.merged k' hk'.1 hk'.2.1
    rcases (merged_child hn).mp hc' with rfl | rfl
    · exact (hno k hlt).1 hc
    · exact (hno k hlt).2 hc
  have := key k k' hc hc'; have := key k' k hc' hc; omega

/-- The weight of an internal node is the one it carries. -/
theorem weight_internal {i l r : Nat} {w : Prob} (hn : t.node[i]? = some (.internal w l r)) : weightAt t.node i = w := by
  simp [weightAt, hn, Node.weight]

/-- With positive leaves every node is positive (R134, R142). -/
theorem weight_pos (h : Forest leaves t) (hp : ∀ n ∈ leaves, 0 < Node.weight n) (i : Nat) (hi : i < t.nn) : 0 < weightAt t.node i := by
  induction i using Nat.strong_induction_on with
  | _ i ih =>
    by_cases hl : i < leaves.length
    · simp only [weightAt, h.leaf i hl, List.getElem?_eq_getElem hl]; exact hp _ (List.getElem_mem hl)
    · obtain ⟨l, r, hl', hr', -, hn, -⟩ := h.merged i (by omega) hi
      rw [weight_internal hn]
      have := ih l hl' (by omega); have := ih r hr' (by omega); linarith

/-- A merged node is not lighter than the one made before it. -/
theorem weight_step (h : Forest leaves t) (hp : ∀ n ∈ leaves, 0 < Node.weight n) (i : Nat) (h1 : leaves.length ≤ i) (hi : i + 1 < t.nn) :
    weightAt t.node i ≤ weightAt t.node (i + 1) := by
  obtain ⟨l, r, hl, hr, hne, hn, -, hno, hs⟩ := h.merged i h1 (by omega)
  obtain ⟨l', r', hl', hr', hne', hn', -, hno', -⟩ := h.merged (i + 1) (by omega) hi
  rw [weight_internal hn']
  by_cases e1 : l' = i
  · subst e1; have := weight_pos h hp r' (by omega); linarith
  by_cases e2 : r' = i
  · subst e2; have := weight_pos h hp l' (by omega); linarith
  rw [weight_internal hn]
  have hcl : isChild t.node i l := (merged_child hn).mpr (.inl rfl)
  have hcr : isChild t.node i r := (merged_child hn).mpr (.inr rfl)
  have a1 : l' ≠ l := by rintro rfl; exact (hno' i (by omega)).1 hcl
  have a2 : l' ≠ r := by rintro rfl; exact (hno' i (by omega)).1 hcr
  have b1 : r' ≠ l := by rintro rfl; exact (hno' i (by omega)).2 hcl
  have b2 : r' ≠ r := by rintro rfl; exact (hno' i (by omega)).2 hcr
  have s1 := hs l' (by omega) a1 a2 fun k hk => (hno' k (by omega)).1
  have s2 := hs r' (by omega) b1 b2 fun k hk => (hno' k (by omega)).2
  have := standsBefore_le s1.1; have := standsBefore_le s2.2; linarith

/-- Merged nodes are made in the order of their weights. -/
theorem weight_mono (h : Forest leaves t) (hp : ∀ n ∈ leaves, 0 < Node.weight n) {i j : Nat} (h1 : leaves.length ≤ i) (hij : i ≤ j) (hj : j < t.nn) :
    weightAt t.node i ≤ weightAt t.node j := by
  induction j, hij using Nat.le_induction with
  | base => exact le_refl _
  | succ j hij ih => exact (ih (by omega)).trans (weight_step h hp j (by omega) hj)

/-- A node that gets its parent while another still has none stands before that one (R146). -/
theorem removed_first (h : Forest leaves t) {i i' p p' : Nat} (hc : isChild t.node p i) (hc' : isChild t.node p' i') (hlt : p' < p) (hi : i < p') :
    standsBefore t.node i' i := by
  have hm := isChild_merged h hc'
  obtain ⟨l, r, -, -, -, hn, -, -, hs⟩ := h.merged p' hm.1 hm.2.1
  have hnp : ∀ k, k < p' → ¬isChild t.node k i := fun k hk hck => by have := parent_unique h hc hck; omega
  have hni : ¬isChild t.node p' i := fun hck => by have := parent_unique h hc hck; omega
  rw [merged_child hn, not_or] at hni
  rcases (merged_child hn).mp hc' with rfl | rfl
  · exact (hs i hi hni.1 hni.2 hnp).1
  · exact (hs i hi hni.1 hni.2 hnp).2

/-- The last branch of a path comes from the parent. -/
theorem walk_snoc {node : List Node} {i k : Nat} {cw : Bits} {b : Bool} (hw : walk node i (cw ++ [b]) = some k) :
    ∃ p, walk node i cw = some p ∧ isChild node p k := by
  induction cw generalizing i with
  | nil =>
    simp only [List.nil_append, walk] at hw
    split at hw
    · rename_i w l r hn
      cases hw
      refine ⟨i, rfl, w, l, r, hn, ?_⟩
      cases b <;> simp
    · cases hw
  | cons c rest ih =>
    simp only [List.cons_append, walk] at hw ⊢
    split at hw
    · exact ih hw
    · cases hw

/-- A path stays in the arena. -/
theorem walk_lt (h : Forest leaves t) {i k : Nat} {cw : Bits} (hi : i < t.nn) (hw : walk t.node i cw = some k) : k < t.nn := by
  rcases List.eq_nil_or_concat cw with rfl | ⟨cw, b, rfl⟩
  · cases hw; exact hi
  · obtain ⟨p, -, hc⟩ := walk_snoc (by simpa using hw)
    have := isChild_merged h hc; omega

/-- A node whose parent was made no later than another's is no less deep (R155). -/
theorem depth_order (h : Forest leaves t) (hp : ∀ n ∈ leaves, 0 < Node.weight n) (u v : Bits) {i j : Nat}
    (hu : walk t.node (t.nn - 1) u = some i) (hv : walk t.node (t.nn - 1) v = some j) (hpos : 0 < t.nn)
    (ho : j = t.nn - 1 ∨ ∃ p q, isChild t.node p i ∧ isChild t.node q j ∧ p ≤ q) : v.length ≤ u.length := by
  induction hn : v.length generalizing u v i j with
  | zero => omega
  | succ n ih =>
    obtain ⟨v', b, rfl⟩ : ∃ v' b, v = v' ++ [b] := by
      rcases List.eq_nil_or_concat v with rfl | ⟨v', b, rfl⟩
      · simp at hn
      · exact ⟨v', b, by simp⟩
    obtain ⟨q', hq', hcq⟩ := walk_snoc hv
    have hq := isChild_merged h hcq
    rcases ho with rfl | ⟨p, q, hcp, hcq2, hpq⟩
    · omega
    have := parent_unique h hcq hcq2; subst this
    have hpm := isChild_merged h hcp
    obtain ⟨u', c, rfl⟩ : ∃ u' c, u = u' ++ [c] := by
      rcases List.eq_nil_or_concat u with rfl | ⟨u', c, rfl⟩
      · cases hu; omega
      · exact ⟨u', c, by simp⟩
    obtain ⟨p', hp', hcp'⟩ := walk_snoc hu
    have := parent_unique h hcp hcp'; subst this
    simp only [List.length_append, List.length_singleton] at hn ⊢
    have := ih u' v' hp' hq' ?_ (by omega)
    · omega
    · by_cases hroot : q' = t.nn - 1
      · exact .inl hroot
      right
      have hvne : ∃ v2 b2, v' = v2 ++ [b2] := by
        rcases List.eq_nil_or_concat v' with rfl | ⟨v2, b2, rfl⟩
        · cases hq'; omega
        · exact ⟨v2, b2, by simp⟩
      obtain ⟨v2, b2, rfl⟩ := hvne
      obtain ⟨q2, -, hcq3⟩ := walk_snoc hq'
      have hune : ∃ v2 b2, u' = v2 ++ [b2] := by
        rcases List.eq_nil_or_concat u' with rfl | ⟨v2, b2, rfl⟩
        · cases hp'; omega
        · exact ⟨v2, b2, by simp⟩
      obtain ⟨u2, c2, rfl⟩ := hune
      obtain ⟨p2, -, hcp3⟩ := walk_snoc hp'
      refine ⟨p2, q2, hcp3, hcq3, ?_⟩
      by_contra hlt
      have hq2 := isChild_merged h hcq3
      have := removed_first h hcp3 hcq3 (by omega) (by omega)
      have hm := weight_mono h hp hpm.1 hpq (by omega)
      rcases this with hw | ⟨hw, hlt2⟩
      · exact absurd hm (not_le.mpr hw)
      · omega

end depths

end Sys2Proof.Machine
end

