-- ==== Sys2Proof/Laws/Encodings.lean ====
section
/-! SUPPORT. What the decoder reads in the bits of a record (30_encoding.md R76 to R80, R84): the fields of an encoded
header and of an encoded table entry, and that an entry is recognised by its own length field. -/

namespace Sys2Proof

open Machine

/-- The codable symbols (R7), as a fact about integers. -/
theorem codable_iff (x : Int) : Symbol.codable x = true ↔ -255 ≤ x ∧ x ≤ 255 := by
  rw [Symbol.codable, Bool.and_eq_true, decide_eq_true_eq, decide_eq_true_eq]; rfl

/-- The biased symbol of a codable symbol is in 0 .. 510 (R82). -/
theorem biased_range {x : Int} (h : Symbol.codable x = true) : 0 ≤ x + Config.bias ∧ (x + Config.bias).toNat < 511 := by
  have := (codable_iff x).mp h
  simp only [Config.bias]; omega

@[simp] theorem headerBits_length (h w : BitVec 16) : (headerBits h w).length = 32 := by simp [headerBits]

@[simp] theorem entryBits_length (x : Symbol) (cw : Bits) : (entryBits x cw).length = 14 + cw.length := by simp [entryBits]; omega

@[simp] theorem sentinelBits_length : sentinelBits.length = 9 := by simp [sentinelBits]

/-- The first nine bits of an entry are its biased symbol (R77). -/
theorem biasedField_entry {x : Symbol} (cw rest : Bits) (h : Symbol.codable x = true) :
    biasedField (entryBits x cw ++ rest) = (x + Config.bias).toNat := by
  have hb := biased_range h
  have : (entryBits x cw ++ rest).take 9 = bitsOf 9 (x + Config.bias).toNat := by
    simp only [entryBits, List.append_assoc]; rw [List.take_left' (by simp)]
  rw [biasedField, this, valOf_bitsOf (by omega)]

/-- Bits 9 to 13 of an entry are its code length (R77). -/
theorem lengthField_entry (x : Symbol) {cw : Bits} (rest : Bits) (h : cw.length ≤ Config.lenMax) :
    lengthField (entryBits x cw ++ rest) = cw.length := by
  have : ((entryBits x cw ++ rest).drop 9).take 5 = bitsOf 5 cw.length := by
    simp only [entryBits, List.append_assoc]; rw [List.drop_left' (by simp), List.take_left' (by simp)]
  rw [lengthField, this, valOf_bitsOf (by simp only [Config.lenMax] at h; omega)]

/-- The bits after bit 13 of an entry are its codeword (R77, R83). -/
theorem drop_entry (x : Symbol) (cw : Bits) : (entryBits x cw).drop 14 = cw := by
  rw [entryBits, List.drop_left' (by simp)]

/-- Bits whose value is a field are the bits of that value (R13). -/
theorem bitsOf_valOf_take {n : Nat} {s : Bits} (h : n ≤ s.length) : bitsOf n (valOf (s.take n)) = s.take n := by
  have := bitsOf_valOf (s.take n)
  rwa [List.length_take, Nat.min_eq_left h] at this

/-- A table record that is not the sentinel is the bits of its entry. -/
theorem entryBits_of_fields {s : Bits} (h14 : 14 ≤ s.length) (hl : s.length = 14 + lengthField s) :
    entryBits ((biasedField s : Int) - Config.bias) (s.drop 14) = s := by
  have h9 : bitsOf 9 (biasedField s) = s.take 9 := bitsOf_valOf_take (by omega)
  have h5 : bitsOf 5 (lengthField s) = (s.drop 9).take 5 := bitsOf_valOf_take (by simp; omega)
  have hlen : (s.drop 14).length = lengthField s := by simp; omega
  have hb : ((biasedField s : Int) - Config.bias + Config.bias).toNat = biasedField s := by omega
  rw [entryBits, hb, hlen, h9, h5, List.append_assoc]
  have : s.drop 14 = (s.drop 9).drop 5 := by simp
  rw [this, List.take_append_drop, List.take_append_drop]

/-- A field of `n` bits is less than `2^n`. -/
theorem biasedField_lt (s : Bits) : biasedField s < 512 := by
  have := valOf_lt (s.take 9)
  have h2 : 2 ^ (s.take 9).length ≤ 2 ^ 9 := Nat.pow_le_pow_right (by omega) (by simp)
  simp only [biasedField]; omega

theorem lengthField_lt (s : Bits) : lengthField s < 32 := by
  have := valOf_lt ((s.drop 9).take 5)
  have h2 : 2 ^ ((s.drop 9).take 5).length ≤ 2 ^ 5 := Nat.pow_le_pow_right (by omega) (by simp)
  simp only [lengthField]; omega

end Sys2Proof
end

