-- ==== Sys2Proof/Laws/Histogram.lean ====
section
/-! SUPPORT. The histogram accumulator (42_histogram.md R129 to R134): what one count changes, what counting a list of
samples leaves, and which pairs are emitted. -/

namespace Sys2Proof.Machine

/-- The counter of a codable symbol is in the counter file (R27). -/
theorem counterIndex_lt {x : Int} (h : isCodable x = true) : counterIndex x < 511 := by
  have := (isCodable_iff x).mp h
  simp only [counterIndex, Config.bias]; omega

theorem counterIndex_inj {x y : Int} (hx : isCodable x = true) (hy : isCodable y = true) :
    counterIndex x = counterIndex y ↔ x = y := by
  have := (isCodable_iff x).mp hx; have := (isCodable_iff y).mp hy
  simp only [counterIndex, Config.bias]; omega

theorem counter_codable {g : Histogram} {x : Int} (h : isCodable x = true) :
    g.counter x = g.count[counterIndex x]'(counterIndex_lt h) := by
  have hi := counterIndex_lt h
  simp [Histogram.counter, h, Vector.getD, Array.getD, hi]

theorem counter_uncodable {g : Histogram} {x : Int} (h : isCodable x = false) : g.counter x = 0 := by
  simp [Histogram.counter, h]

/-- One count adds one to its own counter and leaves the others (R130). -/
theorem counter_bump (g : Histogram) {x : Int} (hx : isCodable x = true) (y : Int) :
    (g.bump x).counter y = g.counter y + if y = x then 1 else 0 := by
  cases hy : isCodable y with
  | false =>
    have : y ≠ x := by rintro rfl; rw [hx] at hy; cases hy
    simp [counter_uncodable hy, this]
  | true =>
    have hi := counterIndex_lt hx
    rw [counter_codable hy, counter_codable hy]
    by_cases he : y = x
    · subst he
      simp [Histogram.bump, counter_codable hx]
    · have hne : counterIndex x ≠ counterIndex y := fun h => he ((counterIndex_inj hx hy).mp h).symm
      simp [Histogram.bump, he, hne]

theorem bump_total (g : Histogram) (x : Int) : (g.bump x).total = g.total + 1 := rfl

/-- One count adds one to the sum of the counters (R28). -/
theorem sum_bump (g : Histogram) {x : Int} (h : isCodable x = true) :
    (g.bump x).count.toList.sum = g.count.toList.sum + 1 := by
  have hi := counterIndex_lt h
  have hl : counterIndex x < g.count.toList.length := by simpa using hi
  have hset : (g.bump x).count.toList = g.count.toList.set (counterIndex x) (g.count.toList[counterIndex x] + 1) := by
    simp [Histogram.bump, counter_codable h]
  have key : ∀ (l : List Nat) (i : Nat) (hi : i < l.length), (l.set i (l[i] + 1)).sum = l.sum + 1 := by
    intro l
    induction l with
    | nil => intro i hi; simp at hi
    | cons a rest ih =>
      intro i hi
      cases i with
      | zero => simp; omega
      | succ i => simp [ih i (by simpa using hi)]; omega
  rw [hset, key _ _ hl]

/-- The histogram with nothing counted (R129). -/
def Histogram.cleared : Histogram := { count := Vector.replicate 511 0, total := 0 }

theorem counter_cleared (x : Int) : Histogram.cleared.counter x = 0 := by
  cases h : isCodable x with
  | false => exact counter_uncodable h
  | true => rw [counter_codable h]; simp [Histogram.cleared]

/-- A codable sample is counted (R130). -/
theorem accumulate_codable {x : Int} (h : isCodable x = true) (s : State) :
    accumulate x s = .ok () (s.withHg (s.hg.bump x)) := by simp [accumulate, h]

/-- Any other is a `SampleRangeError` (R130). -/
theorem accumulate_uncodable {x : Int} (h : isCodable x = false) (s : State) :
    accumulate x s = .stop (.fault .sampleRangeError (x, s.hg.total)) s := by simp [accumulate, h]

/-- The histogram after counting a list of samples. -/
def Histogram.counted (g : Histogram) (l : List Sample) : Histogram := l.foldl Histogram.bump g

theorem forEach_accumulate {l : List Sample} (h : ∀ x ∈ l, isCodable x = true) (s : State) :
    forEach l accumulate s = .ok () (s.withHg (s.hg.counted l)) := by
  induction l generalizing s with
  | nil => simp [Histogram.counted]
  | cons x rest ih =>
    rw [forEach_cons, next_ok (accumulate_codable (h x List.mem_cons_self) s),
      ih fun y hy => h y (List.mem_cons_of_mem _ hy)]
    simp [Histogram.counted]

theorem counted_total (g : Histogram) (l : List Sample) : (g.counted l).total = g.total + l.length := by
  induction l generalizing g with
  | nil => rfl
  | cons x rest ih =>
    have := ih (g.bump x)
    simp only [Histogram.counted, List.foldl_cons, List.length_cons] at this ⊢
    rw [this, bump_total]; omega

/-- Counting a list adds to each counter how often its symbol occurs (R27). -/
theorem counter_counted (g : Histogram) {l : List Sample} (h : ∀ x ∈ l, isCodable x = true) (y : Int) :
    (g.counted l).counter y = g.counter y + l.count y := by
  induction l generalizing g with
  | nil => simp [Histogram.counted]
  | cons x rest ih =>
    have := ih (g.bump x) fun z hz => h z (List.mem_cons_of_mem _ hz)
    simp only [Histogram.counted, List.foldl_cons] at this ⊢
    rw [this, counter_bump g (h x List.mem_cons_self), List.count_cons]
    by_cases he : y = x
    · subst he; simp; omega
    · simp [he, Ne.symm he]

/-- The symbols the histogram ranges over are the codable ones (R7). -/
theorem mem_allSymbols (x : Int) : x ∈ allSymbols ↔ isCodable x = true := by
  rw [isCodable_iff, allSymbols, List.mem_map]
  constructor
  · rintro ⟨i, hi, rfl⟩
    have : i < 511 := List.mem_range.mp hi
    simp only [Config.bias]; omega
  · exact fun h => ⟨(x + 255).toNat, List.mem_range.mpr (show _ < 511 by omega), by simp only [Config.bias]; omega⟩

/-- The emitted pairs (R131, R133). -/
theorem mem_emit (g : Histogram) (lo hi : Int) (x : Int) (p : Prob) :
    (x, p) ∈ g.emit lo hi ↔ lo ≤ x ∧ x ≤ hi ∧ 0 < g.counter x ∧ p = mkRat (g.counter x) g.total := by
  simp only [Histogram.emit, List.mem_map, List.mem_filter, mem_allSymbols, Bool.and_eq_true, decide_eq_true_eq, Prod.mk.injEq]
  constructor
  · rintro ⟨y, ⟨-, ⟨h1, h2⟩, h3⟩, rfl, rfl⟩; exact ⟨h1, h2, h3, rfl⟩
  · rintro ⟨h1, h2, h3, rfl⟩
    refine ⟨x, ⟨?_, ⟨h1, h2⟩, h3⟩, rfl, rfl⟩
    by_contra hc
    rw [counter_uncodable (by simpa using hc)] at h3; omega

theorem allSymbols_sorted : allSymbols.Pairwise (· < ·) := by
  rw [allSymbols]
  generalize Config.symbolCount = n
  refine List.pairwise_map.mpr ?_
  have h : (List.range n).Pairwise (· < ·) := List.pairwise_lt_range
  refine h.imp (S := fun a b : Nat => ((a : Int) - Config.bias) < (b : Int) - Config.bias) fun hab => ?_
  omega

/-- The emitted symbols ascend (R131). -/
theorem emit_sorted (g : Histogram) (lo hi : Int) : ((g.emit lo hi).map (·.1)).Pairwise (· < ·) := by
  have : (g.emit lo hi).map (·.1) =
      allSymbols.filter fun x => decide (lo ≤ x) && decide (x ≤ hi) && decide (0 < g.counter x) := by
    simp [Histogram.emit, List.map_map, Function.comp_def]
  rw [this]
  exact allSymbols_sorted.filter _

/-- Building a histogram of codable samples (R132). -/
theorem buildHistogram_codable {l : List Sample} (h : ∀ x ∈ l, isCodable x = true) (h0 : l ≠ []) (lo hi : Int) (s : State) :
    buildHistogram l lo hi s =
      .ok ((Histogram.cleared.counted l).emit lo hi) (s.withHg (Histogram.cleared.counted l)) := by
  have hl := List.length_pos_iff.mpr h0
  have ht : (Histogram.cleared.counted l).total ≠ 0 := by
    rw [counted_total]; have : Histogram.cleared.total = 0 := rfl; omega
  rw [buildHistogram, clearHistogram, assign_next, next_ok (forEach_accumulate h _), emitHistogram]
  simp only [withHg_fields, withHg_withHg]
  rw [if_neg (by exact ht)]
  rfl

theorem minOf_le {l : List Int} {x : Int} (h : x ∈ l) : minOf l ≤ x := by
  cases l with
  | nil => cases h
  | cons a rest =>
    have key : ∀ (rest : List Int) (a : Int), rest.foldl min a ≤ a ∧ ∀ y ∈ rest, rest.foldl min a ≤ y := by
      intro rest
      induction rest with
      | nil => intro a; simp
      | cons b rest ih =>
        intro a
        have := ih (min a b)
        refine ⟨this.1.trans (min_le_left _ _), fun y hy => ?_⟩
        rcases List.mem_cons.mp hy with rfl | hy
        · exact this.1.trans (min_le_right _ _)
        · exact this.2 y hy
    rcases List.mem_cons.mp h with rfl | h
    · exact (key rest x).1
    · exact (key rest a).2 x h

theorem le_maxOf {l : List Int} {x : Int} (h : x ∈ l) : x ≤ maxOf l := by
  cases l with
  | nil => cases h
  | cons a rest =>
    have key : ∀ (rest : List Int) (a : Int), a ≤ rest.foldl max a ∧ ∀ y ∈ rest, y ≤ rest.foldl max a := by
      intro rest
      induction rest with
      | nil => intro a; simp
      | cons b rest ih =>
        intro a
        have := ih (max a b)
        refine ⟨(le_max_left _ _).trans this.1, fun y hy => ?_⟩
        rcases List.mem_cons.mp hy with rfl | hy
        · exact (le_max_right _ _).trans this.1
        · exact this.2 y hy
    rcases List.mem_cons.mp h with rfl | h
    · exact (key rest x).1
    · exact (key rest a).2 x h

/-- Over its own range a list of codable samples gives the occurring symbols with their fractions (R131, R183). -/
theorem emit_counted {l : List Sample} (h : ∀ x ∈ l, isCodable x = true) :
    (Histogram.cleared.counted l).emit (minOf l) (maxOf l) = empirical l := by
  have hc : ∀ x, (Histogram.cleared.counted l).counter x = l.count x := fun x => by
    rw [counter_counted _ h, counter_cleared]; omega
  have ht : (Histogram.cleared.counted l).total = l.length := by
    rw [counted_total]; exact Nat.zero_add _
  have hf : (allSymbols.filter fun x => decide (minOf l ≤ x) && decide (x ≤ maxOf l) &&
      decide (0 < (Histogram.cleared.counted l).counter x)) = allSymbols.filter fun x => l.contains x := by
    refine List.filter_congr fun x _ => ?_
    rw [hc x]
    by_cases hx : x ∈ l
    · have h1 := minOf_le hx; have h2 := le_maxOf hx; have h3 := List.count_pos_iff.mpr hx
      simp [hx, h1, h2]
    · have h3 := List.count_eq_zero.mpr hx
      simp [hx]
  rw [Histogram.emit, hf, empirical, ht]
  exact List.map_congr_left fun x _ => by rw [hc x]

end Sys2Proof.Machine
end

