-- ==== Sys2Proof/Laws/Streams.lean ====
section
/-! SUPPORT. The bit streams: what writing bits to an open writer with a reliable sink does, whole (R107, R109); what
reading bits from a reader with a reliable source does, whole (R111, R112, R114); and what either can do at all. -/

namespace Sys2Proof.Machine

/-! Reliability. -/

theorem reliable_now {s : State} (h : s.reliable) : ioFailsNow s = false := by
  simp only [ioFailsNow]; cases hl : s.ioFail <;> simp_all [State.reliable]

theorem reliable_tick {s : State} (h : s.reliable) : (tickIo s).reliable := by
  simp only [State.reliable, tickIo, withIoFail_fields]
  cases hl : s.ioFail <;> simp_all [State.reliable]

theorem reliable_drop {s : State} (n : Nat) (h : s.reliable) : (s.ioFail.drop n).all (! ·) = true := by
  simp only [List.all_eq_true] at *
  exact fun x hx => h x (List.mem_of_mem_drop hx)

/-! The BitWriter. -/

theorem afterWrite_nil {s : State} (hb : s.bw.buf.length ≤ 7) : afterWrite [] s = s := by
  have := packBytes_short (s := s.bw.buf) (by omega)
  simp [afterWrite, this]

/-- Writing twice is writing the two sequences one after the other (R109). -/
theorem afterWrite_append (a b : Bits) (s : State) : afterWrite b (afterWrite a s) = afterWrite (a ++ b) s := by
  have := packBytes_append (s.bw.buf ++ a) b
  simp only [afterWrite, ← List.append_assoc, this, List.drop_drop, List.length_append]

theorem afterWrite_open (a : Bits) (s : State) : (afterWrite a s).bw.isOpen = s.bw.isOpen := rfl

theorem afterWrite_buf (a : Bits) (s : State) : (afterWrite a s).bw.buf.length ≤ 7 := by
  have := leftover_length (s.bw.buf ++ a)
  simp only [afterWrite]; omega

theorem afterWrite_reliable {s : State} (a : Bits) (h : s.reliable) : (afterWrite a s).reliable := reliable_drop _ h

/-- One bit into the buffer, a byte not being complete yet (R107). -/
theorem pushBit_short {s : State} (b : Bool) (h : (s.bw.buf ++ [b]).length ≠ 8) :
    pushBit b s = .ok () (s.withBw { s.bw with buf := s.bw.buf ++ [b] }) := if_neg h

/-- One bit into the buffer, completing a byte (R107). -/
theorem pushBit_full {s : State} (b : Bool) (h : (s.bw.buf ++ [b]).length = 8) :
    pushBit b s = flushByte (byteOf (s.bw.buf ++ [b])) s := if_pos h

/-- All that sending a completed byte can do (R107, R215, R221): it is appended, or the append fails and the byte is still
there. -/
theorem flushByte_cases (b : Byte) (s : State) :
    (ioFailsNow s = true ∧ flushByte b s =
      .stop (.fault .ioFailure (0, 0)) ((tickIo s).withBw { s.bw with buf := [], full := some b })) ∨
    (ioFailsNow s = false ∧ flushByte b s =
      .ok () (((tickIo s).withSink (s.sink ++ [b])).withBw { s.bw with buf := [], full := none })) := by
  rcases sinkAppend_cases b (s.withBw { s.bw with buf := [], full := some b }) with ⟨hio, h⟩ | ⟨hio, h⟩
  · exact .inl ⟨hio, by rw [flushByte, assign_next, next_stop h]; rfl⟩
  · exact .inr ⟨hio, by rw [flushByte, assign_next, next_ok h]; rfl⟩

/-- One bit into the buffer of a writer with a reliable sink (R107). -/
theorem pushBit_reliable {s : State} (b : Bool) (h : s.reliable) (hb : s.bw.buf.length ≤ 7) (hn : s.bw.full = none) :
    pushBit b s = .ok () (afterWrite [b] s) := by
  rcases Nat.lt_or_ge s.bw.buf.length 7 with hlt | hge
  · have hshort := packBytes_short (s := s.bw.buf ++ [b]) (by simp; omega)
    rw [pushBit_short b (by simp; omega), afterWrite, hshort.1, hshort.2, List.append_nil, List.length_nil, List.drop_zero]
    rfl
  · have h8 : (s.bw.buf ++ [b]).length = 8 := by simp; omega
    have hpack := packBytes_eight h8
    have ha := (flushByte_cases (byteOf (s.bw.buf ++ [b])) s).resolve_left
      fun hf => Bool.noConfusion (hf.1.symm.trans (reliable_now h))
    rw [pushBit_full b h8, ha.2, afterWrite, hpack.1, hpack.2, List.length_singleton, List.drop_one, ← hn]
    rfl

theorem forEach_pushBit_reliable (bits : Bits) {s : State} (h : s.reliable) (hb : s.bw.buf.length ≤ 7)
    (hn : s.bw.full = none) :
    forEach bits pushBit s = .ok () (afterWrite bits s) := by
  induction bits generalizing s with
  | nil => simp [afterWrite_nil hb]
  | cons b rest ih =>
    rw [forEach_cons, next_ok (pushBit_reliable b h hb hn), ih (afterWrite_reliable _ h) (afterWrite_buf _ _) hn,
      afterWrite_append]; rfl

/-- Writing bits to an open writer with a reliable sink (R107, R109). -/
theorem writeBits_reliable (bits : Bits) {s : State} (ho : s.bw.isOpen = true) (h : s.reliable)
    (hb : s.bw.buf.length ≤ 7) (hf : s.bw.full = none) : writeBits bits s = .ok () (afterWrite bits s) := by
  have hn : needWriter s = .ok () s := by simp [needWriter, ho]
  rw [writeBits, next_ok hn, forEach_pushBit_reliable bits h hb hf]

/-- Going through bits when the sink fails the append after the next `j` (R107, R215, R221): the bytes before it are in the
sink, the byte of the failing one is still in the writer. -/
theorem forEach_pushBit_fails (bits : Bits) {s : State} {j : Nat} {later : List Bool} (hb : s.bw.buf.length ≤ 7)
    (hf : s.failsAfter j later) (hj : j < (packBytes (s.bw.buf ++ bits)).length) :
    forEach bits pushBit s = .stop (.fault .ioFailure (0, 0)) { s with
      sink := s.sink ++ (packBytes (s.bw.buf ++ bits)).take j
      bw := { s.bw with buf := [], full := (packBytes (s.bw.buf ++ bits))[j]? }
      ioFail := later } := by
  induction bits generalizing s j with
  | nil => simp [(packBytes_short (s := s.bw.buf) (by omega)).1] at hj
  | cons b rest ih =>
    have hsplit : s.bw.buf ++ b :: rest = (s.bw.buf ++ [b]) ++ rest := by simp
    rw [hsplit] at hj ⊢
    rcases Nat.lt_or_ge s.bw.buf.length 7 with hlt | hge
    · have h := ih (s := s.withBw { s.bw with buf := s.bw.buf ++ [b] }) (by simp; omega) hf hj
      rw [forEach_cons, next_ok (pushBit_short b (by simp; omega)), h]
      rfl
    · have h8 : (s.bw.buf ++ [b]).length = 8 := by simp; omega
      have hp := packBytes_cons8 rest h8
      have hf' : s.ioFail = List.replicate j false ++ true :: later := hf
      rw [hp.1] at hj ⊢
      cases j with
      | zero =>
        have hnow : ioFailsNow s = true := by simp [ioFailsNow, hf']
        have ha := (flushByte_cases (byteOf (s.bw.buf ++ [b])) s).resolve_right
          fun h => Bool.noConfusion (h.1.symm.trans hnow)
        rw [forEach_cons, next_stop ((pushBit_full b h8).trans ha.2), List.take_zero, List.append_nil]
        simp only [tickIo, hf']; rfl
      | succ j =>
        have hnow : ioFailsNow s = false := by
          simp [ioFailsNow, hf', List.replicate_succ]
        have ha := (flushByte_cases (byteOf (s.bw.buf ++ [b])) s).resolve_left
          fun h => Bool.noConfusion (h.1.symm.trans hnow)
        have hpush : pushBit b s = .ok () { s with
            sink := s.sink ++ [byteOf (s.bw.buf ++ [b])], bw := { s.bw with buf := [], full := none }, ioFail := s.ioFail.tail } := by
          rw [pushBit_full b h8, ha.2]; rfl
        have h := ih (s := { s with
            sink := s.sink ++ [byteOf (s.bw.buf ++ [b])], bw := { s.bw with buf := [], full := none }, ioFail := s.ioFail.tail })
          (j := j) (by simp) (by simp [State.failsAfter, hf', List.replicate_succ]) (by simpa using hj)
        rw [forEach_cons, next_ok hpush, h]
        simp

/-- Writing bits when the sink fails the append after the next `j` (R107, R215). -/
theorem writeBits_fails (bits : Bits) {s : State} {j : Nat} {later : List Bool} (ho : s.bw.isOpen = true)
    (hb : s.bw.buf.length ≤ 7) (hf : s.failsAfter j later) (hj : j < (packBytes (s.bw.buf ++ bits)).length) :
    writeBits bits s = .stop (.fault .ioFailure (0, 0)) { s with
      sink := s.sink ++ (packBytes (s.bw.buf ++ bits)).take j
      bw := { s.bw with buf := [], full := (packBytes (s.bw.buf ++ bits))[j]? }
      ioFail := later } := by
  have hn : needWriter s = .ok () s := by simp [needWriter, ho]
  rw [writeBits, next_ok hn, forEach_pushBit_fails bits hb hf hj]

/-- Writing bits to a closed writer is refused (R115). -/
theorem writeBits_closed (bits : Bits) {s : State} (ho : s.bw.isOpen = false) :
    writeBits bits s = .stop (.refuse .notOpen) s := by
  have hn : needWriter s = .stop (.refuse .notOpen) s := by simp [needWriter, ho]
  rw [writeBits, next_stop hn]

/-- The padded last byte, as bytes (R108). -/
theorem packBytes_padded {s : Bits} (h : s.length ≤ 7) :
    packBytes (padded s) = if s = [] then [] else [byteOf (s ++ zeros (8 - s.length))] := by
  by_cases hs : s = []
  · subst hs; rfl
  · have hpos : 0 < s.length := List.length_pos_iff.mpr hs
    have hz : (8 - s.length % 8) % 8 = 8 - s.length := by omega
    have h8 : (s ++ zeros (8 - s.length)).length = 8 := by simp; omega
    simp [padded, hz, hs, (packBytes_eight h8).1]

/-- Closing an open writer with a reliable sink (R108). -/
theorem closeWriter_reliable {s : State} (h : s.reliable) (hb : s.bw.buf.length ≤ 7) (hn : s.bw.full = none) :
    closeWriter s = .ok () { s with
      sink := s.sink ++ packBytes (padded s.bw.buf)
      bw := { buf := [], isOpen := false }
      ioFail := s.ioFail.drop (packBytes (padded s.bw.buf)).length } := by
  rw [packBytes_padded hb]
  have hl := lastByte_padded hn
  rcases closeWriter_cases s with ⟨h0, hc⟩ | ⟨b, h0, _, hc⟩ | ⟨_, _, hio, _⟩
  · have he : s.bw.buf = [] := by by_contra hne; rw [hl, if_neg hne] at h0; cases h0
    rw [hc, if_pos he, List.append_nil]; rfl
  · have he : s.bw.buf ≠ [] := fun he => by rw [hl, if_pos he] at h0; cases h0
    rw [hl, if_neg he] at h0
    cases h0
    rw [hc, if_neg he, List.length_singleton, List.drop_one]; rfl
  · rw [reliable_now h] at hio; cases hio

/-! The BitReader. -/

/-- A read with bits in hand (R111). -/
theorem readBit_inHand {s : State} {b : Bool} {rest : Bits} (he : s.br.exh = false) (hc : s.br.cur = b :: rest) :
    readBit s = .ok (some b) (s.withBr { s.br with cur := rest }) := by
  have hne : s.br.cur ≠ [] := by simp [hc]
  have : readBit s = takeBit s := (if_neg (by simp [he])).trans (if_neg hne)
  rw [this, takeBit, hc]

/-- A read that refills (R111). -/
theorem readBit_refill {s : State} (he : s.br.exh = false) (hc : s.br.cur = []) :
    readBit s = (srcNext.andThen fun
      | some b => (assign fun t => t.withBr { t.br with cur := bitsOfByte b }).next takeBit
      | none => (assign fun t => t.withBr { t.br with exh := true }).next (give none)) s :=
  (if_neg (by simp [he])).trans (if_pos hc)

/-- A bit delivered by a reader with a reliable source (R111, R114): the head of the unread bits. -/
theorem readBit_reliable {s : State} {b : Bool} {rest : Bits} (h : s.reliable) (he : s.br.exh = false)
    (hu : unread s = b :: rest) : readBit s = .ok (some b) (afterRead 1 s) ∧ unread (afterRead 1 s) = rest := by
  rcases hc : s.br.cur with _ | ⟨c, cs⟩
  · rcases hs : s.src.bytes.drop s.src.pos with _ | ⟨B, Bs⟩
    · simp [unread, hc, hs] at hu
    · have hget : s.src.bytes[s.src.pos]? = some B := by
        have := congrArg List.head? hs
        simpa [List.head?_drop] using this
      have hdrop : s.src.bytes.drop (s.src.pos + 1) = Bs := by rw [← List.drop_drop, hs]; rfl
      have hf : fetches 1 s = 1 := by simp [fetches, hc]
      obtain ⟨b0, bs, hB⟩ : ∃ b0 bs, bitsOfByte B = b0 :: bs := ⟨_, _, rfl⟩
      have hub : b0 = b ∧ bs ++ Bs.flatMap bitsOfByte = rest := by simpa [unread, hc, hs, hB] using hu
      obtain ⟨rfl, hrest⟩ := hub
      have hn : srcNext s = .ok (some B) ((tickIo s).withSrc { s.src with pos := s.src.pos + 1 }) := by
        simp only [srcNext, reliable_now h, Bool.false_eq_true, if_false, hget]
      have hcur : (s.br.cur ++ (([B] : List Byte)).flatMap bitsOfByte).drop 1 = bs := by
        simp only [hc, List.flatMap_cons, List.flatMap_nil, List.append_nil, List.nil_append, hB, List.drop_one,
          List.tail_cons]
      constructor
      · rw [readBit_refill he hc, andThen_ok hn, afterRead, hf, hs]
        simp only [List.take_succ_cons, List.take_zero, hcur, List.drop_one]
        rw [assign_next, takeBit]
        simp only [withBr_fields, hB]
        rfl
      · rw [unread, afterRead, hf, hs]
        simp only [List.take_succ_cons, List.take_zero, hcur, hdrop, hrest]
  · have hf : fetches 1 s = 0 := by simp [fetches, hc]
    have hub : c = b ∧ cs ++ (s.src.bytes.drop s.src.pos).flatMap bitsOfByte = rest := by simpa [unread, hc] using hu
    obtain ⟨rfl, hrest⟩ := hub
    have hcur : (s.br.cur ++ (([] : List Byte)).flatMap bitsOfByte).drop 1 = cs := by simp [hc]
    constructor
    · rw [readBit_inHand he hc, afterRead, hf, List.take_zero, hcur]; rfl
    · rw [unread, afterRead, hf, List.take_zero, hcur]; exact hrest

/-- A reader with no bits left becomes exhausted and gives none (R111). -/
theorem readBit_end {s : State} (h : s.reliable) (he : s.br.exh = false) (hu : unread s = []) :
    readBit s = .ok none (afterExhaustion s) := by
  have hc : s.br.cur = [] := (List.append_eq_nil_iff.mp hu).1
  have hlen : s.src.bytes.length ≤ s.src.pos := by
    have := (List.append_eq_nil_iff.mp hu).2
    rcases hs : s.src.bytes.drop s.src.pos with _ | ⟨B, Bs⟩
    · simpa using hs
    · rw [hs] at this; simp [bitsOfByte, bitsOf] at this
  have hn : srcNext s = .ok none (tickIo s) := by
    simp only [srcNext, reliable_now h, Bool.false_eq_true, if_false, List.getElem?_eq_none_iff.mpr hlen]
  have hmax : max s.src.pos s.src.bytes.length = s.src.pos := by omega
  have hsub : s.src.bytes.length - s.src.pos = 0 := by omega
  rw [readBit_refill he hc, andThen_ok hn, afterExhaustion, hmax, hsub, Nat.zero_add, List.drop_one, ← hc]
  rfl

/-- A reader that is exhausted gives none and changes nothing (R111). -/
theorem readBit_exhausted {s : State} (he : s.br.exh = true) : readBit s = .ok none s := by simp [readBit, he]

theorem flatMap_bitsOfByte_length (l : List Byte) : (l.flatMap bitsOfByte).length = 8 * l.length := by
  induction l with
  | nil => rfl
  | cons b rest ih => rw [List.flatMap_cons, List.length_append, ih, bitsOfByte_length, List.length_cons]; omega

theorem unread_length (s : State) : (unread s).length = s.br.cur.length + 8 * (s.src.bytes.length - s.src.pos) := by
  rw [unread, List.length_append, flatMap_bitsOfByte_length, List.length_drop]

/-- The bits left are counted by the unread bits. -/
theorem bitsLeft_eq (s : State) : bitsLeft s = (unread s).length := (unread_length s).symm

/-- Reading is reliable after reading. -/
theorem afterRead_reliable {s : State} (n : Nat) (h : s.reliable) : (afterRead n s).reliable := reliable_drop _ h

/-- What is unread after reading `n` bits. -/
theorem unread_afterRead {n : Nat} {s : State} (hn : n ≤ (unread s).length) : unread (afterRead n s) = (unread s).drop n := by
  rw [unread_length] at hn
  have hf : n ≤ s.br.cur.length + 8 * fetches n s := by simp only [fetches]; omega
  have hlen : n ≤ (s.br.cur ++ ((s.src.bytes.drop s.src.pos).take (fetches n s)).flatMap bitsOfByte).length := by
    have hav : fetches n s ≤ s.src.bytes.length - s.src.pos := by simp only [fetches]; omega
    simp only [List.length_append, flatMap_bitsOfByte_length, List.length_take, List.length_drop]
    omega
  have hsplit : (s.src.bytes.drop s.src.pos).flatMap bitsOfByte =
      ((s.src.bytes.drop s.src.pos).take (fetches n s)).flatMap bitsOfByte ++
        (s.src.bytes.drop (s.src.pos + fetches n s)).flatMap bitsOfByte := by
    rw [← List.flatMap_append, ← List.drop_drop, List.take_append_drop]
  simp only [unread, afterRead]
  rw [hsplit, ← List.append_assoc, List.drop_append_of_le_length hlen]

/-- Reading `n` bits and then one is reading `n + 1`. -/
theorem afterRead_succ {n : Nat} {s : State} (hn : n + 1 ≤ (unread s).length) :
    afterRead 1 (afterRead n s) = afterRead (n + 1) s := by
  rw [unread_length] at hn
  have hav : fetches n s ≤ s.src.bytes.length - s.src.pos := by simp only [fetches]; omega
  have hcur : (afterRead n s).br.cur.length = s.br.cur.length + 8 * fetches n s - n := by
    simp only [afterRead, List.length_drop, List.length_append, flatMap_bitsOfByte_length, List.length_take]; omega
  have hff : fetches (n + 1) s = fetches n s + fetches 1 (afterRead n s) := by
    simp only [fetches] at hcur ⊢; rw [hcur]; omega
  have hlen : n ≤ (s.br.cur ++ ((s.src.bytes.drop s.src.pos).take (fetches n s)).flatMap bitsOfByte).length := by
    simp only [List.length_append, flatMap_bitsOfByte_length, List.length_take, List.length_drop, fetches] at hav ⊢
    omega
  have hbits : (s.br.cur ++ ((s.src.bytes.drop s.src.pos).take (fetches (n + 1) s)).flatMap bitsOfByte).drop (n + 1) =
      ((s.br.cur ++ ((s.src.bytes.drop s.src.pos).take (fetches n s)).flatMap bitsOfByte).drop n ++
        ((s.src.bytes.drop (s.src.pos + fetches n s)).take (fetches 1 (afterRead n s))).flatMap bitsOfByte).drop 1 := by
    rw [hff, List.take_add, List.flatMap_append, ← List.append_assoc, ← List.drop_drop,
      List.drop_append_of_le_length hlen, List.drop_drop]
  have hbr : (afterRead 1 (afterRead n s)).br = (afterRead (n + 1) s).br := by
    simp only [afterRead] at hbits ⊢; rw [hbits]
  have hsrc : (afterRead 1 (afterRead n s)).src = (afterRead (n + 1) s).src := by
    have : (afterRead n s).src.pos = s.src.pos + fetches n s := rfl
    simp only [afterRead] at hff this ⊢; rw [hff, Nat.add_assoc]
  have hio : (afterRead 1 (afterRead n s)).ioFail = (afterRead (n + 1) s).ioFail := by
    simp only [afterRead] at hff ⊢; rw [hff, List.drop_drop]
  exact State.ext_fields rfl hbr rfl rfl rfl rfl rfl rfl rfl rfl rfl rfl rfl hsrc rfl hio rfl

theorem afterRead_zero (s : State) : afterRead 0 s = s := by simp [afterRead, fetches]

/-- Reading twice is reading the sum. -/
theorem afterRead_add {n m : Nat} {s : State} (h : n + m ≤ (unread s).length) :
    afterRead m (afterRead n s) = afterRead (n + m) s := by
  induction m with
  | zero => exact afterRead_zero _
  | succ m ih =>
    have hlen : m + 1 ≤ (unread (afterRead n s)).length := by
      rw [unread_afterRead (by omega), List.length_drop]; omega
    rw [← afterRead_succ hlen, ih (by omega), afterRead_succ (by omega)]; rfl

/-- Running out after reading is running out (R112: the bits already consumed are lost). -/
theorem afterExhaustion_afterRead {n : Nat} {s : State} (hn : n ≤ (unread s).length) :
    afterExhaustion (afterRead n s) = afterExhaustion s := by
  rw [unread_length] at hn
  have hav : fetches n s ≤ s.src.bytes.length - s.src.pos := by simp only [fetches]; omega
  have hpos : max (s.src.pos + fetches n s) s.src.bytes.length = max s.src.pos s.src.bytes.length := by omega
  have hdrop : fetches n s + (s.src.bytes.length - (s.src.pos + fetches n s) + 1) =
      s.src.bytes.length - s.src.pos + 1 := by omega
  simp only [afterExhaustion, afterRead, hpos, List.drop_drop, hdrop]

/-- Reading bits one by one, some already in hand. -/
theorem readBitsFrom_reliable (n : Nat) (sofar : Bits) {s : State} (h : s.reliable) (he : s.br.exh = false) :
    (n ≤ (unread s).length →
      readBitsFrom n sofar s = .ok (some (sofar ++ (unread s).take n)) (afterRead n s)) ∧
    ((unread s).length < n → readBitsFrom n sofar s = .ok none (afterExhaustion s)) := by
  induction n generalizing sofar s with
  | zero => simp [readBitsFrom, afterRead_zero]
  | succ n ih =>
    rcases hu : unread s with _ | ⟨b, rest⟩
    · have hb := readBit_end h he hu
      simp [readBitsFrom, andThen_ok hb]
    · obtain ⟨hb, hr⟩ := readBit_reliable h he hu
      have he' : (afterRead 1 s).br.exh = false := he
      have ih' := ih (sofar ++ [b]) (afterRead_reliable 1 h) he'
      rw [hr] at ih'
      have h1 : 1 ≤ (unread s).length := by simp [hu]
      constructor
      · intro hn
        have hstep := afterRead_add (n := 1) (m := n) (s := s) (by rw [hu]; simp only [List.length_cons] at hn ⊢; omega)
        rw [readBitsFrom, andThen_ok hb]
        simp only [ih'.1 (by simpa using hn), hstep, Nat.add_comm 1 n]
        simp
      · intro hn
        rw [readBitsFrom, andThen_ok hb]
        simp only [ih'.2 (by simpa using hn), afterExhaustion_afterRead h1]

/-- Reading `n` bits from a reader with a reliable source (R112, R114): the next `n` unread bits, or none and the reader is
exhausted. -/
theorem readBits_reliable (n : Nat) {s : State} (h : s.reliable) (he : s.br.exh = false) :
    (n ≤ (unread s).length → readBits n s = .ok (some ((unread s).take n)) (afterRead n s)) ∧
    ((unread s).length < n → readBits n s = .ok none (afterExhaustion s)) := readBitsFrom_reliable n [] h he

/-- Reading bits when the source fails the access after the next `j` (R111, R112, R215). -/
theorem readBitsFrom_fails (n : Nat) (sofar : Bits) {s : State} {j : Nat} {later : List Bool} (he : s.br.exh = false)
    (hf : s.failsAfter j later) (hj : j ≤ s.src.bytes.length - s.src.pos) (hn : s.br.cur.length + 8 * j < n) :
    readBitsFrom n sofar s = .stop (.fault .ioFailure (1, 0)) { s with
      br := { s.br with cur := [] }
      src := { s.src with pos := s.src.pos + j }
      ioFail := later } := by
  induction n generalizing sofar s j with
  | zero => omega
  | succ n ih =>
    rw [readBitsFrom]
    have hf' : s.ioFail = List.replicate j false ++ true :: later := hf
    rcases hc : s.br.cur with _ | ⟨c, cs⟩
    · cases j with
      | zero =>
        have hnow : ioFailsNow s = true := by simp [ioFailsNow, hf']
        have hs : srcNext s = .stop (.fault .ioFailure (1, 0)) (tickIo s) := by simp [srcNext, hnow]
        rw [andThen_stop (c := .fault .ioFailure (1, 0)) (t := tickIo s)]
        · simp only [tickIo, hf', Nat.add_zero, ← hc]; rfl
        · rw [readBit_refill he hc, andThen_stop hs]
      | succ j =>
        have hnow : ioFailsNow s = false := by simp [ioFailsNow, hf', List.replicate_succ]
        have hlt : s.src.pos < s.src.bytes.length := by omega
        obtain ⟨B, hB⟩ : ∃ B, s.src.bytes[s.src.pos]? = some B := ⟨_, List.getElem?_eq_getElem hlt⟩
        have hs : srcNext s = .ok (some B) ((tickIo s).withSrc { s.src with pos := s.src.pos + 1 }) := by
          simp [srcNext, hnow, hB]
        obtain ⟨b0, bs, hb0⟩ : ∃ b0 bs, bitsOfByte B = b0 :: bs := ⟨_, _, rfl⟩
        have hbs : bs.length = 7 := by have := bitsOfByte_length B; rw [hb0] at this; simpa using this
        have hr : readBit s = .ok (some b0) { s with
            br := { s.br with cur := bs }, src := { s.src with pos := s.src.pos + 1 }, ioFail := s.ioFail.tail } := by
          rw [readBit_refill he hc, andThen_ok hs]
          simp only [assign_next, takeBit, withBr_fields, hb0]
          rfl
        have h := ih (sofar ++ [b0]) (s := { s with
            br := { s.br with cur := bs }, src := { s.src with pos := s.src.pos + 1 }, ioFail := s.ioFail.tail })
          (j := j) he (by simp [State.failsAfter, hf', List.replicate_succ]) (by simp; omega) (by simp [hbs]; omega)
        rw [andThen_ok hr]
        simp only [h, Nat.add_assoc, Nat.add_comm 1 j]
    · have hr := readBit_inHand he hc
      have h := ih (sofar ++ [c]) (s := s.withBr { s.br with cur := cs }) (j := j) he hf hj
        (by rw [hc] at hn; simp at hn ⊢; omega)
      rw [andThen_ok hr]
      simp only [h]; rfl

/-- Reading from an exhausted reader (R111, R112). -/
theorem readBits_exhausted (n : Nat) {s : State} (he : s.br.exh = true) :
    readBits n s = .ok (if n = 0 then some [] else none) s := by
  cases n with
  | zero => rfl
  | succ n => simp [readBits, readBitsFrom, andThen_ok (readBit_exhausted he)]

end Sys2Proof.Machine
end

