-- ==== Sys2Proof/Laws/Decoder.lean ====
section
/-! SUPPORT. The variable-length decoder (46_decoder.md R191 to R201) over a reader whose source is reliable: what each of its
pieces reads, what it leaves of the state, and how it ends when the source runs out. -/

namespace Sys2Proof.Machine

theorem canRead_afterRead {s : State} (n : Nat) (h : s.canRead) : (afterRead n s).canRead :=
  ⟨h.1, afterRead_reliable n h.2⟩

/-- Reading the bits that come first. -/
theorem readBits_first {s : State} {first rest : Bits} (h : s.canRead) (hu : unread s = first ++ rest) :
    readBits first.length s = .ok (some first) (afterRead first.length s) ∧ unread (afterRead first.length s) = rest := by
  have hn : first.length ≤ (unread s).length := by rw [hu, List.length_append]; omega
  have h1 := (readBits_reliable first.length h.2 h.1).1 hn
  rw [hu, List.take_left] at h1
  exact ⟨h1, by rw [unread_afterRead hn, hu, List.drop_left]⟩

/-- Reading more bits than are left. -/
theorem readBits_short {s : State} {n : Nat} (h : s.canRead) (hn : (unread s).length < n) :
    readBits n s = .ok none (afterExhaustion s) := (readBits_reliable n h.2 h.1).2 hn

theorem noImage_apply {α : Type} (a : α) (s : State) : noImage a s = .ok a (setDec .noImage s) := rfl

/-! The header (R191). -/

theorem readHeader_ok {s : State} {h w : BitVec 16} {rest : Bits} (hs : s.canRead)
    (hu : unread s = headerBits h w ++ rest) :
    readHeader s = .ok (some { h := h, w := w }) (loadHeader h w (afterRead 32 s)) ∧ unread (afterRead 32 s) = rest := by
  have hr := readBits_first hs hu
  rw [headerBits_length] at hr
  have ht : (headerBits h w).take 16 = bitsOf 16 h.toNat := by rw [headerBits, List.take_left' (by simp)]
  have hd : (headerBits h w).drop 16 = bitsOf 16 w.toNat := by rw [headerBits, List.drop_left' (by simp)]
  refine ⟨?_, hr.2⟩
  rw [readHeader, andThen_ok hr.1]
  simp only [ht, hd, valOf_bitsOf h.isLt, valOf_bitsOf w.isLt, BitVec.ofNat_toNat, BitVec.setWidth_eq, assign_next,
    give_apply]

theorem readHeader_short {s : State} (hs : s.canRead) (hu : (unread s).length < 32) :
    readHeader s = .ok none (setDec .noImage (afterExhaustion s)) := by
  rw [readHeader, andThen_ok (readBits_short hs hu)]; rfl

theorem readHeader_exhausted {s : State} (he : s.br.exh = true) : readHeader s = .ok none (setDec .noImage s) := by
  rw [readHeader, andThen_ok (readBits_exhausted 32 he)]; rfl

/-! The table (R192, R193). -/

/-- The decode table after the entries of a list, in order. -/
def putAll (es : List (Symbol × Bits)) (d : List (Bits × Symbol)) : List (Bits × Symbol) :=
  es.foldl (fun d e => Table.put bitsLt e.2 e.1 d) d

/-- A later entry replaces an earlier one (R193). -/
theorem get_putAll (es : List (Symbol × Bits)) (d : List (Bits × Symbol)) (cw : Bits) :
    Table.get (putAll es d) cw = (lastFor es cw).or (Table.get d cw) := by
  induction es generalizing d with
  | nil => rfl
  | cons e rest ih =>
    rw [putAll, List.foldl_cons]
    refine (ih _).trans ?_
    simp only [lastFor, List.reverse_cons, List.find?_append, Option.map_or]
    cases h : rest.reverse.find? fun e => e.2 == cw with
    | some x => simp
    | none =>
      by_cases he : e.2 = cw
      · subst he; simp
      · simp [Table.get_put_other (lt := bitsLt) (fun h => he h.symm), he]

/-- One round that reads an entry (R192). -/
theorem readEntries_entry {s : State} {x : Int} {cw rest : Bits} (n : Nat) (hs : s.canRead) (hx : isCodable x = true)
    (hl : cw.length ≤ 31) (hu : unread s = entryBits x cw ++ rest) :
    readEntries (n + 1) s = readEntries n (insertEntry x cw (afterRead (14 + cw.length) s)) ∧
      unread (afterRead (14 + cw.length) s) = rest := by
  have hb := biased_range hx
  rw [entryBits, List.append_assoc, List.append_assoc] at hu
  have h1 := readBits_first hs hu
  rw [bitsOf_length] at h1
  have h2 := readBits_first (canRead_afterRead 9 hs) h1.2
  rw [bitsOf_length] at h2
  have h3 := readBits_first (canRead_afterRead 5 (canRead_afterRead 9 hs)) h2.2
  have hlen : 14 + cw.length ≤ (unread s).length := by rw [hu]; simp; omega
  have hall : afterRead cw.length (afterRead 5 (afterRead 9 s)) = afterRead (14 + cw.length) s := by
    rw [afterRead_add (n := 9) (m := 5) (by omega), afterRead_add (by omega)]
  rw [hall] at h3
  refine ⟨?_, h3.2⟩
  have hv : valOf (bitsOf 9 (x + Config.bias).toNat) = (x + Config.bias).toNat := valOf_bitsOf (by omega)
  have hv5 : valOf (bitsOf 5 cw.length) = cw.length := valOf_bitsOf (by omega)
  have hne : ¬(x + Config.bias).toNat = Config.sentinel := by simp only [Config.sentinel]; omega
  have hback : (((x + Config.bias).toNat : Nat) : Int) - Config.bias = x := by omega
  rw [readEntries, andThen_ok h1.1]
  simp only [hv, if_neg hne]
  rw [andThen_ok h2.1]
  simp only [hv5]
  rw [andThen_ok h3.1]
  simp only [hback, assign_next]

/-- The round that reads the sentinel (R192). -/
theorem readEntries_sentinel {s : State} {rest : Bits} (n : Nat) (hs : s.canRead) (hu : unread s = sentinelBits ++ rest) :
    readEntries (n + 1) s = .ok true (afterRead 9 s) ∧ unread (afterRead 9 s) = rest := by
  have h1 := readBits_first hs hu
  rw [sentinelBits_length] at h1
  refine ⟨?_, h1.2⟩
  have hv : valOf sentinelBits = Config.sentinel := valOf_bitsOf (by decide)
  rw [readEntries, andThen_ok h1.1]
  simp only [hv, if_true, give_apply]

theorem carriable_split {e : Symbol × Bits} {es : List (Symbol × Bits)} (h : carriable (e :: es) = true) :
    isCodable e.1 = true ∧ e.2.length ≤ 31 ∧ carriable es = true := by
  simp only [carriable, List.all_cons, Bool.and_eq_true, decide_eq_true_eq] at h
  exact ⟨h.1.1, h.1.2, h.2⟩

theorem tableOf_cons (e : Symbol × Bits) (es : List (Symbol × Bits)) :
    tableOf (e :: es) = entryBits e.1 e.2 ++ tableOf es := by simp [tableOf]

/-- A whole table (R192). -/
theorem readEntries_ok (es : List (Symbol × Bits)) {s : State} {rest : Bits} {n : Nat} (hs : s.canRead)
    (hc : carriable es = true) (hu : unread s = tableOf es ++ rest) (hn : es.length < n) :
    readEntries n s = .ok true ((afterRead (tableOf es).length s).withDt (putAll es s.dt)) ∧
      unread (afterRead (tableOf es).length s) = rest := by
  induction es generalizing s n with
  | nil =>
    obtain ⟨n, rfl⟩ : ∃ m, n = m + 1 := ⟨n - 1, by omega⟩
    have := readEntries_sentinel n hs (by simpa [tableOf] using hu)
    have hlen : (tableOf []).length = 9 := rfl
    rw [hlen]; exact this
  | cons e es ih =>
    obtain ⟨n, rfl⟩ : ∃ m, n = m + 1 := ⟨n - 1, by omega⟩
    obtain ⟨hx, hl, hc'⟩ := carriable_split hc
    have hlen : 14 + e.2.length + (tableOf es).length ≤ (unread s).length := by
      rw [hu, tableOf_cons]; simp
    rw [tableOf_cons, List.append_assoc] at hu
    have h1 := readEntries_entry n hs hx hl hu
    have h2 := ih (s := insertEntry e.1 e.2 (afterRead (14 + e.2.length) s)) (n := n)
      (canRead_afterRead _ hs) hc' h1.2 (by simp at hn; omega)
    have hadd : afterRead (tableOf es).length (insertEntry e.1 e.2 (afterRead (14 + e.2.length) s)) =
        insertEntry e.1 e.2 (afterRead (tableOf (e :: es)).length s) := by
      rw [tableOf_cons, List.length_append, entryBits_length, ← afterRead_add hlen]; rfl
    rw [hadd] at h2
    exact ⟨h1.1.trans h2.1, h2.2⟩

/-- Bits that hold no sentinel after whole entries (R192, R200): the reader runs out, whatever was inserted before. -/
theorem readEntries_short {s : State} {n : Nat} (hs : s.canRead)
    (hu : ∀ es rest, carriable es = true → unread s ≠ tableOf es ++ rest) (hn : (unread s).length < n) :
    ∃ d, readEntries n s = .ok false (setDec .noImage ((afterExhaustion s).withDt d)) := by
  induction n generalizing s with
  | zero => omega
  | succ n ih =>
    rcases Nat.lt_or_ge (unread s).length 9 with h9 | h9
    · exact ⟨s.dt, by rw [readEntries, andThen_ok (readBits_short hs h9)]; rfl⟩
    obtain ⟨sb, u1, hsb, hu1⟩ : ∃ sb u1, sb.length = 9 ∧ unread s = sb ++ u1 :=
      ⟨(unread s).take 9, (unread s).drop 9, by simp; omega, (List.take_append_drop _ _).symm⟩
    have h1 := readBits_first hs hu1
    rw [hsb] at h1
    have hsbv : bitsOf 9 (valOf sb) = sb := by rw [← hsb, bitsOf_valOf]
    by_cases hsent : valOf sb = Config.sentinel
    · exact absurd (by rw [hu1, ← hsbv, hsent]; simp [tableOf, sentinelBits]) (hu [] u1 rfl)
    have hs9 := canRead_afterRead 9 hs
    have hex9 : afterExhaustion (afterRead 9 s) = afterExhaustion s := afterExhaustion_afterRead h9
    rcases Nat.lt_or_ge u1.length 5 with h5 | h5
    · refine ⟨s.dt, ?_⟩
      rw [readEntries, andThen_ok h1.1]
      simp only [if_neg hsent]
      rw [andThen_ok (readBits_short hs9 (by rw [h1.2]; exact h5)), hex9]; rfl
    obtain ⟨lb, u2, hlb, hu2⟩ : ∃ lb u2, lb.length = 5 ∧ u1 = lb ++ u2 :=
      ⟨u1.take 5, u1.drop 5, by simp; omega, (List.take_append_drop _ _).symm⟩
    have h2 := readBits_first hs9 (h1.2.trans hu2)
    rw [hlb] at h2
    have h14 : 14 ≤ (unread s).length := by rw [hu1, hu2]; simp; omega
    have hadd : afterRead 5 (afterRead 9 s) = afterRead 14 s := afterRead_add (by omega)
    rw [hadd] at h2
    have hs14 := canRead_afterRead 14 hs
    have hex14 : afterExhaustion (afterRead 14 s) = afterExhaustion s := afterExhaustion_afterRead h14
    rcases Nat.lt_or_ge u2.length (valOf lb) with hcw | hcw
    · refine ⟨s.dt, ?_⟩
      rw [readEntries, andThen_ok h1.1]
      simp only [if_neg hsent]
      rw [andThen_ok h2.1]
      simp only
      rw [andThen_ok (readBits_short hs14 (by rw [h2.2]; exact hcw)), hex14]; rfl
    obtain ⟨cw, u3, hcwl, hu3⟩ : ∃ cw u3, cw.length = valOf lb ∧ u2 = cw ++ u3 :=
      ⟨u2.take (valOf lb), u2.drop (valOf lb), by simp; omega, (List.take_append_drop _ _).symm⟩
    have hlbv : bitsOf 5 cw.length = lb := by rw [hcwl, ← hlb, bitsOf_valOf]
    have hl : cw.length ≤ 31 := by have := valOf_lt lb; rw [hlb] at this; omega
    have hv9 : valOf sb < 511 := by
      have := valOf_lt sb
      rw [hsb] at this; simp only [Config.sentinel] at hsent; omega
    have hx : isCodable ((valOf sb : Int) - Config.bias) = true := by
      rw [isCodable_iff]; simp only [Config.bias]; omega
    have hent : unread s = entryBits ((valOf sb : Int) - Config.bias) cw ++ u3 := by
      have hb : ((valOf sb : Int) - Config.bias + Config.bias).toNat = valOf sb := by omega
      rw [entryBits, hb, hsbv, hlbv, hu1, hu2, hu3]; simp
    have he := readEntries_entry n hs hx hl hent
    have hlen : 14 + cw.length ≤ (unread s).length := by rw [hent]; simp
    obtain ⟨d, hd⟩ := ih (s := insertEntry ((valOf sb : Int) - Config.bias) cw (afterRead (14 + cw.length) s))
      (canRead_afterRead _ hs)
      (fun es rest hc h => hu ((_, cw) :: es) rest (by
          simp only [carriable, List.all_cons, Bool.and_eq_true, decide_eq_true_eq] at hc ⊢
          exact ⟨⟨hx, hl⟩, hc⟩)
        (by rw [hent, tableOf_cons, List.append_assoc, ← he.2]; exact congrArg _ h))
      (by
        have : unread (insertEntry ((valOf sb : Int) - Config.bias) cw (afterRead (14 + cw.length) s)) = u3 := he.2
        rw [this]; rw [hent] at hn; simp at hn; omega)
    refine ⟨d, he.1.trans (hd.trans ?_)⟩
    rw [← afterExhaustion_afterRead hlen]; rfl

theorem carriable_length (es : List (Symbol × Bits)) : es.length < (tableOf es).length + 1 := by
  induction es with
  | nil => simp
  | cons e rest ih => rw [tableOf_cons]; simp; omega

/-- `VD.TABLE` over a whole table (R192, R193). -/
theorem readTable_ok {s : State} {es : List (Symbol × Bits)} {rest : Bits} (hs : s.canRead) (hc : carriable es = true)
    (hu : unread s = tableOf es ++ rest) :
    readTable s = .ok true ((afterRead (tableOf es).length s).withDt (putAll es [])) ∧
      unread (afterRead (tableOf es).length s) = rest := by
  have hb : bitsLeft (s.withDt []) = (unread s).length := bitsLeft_eq s
  have h := readEntries_ok es (s := s.withDt []) (n := bitsLeft (s.withDt []) + 1) hs hc hu (by
    have := carriable_length es
    rw [hb, hu, List.length_append]; omega)
  exact ⟨by rw [readTable, assign_next, h.1]; rfl, h.2⟩

/-- `VD.TABLE` when the source runs out (R192, R200). -/
theorem readTable_short {s : State} (hs : s.canRead) (hu : ∀ es rest, carriable es = true → unread s ≠ tableOf es ++ rest) :
    ∃ d, readTable s = .ok false (setDec .noImage ((afterExhaustion s).withDt d)) := by
  have hb : bitsLeft (s.withDt []) = (unread s).length := bitsLeft_eq s
  obtain ⟨d, hd⟩ := readEntries_short (s := s.withDt []) (n := bitsLeft (s.withDt []) + 1) hs hu (by
    have : unread (s.withDt []) = unread s := rfl
    rw [hb, this]; omega)
  exact ⟨d, by rw [readTable, assign_next, hd]; rfl⟩

theorem readTable_exhausted {s : State} (he : s.br.exh = true) :
    readTable s = .ok false (setDec .noImage (s.withDt [])) := by
  rw [readTable, assign_next, readEntries, andThen_ok (readBits_exhausted (s := s.withDt []) 9 he)]; rfl

/-! One symbol (R194, R195, R201). -/

theorem afterRead_dt (n : Nat) (s : State) : (afterRead n s).dt = s.dt := rfl

theorem setAcc_acc (a b : Bits) (s : State) : setAcc a (setAcc b s) = setAcc a s := rfl

/-- A round that reads a bit. -/
theorem matchLoop_bit {s : State} {b : Bool} {rest : Bits} (n : Nat) (hs : s.canRead) (hu : unread s = b :: rest) :
    (∀ x, Table.get s.dt (s.vd.acc ++ [b]) = some x → matchLoop (n + 1) s = .ok (some x) (setAcc [] (afterRead 1 s))) ∧
    (Table.get s.dt (s.vd.acc ++ [b]) = none →
      matchLoop (n + 1) s = matchLoop n (setAcc (s.vd.acc ++ [b]) (afterRead 1 s))) := by
  obtain ⟨hb, -⟩ := readBit_reliable hs.2 hs.1 hu
  constructor
  · intro x hx
    have hx' : Table.get (afterRead 1 s).dt ((afterRead 1 s).vd.acc ++ [b]) = some x := hx
    rw [matchLoop, andThen_ok hb]
    simp only [hx']
  · intro hx
    have hx' : Table.get (afterRead 1 s).dt ((afterRead 1 s).vd.acc ++ [b]) = none := hx
    rw [matchLoop, andThen_ok hb]
    simp only [hx']; rfl

theorem matchLoop_ok (k : Nat) {s : State} {n : Nat} {x : Symbol} (hs : s.canRead) (h0 : 0 < k)
    (hk : k ≤ (unread s).length) (hx : Table.get s.dt (s.vd.acc ++ (unread s).take k) = some x)
    (hno : ∀ j, 0 < j → j < k → Table.get s.dt (s.vd.acc ++ (unread s).take j) = none) (hn : k ≤ n) :
    matchLoop n s = .ok (some x) (setAcc [] (afterRead k s)) := by
  induction k generalizing s n with
  | zero => omega
  | succ k ih =>
    obtain ⟨n, rfl⟩ : ∃ m, n = m + 1 := ⟨n - 1, by omega⟩
    rcases hu : unread s with _ | ⟨b, rest⟩
    · rw [hu] at hk; simp at hk
    rw [hu] at hk hx hno
    obtain ⟨-, hr⟩ := readBit_reliable hs.2 hs.1 hu
    rcases Nat.eq_zero_or_pos k with rfl | hpos
    · exact (matchLoop_bit n hs hu).1 x (by simpa using hx)
    · have h1 := hno 1 (by omega) (by omega)
      have hut : unread (setAcc (s.vd.acc ++ [b]) (afterRead 1 s)) = rest := hr
      have h2 := ih (s := setAcc (s.vd.acc ++ [b]) (afterRead 1 s)) (n := n) (canRead_afterRead 1 hs) hpos
        (by rw [hut]; simpa using hk)
        (by rw [hut]; simpa [setAcc, afterRead_dt] using hx)
        (fun j hj hjk => by
          have := hno (j + 1) (by omega) (by omega)
          rw [hut]; simpa [setAcc, afterRead_dt] using this)
        (by omega)
      rw [(matchLoop_bit n hs hu).2 (by simpa using h1), h2]
      have hadd : afterRead k (afterRead 1 s) = afterRead (k + 1) s := by
        rw [afterRead_add (by rw [hu]; simp at hk ⊢; omega), Nat.add_comm]
      rw [← hadd]; rfl

theorem matchLoop_none {s : State} {n : Nat} (hs : s.canRead)
    (hno : ∀ j, 0 < j → j ≤ (unread s).length → Table.get s.dt (s.vd.acc ++ (unread s).take j) = none)
    (hn : (unread s).length < n) :
    matchLoop n s = .ok none (setAcc (s.vd.acc ++ unread s) (afterExhaustion s)) := by
  induction n generalizing s with
  | zero => omega
  | succ n ih =>
    rcases hu : unread s with _ | ⟨b, rest⟩
    · rw [matchLoop, andThen_ok (readBit_end hs.2 hs.1 hu)]
      simp only [give_apply, List.append_nil]; rfl
    rw [hu] at hno hn
    obtain ⟨-, hr⟩ := readBit_reliable hs.2 hs.1 hu
    have hut : unread (setAcc (s.vd.acc ++ [b]) (afterRead 1 s)) = rest := hr
    have h1 := hno 1 (by omega) (by simp)
    have h2 := ih (s := setAcc (s.vd.acc ++ [b]) (afterRead 1 s)) (canRead_afterRead 1 hs)
      (fun j hj hjl => by
        rw [hut] at hjl ⊢
        have := hno (j + 1) (by omega) (by simpa using hjl)
        simpa [setAcc, afterRead_dt] using this)
      (by rw [hut]; simpa using hn)
    rw [(matchLoop_bit n hs hu).2 (by simpa using h1), h2, hut,
      ← afterExhaustion_afterRead (n := 1) (s := s) (by rw [hu]; simp)]
    have : (setAcc (s.vd.acc ++ [b]) (afterRead 1 s)).vd.acc ++ rest = s.vd.acc ++ b :: rest := by simp [setAcc]
    rw [this]; rfl

/-- `VD.SYM` takes the shortest key (R195). -/
theorem readSymbol_ok {s : State} {k : Nat} {x : Symbol} (hs : s.canRead)
    (hk : ShortestKey (Table.get s.dt) (unread s) k x) : readSymbol s = .ok (some x) (setAcc [] (afterRead k s)) := by
  obtain ⟨h0, hl, hx, hno⟩ := hk
  have hb : bitsLeft (setAcc [] s) = (unread s).length := bitsLeft_eq s
  have h := matchLoop_ok k (s := setAcc [] s) (n := bitsLeft (setAcc [] s) + 1) hs h0 hl hx hno (by omega)
  rw [readSymbol, assign_next, h]; rfl

/-- `VD.SYM` when no key matches (R194, R201). -/
theorem readSymbol_none {s : State} (hs : s.canRead) (hk : NoKey (Table.get s.dt) (unread s)) :
    readSymbol s = .ok none (setAcc (unread s) (afterExhaustion s)) := by
  have hb : bitsLeft (setAcc [] s) = (unread s).length := bitsLeft_eq s
  have hu : unread (setAcc [] s) = unread s := rfl
  have h := matchLoop_none (s := setAcc [] s) (n := bitsLeft (setAcc [] s) + 1) hs hk (by rw [hu]; omega)
  rw [readSymbol, assign_next, h, hu]; rfl

theorem readSymbol_exhausted {s : State} (he : s.br.exh = true) : readSymbol s = .ok none (setAcc [] s) := by
  rw [readSymbol, assign_next, matchLoop, andThen_ok (readBit_exhausted (s := setAcc [] s) he)]; rfl

/-! The bits of a codeword record (R79, R194, R195). -/

theorem matchBits_some (k : Nat) {s : State} {cw : Bits} {x : Symbol} (h0 : 0 < k) (hk : k ≤ cw.length)
    (hx : Table.get s.dt (s.vd.acc ++ cw.take k) = some x)
    (hno : ∀ j, 0 < j → j < k → Table.get s.dt (s.vd.acc ++ cw.take j) = none) : matchBits cw s = (some x, setAcc [] s) := by
  induction k generalizing s cw with
  | zero => omega
  | succ k ih =>
    rcases cw with _ | ⟨b, rest⟩
    · simp at hk
    rcases Nat.eq_zero_or_pos k with rfl | hpos
    · have h1 : Table.get s.dt (s.vd.acc ++ [b]) = some x := by simpa using hx
      simp only [matchBits, h1]
    · have h1 : Table.get s.dt (s.vd.acc ++ [b]) = none := by simpa using hno 1 (by omega) (by omega)
      have h2 := ih (s := setAcc (s.vd.acc ++ [b]) s) (cw := rest) hpos (by simpa using hk) (by simpa [setAcc] using hx)
        fun j hj hjk => by simpa [setAcc] using hno (j + 1) (by omega) (by omega)
      simp only [matchBits, h1, h2]; rfl

theorem matchBits_none {s : State} {cw : Bits}
    (hno : ∀ j, 0 < j → j ≤ cw.length → Table.get s.dt (s.vd.acc ++ cw.take j) = none) :
    matchBits cw s = (none, setAcc (s.vd.acc ++ cw) s) := by
  induction cw generalizing s with
  | nil => simp [matchBits, setAcc]; rfl
  | cons b rest ih =>
    have h1 : Table.get s.dt (s.vd.acc ++ [b]) = none := by simpa using hno 1 (by omega) (by simp)
    have h2 := ih (s := setAcc (s.vd.acc ++ [b]) s) fun j hj hjl => by
      simpa [setAcc] using hno (j + 1) (by omega) (by simpa using hjl)
    simp only [matchBits, h1, h2]
    have : (setAcc (s.vd.acc ++ [b]) s).vd.acc ++ rest = s.vd.acc ++ b :: rest := by simp [setAcc]
    rw [this]; rfl

/-! The payload (R196 to R199). -/

theorem spells_length {d : Bits → Option Symbol} {xs : List Symbol} {u : Bits} {n : Nat} (h : Spells d xs u n) :
    n ≤ u.length := by
  induction xs generalizing u n with
  | nil => simp only [Spells] at h; omega
  | cons x xs ih =>
    obtain ⟨k, hk, hkn, hrest⟩ := h
    have := ih hrest
    have := hk.2.1
    rw [List.length_drop] at *; omega

/-- Image memory after the samples of a list were stored at the flat indices from `i` on (R196). -/
def putFlat (w : Nat) : Nat → List Sample → List (Loc × Sample) → List (Loc × Sample)
  | _, [], m => m
  | i, x :: xs, m => putFlat w (i + 1) xs (Memory.write m (flatLoc w i) x)

theorem read_putFlat {w h : Nat} (i : Nat) (xs : List Sample) (m : List (Loc × Sample)) {l : Loc}
    (hl : inShape h w l = true) :
    Memory.read (putFlat w i xs m) l =
      if i ≤ flatIndex w l ∧ flatIndex w l < i + xs.length then xs[flatIndex w l - i]? else Memory.read m l := by
  have hw : 0 < w ∧ l.c < w ∧ l.k < 3 := by
    simp only [inShape, Bool.and_eq_true, decide_eq_true_eq] at hl; omega
  induction xs generalizing i m with
  | nil => simp only [putFlat, List.length_nil]; rw [if_neg (by omega)]
  | cons x xs ih =>
    rw [putFlat, ih]
    by_cases he : flatIndex w l = i
    · have hloc : l = flatLoc w i := by rw [← he, flatLoc_flatIndex hw.2.1 hw.2.2]
      have hread : Memory.read (Memory.write m (flatLoc w i) x) l = some x := by rw [hloc, Memory.read_write_same]
      rw [if_neg (by omega), if_pos (by simp; omega), hread, he, Nat.sub_self]; rfl
    · have hloc : l ≠ flatLoc w i := fun h => he (by rw [h, flatIndex_flatLoc hw.1])
      rw [Memory.read_write_other hloc]
      by_cases hin : i + 1 ≤ flatIndex w l ∧ flatIndex w l < i + 1 + xs.length
      · rw [if_pos hin, if_pos (by simp; omega)]
        obtain ⟨j, hj⟩ : ∃ j, flatIndex w l = i + 1 + j := ⟨flatIndex w l - (i + 1), by omega⟩
        have h1 : flatIndex w l - i = (flatIndex w l - (i + 1)) + 1 := by omega
        rw [h1, List.getElem?_cons_succ]
      · rw [if_neg hin, if_neg (by simp; omega)]

/-- Stores inside a shape leave everything outside it alone (R54). -/
theorem read_putFlat_outside {w h : Nat} (i : Nat) (xs : List Sample) (m : List (Loc × Sample)) {l : Loc}
    (hl : inShape h w l = false) (hn : i + xs.length ≤ h * w * 3) :
    Memory.read (putFlat w i xs m) l = Memory.read m l := by
  induction xs generalizing i m with
  | nil => rfl
  | cons x xs ih =>
    simp only [List.length_cons] at hn
    have hloc : l ≠ flatLoc w i := fun he => by rw [he, inShape_flatLoc (by omega)] at hl; cases hl
    rw [putFlat, ih _ _ (by omega), Memory.read_write_other hloc]

/-- The loop over a whole payload (R196). -/
theorem readSamples_ok (w : Nat) (xs : List Symbol) {s : State} {i n : Nat} (hs : s.canRead)
    (hx : Spells (Table.get s.dt) xs (unread s) n) (hd : s.vd.ndone = i) :
    readSamples w i xs.length s = .ok (i + xs.length) (setDec .complete (((afterRead n s).withVd
      { acc := if xs = [] then s.vd.acc else [], ndone := i + xs.length }).withImg (putFlat w i xs s.img))) := by
  induction xs generalizing s i n with
  | nil =>
    have h0 : n = 0 := hx
    subst h0 hd
    simp only [readSamples, assign_next, List.length_nil, afterRead_zero, give_apply]; rfl
  | cons x xs ih =>
    have hle := spells_length hx
    obtain ⟨k, hk, hkn, hrest⟩ := hx
    have h1 := readSymbol_ok hs hk
    have hu : unread (afterRead k s) = (unread s).drop k := unread_afterRead hk.2.1
    have h2 := ih (s := setDone (i + 1) ((setAcc [] (afterRead k s)).withImg (Memory.write s.img (flatLoc w i) x)))
      (i := i + 1) (n := n - k) (canRead_afterRead k hs) (by
        have : unread (setDone (i + 1) ((setAcc [] (afterRead k s)).withImg (Memory.write s.img (flatLoc w i) x))) =
          (unread s).drop k := hu
        rw [this]; exact hrest) rfl
    rw [List.length_cons, readSamples, andThen_ok h1]
    refine (next_ok (imgWrite_apply _ _ _)).trans ((assign_next _ _ _).trans (h2.trans ?_))
    have hadd : afterRead (n - k) (afterRead k s) = afterRead n s := by
      rw [afterRead_add (by omega)]; congr 1; omega
    have hlen : i + 1 + xs.length = i + (xs.length + 1) := by omega
    rw [hlen, ← hadd]
    by_cases hxs : xs = [] <;> simp only [hxs, if_true, if_false, reduceCtorEq] <;> rfl

/-- The loop when the source runs out (R199). -/
theorem readSamples_short (w : Nat) (xs : List Symbol) {s : State} {i n left : Nat} (hs : s.canRead)
    (hx : Spells (Table.get s.dt) xs (unread s) n) (hno : NoKey (Table.get s.dt) ((unread s).drop n))
    (hd : s.vd.ndone = i) (hl : xs.length < left) :
    readSamples w i left s = .ok (i + xs.length) (stopShort (i + xs.length) (((afterExhaustion s).withVd
      { acc := (unread s).drop n, ndone := i + xs.length }).withImg (putFlat w i xs s.img))) := by
  induction xs generalizing s i n left with
  | nil =>
    obtain ⟨left, rfl⟩ : ∃ m, left = m + 1 := ⟨left - 1, by omega⟩
    have h0 : n = 0 := hx
    subst h0 hd
    rw [readSamples, andThen_ok (readSymbol_none hs (by simpa using hno))]; rfl
  | cons x xs ih =>
    obtain ⟨left, rfl⟩ : ∃ m, left = m + 1 := ⟨left - 1, by omega⟩
    have hle := spells_length hx
    obtain ⟨k, hk, hkn, hrest⟩ := hx
    have h1 := readSymbol_ok hs hk
    have hu : unread (afterRead k s) = (unread s).drop k := unread_afterRead hk.2.1
    have hu' : unread (setDone (i + 1) ((setAcc [] (afterRead k s)).withImg (Memory.write s.img (flatLoc w i) x))) =
      (unread s).drop k := hu
    have hdrop : ((unread s).drop k).drop (n - k) = (unread s).drop n := by rw [List.drop_drop]; congr 1; omega
    have h2 := ih (s := setDone (i + 1) ((setAcc [] (afterRead k s)).withImg (Memory.write s.img (flatLoc w i) x)))
      (i := i + 1) (n := n - k) (left := left) (canRead_afterRead k hs) (by rw [hu']; exact hrest)
      (by rw [hu', hdrop]; exact hno) rfl (by simp at hl; omega)
    rw [readSamples, andThen_ok h1]
    refine (next_ok (imgWrite_apply _ _ _)).trans ((assign_next _ _ _).trans (h2.trans ?_))
    have hlen : i + 1 + xs.length = i + (x :: xs).length := by simp; omega
    rw [hlen, hu', hdrop, ← afterExhaustion_afterRead hk.2.1]
    rfl

theorem count_eq (d : Dims) : d.count = d.h.toNat * d.w.toNat * 3 := rfl

/-- `VD.PAYLOAD` of a whole payload (R196). -/
theorem readPayload_ok {s : State} {xs : List Symbol} {n : Nat} (hs : s.canRead)
    (hx : Spells (Table.get s.dt) xs (unread s) n) (hl : xs.length = s.dim.count) :
    readPayload s = .ok xs.length (setDec .complete (((afterRead n s).withVd
      { acc := if xs = [] then s.vd.acc else [], ndone := xs.length }).withImg (putFlat s.dim.w.toNat 0 xs s.img))) := by
  have h := readSamples_ok s.dim.w.toNat xs (s := setDone 0 s) (i := 0) (n := n) hs hx rfl
  rw [Nat.zero_add] at h
  have hl' : xs.length = (setDone 0 s).dim.count := hl
  rw [readPayload, assign_next, ← hl']
  exact h

/-- `VD.PAYLOAD` when the source runs out (R199). -/
theorem readPayload_short {s : State} {xs : List Symbol} {n : Nat} (hs : s.canRead)
    (hx : Spells (Table.get s.dt) xs (unread s) n) (hno : NoKey (Table.get s.dt) ((unread s).drop n))
    (hl : xs.length < s.dim.count) :
    readPayload s = .ok xs.length (stopShort xs.length (((afterExhaustion s).withVd
      { acc := (unread s).drop n, ndone := xs.length }).withImg (putFlat s.dim.w.toNat 0 xs s.img))) := by
  have h := readSamples_short s.dim.w.toNat xs (s := setDone 0 s) (i := 0) (n := n) (left := s.dim.count) hs hx hno rfl hl
  rw [Nat.zero_add] at h
  rw [readPayload, assign_next]
  exact h

/-- `VD.PAYLOAD` on an exhausted reader (R199). -/
theorem readPayload_exhausted {s : State} (he : s.br.exh = true) (h0 : 0 < s.dim.count) :
    readPayload s = .ok 0 (stopShort 0 (s.withVd { acc := [], ndone := 0 })) := by
  obtain ⟨n, hn⟩ : ∃ n, s.dim.count = n + 1 := ⟨s.dim.count - 1, by omega⟩
  have hn' : (setDone 0 s).dim.count = n + 1 := hn
  rw [readPayload, assign_next, hn', readSamples, andThen_ok (readSymbol_exhausted (s := setDone 0 s) he)]; rfl

/-- What a whole payload leaves in image memory (R197). -/
theorem holdsFlat_putFlat {w h : Nat} {xs : List Sample} (m : List (Loc × Sample)) (hl : xs.length = h * w * 3) :
    HoldsFlat w xs (putFlat w 0 xs m) m h := by
  intro l
  cases hs : inShape h w l with
  | true =>
    have hlt := flatIndex_lt hs
    rw [if_pos rfl, read_putFlat 0 xs m hs, if_pos (by omega), Nat.sub_zero]
  | false => rw [read_putFlat_outside 0 xs m hs (by omega)]; rfl

/-- What a payload that stops short leaves in image memory (R199). -/
theorem holdsFlat_stopShort {w h : Nat} {xs : List Sample} (m : List (Loc × Sample)) (hl : xs.length ≤ h * w * 3) :
    HoldsFlat w xs (Memory.forgetFrom h w xs.length (putFlat w 0 xs m)) m h := by
  intro l
  rw [Memory.read_forgetFrom]
  cases hs : inShape h w l with
  | true =>
    rw [if_pos rfl]
    by_cases hf : xs.length ≤ flatIndex w l
    · rw [List.getElem?_eq_none hf]; simp [hf]
    · simp only [hf, decide_false, Bool.and_false, Bool.false_eq_true, if_false]
      rw [read_putFlat 0 xs m hs, if_pos (by omega), Nat.sub_zero]
  | false => rw [read_putFlat_outside 0 xs m hs (by omega)]; rfl

end Sys2Proof.Machine
end

