-- ==== Sys2Proof/Laws/FixedWidth.lean ====
section
/-! SUPPORT. The FixedWidthCodec (41_fixedwidth.md R121 to R126): when an encode goes on and when it faults, and the two
conversions as the sums and the bits the rules write. -/

namespace Sys2Proof.Machine

/-- An integer that fits the width is encoded (R121). -/
theorem fixedEncode_fits {x : Int} {width : Nat} (h0 : 0 ≤ x) (h1 : x ≤ 2 ^ width - 1) (s : State) :
    fixedEncode x width s = .ok (bitsOf width x.toNat) s := by
  obtain ⟨n, rfl⟩ := Int.eq_ofNat_of_zero_le h0
  have h2 : (n : Int) < ((2 ^ width : Nat) : Int) := by push_cast; omega
  have h3 : ¬((n : Int) < 0 ∨ 2 ^ width - 1 < (n : Int).toNat) := by
    have := Int.ofNat_lt.mp h2
    simp only [Int.toNat_natCast]; omega
  rw [fixedEncode, if_neg h3]; rfl

/-- An integer that does not fit the width is a `RangeError` (R121, R122). -/
theorem fixedEncode_range {x : Int} {width : Nat} (h : x < 0 ∨ x > 2 ^ width - 1) (s : State) :
    fixedEncode x width s = .stop (.fault .rangeError (x, width)) s := by
  have h3 : x < 0 ∨ 2 ^ width - 1 < x.toNat := by
    rcases h with h | h
    · exact .inl h
    · by_cases h0 : x < 0
      · exact .inl h0
      · obtain ⟨n, rfl⟩ := Int.eq_ofNat_of_zero_le (Int.not_lt.mp h0)
        have h2 : ((2 ^ width : Nat) : Int) ≤ (n : Int) := by push_cast; omega
        have := Int.ofNat_le.mp h2
        have hp : 0 < 2 ^ width := Nat.pow_pos (by omega)
        simp only [Int.toNat_natCast]; omega
  rw [fixedEncode, if_pos h3]; rfl

/-- A natural number below `2^width` is encoded (R121). -/
theorem fixedEncode_nat {n width : Nat} (h : n < 2 ^ width) (s : State) :
    fixedEncode n width s = .ok (bitsOf width n) s := by
  have h1 : (n : Int) ≤ 2 ^ width - 1 := by
    have : ((n : Int)) < ((2 ^ width : Nat) : Int) := Int.ofNat_lt.mpr h
    push_cast at this; omega
  rw [fixedEncode_fits (by omega) h1]; simp

/-- Element `i` of the encoding is bit `width − 1 − i` (R121). -/
theorem bitsOf_eq_map (width v : Nat) :
    bitsOf width v = (List.range width).map fun i => v.testBit (width - 1 - i) := by
  induction width with
  | zero => rfl
  | succ n ih =>
    rw [bitsOf, ih, List.range_succ_eq_map, List.map_cons, List.map_map]
    congr 1
    apply List.map_congr_left
    intro i hi
    have : n - 1 - i = n - (i + 1) := by omega
    simp [Function.comp, this]

/-- The value of a bit sequence is the sum of R124. -/
theorem valOf_eq_sum (s : Bits) :
    valOf s = ((List.range s.length).map fun i => (s.getD i false).toNat * 2 ^ (s.length - 1 - i)).sum := by
  induction s with
  | nil => rfl
  | cons b rest ih =>
    rw [valOf_cons, ih, List.length_cons, List.range_succ_eq_map, List.map_cons, List.map_map, List.sum_cons]
    congr 1
    refine congrArg List.sum (List.map_congr_left fun i hi => ?_)
    have : rest.length - 1 - i = rest.length - (i + 1) := by omega
    simp [Function.comp, this]

end Sys2Proof.Machine
end

