-- ==== Sys2Proof/Laws/Predictor.lean ====
section
/-! SUPPORT. The differential predictor (44_predictor.md R161 to R165): it always goes on, writes image memory alone, and
leaves at every location what the closed forms of R161 and R163 say. -/

namespace Sys2Proof.Machine

/-- The residual of a location depends on its row and channel alone (R165). -/
theorem residualAt_congr {m m' : List (Loc × Sample)} {l : Loc}
    (h : ∀ l', l'.r = l.r → l'.k = l.k → l'.c ≤ l.c → Memory.read m l' = Memory.read m' l') :
    residualAt m l = residualAt m' l := by
  simp only [residualAt, h l rfl rfl (le_refl _), h { l with c := l.c - 1 } rfl rfl (by simp)]

/-- So does the sum (R165). -/
theorem rowSum_congr {m m' : List (Loc × Sample)} {r k : Nat} (c : Nat)
    (h : ∀ c', c' ≤ c → Memory.read m { r := r, c := c', k := k } = Memory.read m' { r := r, c := c', k := k }) :
    rowSum m r k c = rowSum m' r k c := by
  induction c with
  | zero => exact h 0 (le_refl _)
  | succ c ih => simp only [rowSum, ih fun c' hc => h c' (by omega), h (c + 1) (le_refl _)]

/-- One row and channel forward, from column `n` down to 1 (R161, R162). -/
theorem forDown_difference (k r n : Nat) (s : State) : ∃ m, forDown n (differenceAt k r) s = .ok () (s.withImg m) ∧
    ∀ l, Memory.read m l =
      if l.k = k ∧ l.r = r ∧ 1 ≤ l.c ∧ l.c ≤ n then residualAt s.img l else Memory.read s.img l := by
  induction n generalizing s with
  | zero => exact ⟨s.img, by simp [forDown], fun l => by rw [if_neg (by omega)]⟩
  | succ n ih =>
    have hstep := imgCombine_apply (· - ·) { r := r, c := n + 1, k := k } { r := r, c := n + 1 - 1, k := k }
      { r := r, c := n + 1, k := k } s
    obtain ⟨m, hm, hr⟩ := ih (s.withImg (Memory.combine (· - ·) { r := r, c := n + 1, k := k }
      { r := r, c := n + 1 - 1, k := k } { r := r, c := n + 1, k := k } s.img))
    refine ⟨m, by rw [forDown, differenceAt, next_ok hstep, hm, withImg_withImg], fun l => ?_⟩
    rw [hr l]
    simp only [withImg_fields]
    have hold : ∀ l' : Loc, l'.c ≠ n + 1 → Memory.read (Memory.combine (· - ·) { r := r, c := n + 1, k := k }
        { r := r, c := n + 1 - 1, k := k } { r := r, c := n + 1, k := k } s.img) l' = Memory.read s.img l' := by
      intro l' hl'
      rw [Memory.read_combine, if_neg (by rintro rfl; exact hl' rfl)]
    by_cases h1 : l.k = k ∧ l.r = r ∧ 1 ≤ l.c ∧ l.c ≤ n
    · rw [if_pos h1, if_pos (by omega)]
      exact residualAt_congr fun l' _ _ hc => hold l' (by omega)
    · rw [if_neg h1, Memory.read_combine]
      by_cases h2 : l = { r := r, c := n + 1, k := k }
      · subst h2
        rw [if_pos rfl, if_pos (by simp), residualAt, if_neg (by simp)]
      · rw [if_neg h2, if_neg]
        rintro ⟨hk, hr', hc1, hc2⟩
        have hc : l.c = n + 1 := by omega
        exact h2 (by cases l; simp_all)

/-- One row and channel back, from column 1 to `n` (R163). -/
theorem forUp_sum (k r n : Nat) (s : State) : ∃ m, forUp 1 n (sumAt k r) s = .ok () (s.withImg m) ∧
    ∀ l, Memory.read m l =
      if l.k = k ∧ l.r = r ∧ 1 ≤ l.c ∧ l.c ≤ n then rowSum s.img r k l.c else Memory.read s.img l := by
  induction n with
  | zero => exact ⟨s.img, by simp [forUp], fun l => by rw [if_neg (by omega)]⟩
  | succ n ih =>
    obtain ⟨m, hm, hr⟩ := ih
    have hstep := imgCombine_apply (· + ·) { r := r, c := 1 + n - 1, k := k } { r := r, c := 1 + n, k := k }
      { r := r, c := 1 + n, k := k } (s.withImg m)
    refine ⟨_, by rw [forUp_succ_last, next_ok hm, sumAt, hstep, withImg_withImg], fun l => ?_⟩
    simp only [withImg_fields]
    rw [Memory.read_combine]
    by_cases h2 : l = { r := r, c := 1 + n, k := k }
    · subst h2
      have hleft : Memory.read m { r := r, c := 1 + n - 1, k := k } = rowSum s.img r k n := by
        rw [hr]
        by_cases hn : n = 0
        · subst hn; rw [if_neg (by simp)]; rfl
        · have : 1 + n - 1 = n := by omega
          simp only [this]
          rw [if_pos (by simp; omega)]
      have hself : Memory.read m { r := r, c := 1 + n, k := k } = Memory.read s.img { r := r, c := n + 1, k := k } := by
        rw [hr, if_neg (by simp), Nat.add_comm 1 n]
      rw [if_pos rfl, if_pos (by simp; omega), hleft, hself, Nat.add_comm 1 n, rowSum]
    · rw [if_neg h2, hr l]
      by_cases h1 : l.k = k ∧ l.r = r ∧ 1 ≤ l.c ∧ l.c ≤ n
      · rw [if_pos h1, if_pos (by omega)]
      · rw [if_neg h1, if_neg]
        rintro ⟨hk, hr', hc1, hc2⟩
        have hc : l.c = 1 + n := by omega
        exact h2 (by cases l; simp_all)

/-- A loop whose rounds each rewrite locations of their own rows and channels, from those rows and channels alone, does to
every location what its own round does (R162, R165, R257). -/
theorem forUp_independent {body : Nat → Op Unit} {P : Nat → Loc → Prop} {F : List (Loc × Sample) → Loc → Option Sample}
    (hF : ∀ m m' l, (∀ l' : Loc, l'.r = l.r → l'.k = l.k → Memory.read m l' = Memory.read m' l') → F m l = F m' l)
    (hP : ∀ i j (l l' : Loc), P i l → P j l' → l'.r = l.r → l'.k = l.k → i = j)
    (hbody : ∀ i s, ∃ m, body i s = .ok () (s.withImg m) ∧
      ∀ l, (P i l → Memory.read m l = F s.img l) ∧ (¬P i l → Memory.read m l = Memory.read s.img l))
    (n start : Nat) (s : State) : ∃ m, forUp start n body s = .ok () (s.withImg m) ∧
      ∀ l, ((∃ i, start ≤ i ∧ i < start + n ∧ P i l) → Memory.read m l = F s.img l) ∧
        ((∀ i, start ≤ i → i < start + n → ¬P i l) → Memory.read m l = Memory.read s.img l) := by
  induction n with
  | zero => exact ⟨s.img, by simp [forUp], fun l => ⟨fun ⟨i, h1, h2, _⟩ => by omega, fun _ => rfl⟩⟩
  | succ n ih =>
    obtain ⟨m, hm, hr⟩ := ih
    obtain ⟨m', hm', hr'⟩ := hbody (start + n) (s.withImg m)
    simp only [withImg_fields] at hr'
    refine ⟨m', by rw [forUp_succ_last, next_ok hm, hm', withImg_withImg], fun l => ⟨fun ⟨i, h1, h2, hi⟩ => ?_, fun hno => ?_⟩⟩
    · by_cases he : P (start + n) l
      · rw [(hr' l).1 he]
        exact hF _ _ _ fun l' h3 h4 => (hr l').2 fun j h5 h6 hj => by
          have := hP _ _ _ _ he hj h3 h4; omega
      · rw [(hr' l).2 he]
        have : i ≠ start + n := by rintro rfl; exact he hi
        exact (hr l).1 ⟨i, h1, by omega, hi⟩
    · rw [(hr' l).2 (hno _ (by omega) (by omega)), (hr l).2 fun i h1 h2 => hno i h1 (by omega)]

/-- The whole forward predictor (R161): what it leaves at every location. -/
theorem predictForward_ok (h w : Nat) (s : State) : ∃ m, predictForward h w s = .ok () (s.withImg m) ∧
    ∀ l, Memory.read m l = if inShape h w l then residualAt s.img l else Memory.read s.img l := by
  have hF : ∀ (m m' : List (Loc × Sample)) (l : Loc),
      (∀ l' : Loc, l'.r = l.r → l'.k = l.k → Memory.read m l' = Memory.read m' l') → residualAt m l = residualAt m' l :=
    fun m m' l h => residualAt_congr fun l' h1 h2 _ => h l' h1 h2
  have hrow : ∀ k n s, ∃ m, forUp 0 n (fun r => forDown (w - 1) fun c => differenceAt k r c) s = .ok () (s.withImg m) ∧
      ∀ l, ((∃ r, 0 ≤ r ∧ r < 0 + n ∧ (l.k = k ∧ l.r = r ∧ 1 ≤ l.c ∧ l.c ≤ w - 1)) → Memory.read m l = residualAt s.img l) ∧
        ((∀ r, 0 ≤ r → r < 0 + n → ¬(l.k = k ∧ l.r = r ∧ 1 ≤ l.c ∧ l.c ≤ w - 1)) →
          Memory.read m l = Memory.read s.img l) := fun k n s =>
    forUp_independent (P := fun r l => l.k = k ∧ l.r = r ∧ 1 ≤ l.c ∧ l.c ≤ w - 1) hF
      (fun i j l l' h1 h2 h3 _ => by omega) (fun r s => by
        obtain ⟨m, hm, hr⟩ := forDown_difference k r (w - 1) s
        exact ⟨m, hm, fun l => ⟨fun h => by rw [hr l, if_pos h], fun h => by rw [hr l, if_neg h]⟩⟩) n 0 s
  obtain ⟨m, hm, hr⟩ := forUp_independent
    (P := fun k l => l.k = k ∧ l.r < h ∧ 1 ≤ l.c ∧ l.c ≤ w - 1) hF
    (fun i j l l' h1 h2 _ h4 => by omega) (fun k s => by
      obtain ⟨m, hm, hr⟩ := hrow k h s
      exact ⟨m, hm, fun l => ⟨fun hl => (hr l).1 ⟨l.r, by omega, by omega, hl.1, rfl, hl.2.2⟩,
        fun hl => (hr l).2 fun r _ h2 h3 => hl ⟨h3.1, by omega, h3.2.2⟩⟩⟩) Config.channels 0 s
  refine ⟨m, hm, fun l => ?_⟩
  have hch : Config.channels = 3 := rfl
  by_cases hs : inShape h w l = true
  · rw [if_pos hs]
    simp only [inShape, Bool.and_eq_true, decide_eq_true_eq] at hs
    by_cases hc : l.c = 0
    · rw [(hr l).2 fun k _ _ hk => by omega, residualAt, if_pos hc]
    · exact (hr l).1 ⟨l.k, by omega, by omega, rfl, hs.1.1, by omega, by omega⟩
  · rw [if_neg hs]
    refine (hr l).2 fun k _ h2 hk => hs ?_
    simp only [inShape, Bool.and_eq_true, decide_eq_true_eq]; omega

/-- The whole inverse predictor (R163): what it leaves at every location. -/
theorem predictInverse_ok (h w : Nat) (s : State) : ∃ m, predictInverse h w s = .ok () (s.withImg m) ∧
    ∀ l, Memory.read m l = if inShape h w l then rowSum s.img l.r l.k l.c else Memory.read s.img l := by
  have hF : ∀ (m m' : List (Loc × Sample)) (l : Loc),
      (∀ l' : Loc, l'.r = l.r → l'.k = l.k → Memory.read m l' = Memory.read m' l') →
        rowSum m l.r l.k l.c = rowSum m' l.r l.k l.c :=
    fun m m' l h => rowSum_congr _ fun c' _ => h _ rfl rfl
  have hrow : ∀ k n s, ∃ m, forUp 0 n (fun r => forUp 1 (w - 1) fun c => sumAt k r c) s = .ok () (s.withImg m) ∧
      ∀ l, ((∃ r, 0 ≤ r ∧ r < 0 + n ∧ (l.k = k ∧ l.r = r ∧ 1 ≤ l.c ∧ l.c ≤ w - 1)) →
          Memory.read m l = rowSum s.img l.r l.k l.c) ∧
        ((∀ r, 0 ≤ r → r < 0 + n → ¬(l.k = k ∧ l.r = r ∧ 1 ≤ l.c ∧ l.c ≤ w - 1)) →
          Memory.read m l = Memory.read s.img l) := fun k n s =>
    forUp_independent (P := fun r l => l.k = k ∧ l.r = r ∧ 1 ≤ l.c ∧ l.c ≤ w - 1) hF
      (fun i j l l' h1 h2 h3 _ => by omega) (fun r s => by
        obtain ⟨m, hm, hr⟩ := forUp_sum k r (w - 1) s
        exact ⟨m, hm, fun l => ⟨fun h => by rw [hr l, if_pos h, h.1, h.2.1], fun h => by rw [hr l, if_neg h]⟩⟩) n 0 s
  obtain ⟨m, hm, hr⟩ := forUp_independent
    (P := fun k l => l.k = k ∧ l.r < h ∧ 1 ≤ l.c ∧ l.c ≤ w - 1) hF
    (fun i j l l' h1 h2 _ h4 => by omega) (fun k s => by
      obtain ⟨m, hm, hr⟩ := hrow k h s
      exact ⟨m, hm, fun l => ⟨fun hl => (hr l).1 ⟨l.r, by omega, by omega, hl.1, rfl, hl.2.2⟩,
        fun hl => (hr l).2 fun r _ h2 h3 => hl ⟨h3.1, by omega, h3.2.2⟩⟩⟩) Config.channels 0 s
  refine ⟨m, hm, fun l => ?_⟩
  have hch : Config.channels = 3 := rfl
  by_cases hs : inShape h w l = true
  · rw [if_pos hs]
    simp only [inShape, Bool.and_eq_true, decide_eq_true_eq] at hs
    by_cases hc : l.c = 0
    · rw [(hr l).2 fun k _ _ hk => by omega, hc, rowSum, ← hc]
    · exact (hr l).1 ⟨l.k, by omega, by omega, rfl, hs.1.1, by omega, by omega⟩
  · rw [if_neg hs]
    refine (hr l).2 fun k _ h2 hk => hs ?_
    simp only [inShape, Bool.and_eq_true, decide_eq_true_eq]; omega

end Sys2Proof.Machine
end

