-- ==== Sys2Proof/Laws/Encoder.lean ====
section
/-! SUPPORT. The variable-length encoder (45_encoder.md R173 to R187) over an open writer whose sink is reliable: what each
of its pieces writes, when each of them stops, and what each leaves of the state. -/

namespace Sys2Proof.Machine

/-! An open writer with a reliable sink. -/

theorem canWrite_afterWrite {s : State} (bits : Bits) (h : s.canWrite) : (afterWrite bits s).canWrite :=
  ⟨h.1, afterWrite_buf bits s, afterWrite_reliable bits h.2.2.1, h.2.2.2⟩

theorem needWriter_open {s : State} (h : s.bw.isOpen = true) : needWriter s = .ok () s := by simp [needWriter, h]

theorem needWriter_closed {s : State} (h : s.bw.isOpen = false) : needWriter s = .stop (.refuse .notOpen) s := by
  simp [needWriter, h]

theorem writeBits_ok {s : State} (bits : Bits) (h : s.canWrite) : writeBits bits s = .ok () (afterWrite bits s) :=
  writeBits_reliable bits h.1 h.2.2.1 h.2.1 h.2.2.2

/-- A field that fits is written (R81). -/
theorem writeField_ok {s : State} {x : Int} {width : Nat} (h : s.canWrite) (h0 : 0 ≤ x) (h1 : x ≤ 2 ^ width - 1) :
    writeField x width s = .ok () (afterWrite (bitsOf width x.toNat) s) := by
  rw [writeField, andThen_ok (fixedEncode_fits h0 h1 s), writeBits_ok _ h]

/-- A field that does not is a `RangeError` (R212). -/
theorem writeField_range {s : State} {x : Int} {width : Nat} (h : x < 0 ∨ x > 2 ^ width - 1) :
    writeField x width s = .stop (.fault .rangeError (x, width)) s := by
  rw [writeField, andThen_stop (fixedEncode_range h s)]

/-! The header (R173, R174). -/

theorem writeHeader_ok {s : State} {h w : Int} (hs : s.canWrite) (hh : fits16 h) (hw : fits16 w) :
    writeHeader h w s = .ok () ((afterWrite (bitsOf 16 h.toNat ++ bitsOf 16 w.toNat) s).withDim
      { h := BitVec.ofInt 16 h, w := BitVec.ofInt 16 w }) := by
  have h1 : writeField h Config.dimWidth s = .ok () (afterWrite (bitsOf 16 h.toNat) s) :=
    writeField_ok hs hh.1 (by have := hh.2; simp only [Config.dimWidth]; omega)
  have h2 : writeField w Config.dimWidth (afterWrite (bitsOf 16 h.toNat) s) =
      .ok () (afterWrite (bitsOf 16 w.toNat) (afterWrite (bitsOf 16 h.toNat) s)) :=
    writeField_ok (canWrite_afterWrite _ hs) hw.1 (by have := hw.2; simp only [Config.dimWidth]; omega)
  rw [writeHeader, next_ok (needWriter_open hs.1), next_ok h1, next_ok h2, afterWrite_append, assign_apply]

theorem writeHeader_badHeight {s : State} {h : Int} (w : Int) (ho : s.bw.isOpen = true) (hh : ¬fits16 h) :
    writeHeader h w s = .stop (.fault .rangeError (h, 16)) s := by
  have h1 : writeField h Config.dimWidth s = .stop (.fault .rangeError (h, 16)) s :=
    writeField_range (by simp only [Config.dimWidth, not_and_or] at hh ⊢; omega)
  rw [writeHeader, next_ok (needWriter_open ho), next_stop h1]

theorem writeHeader_badWidth {s : State} {h w : Int} (hs : s.canWrite) (hh : fits16 h) (hw : ¬fits16 w) :
    writeHeader h w s = .stop (.fault .rangeError (w, 16)) (afterWrite (bitsOf 16 h.toNat) s) := by
  have h1 : writeField h Config.dimWidth s = .ok () (afterWrite (bitsOf 16 h.toNat) s) :=
    writeField_ok hs hh.1 (by have := hh.2; simp only [Config.dimWidth]; omega)
  have h2 : writeField w Config.dimWidth (afterWrite (bitsOf 16 h.toNat) s) =
      .stop (.fault .rangeError (w, 16)) (afterWrite (bitsOf 16 h.toNat) s) :=
    writeField_range (by simp only [Config.dimWidth, not_and_or] at hw ⊢; omega)
  rw [writeHeader, next_ok (needWriter_open hs.1), next_ok h1, next_stop h2]

/-! The table (R176, R177). -/

theorem carriable_cons (e : Symbol × Bits) (es : List (Symbol × Bits)) :
    carriable (e :: es) = true ↔ (isCodable e.1 = true ∧ e.2.length ≤ 31) ∧ carriable es = true := by
  simp [carriable]

/-- An entry that a stream can carry is written (R77). -/
theorem writeEntry_ok {s : State} {e : Symbol × Bits} (hs : s.canWrite) (hc : isCodable e.1 = true)
    (hl : e.2.length ≤ 31) : writeEntry e s = .ok () (afterWrite (entryBits e.1 e.2) s) := by
  have hr := (isCodable_iff e.1).mp hc
  have h1 : writeField (e.1 + Config.bias) Config.symWidth s =
      .ok () (afterWrite (bitsOf 9 (e.1 + Config.bias).toNat) s) :=
    writeField_ok hs (by simp only [Config.bias]; omega) (by simp only [Config.bias, Config.symWidth]; omega)
  have h2 : writeField e.2.length Config.lenWidth (afterWrite (bitsOf 9 (e.1 + Config.bias).toNat) s) =
      .ok () (afterWrite (bitsOf 5 e.2.length) (afterWrite (bitsOf 9 (e.1 + Config.bias).toNat) s)) :=
    writeField_ok (canWrite_afterWrite _ hs) (by omega) (by simp only [Config.lenWidth]; omega)
  rw [writeEntry, next_ok h1, next_ok h2, writeBits_ok _ (canWrite_afterWrite _ (canWrite_afterWrite _ hs)),
    afterWrite_append, afterWrite_append]
  simp only [entryBits, List.append_assoc]

/-- An entry whose codeword is too long stops after its biased symbol (R177). -/
theorem writeEntry_long {s : State} {e : Symbol × Bits} (hs : s.canWrite) (hc : isCodable e.1 = true)
    (hl : 31 < e.2.length) : writeEntry e s =
      .stop (.fault .rangeError (e.2.length, 5)) (afterWrite (bitsOf 9 (e.1 + Config.bias).toNat) s) := by
  have hr := (isCodable_iff e.1).mp hc
  have h1 : writeField (e.1 + Config.bias) Config.symWidth s =
      .ok () (afterWrite (bitsOf 9 (e.1 + Config.bias).toNat) s) :=
    writeField_ok hs (by simp only [Config.bias]; omega) (by simp only [Config.bias, Config.symWidth]; omega)
  have h2 : writeField e.2.length Config.lenWidth (afterWrite (bitsOf 9 (e.1 + Config.bias).toNat) s) =
      .stop (.fault .rangeError (e.2.length, 5)) (afterWrite (bitsOf 9 (e.1 + Config.bias).toNat) s) :=
    writeField_range (by simp only [Config.lenWidth]; omega)
  rw [writeEntry, next_ok h1, next_stop h2]

theorem forEach_writeEntry {s : State} {es : List (Symbol × Bits)} (hs : s.canWrite) (hc : carriable es = true) :
    forEach es writeEntry s = .ok () (afterWrite (es.flatMap fun e => entryBits e.1 e.2) s) := by
  induction es generalizing s with
  | nil => rw [List.flatMap_nil, afterWrite_nil hs.2.1]; rfl
  | cons e rest ih =>
    have h := (carriable_cons e rest).mp hc
    rw [forEach_cons, next_ok (writeEntry_ok hs h.1.1 h.1.2), ih (canWrite_afterWrite _ hs) h.2, afterWrite_append,
      List.flatMap_cons]

theorem writeSentinel_ok {s : State} (hs : s.canWrite) :
    writeField Config.sentinel Config.symWidth s = .ok () (afterWrite sentinelBits s) :=
  writeField_ok hs (by simp [Config.sentinel]) (by simp [Config.sentinel, Config.symWidth])

/-- A table that a stream can carry is written whole (R176). -/
theorem writeTable_ok {s : State} (hs : s.canWrite) (hc : carriable s.ct.entries = true) :
    writeTable s = .ok () (afterWrite (tableOf s.ct.entries) s) := by
  rw [writeTable, next_ok (needWriter_open hs.1), next_ok (forEach_writeEntry hs hc),
    writeSentinel_ok (canWrite_afterWrite _ hs), afterWrite_append]
  rfl

/-- The first codeword that is too long stops the table (R177). -/
theorem writeTable_long {s : State} {before after : List (Symbol × Bits)} {e : Symbol × Bits} (hs : s.canWrite)
    (he : s.ct.entries = before ++ e :: after) (hb : carriable before = true) (hc : isCodable e.1 = true)
    (hl : 31 < e.2.length) : writeTable s = .stop (.fault .rangeError (e.2.length, 5))
      (afterWrite (before.flatMap (fun e => entryBits e.1 e.2) ++ bitsOf 9 (e.1 + Config.bias).toNat) s) := by
  have h1 : forEach s.ct.entries writeEntry s = .stop (.fault .rangeError (e.2.length, 5))
      (afterWrite (before.flatMap (fun e => entryBits e.1 e.2) ++ bitsOf 9 (e.1 + Config.bias).toNat) s) := by
    rw [he, forEach_append, next_ok (forEach_writeEntry hs hb), forEach_cons,
      next_stop (writeEntry_long (canWrite_afterWrite _ hs) hc hl), afterWrite_append]
  rw [writeTable, next_ok (needWriter_open hs.1), next_stop h1]

/-! The payload (R178, R179). -/

theorem writeSymbol_ok {s : State} {x : Int} {cw : Bits} (hs : s.canWrite) (hx : isCodable x = true)
    (hc : s.ct.code x = some cw) : writeSymbol x s = .ok () (afterWrite cw s) := by
  rw [writeSymbol, next_ok (needWriter_open hs.1)]
  simp only [hx, if_true, hc, writeBits_ok cw hs]

theorem writeSymbol_noCode {s : State} {x : Int} (ho : s.bw.isOpen = true)
    (h : isCodable x = false ∨ s.ct.code x = none) : writeSymbol x s = .stop (.refuse .noCode) s := by
  rw [writeSymbol, next_ok (needWriter_open ho)]
  rcases h with h | h
  · simp [h]
  · cases hx : isCodable x <;> simp [h]

/-- The Sample at a written location (R54). -/
theorem imgRead_sampleAt {s : State} {l : Loc} (h : (Memory.read s.img l).isSome = true) :
    imgRead l s = .ok (sampleAt s.img l) s := by
  obtain ⟨v, hv⟩ := Option.isSome_iff_exists.mp h
  rw [imgRead_some hv, sampleAt, hv]; rfl

/-- The location of a flat index of a written image is written (R55). -/
theorem imageDefined_flat {h w i : Nat} {m : List (Loc × Sample)} (hd : imageDefined h w m) (hi : i < sampleCount h w) :
    (Memory.read m (flatLoc w i)).isSome = true := by
  have hs := inShape_flatLoc (h := h) (w := w) (i := i) hi
  simp only [inShape, Bool.and_eq_true, decide_eq_true_eq] at hs
  exact hd _ hs.1.1 _ hs.1.2 _ hs.2

/-- The flat sequence of an image as it stands (R55). -/
def flatOf (w start n : Nat) (m : List (Loc × Sample)) : List Sample :=
  (List.range' start n).map fun i => sampleAt m (flatLoc w i)

theorem codedFlat_false (h w : Nat) (m : List (Loc × Sample)) : codedFlat false h w m = flatOf w 0 (sampleCount h w) m := by
  simp only [codedFlat, flatOf, List.range_eq_range']
  exact List.map_congr_left fun i _ => by simp [codedAt]

theorem forUp_writeSample {s : State} {h w : Nat} (n start : Nat) (hs : s.canWrite) (hd : imageDefined h w s.img)
    (hn : start + n ≤ sampleCount h w)
    (hc : ∀ x ∈ flatOf w start n s.img, isCodable x = true ∧ (s.ct.code x).isSome = true) :
    forUp start n (writeSample w) s =
      .ok () (afterWrite ((flatOf w start n s.img).flatMap (codewordIn s.ct.entries)) s) := by
  induction n generalizing start s with
  | zero => simp [forUp, flatOf, afterWrite_nil hs.2.1]
  | succ n ih =>
    have hflat : flatOf w start (n + 1) s.img = sampleAt s.img (flatLoc w start) :: flatOf w (start + 1) n s.img := by
      simp [flatOf, List.range'_succ]
    rw [hflat] at hc ⊢
    have hx := hc _ List.mem_cons_self
    obtain ⟨cw, hcw⟩ := Option.isSome_iff_exists.mp hx.2
    have hcode : codewordIn s.ct.entries (sampleAt s.img (flatLoc w start)) = cw := by
      have hcw' : Table.get s.ct.entries (sampleAt s.img (flatLoc w start)) = some cw := hcw
      rw [codewordIn, hcw']; rfl
    have h1 : writeSample w start s = .ok () (afterWrite cw s) := by
      rw [writeSample, andThen_ok (imgRead_sampleAt (imageDefined_flat hd (by omega))), writeSymbol_ok hs hx.1 hcw]
    have := ih (s := afterWrite cw s) (start + 1) (canWrite_afterWrite _ hs) hd (by omega)
      fun x hx => hc x (List.mem_cons_of_mem _ hx)
    rw [forUp, next_ok h1, this, afterWrite_append, List.flatMap_cons, hcode]
    rfl

/-- The payload of a written image whose samples all have a codeword (R179). -/
theorem writePayload_ok {s : State} (hs : s.canWrite) (hd : imageDefined s.dim.h.toNat s.dim.w.toNat s.img)
    (hc : ∀ x ∈ flatOf s.dim.w.toNat 0 s.dim.count s.img, isCodable x = true ∧ (s.ct.code x).isSome = true) :
    writePayload s =
      .ok () (afterWrite ((flatOf s.dim.w.toNat 0 s.dim.count s.img).flatMap (codewordIn s.ct.entries)) s) := by
  rw [writePayload, next_ok (needWriter_open hs.1)]
  exact forUp_writeSample _ 0 hs hd (by simp [Dims.count]) hc

/-- A closed writer is found before a sample is read (R218). -/
theorem writePayload_closed {s : State} (h : s.bw.isOpen = false) : writePayload s = .stop (.refuse .notOpen) s := by
  rw [writePayload, next_stop (needWriter_closed h)]

/-! The range scan and the flat reading (R175, R182). -/

theorem forUp_scanSample_ok {s : State} {h w : Nat} (n start : Nat) (hd : imageDefined h w s.img)
    (hn : start + n ≤ sampleCount h w) (hc : ∀ x ∈ flatOf w start n s.img, isCodable x = true) :
    forUp start n (scanSample w) s = .ok () s := by
  induction n generalizing start with
  | zero => rfl
  | succ n ih =>
    have hflat : flatOf w start (n + 1) s.img = sampleAt s.img (flatLoc w start) :: flatOf w (start + 1) n s.img := by
      simp [flatOf, List.range'_succ]
    rw [hflat] at hc
    have h1 : scanSample w start s = .ok () s := by
      rw [scanSample, andThen_ok (imgRead_sampleAt (imageDefined_flat hd (by omega))), if_pos (hc _ List.mem_cons_self)]
      rfl
    rw [forUp, next_ok h1, ih (start + 1) (by omega) fun x hx => hc x (List.mem_cons_of_mem _ hx)]

/-- The scan stops at the first sample outside −255 .. 255 (R175). -/
theorem forUp_scanSample_bad {s : State} {h w : Nat} (n start : Nat) {before after : List Sample} {x : Int}
    (hd : imageDefined h w s.img) (hn : start + n ≤ sampleCount h w)
    (hf : flatOf w start n s.img = before ++ x :: after) (hb : ∀ y ∈ before, isCodable y = true)
    (hx : isCodable x = false) :
    forUp start n (scanSample w) s = .stop (.fault .sampleRangeError (x, ((start + before.length : Nat) : Int))) s := by
  induction n generalizing start before with
  | zero => simp [flatOf] at hf
  | succ n ih =>
    have hflat : flatOf w start (n + 1) s.img = sampleAt s.img (flatLoc w start) :: flatOf w (start + 1) n s.img := by
      simp [flatOf, List.range'_succ]
    rw [hflat] at hf
    have hread := imgRead_sampleAt (imageDefined_flat hd (show start < sampleCount h w by omega))
    cases before with
    | nil =>
      simp only [List.nil_append, List.cons.injEq] at hf
      have h1 : scanSample w start s = .stop (.fault .sampleRangeError (x, (start : Int))) s := by
        rw [scanSample, andThen_ok hread, hf.1, hx]; rfl
      rw [forUp, next_stop h1]; rfl
    | cons y rest =>
      simp only [List.cons_append, List.cons.injEq] at hf
      have h1 : scanSample w start s = .ok () s := by
        rw [scanSample, andThen_ok hread, hf.1, if_pos (hb y List.mem_cons_self)]; rfl
      rw [forUp, next_ok h1, ih (start + 1) (by omega) hf.2 fun z hz => hb z (List.mem_cons_of_mem _ hz)]
      simp only [List.length_cons]; congr 4; omega

theorem readFlat_ok {s : State} {h w : Nat} (n start : Nat) (hd : imageDefined h w s.img)
    (hn : start + n ≤ sampleCount h w) : readFlat w start n s = .ok (flatOf w start n s.img) s := by
  induction n generalizing start with
  | zero => rfl
  | succ n ih =>
    rw [readFlat, andThen_ok (imgRead_sampleAt (imageDefined_flat hd (by omega))), andThen_ok (ih (start + 1) (by omega))]
    simp [flatOf, List.range'_succ]

/-! The code of a sequence of samples (R183). -/

/-- The occurring symbols and their fractions are operands that `HT.BUILD` accepts (R134). -/
theorem empirical_valid {flat : List Sample} (h : ∀ x ∈ flat, isCodable x = true) (h0 : flat ≠ []) :
    validAlphabet ((empirical flat).map (·.1)) ((empirical flat).map (·.2)) := by
  have hfst : (empirical flat).map (·.1) = allSymbols.filter fun x => flat.contains x := by
    simp [empirical, List.map_map, Function.comp_def]
  have hlen : 0 < flat.length := List.length_pos_iff.mpr h0
  have hsub : (allSymbols.filter fun x => flat.contains x).length ≤ 511 := by
    have h1 : allSymbols.length = 511 := by rw [allSymbols, List.length_map, List.length_range]; rfl
    exact (List.length_filter_le _ _).trans (le_of_eq h1)
  refine ⟨by simp, ?_, fun p hp => ?_, fun x hx => ?_, ?_, by rw [hfst]; exact hsub⟩
  · obtain ⟨x, rest, rfl⟩ := List.exists_cons_of_ne_nil h0
    have : x ∈ (empirical (x :: rest)).map (·.1) := by
      rw [hfst, List.mem_filter]
      exact ⟨(mem_allSymbols x).mpr (h x List.mem_cons_self), by simp⟩
    exact List.ne_nil_of_mem this
  · simp only [empirical, List.mem_map, List.map_map, List.mem_filter, Function.comp_apply] at hp
    obtain ⟨x, ⟨-, hx⟩, rfl⟩ := hp
    have hc : 0 < flat.count x := List.count_pos_iff.mpr (by simpa using hx)
    rw [Rat.mkRat_eq_div]
    have h1 : (0 : Rat) < ((flat.count x : Nat) : Int) := by exact_mod_cast hc
    have h2 : (0 : Rat) < (flat.length : Rat) := by exact_mod_cast hlen
    exact div_pos h1 h2
  · rw [hfst, List.mem_filter] at hx
    exact (isCodable_iff x).mp ((mem_allSymbols x).mp hx.1)
  · rw [hfst]
    exact (allSymbols_sorted.imp fun hab => ne_of_lt hab).filter _

/-- Step 4 of `ENCODE` on a written image of codable samples (R183). -/
theorem buildCode_ok {s : State} {h w : Nat} (hd : imageDefined h w s.img)
    (hc : ∀ x ∈ flatOf w 0 (sampleCount h w) s.img, isCodable x = true) (h0 : 0 < sampleCount h w) :
    ∃ g t, buildCode w (sampleCount h w) s =
      .ok () (((s.withHg g).withHt t).withCt { entries := codeFor (flatOf w 0 (sampleCount h w) s.img) }) := by
  have hne : flatOf w 0 (sampleCount h w) s.img ≠ [] := by
    intro he
    have := congrArg List.length he
    simp [flatOf] at this; omega
  have hv := empirical_valid hc hne
  generalize hf : flatOf w 0 (sampleCount h w) s.img = flat at *
  have h1 := buildHistogram_codable hc hne (minOf flat) (maxOf flat) s
  rw [emit_counted hc] at h1
  have h2 : buildHuffman ((empirical flat).map (·.1)) ((empirical flat).map (·.2))
      (s.withHg (Histogram.cleared.counted flat)) = .ok () ((s.withHg (Histogram.cleared.counted flat)).withHt
        (buildTree ((empirical flat).map (·.1)) ((empirical flat).map (·.2)))) := by
    simp only [buildHuffman, (alphabetCause_none _ _).mpr hv]
  obtain ⟨-, -, hroot, -⟩ := buildTree_forest hv.1 hv.2.1
  have h3 : generateCodes ((s.withHg (Histogram.cleared.counted flat)).withHt
      (buildTree ((empirical flat).map (·.1)) ((empirical flat).map (·.2)))) = .ok (codeFor flat)
      (((s.withHg (Histogram.cleared.counted flat)).withHt
        (buildTree ((empirical flat).map (·.1)) ((empirical flat).map (·.2)))).withCt { entries := codeFor flat }) := by
    simp only [generateCodes, withHt_fields, hroot]; rfl
  refine ⟨Histogram.cleared.counted flat,
    buildTree ((empirical flat).map (·.1)) ((empirical flat).map (·.2)), ?_⟩
  rw [buildCode, andThen_ok (readFlat_ok _ 0 hd (by omega)), hf, andThen_ok h1, next_ok h2, andThen_ok h3]
  rfl

end Sys2Proof.Machine
end

