-- ==== Sys2Proof/Laws/Outcomes.lean ====
section
/-! SUPPORT. How an operation's ending is seen from outside (00_scope.md R16, 60_exceptions.md R217, R222, R226), in the terms
of Safety.lean: `finished`, `faultedBy`, `refusedBy`. A statement about an instruction needs only how its body ends. -/

namespace Sys2Proof.Machine

theorem faultNumber_eq (e : FaultKind) : faultNumber e = e.code := by cases e <;> rfl

theorem refusalNumber_eq (r : RefuseKind) : refusalNumber r = r.code := by cases r <;> rfl

theorem reply_ok_eq (r : Result) (s : State) : reply (.ok r) s = s.finished r := rfl

/-- Between calls the sequencer has nothing to return from. -/
theorem idle_self {s : State} (h : s.idleNow) : idle s = s := by
  have : s.seq = { op := .idle, phase := 0 } := h
  simp [idle, ← this]

/-- A refusal decided at the gate only records its reason. -/
theorem refuseAtGate_eq (r : RefuseKind) (s : State) : refuseAtGate r s = .next (s.refusedBy r) := by
  simp only [refuseAtGate, State.refusedBy, Status.recordRefusal, refusalNumber_eq]
  by_cases h : s.st.ref = 0 <;> simp only [h, if_true, if_false] <;> rfl

/-- The abort procedure after a refusal, between calls (R217). -/
theorem abort_refuse {s : State} (r : RefuseKind) (h : s.idleNow) :
    reply (Cause.reply (.refuse r)) (abort (.refuse r) s) = s.refusedBy r := by
  have hop : s.seq.op = .idle := by rw [h]
  rw [abort_idle hop, idle_self (by exact h)]
  simp only [State.refusedBy, Status.record, Status.recordRefusal, refusalNumber_eq]
  by_cases h : s.st.ref = 0 <;> simp only [h, if_true, if_false] <;> rfl

/-- The abort procedure after a first fault, between calls (R222). -/
theorem abort_fault {s : State} (e : FaultKind) (info : Int × Int) (h : s.idleNow) (h0 : s.st.err = 0) :
    reply (Cause.reply (.fault e info)) (abort (.fault e info) s) = s.faultedBy e info := by
  have hop : s.seq.op = .idle := by rw [h]
  rw [abort_idle hop, idle_self (by exact h)]
  simp only [State.faultedBy, Status.record, Status.recordFault, h0, if_true, faultNumber_eq]
  rfl

/-- The gate is open (R226). -/
theorem gate_open {body : State → Answer} {s : State} (h : s.st.err = 0) : gate body s = body s := by simp [gate, h]

/-- The gate is closed (R226). -/
theorem gate_closed {body : State → Answer} {s : State} (h : s.st.err ≠ 0) : gate body s = .next (s.refusedBy .faulted) := by
  rw [gate, if_pos h, refuseAtGate_eq]

/-- The gate is closed to an operation behind it (R226). -/
theorem issue_closed {body : Op Result} {s : State} (h : s.st.err ≠ 0) : issue body s = .next (s.refusedBy .faulted) := by
  rw [issue_faulted h, refuseAtGate_eq]

/-- Behind the open gate the body goes on. -/
theorem issue_finished {body : Op Result} {s t : State} {r : Result} (h : s.st.err = 0) (hb : body s = .ok r t) :
    issue body s = .next (t.finished r) := issue_ok h hb

/-- Behind the open gate the body is refused, between calls. -/
theorem issue_refused {body : Op Result} {s t : State} {r : RefuseKind} (h : s.st.err = 0)
    (hb : body s = .stop (.refuse r) t) (ht : t.idleNow) : issue body s = .next (t.refusedBy r) := by
  rw [issue_stop h hb, abort_refuse r ht]

/-- Behind the open gate the body faults, between calls. -/
theorem issue_faults {body : Op Result} {s t : State} {e : FaultKind} {info : Int × Int} (h : s.st.err = 0)
    (hb : body s = .stop (.fault e info) t) (ht : t.idleNow) (h0 : t.st.err = 0) :
    issue body s = .next (t.faultedBy e info) := by
  rw [issue_stop h hb, abort_fault e info ht h0]

/-- The result of an operation that has none. -/
theorem done_ok {α : Type} {m : Op α} {s t : State} {a : α} (h : m s = .ok a t) : m.done s = .ok .done t := andThen_ok h

theorem done_stop {α : Type} {m : Op α} {s t : State} {c : Cause} (h : m s = .stop c t) : m.done s = .stop c t := andThen_stop h

/-- One instruction after another. -/
theorem runAll_cons {i : Instr} {rest : List Instr} {s t : State} (h : exec i s = .next t) :
    runAll (i :: rest) s = runAll rest t := by simp only [runAll, h]

theorem runAll_append (l m : List Instr) {s t : State} (h : runAll l s = .next t) : runAll (l ++ m) s = runAll m t := by
  induction l generalizing s with
  | nil => cases h; rfl
  | cons i rest ih =>
    simp only [List.cons_append, runAll] at *
    cases he : exec i s with
    | next u => rw [he] at h; exact ih h
    | fault f => rw [he] at h; cases h
    | refused r => rw [he] at h; cases h

end Sys2Proof.Machine
end

