-- ==== Sys2Proof/Tests/Slice0.lean ====
section
/-! SUPPORT. Tests of the model, each about one decoding or one step on a small state, with the expected value taken from the
spec's own text (95_test_vectors.md, 30_encoding.md R91 and R97, and the examples in the rules), and a witness for the
hypotheses of every statement. -/

set_option Elab.async false

namespace Sys2Proof.Tests

open Sys2Proof Sys2Proof.Machine

/-- A bit sequence from digits, the first bit leftmost. -/
def b (l : List Nat) : Bits := l.map (· == 1)

/-- The state an instruction leads to. -/
def after (i : Instr) (s : State) : Option State :=
  match exec i s with
  | .next t => some t
  | _ => none

/-- The outcome an instruction reports. -/
def outcome (i : Instr) (s : State) : Option Reply := (after i s).bind fun t => t.port.reply

/-- The state a step leads to. -/
def stepped (s : State) : Option State :=
  match step s with
  | .next t => some t
  | _ => none

/-- An image of width `w` from its flat sequence (R55). -/
def image (w : Nat) (flat : List Int) : List (Loc × Sample) :=
  flat.zipIdx.map fun e => ({ r := e.2 / (3 * w), c := e.2 / 3 % w, k := e.2 % 3 }, e.1)

/-- The flat sequence of an `h` by `w` image, where it is written. -/
def flatOf (h w : Nat) (m : List (Loc × Sample)) : List (Option Sample) :=
  (List.range h).flatMap fun r => (List.range w).flatMap fun c => (List.range 3).map fun k =>
    Memory.read m { r := r, c := c, k := k }

/-- An open writer with bits waiting. -/
def writing (buf : Bits) : State := { State.reset with bw := { buf := buf, isOpen := true } }

/-- An open reader at the beginning of a source. -/
def reading (bytes : List Byte) : State :=
  { State.reset with br := { cur := [], exh := false, isOpen := true }, src := { bytes := bytes, pos := 0 } }

/-- A closed reader at the beginning of a source. -/
def attached (bytes : List Byte) : State := { State.reset with src := { bytes := bytes, pos := 0 } }

/-- An image in memory. -/
def holding (w : Nat) (flat : List Int) : State := { State.reset with img := image w flat }

/-- The environment's next answers. -/
def failing (s : State) (answers : List Bool) : State := { s with ioFail := answers }

/-- A fault was recorded before. -/
def faulted (s : State) : State := { s with st := { s.st with err := 2, info := (256, 3) } }

/-- The code table of example E1. -/
def codesE1 : List (Symbol × Bits) := [(3, b [0, 0]), (0, b [0, 1]), (10, b [1])]

/-- The decode table of example E1. -/
def tableE1 : List (Bits × Symbol) := [(b [0, 0], 3), (b [0, 1], 0), (b [1], 10)]

/-- The stream of example E1. -/
def streamE1 : List Byte :=
  [0x00, 0x02, 0x00, 0x02, 0x81, 0x08, 0x7F, 0x89, 0x84, 0x87, 0xFF, 0xEA, 0xF0, 0x00]

/-- The image of example E1, flat. -/
def flatE1 : List Int := [10, 10, 10, 10, 10, 10, 10, 10, 10, 13, 13, 13]

/-- The residuals of example E1, flat. -/
def residualsE1 : List Int := [10, 10, 10, 0, 0, 0, 10, 10, 10, 3, 3, 3]

/-! Well-formedness: what each check refuses, and the values at its edge. -/

/-- R93: a shape is not checked by the port. -/
theorem test_wf_accepts_any_shape :
    Instr.wf (.dpFwd (-1) 0) = true ∧ Instr.wf (.dpInv 0 (-1)) = true ∧ Instr.wf (.veHdr (-1) 65536) = true := by decide

theorem test_wf_refuses_bad_entry :
    Instr.wf (.entry 256 []) = false ∧ Instr.wf (.entry (-256) []) = false ∧
      Instr.wf (.entry 0 (List.replicate 32 true)) = false ∧ Instr.wf (.entry 255 (List.replicate 31 true)) = true ∧
      Instr.wf (.entry (-255) []) = true := by decide

theorem test_wf_refuses_bad_codeword :
    Instr.wf (.codeword []) = false ∧ Instr.wf (.codeword (List.replicate 32 true)) = false ∧
      Instr.wf (.codeword [false]) = true := by decide

theorem test_wf_refuses_long_pad : Instr.wf (.pad 8) = false ∧ Instr.wf (.pad 7) = true ∧ Instr.wf (.pad 0) = true := by
  decide

/-! Decoding: the operation codes of R91, written out, and the records of R76 to R80 and R97. -/

theorem test_decode_system :
    decode (.command 0b00000000 {}) = .ok .sysReset ∧ decode (.command 0b00000001 {}) = .ok .sysStatus := by decide

theorem test_decode_writer :
    decode (.command 0b00010000 {}) = .ok .bwOpen ∧
      decode (.command 0b00010001 { bits := b [1, 0, 1, 1, 0] }) = .ok (.bwWrite (b [1, 0, 1, 1, 0])) ∧
      decode (.command 0b00010010 {}) = .ok .bwClose := by decide

theorem test_decode_reader :
    decode (.command 0b00100000 {}) = .ok .brOpen ∧ decode (.command 0b00100001 {}) = .ok .brReadBit ∧
      decode (.command 0b00100010 { n := 9 }) = .ok (.brReadBits 9) ∧ decode (.command 0b00100011 {}) = .ok .brClose := by
  decide

theorem test_decode_fixedWidth :
    decode (.command 0b00110000 { x := -5, width := 3 }) = .ok (.fwEnc (-5) 3) ∧
      decode (.command 0b00110001 { bits := b [1, 0] }) = .ok (.fwDec (b [1, 0])) := by decide

theorem test_decode_histogram :
    decode (.command 0b01000000 {}) = .ok .hgClear ∧ decode (.command 0b01000001 { s := -7 }) = .ok (.hgAcc (-7)) ∧
      decode (.command 0b01000010 { lo := 0, hi := 10 }) = .ok (.hgEmit 0 10) ∧
      decode (.command 0b01000011 { samples := [10, 0], lo := 0, hi := 10 }) = .ok (.hgBuild [10, 0] 0 10) := by decide

theorem test_decode_huffman :
    decode (.command 0b01010000 { symbols := [0, 3], probs := [1 / 4, 3 / 4] }) = .ok (.htBuild [0, 3] [1 / 4, 3 / 4]) ∧
      decode (.command 0b01010001 {}) = .ok .htGen := by decide +kernel

theorem test_decode_predictor :
    decode (.command 0b01100000 { h := 2, w := 3 }) = .ok (.dpFwd 2 3) ∧
      decode (.command 0b01100001 { h := 2, w := 3 }) = .ok (.dpInv 2 3) ∧
      decode (.command 0b01100001 { h := 1, w := -3 }) = .ok (.dpInv 1 (-3)) := by decide

theorem test_decode_encoder :
    decode (.command 0b01110000 { h := -1, w := 65536 }) = .ok (.veHdr (-1) 65536) ∧
      decode (.command 0b01110001 {}) = .ok .veTable ∧ decode (.command 0b01110010 { s := 7 }) = .ok (.veSym 7) ∧
      decode (.command 0b01110011 {}) = .ok .vePayload ∧
      decode (.command 0b01111111 { h := 2, w := 3, p := true }) = .ok (.encode 2 3 true) := by decide

theorem test_decode_decoder :
    decode (.command 0b10000000 {}) = .ok .vdHdr ∧ decode (.command 0b10000001 {}) = .ok .vdTable ∧
      decode (.command 0b10000010 {}) = .ok .vdSym ∧ decode (.command 0b10000011 {}) = .ok .vdPayload ∧
      decode (.command 0b10001111 { p := true }) = .ok (.decode true) := by decide

/-- R180, R202: `P` is 1 by default. -/
theorem test_decode_default_prediction :
    decode (.command 0b01111111 { h := 2, w := 3 }) = .ok (.encode 2 3 true) ∧
      decode (.command 0b10001111 {}) = .ok (.decode true) ∧
      decode (.command 0b10001111 { p := false }) = .ok (.decode false) ∧
      decodeTableWord 8 0x7F = some (.encode 0 0 true) ∧ decodeTableWord 8 0x8F = some (.decode true) := by decide +kernel

theorem test_decode_reserved :
    decode (.command 0x13 {}) = .error (.reservedOp 0x13) ∧ decode (.command 0xFF {}) = .error (.reservedOp 0xFF) := by
  decide

/-- R76: `hhhhhhhhhhhhhhhh wwwwwwwwwwwwwwww`. -/
theorem test_decode_header :
    decode (.record .header (b [0, 0, 0, 0, 0, 0, 0, 0, 0, 0, 0, 0, 0, 0, 1, 0, 1, 0, 0, 0, 0, 0, 0, 0, 0, 0, 0, 0, 0, 0,
      0, 1])) = .ok (.header 2 32769) := by decide +kernel

/-- R97: the entries `100000010 00010 00`, `011111111 00010 01`, `100001001 00001 1`. -/
theorem test_decode_entry :
    decode (.record .table (b [1, 0, 0, 0, 0, 0, 0, 1, 0, 0, 0, 0, 1, 0, 0, 0])) = .ok (.entry 3 (b [0, 0])) ∧
      decode (.record .table (b [0, 1, 1, 1, 1, 1, 1, 1, 1, 0, 0, 0, 1, 0, 0, 1])) = .ok (.entry 0 (b [0, 1])) ∧
      decode (.record .table (b [1, 0, 0, 0, 0, 1, 0, 0, 1, 0, 0, 0, 0, 1, 1])) = .ok (.entry 10 (b [1])) := by
  decide +kernel

/-- R78, R79, R80. -/
theorem test_decode_short_records :
    decode (.record .table (b [1, 1, 1, 1, 1, 1, 1, 1, 1])) = .ok .sentinel ∧
      decode (.record .payload (b [0, 1])) = .ok (.codeword (b [0, 1])) ∧
      decode (.record .padding (b [0, 0, 0, 0, 0, 0])) = .ok (.pad 6) ∧
      decode (.record .padding (b [0, 1])) = .error (.notARecord .padding) ∧
      decode (.record .payload []) = .error (.notARecord .payload) ∧
      decode (.record .header (b [0])) = .error (.notARecord .header) ∧
      decode (.record .table (b [1, 0, 0, 0, 0, 0, 0, 1, 0, 0, 0, 0, 1, 0, 0])) = .error (.notARecord .table) := by
  decide +kernel

/-- The words of the opcode table: a code byte, a 32-bit `HEADER`, the 9 ones of the `SENTINEL`, a short `ENTRY`. -/
theorem test_decode_table_words :
    decodeTableWord 8 0x12 = some .bwClose ∧ decodeTableWord 8 0x13 = none ∧
      decodeTableWord 32 0x02000200 = some (.header 2 2) ∧ decodeTableWord 16 0x80FF = some .sentinel ∧
      decodeTableWord 16 0x0081 = some (.entry 3 []) ∧ decodeTableWord 1 1 = some (.codeword [true]) ∧
      decodeTableWord 7 0 = some (.pad 7) := by decide +kernel

theorem test_fetch_word :
    (stepped (State.reset.withFetchWord 8 0x10)).map (·.bw) = some { buf := [], isOpen := true } ∧
      (stepped (State.reset.withFetchWord 32 0x02000200)).map (·.dim) = some { h := 2, w := 2 } := by decide +kernel

/-! Housekeeping. -/

/-- R228 and V60.3: after a fault and a reset the status is 0, the reader exhausted, prediction on; the sink stays. -/
theorem test_sysReset :
    (after .sysReset (faulted { writing (b [1]) with sink := [7], cfg := { p := false } })).map
      (fun t => (t.st, t.br.exh, t.cfg.p, t.bw, t.sink)) =
      some ({ err := 0, info := (0, 0), ref := 0, dec := .none }, true, true, closedWriter, [7]) := by decide +kernel

/-- V60.2: `st.err = 2`, `st.info = (256, 3)`, writer closed, `Idle`. -/
theorem test_sysStatus :
    outcome .sysStatus (faulted State.reset) = some (.ok (.status {
      err := 2, info := (256, 3), ref := 0, dec := .none, bwOpen := false, brOpen := false, brExh := true, ndone := 0,
      h := 0, w := 0, op := .idle, phase := 0 })) := by decide +kernel

/-- V60.1: while a fault is recorded `HG.CLEAR` is refused with `Faulted`, `st.ref = 2`. -/
theorem test_faulted_refuses :
    outcome .hgClear (faulted State.reset) = some (.refused .faulted) ∧
      (after .hgClear (faulted State.reset)).map (·.st.ref) = some 2 := by decide +kernel

/-- V60.4: the code 0x13 is refused with `IllegalOp`, `st.ref = 1`. -/
theorem test_reserved_code :
    (stepped (offer (.command 0x13 {}) State.reset)).map (fun t => (t.st.ref, t.port.reply)) =
      some (1, some (.refused .illegalOp)) := by decide +kernel

/-- V60.6: the first refusal is kept. -/
theorem test_first_refusal_kept :
    ((after (.bwWrite (b [1])) State.reset).bind (after .htGen)).map (fun t => (t.st.ref, t.port.reply)) =
      some (4, some (.refused .noTree)) := by decide +kernel

/-! BitWriter and BitReader (V40). -/

/-- V40.8. -/
theorem test_bwOpen :
    (after .bwOpen State.reset).map (·.bw) = some { buf := [], isOpen := true } ∧
      (after .bwOpen (writing [])).map (fun t => (t.st.ref, t.port.reply)) = some (5, some (.refused .alreadyOpen)) := by
  decide +kernel

/-- V40.1: `"101"` then `"1000001"` is the byte B0 and `"01"`. -/
theorem test_bwWrite :
    (after (.bwWrite (b [1, 0, 0, 0, 0, 0, 1])) (writing (b [1, 0, 1]))).map (fun t => (t.sink, t.bw.buf)) =
      some ([0xB0], b [0, 1]) := by decide +kernel

/-- V40.3: 20 one bits. -/
theorem test_bwWrite_several_bytes :
    (after (.bwWrite (List.replicate 20 true)) (writing [])).map (fun t => (t.sink, t.bw.buf)) =
      some ([0xFF, 0xFF], b [1, 1, 1, 1]) := by decide +kernel

/-- A writer whose last append failed. -/
def holdingByte (B : Byte) : State :=
  { faulted State.reset with bw := { buf := [], isOpen := true, full := some B } }

/-- R107, R215 and R221: the byte B0 of V40.1 is not appended and not lost, and R108 sends it. -/
theorem test_bwWrite_fails :
    (after (.bwWrite (b [1, 0, 0, 0, 0, 0, 1])) (failing (writing (b [1, 0, 1])) [true])).map
      (fun t => (t.sink, t.bw, t.st.err)) = some ([], { buf := [], isOpen := true, full := some 0xB0 }, 4) ∧
      (after .bwClose (holdingByte 0xB0)).map (fun t => (t.sink, t.bw)) = some ([0xB0], closedWriter) := by decide +kernel

/-- V40.2 and V40.5. -/
theorem test_bwClose :
    (after .bwClose (writing (b [1, 1]))).map (fun t => (t.sink, t.bw.buf, t.bw.isOpen)) = some ([0xC0], [], false) ∧
      (after .bwClose (writing [])).map (fun t => (t.sink, t.bw.isOpen)) = some ([], false) := by decide +kernel

/-- R110: the reader is open and not exhausted, `st.dec` is cleared, nothing is fetched. -/
theorem test_brOpen :
    (after .brOpen { attached [0xA5] with st := { State.reset.st with dec := .short } }).map
      (fun t => (t.br, t.st.dec, t.src.pos)) = some ({ cur := [], exh := false, isOpen := true }, .none, 0) := by
  decide +kernel

/-- The example of R111: A5 gives 1 and leaves `"0100101"`. -/
theorem test_brReadBit :
    (after .brReadBit (reading [0xA5])).map (fun t => (t.port.reply, t.br.cur, t.src.pos)) =
      some (some (.ok (.bit (some true))), b [0, 1, 0, 0, 1, 0, 1], 1) := by decide +kernel

/-- V40.14 and V40.12. -/
theorem test_brReadBit_end :
    (after .brReadBit (reading [])).map (fun t => (t.port.reply, t.br.exh)) = some (some (.ok (.bit none)), true) ∧
      outcome .brReadBit State.reset = some (.ok (.bit none)) := by decide +kernel

/-- The example of R112, and the loss of V40.10. -/
theorem test_brReadBits :
    outcome (.brReadBits 16) (reading [0x00, 0x02]) =
      some (.ok (.bits (some (b [0, 0, 0, 0, 0, 0, 0, 0, 0, 0, 0, 0, 0, 0, 1, 0])))) ∧
      (after (.brReadBits 5) { reading [0xA5, 0x0F] with
        br := { cur := b [1, 1, 1, 1], exh := false, isOpen := true }, src := { bytes := [0xA5, 0x0F], pos := 2 } }).map
        (fun t => (t.port.reply, t.br, t.src.pos)) =
      some (some (.ok (.bits none)), { cur := [], exh := true, isOpen := true }, 2) := by decide +kernel

/-- V40.13. -/
theorem test_brClose :
    (after .brClose { State.reset with br := { cur := b [0, 1, 0, 1], exh := false, isOpen := true } }).map (·.br) =
      some { cur := [], exh := true, isOpen := false } := by decide +kernel

/-! FixedWidthCodec (V41). -/

/-- V41.3 and V41.6. -/
theorem test_fwEnc :
    outcome (.fwEnc 1 5) State.reset = some (.ok (.bits (some (b [0, 0, 0, 0, 1])))) ∧
      (after (.fwEnc 16 4) State.reset).map (fun t => (t.port.reply, t.st.err, t.st.info)) =
        some (some (.fault .rangeError (16, 4)), 1, (16, 4)) := by decide +kernel

/-- V41.7 and V41.12. -/
theorem test_fwEnc_edges :
    outcome (.fwEnc (-1) 8) State.reset = some (.fault .rangeError (-1, 8)) ∧
      outcome (.fwEnc 0 0) State.reset = some (.ok (.bits (some []))) ∧
      outcome (.fwEnc 1 0) State.reset = some (.fault .rangeError (1, 0)) := by decide +kernel

/-- V41.13 and V41.15. -/
theorem test_fwDec :
    outcome (.fwDec (b [1, 0, 0, 0, 0, 1, 0, 0, 1])) State.reset = some (.ok (.value 265)) ∧
      outcome (.fwDec []) State.reset = some (.ok (.value 0)) := by decide +kernel

/-! Histogram (V42). -/

/-- R129. -/
theorem test_hgClear :
    (after .hgClear { State.reset with hg := State.reset.hg.bump 10 }).map (fun t => (t.hg.total, t.hg.counter 10)) =
      some (0, 0) := by decide +kernel

/-- V42.1. -/
theorem test_hgAcc :
    (((after (.hgAcc 10) State.reset).bind (after (.hgAcc 0))).bind (after (.hgAcc 10))).map
      (fun t => (t.hg.counter 10, t.hg.counter 0, t.hg.total)) = some (2, 1, 3) := by decide +kernel

/-- V42.9. -/
theorem test_hgAcc_range :
    ((after (.hgAcc 1) State.reset).bind (after (.hgAcc 256))).map (fun t => (t.port.reply, t.hg.total)) =
      some (some (.fault .sampleRangeError (256, 1)), 1) := by decide +kernel

/-- V42.3: symbol 0 is outside the range but counts in the total. -/
theorem test_hgEmit :
    outcome (.hgEmit 5 10) { State.reset with hg := ((State.reset.hg.bump 10).bump 0).bump 10 } =
      some (.ok (.pairs [(10, 2 / 3)])) := by decide +kernel

/-- V42.5 and V42.8. -/
theorem test_hgBuild :
    outcome (.hgBuild [10, 0, 10, 3] 0 10) State.reset = some (.ok (.pairs [(0, 1 / 4), (3, 1 / 4), (10, 1 / 2)])) ∧
      outcome (.hgBuild [] 0 0) State.reset = some (.refused .emptyHistogram) := by decide +kernel

/-! Huffman (V43). -/

/-- The example of R141. -/
theorem test_htBuild :
    (after (.htBuild [0, 3, 10] [1 / 4, 1 / 4, 1 / 2]) State.reset).map (·.ht) = some {
      node := [.leaf 0 (1 / 4), .leaf 3 (1 / 4), .leaf 10 (1 / 2), .internal (1 / 2) 1 0, .internal 1 3 2]
      nn := 5, set := [4], root := some 4 } := by decide +kernel

/-- V43.12 to V43.16. -/
theorem test_htBuild_checks :
    outcome (.htBuild [0, 1] [1 / 2]) State.reset = some (.fault .lengthMismatch (2, 1)) ∧
      outcome (.htBuild [] []) State.reset = some (.refused .emptyAlphabet) ∧
      outcome (.htBuild [0, 1] [1, 0]) State.reset = some (.refused .badProbability) ∧
      outcome (.htBuild [0, 0] [1 / 2, 1 / 2]) State.reset = some (.refused .badSymbol) ∧
      outcome (.htBuild [256] [1]) State.reset = some (.refused .badSymbol) := by decide +kernel

/-- V43.8. -/
theorem test_htGen :
    ((after (.htBuild [0, 1, 2, 3] [1 / 10, 2 / 10, 3 / 10, 4 / 10]) State.reset).bind (outcome .htGen)) =
      some (.ok (.codes [(3, b [0]), (0, b [1, 0, 0]), (1, b [1, 0, 1]), (2, b [1, 1])])) := by decide +kernel

/-- V43.1 and V43.17. -/
theorem test_htGen_edges :
    ((after (.htBuild [7] [1]) State.reset).bind (outcome .htGen)) = some (.ok (.codes [(7, b [0])])) ∧
      outcome .htGen State.reset = some (.refused .noTree) := by decide +kernel

/-! Predictor (V44). -/

/-- V44.1. -/
theorem test_dpFwd :
    (after (.dpFwd 1 3) (holding 3 [5, 0, 255, 7, 255, 0, 9, 0, 255])).map (fun t => flatOf 1 3 t.img) =
      some ([5, 0, 255, 2, 255, -255, 2, -255, 255].map some) := by decide +kernel

/-- R163: a location that holds no value spreads to its right, and to nothing else. -/
theorem test_dpInv_undefined :
    (after (.dpInv 1 3) { holding 3 [1, 1, 1, 2, 2, 2, 3, 3, 3] with
      img := Memory.forget { r := 0, c := 1, k := 0 } (holding 3 [1, 1, 1, 2, 2, 2, 3, 3, 3]).img }).map
      (fun t => flatOf 1 3 t.img) =
      some [some 1, some 1, some 1, none, some 3, some 3, none, some 6, some 6] := by decide +kernel

/-- V44.4: all channels `[1, 2, 3]`. -/
theorem test_dpInv :
    (after (.dpInv 1 3) (holding 3 [1, 1, 1, 2, 2, 2, 3, 3, 3])).map (fun t => flatOf 1 3 t.img) =
      some ([1, 1, 1, 3, 3, 3, 6, 6, 6].map some) := by decide +kernel

/-- R161, R163: the loops over the rows or the columns of a negative shape run for none. -/
theorem test_predictor_negative_shape :
    (after (.dpFwd (-1) 2) (holding 2 [5, 0, 255, 7, 255, 0])).map (fun t => (flatOf 1 2 t.img, t.port.reply)) =
      some ([5, 0, 255, 7, 255, 0].map some, some (.ok .done)) ∧
      (after (.dpInv 1 (-2)) (holding 2 [5, 0, 255, 7, 255, 0])).map (fun t => (flatOf 1 2 t.img, t.port.reply)) =
        some ([5, 0, 255, 7, 255, 0].map some, some (.ok .done)) := by decide +kernel

/-! Encoder (V45). -/

/-- V45.7 and V45.9. -/
theorem test_veHdr :
    (after (.veHdr 65535 1) (writing [])).map (fun t => (t.sink, t.dim)) =
      some ([0xFF, 0xFF, 0x00, 0x01], { h := 65535, w := 1 }) ∧
      (after (.veHdr 1 65536) (writing [])).map (fun t => (t.sink, t.port.reply)) =
        some ([0x00, 0x01], some (.fault .rangeError (65536, 16))) := by decide +kernel

/-- V45.10. -/
theorem test_veTable :
    (after .veTable { writing [] with ct := { entries := codesE1 } }).map (fun t => (t.sink, t.bw.buf)) =
      some ([0x81, 0x08, 0x7F, 0x89, 0x84, 0x87, 0xFF], []) := by decide +kernel

/-- R177: a codeword of 32 bits. -/
theorem test_veTable_long :
    (after .veTable { writing [] with ct := { entries := [(3, List.replicate 32 true)] } }).map
      (fun t => (t.sink, t.bw.buf, t.port.reply)) =
      some ([0x81], b [0], some (.fault .rangeError (32, 5))) := by decide +kernel

/-- V45.11. -/
theorem test_veSym :
    (after (.veSym 0) { writing [] with ct := { entries := codesE1 } }).map (·.bw.buf) = some (b [0, 1]) ∧
      (after (.veSym 7) { writing [] with ct := { entries := codesE1 } }).map (fun t => (t.port.reply, t.st.ref)) =
        some (some (.refused .noCode), 11) := by decide +kernel

/-- The example of R179: 18 bits. -/
theorem test_vePayload :
    (after .vePayload { writing [] with
      ct := { entries := codesE1 }, dim := { h := 2, w := 2 }, img := image 2 residualsE1 }).map
      (fun t => (t.sink, t.bw.buf)) = some ([0xEA, 0xF0], b [0, 0]) := by decide +kernel

/-- R218: refused on a closed writer, also with no sample to write. -/
theorem test_vePayload_closed : outcome .vePayload State.reset = some (.refused .notOpen) := by decide +kernel

/-- E1. -/
theorem test_encode :
    (after (.encode 2 2 true) (holding 2 flatE1)).map
      (fun t => (t.sink, t.port.reply, t.bw.isOpen, flatOf 2 2 t.img)) =
      some (streamE1, some (.ok .done), false, residualsE1.map some) := by decide +kernel

/-- E2. -/
theorem test_encode_range :
    (after (.encode 1 2 true) (holding 2 [0, 0, 0, 256, 0, 0])).map
      (fun t => (t.sink, t.port.reply, t.st.err, t.bw.isOpen)) =
      some ([0x00, 0x01, 0x00, 0x02], some (.fault .sampleRangeError (256, 3)), 2, false) := by decide +kernel

/-- V60.7: the sink fails on the sixth append. -/
theorem test_encode_io :
    (after (.encode 2 2 true) (failing (holding 2 flatE1) [false, false, false, false, false, true])).map
      (fun t => (t.sink, t.port.reply, t.st.err, t.bw)) =
      some ([0x00, 0x02, 0x00, 0x02, 0x81], some (.fault .ioFailure (0, 0)), 4, closedWriter) := by decide +kernel

/-! Decoder (V46). -/

/-- V46.16 and V46.17. -/
theorem test_vdHdr :
    outcome .vdHdr (reading [0x00, 0x02, 0x00, 0x02]) = some (.ok (.dims (some { h := 2, w := 2 }))) ∧
      (after .vdHdr (reading [0x00, 0x02, 0x00])).map (fun t => (t.port.reply, t.st.dec, t.br.exh)) =
        some (some (.ok (.dims none)), .noImage, true) := by decide +kernel

/-- P3: the table of E1, the source's position after it. -/
theorem test_vdTable :
    (after .vdTable { reading streamE1 with src := { bytes := streamE1, pos := 4 } }).map
      (fun t => (t.dt, t.src.pos, t.port.reply)) = some (tableE1, 11, some (.ok .done)) := by decide +kernel

/-- V46.10: the second entry for `"0"` replaces the first. -/
theorem test_vdTable_replaces :
    (after .vdTable (reading [0x80, 0x05, 0x01, 0x0A, 0x04, 0x1F, 0xFD, 0x00])).map (·.dt) =
      some [(b [0], 2), (b [1], 3)] := by decide +kernel

/-- V46.18: the bits `0 1 1`. -/
theorem test_vdSym :
    (after .vdSym { reading [0x60] with dt := tableE1 }).map (fun t => (t.port.reply, t.br.cur)) =
      some (some (.ok (.symbol (some 0))), b [1, 0, 0, 0, 0, 0]) := by decide +kernel

/-- R194: without a match the unmatched bits stay in `vd.acc`. -/
theorem test_vdSym_none :
    (after .vdSym { reading [0x60] with dt := [(b [1, 1], 5)] }).map (fun t => (t.port.reply, t.vd.acc, t.br.exh)) =
      some (some (.ok (.symbol none)), b [0, 1, 1, 0, 0, 0, 0, 0], true) := by decide +kernel

/-- P3: the payload of E1. -/
theorem test_vdPayload :
    (after .vdPayload { reading streamE1 with
      src := { bytes := streamE1, pos := 11 }, dt := tableE1, dim := { h := 2, w := 2 } }).map
      (fun t => (t.port.reply, t.src.pos, t.br.cur, flatOf 2 2 t.img)) =
      some (some (.ok (.count 12)), 14, b [0, 0, 0, 0, 0, 0], residualsE1.map some) := by decide +kernel

/-- V46.2: the first 12 bytes of E1 decode five residuals; the others hold no value. -/
theorem test_vdPayload_short :
    (after .vdPayload { reading (streamE1.take 12) with
      src := { bytes := streamE1.take 12, pos := 11 }, dt := tableE1, dim := { h := 2, w := 2 } }).map
      (fun t => (t.port.reply, t.vd.ndone, t.st.dec, flatOf 2 2 t.img)) =
      some (some (.ok (.count 5)), 5, .short,
        [some 10, some 10, some 10, some 0, some 0, none, none, none, none, none, none, none]) := by decide +kernel

/-- E1 and V46.6: two bytes after the stream are not fetched. -/
theorem test_decode_stream :
    (after (.decode true) (attached (streamE1 ++ [0xAA, 0x55]))).map
      (fun t => (t.port.reply, t.src.pos, flatOf 2 2 t.img)) =
      some (some (.ok (.decoded (some { h := 2, w := 2 }) .complete)), 14, flatE1.map some) := by decide +kernel

/-- V46.4 and V46.5. -/
theorem test_decode_noImage :
    outcome (.decode true) (attached (streamE1.take 7)) = some (.ok (.decoded (some { h := 2, w := 2 }) .noImage)) ∧
      outcome (.decode true) (attached (streamE1.take 3)) = some (.ok (.decoded none .noImage)) := by decide +kernel

/-! Records (R76 to R80). -/

theorem test_header : (after (.header 2 3) State.reset).map (·.dim) = some { h := 2, w := 3 } := by decide +kernel

theorem test_entry :
    (after (.entry 2 (b [0])) { State.reset with dt := [(b [0], 1), (b [1], 3)] }).map (·.dt) =
      some [(b [0], 2), (b [1], 3)] := by decide +kernel

theorem test_sentinel : outcome .sentinel State.reset = some (.ok .done) := by decide +kernel

theorem test_codeword :
    outcome (.codeword (b [0, 1])) { State.reset with dt := tableE1 } = some (.ok (.symbol (some 0))) := by decide +kernel

theorem test_pad : (after (.pad 6) (reading [1])).map (fun t => (t.src.pos, t.br)) = some (0, (reading [1]).br) := by
  decide +kernel

/-! Memory. -/

theorem test_reset_memory : Memory.wf State.reset.img = true ∧ Table.sorted bitsLt State.reset.dt = true := by decide

/-- R44: the requests are taken in order. -/
theorem test_step_takes_first :
    (stepped { State.reset with port := { pending := [.command 0x10 {}, .command 0x12 {}], reply := none } }).map
      (fun t => (t.bw.isOpen, t.port.pending)) = some (true, [.command 0x12 {}]) := by decide +kernel

/-! Witnesses: for every statement with hypotheses a state and operands that meet them, one for each clause, at an edge of its
range where it has one. -/

theorem witness_DecodeOfEncodeIsTheInstruction :
    Instr.wf (.entry (-255) (List.replicate 31 true)) = true ∧ Instr.wf (.entry 255 []) = true ∧
      Instr.wf (.dpFwd 0 0) = true ∧ Instr.wf (.pad 7) = true ∧ Instr.wf (.codeword [true]) = true ∧
      Instr.wf (.encode (-1) 65536 true) = true := by decide

theorem witness_DecodedRequestIsItsEncoding :
    decode (.record .padding []) = .ok (.pad 0) ∧ decode (.command 0x8F { p := true, n := 5 }) = .ok (.decode true) := by
  decide

theorem witness_ReservedCodesAreRefused :
    (0x90 : Byte).toNat ∉ operationCodes ∧
      (offer (.command 0x90 {}) (faulted State.reset)).port.pending = .command 0x90 {} :: [] := by decide

theorem witness_StepRunsTheDecodedInstruction :
    ((offer (.command 0x10 {}) State.reset).port.pending = .command 0x10 {} :: [] ∧
      decode (.command 0x10 {}) = .ok .bwOpen) ∧
    ((offer (.record .payload []) State.reset).port.pending = .record .payload [] :: [] ∧
      decode (.record .payload []) = .error (.notARecord .payload)) ∧
    State.reset.port.pending = [] := by decide

theorem witness_FaultedBlockRefuses :
    (isRecord .hgClear = false ∧ (faulted State.reset).st.err ≠ 0 ∧ ungated .hgClear = false) ∧
    (isRecord .bwClose = false ∧ ∃ t, exec .bwClose (faulted (writing [])) = .next t) ∧
    (∃ t, exec .hgClear (faulted State.reset) = .next t ∧ (faulted State.reset).st.err ≠ 0) ∧
    ∃ t, exec .htGen State.reset = .next t :=
  ⟨by decide, ⟨by decide, _, rfl⟩, ⟨_, rfl, by decide⟩, _, rfl⟩

theorem witness_OutcomesAreRecorded :
    (∃ t, exec .bwOpen State.reset = .next t ∧ t.says (.ok .done)) ∧
    (∃ t, exec (.fwEnc 1 0) State.reset = .next t ∧ t.says (.fault .rangeError (1, 0)) ∧ State.reset.st.err = 0) ∧
    ∃ t, exec .htGen State.reset = .next t ∧ t.says (.refused .noTree) :=
  ⟨⟨_, rfl, rfl⟩, ⟨_, rfl, rfl, rfl⟩, _, rfl, rfl⟩

theorem witness_InstructionsLeaveOtherPartsAlone :
    (∃ t, State.reset.idleNow ∧ exec .bwOpen State.reset = .next t ∧ Part.sink ∉ touches .bwOpen) ∧
    ∃ t, (reading []).idleNow ∧ exec (.decode true) (attached []) = .next t ∧ Part.sink ∉ touches (.decode true) :=
  ⟨⟨_, rfl, rfl, by decide⟩, _, rfl, rfl, by decide⟩

theorem witness_SinkGrowsAndIsNeverRead : ∃ t, exec (.bwWrite (List.replicate 8 true)) (writing []) = .next t := ⟨_, rfl⟩

theorem witness_SourceAdvancesAndExhaustionSticks :
    (∃ t, exec .brReadBit (reading [5]) = .next t ∧ (reading [5]).src.pos ≤ (reading [5]).src.bytes.length) ∧
    (∃ t, exec .brReadBit State.reset = .next t ∧ State.reset.br.exh = true) ∧
    ∃ t, exec .brReadBit (reading []) = .next t ∧ (reading []).idleNow ∧ (reading []).br.exh = false ∧ t.br.exh = true :=
  ⟨⟨_, rfl, by decide⟩, ⟨_, rfl, rfl⟩, _, rfl, rfl, rfl, rfl⟩

theorem witness_CallsReleaseTheirStreams :
    (State.reset.ready ∧ State.reset.bw.isOpen = false) ∧ State.reset.br.isOpen = false := by decide

/-- A call stands in progress, which no run reaches between operations (R44). -/
def inCall (s : State) : State := { s with seq := { op := .encode, phase := 3 } }

theorem witness_CallsAreRefusedBusyOrOpen :
    ((inCall State.reset).unfaulted ∧ (inCall State.reset).seq.op ≠ .idle) ∧
    ((writing []).unfaulted ∧ (writing []).seq.op = .idle ∧ (writing []).bw.isOpen = true) ∧
    ((reading []).unfaulted ∧ (reading []).seq.op = .idle ∧ (reading []).br.isOpen = true) := by decide

theorem witness_CallsEndAsTheirRulesSay :
    ((holding 2 flatE1).ready ∧ (holding 2 flatE1).bw.isOpen = false ∧
      imageDefined (2 : Int).toNat (2 : Int).toNat (holding 2 flatE1).img) ∧
    ((attached streamE1).ready ∧ (attached streamE1).br.isOpen = false) := by decide +kernel

theorem witness_UnitsNotOpenRefuse :
    (State.reset.ready ∧ State.reset.bw.isOpen = false ∧ State.reset.br.isOpen = false ∧ State.reset.br.exh = true) ∧
    ((writing []).ready ∧ (writing []).bw.isOpen = true) ∧ ((reading []).ready ∧ (reading []).br.isOpen = true) := by decide

theorem witness_OpeningAStream :
    (faulted State.reset).st.err ≠ 0 ∧ ((writing []).ready ∧ (writing []).bw.isOpen = true) ∧
    (State.reset.unfaulted ∧ State.reset.bw.isOpen = false ∧ State.reset.br.isOpen = false) ∧
    ((reading []).ready ∧ (reading []).br.isOpen = true) := by decide

theorem witness_WritingBits :
    (faulted State.reset).st.err ≠ 0 ∧ (State.reset.ready ∧ State.reset.bw.isOpen = false) ∧
    ((writing (b [1, 0, 1, 1, 0, 0, 1])).unfaulted ∧ (writing (b [1, 0, 1, 1, 0, 0, 1])).canWrite) ∧
    ((failing (writing (b [1])) [false, true]).ready ∧ (failing (writing (b [1])) [false, true]).bw.isOpen = true ∧
      (failing (writing (b [1])) [false, true]).bw.buf.length ≤ 7 ∧
      (failing (writing (b [1])) [false, true]).failsAfter 1 [] ∧
      1 < (packBytes ((failing (writing (b [1])) [false, true]).bw.buf ++ List.replicate 15 true)).length) := by
  decide +kernel

theorem witness_ClosingTheWriter :
    (State.reset.idleNow ∧ State.reset.bw.isOpen = false) ∧
    ((writing []).bw.isOpen = true ∧ (writing []).bw.full = none ∧ (writing []).bw.buf = []) ∧
    ((writing (List.replicate 7 true)).bw.isOpen = true ∧ (writing (List.replicate 7 true)).bw.buf ≠ [] ∧
      (writing (List.replicate 7 true)).bw.buf.length ≤ 7 ∧
      (writing (List.replicate 7 true)).ioFail.headD false = false) ∧
    ((failing (faulted (writing [true])) [true]).idleNow ∧ (failing (faulted (writing [true])) [true]).bw.isOpen = true ∧
      (failing (faulted (writing [true])) [true]).bw.buf ≠ [] ∧
      (failing (faulted (writing [true])) [true]).bw.buf.length ≤ 7 ∧
      (failing (faulted (writing [true])) [true]).ioFail.headD false = true) := by decide

theorem witness_WriterLaw :
    State.reset.unfaulted ∧ State.reset.bw.isOpen = false ∧ (failing State.reset [false]).reliable := by decide

theorem witness_IoFailureStopsTheTransfer :
    ((failing (writing []) [true]).ready ∧ (failing (writing []) [true]).bw.isOpen = true ∧
      (failing (writing []) [true]).bw.buf.length ≤ 7 ∧ (failing (writing []) [true]).failsAfter 0 [] ∧
      0 < (packBytes ((failing (writing []) [true]).bw.buf ++ List.replicate 8 true)).length) ∧
    ((holdingByte 0xFF).bw.isOpen = true ∧ (holdingByte 0xFF).bw.full = some 0xFF ∧
      (holdingByte 0xFF).ioFail.headD false = false) ∧
    ((failing (reading [5]) [false, true]).ready ∧ (failing (reading [5]) [false, true]).br.exh = false ∧
      (failing (reading [5]) [false, true]).failsAfter 1 [] ∧
      1 ≤ (failing (reading [5]) [false, true]).src.bytes.length - (failing (reading [5]) [false, true]).src.pos ∧
      (failing (reading [5]) [false, true]).br.cur.length + 8 * 1 < 9) := by decide +kernel

theorem witness_ReadingABit :
    (faulted State.reset).st.err ≠ 0 ∧ (State.reset.unfaulted ∧ State.reset.br.exh = true) ∧
    (∃ s : State, s.unfaulted ∧ s.br.exh = false ∧ s.br.cur = true :: []) ∧
    ((reading [0xA5]).unfaulted ∧ (reading [0xA5]).br.exh = false ∧ (reading [0xA5]).br.cur = [] ∧
      (reading [0xA5]).ioFail.headD false = false ∧ (reading [0xA5]).src.bytes[(reading [0xA5]).src.pos]? = some 0xA5) ∧
    ((reading []).src.bytes.length ≤ (reading []).src.pos ∧ (reading []).ioFail.headD false = false) ∧
    ((failing (reading [0xA5]) [true]).ready ∧ (failing (reading [0xA5]) [true]).ioFail.headD false = true) :=
  ⟨by decide, by decide, ⟨{ State.reset with br := { cur := [true], exh := false, isOpen := true } }, rfl, rfl, rfl⟩,
    by decide, by decide, by decide⟩

theorem witness_ReadingBits :
    ((reading [5]).unfaulted ∧ (reading [5]).canRead ∧ 8 ≤ (unread (reading [5])).length) ∧
    (unread (reading [5])).length < 9 ∧ (State.reset.unfaulted ∧ State.reset.br.exh = true) := by decide +kernel

theorem witness_ReaderLaw :
    ((attached [5]).unfaulted ∧ (attached [5]).br.isOpen = false ∧ (attached [5]).reliable ∧
      7 < 8 * ((attached [5]).src.bytes.length - (attached [5]).src.pos)) ∧
    (attached [0xB0]).src.bytes.drop (attached [0xB0]).src.pos = packBytes (padded (b [1, 0, 1, 1, 0])) := by
  decide +kernel

theorem witness_ClosingTheReader :
    (State.reset.idleNow ∧ State.reset.br.isOpen = false) ∧ (reading []).br.isOpen = true ∧ (reading []).unfaulted := by
  decide

theorem witness_FixedWidthEncode :
    (faulted State.reset).st.err ≠ 0 ∧ (State.reset.unfaulted ∧ (0 : Int) ≤ 15 ∧ (15 : Int) ≤ 2 ^ 4 - 1) ∧
    (State.reset.ready ∧ ((16 : Int) < 0 ∨ (16 : Int) > 2 ^ 4 - 1) ∧ ((-1 : Int) < 0 ∨ (-1 : Int) > 2 ^ 4 - 1)) := by decide

theorem witness_FixedWidthDecode : (faulted State.reset).st.err ≠ 0 ∧ State.reset.unfaulted := by decide

theorem witness_FixedWidthInverse : State.reset.unfaulted ∧ 15 < 2 ^ 4 ∧ 0 < 2 ^ 0 := by decide

theorem witness_CountingSamples :
    (faulted State.reset).st.err ≠ 0 ∧ (State.reset.unfaulted ∧ (-255 : Int) ≤ -255 ∧ (255 : Int) ≤ 255) ∧
    (State.reset.ready ∧ ((-256 : Int) < -255 ∨ (255 : Int) < -256) ∧ ((256 : Int) < -255 ∨ (255 : Int) < 256)) := by decide

theorem witness_EmittingProbabilities :
    (faulted State.reset).st.err ≠ 0 ∧ (State.reset.ready ∧ State.reset.hg.total = 0) ∧
    ∃ s : State, s.unfaulted ∧ s.hg.total ≠ 0 :=
  ⟨by decide, by decide, { State.reset with hg := State.reset.hg.bump 10 }, rfl, by decide⟩

theorem witness_HistogramBuildExpands :
    (faulted State.reset).st.err ≠ 0 ∧ (State.reset.ready ∧ ∀ x ∈ [(-255 : Int), 255], -255 ≤ x ∧ x ≤ 255) ∧
    ((∀ y ∈ [(1 : Int)], -255 ≤ y ∧ y ≤ 255) ∧ ((256 : Int) < -255 ∨ (255 : Int) < 256)) := by decide

theorem witness_HistogramProperties :
    State.reset.ready ∧ [(-255 : Int), 255] ≠ [] ∧
      ∀ x ∈ [(-255 : Int), 255], -255 ≤ x ∧ x ≤ 255 ∧ -255 ≤ x ∧ x ≤ 255 := by decide

theorem witness_HuffmanBuildChecks :
    (State.reset.ready ∧ [(0 : Symbol), 1].length ≠ [(1 : Prob)].length) ∧
    ([(0 : Symbol), 1].length = [(1 : Prob), 0].length ∧ ∃ p ∈ [(1 : Prob), 0], p ≤ 0) ∧
    ([(256 : Symbol)].length = [(1 : Prob)].length ∧ [(256 : Symbol)] ≠ [] ∧ (∀ p ∈ [(1 : Prob)], 0 < p) ∧
      ∃ x ∈ [(256 : Symbol)], x < -255 ∨ 255 < x) ∧
    ([(0 : Symbol), 0].length = [(1 : Prob), 1].length ∧ ¬[(0 : Symbol), 0].Nodup) ∧
    (State.reset.unfaulted ∧ validAlphabet [-255, 255] [1 / 4, 3 / 4]) := by decide +kernel

theorem witness_HuffmanTreeMergesTheLightest :
    State.reset.unfaulted ∧ validAlphabet [7] [1] ∧ validAlphabet [0, 3, 10] [1 / 4, 1 / 4, 1 / 2] := by decide +kernel

/-- The arena of the example of R141. -/
def treeE1 : HuffmanTree where
  node := [.leaf 0 (1 / 4), .leaf 3 (1 / 4), .leaf 10 (1 / 2), .internal (1 / 2) 1 0, .internal 1 3 2]
  nn := 5
  set := [4]
  root := some 4

theorem witness_CodesAreTheLeafPaths :
    (faulted State.reset).st.err ≠ 0 ∧ (State.reset.ready ∧ State.reset.ht.root = none) ∧
    (∃ s : State, s.unfaulted ∧ s.ht.root = some 4 ∧ s.ht.isTree = true ∧ s.ht.node[4]? = some (.internal 1 3 2)) ∧
    ∃ s : State, s.unfaulted ∧ s.ht.root = some 0 ∧ s.ht.isTree = true ∧ s.ht.node[0]? = some (.leaf 7 1) :=
  ⟨by decide, by decide, ⟨{ State.reset with ht := treeE1 }, by decide +kernel⟩,
    { State.reset with ht := { node := [.leaf 7 1], nn := 1, set := [0], root := some 0 } }, by decide +kernel⟩

theorem witness_BuiltCodeIsComplete :
    State.reset.unfaulted ∧ validAlphabet [7] [1] ∧ validAlphabet [0, 1] [3, 1] ∧ [(0 : Symbol), 1].length ≤ [true].length + 1 := by
  decide +kernel

theorem witness_LighterSymbolsAreNotShorter :
    validAlphabet [0, 3, 10] [1 / 4, 1 / 4, 1 / 2] ∧
      ((0 : Symbol), (1 / 4 : Prob)) ∈ [(0 : Symbol), 3, 10].zip [(1 / 4 : Prob), 1 / 4, 1 / 2] ∧
      ((10 : Symbol), (1 / 2 : Prob)) ∈ [(0 : Symbol), 3, 10].zip [(1 / 4 : Prob), 1 / 4, 1 / 2] ∧ (1 / 4 : Prob) < 1 / 2 := by
  decide +kernel

theorem witness_ForwardPrediction :
    (faulted State.reset).st.err ≠ 0 ∧ (holding 2 [5, 0, 255, 7, 255, 0]).unfaulted ∧
    inShape 1 2 { r := 0, c := 2, k := 0 } = false ∧ inShape 1 2 { r := 0, c := 1, k := 2 } = true ∧
    inShape (-1 : Int).toNat 2 { r := 0, c := 1, k := 2 } = false ∧
    residualAt (holding 2 [5, 0, 255, 7, 255, 0]).img { r := 0, c := 1, k := 2 } = some (-255) := by decide +kernel

theorem witness_InversePrediction :
    (faulted State.reset).st.err ≠ 0 ∧ (holding 2 [5, 0, 255, 7, 255, 0]).unfaulted ∧
    inShape 1 2 { r := 1, c := 0, k := 0 } = false ∧ inShape 1 2 { r := 0, c := 1, k := 2 } = true ∧
    rowSum (holding 2 [5, 0, 255, 7, 255, 0]).img 0 2 1 = some 255 := by decide +kernel

theorem witness_PredictionInverseLaw :
    (holding 2 flatE1).unfaulted ∧ imageDefined 2 2 (holding 2 flatE1).img := by decide +kernel

theorem witness_HeaderWriting :
    (State.reset.ready ∧ State.reset.bw.isOpen = false) ∧
    ((writing (List.replicate 7 true)).unfaulted ∧ (writing (List.replicate 7 true)).canWrite ∧ fits16 0 ∧ fits16 65535) ∧
    ((writing []).ready ∧ (writing []).bw.isOpen = true ∧ ¬fits16 65536 ∧ ¬fits16 (-1)) ∧ (writing []).canWrite := by decide

/-- A writer with a code table. -/
def coded (codes : List (Symbol × Bits)) : State := { writing [] with ct := { entries := codes } }

theorem witness_TableWriting :
    (State.reset.ready ∧ State.reset.bw.isOpen = false) ∧
    ((coded [(-255, List.replicate 31 true), (255, b [0])]).unfaulted ∧
      (coded [(-255, List.replicate 31 true), (255, b [0])]).canWrite ∧
      carriable (coded [(-255, List.replicate 31 true), (255, b [0])]).ct.entries = true) ∧
    ((coded [(0, b [0]), (1, List.replicate 32 true)]).ready ∧ (coded [(0, b [0]), (1, List.replicate 32 true)]).canWrite ∧
      (coded [(0, b [0]), (1, List.replicate 32 true)]).ct.entries = [(0, b [0])] ++ (1, List.replicate 32 true) :: [] ∧
      carriable [(0, b [0])] = true ∧ 31 < (List.replicate 32 true).length) := by decide +kernel

theorem witness_SymbolWriting :
    (faulted State.reset).st.err ≠ 0 ∧ (State.reset.ready ∧ State.reset.bw.isOpen = false) ∧
    ((coded codesE1).ready ∧ (coded codesE1).bw.isOpen = true ∧ (coded codesE1).ct.code 7 = none) ∧
    ((coded codesE1).canWrite ∧ (coded codesE1).ct.code 0 = some (b [0, 1])) := by decide +kernel

/-- A writer with the code table and the residuals of example E1, and one more symbol in the last place. -/
def payload (last : Int) : State :=
  { coded codesE1 with dim := { h := 1, w := 2 }, img := image 2 [10, 10, 10, 0, 3, last] }

theorem witness_PayloadWriting :
    ((payload 3).unfaulted ∧ (payload 3).canWrite ∧ imageDefined (payload 3).dim.h.toNat (payload 3).dim.w.toNat (payload 3).img ∧
      ∀ x ∈ codedFlat false (payload 3).dim.h.toNat (payload 3).dim.w.toNat (payload 3).img,
        -255 ≤ x ∧ x ≤ 255 ∧ ((payload 3).ct.code x).isSome = true) ∧
    ((payload 7).ready ∧ (payload 7).canWrite ∧ imageDefined (payload 7).dim.h.toNat (payload 7).dim.w.toNat (payload 7).img ∧
      codedFlat false (payload 7).dim.h.toNat (payload 7).dim.w.toNat (payload 7).img = [10, 10, 10, 0, 3] ++ 7 :: [] ∧
      (∀ y ∈ [(10 : Int), 10, 10, 0, 3], -255 ≤ y ∧ y ≤ 255 ∧ ((payload 7).ct.code y).isSome = true) ∧
      (payload 7).ct.code 7 = none) ∧
    (State.reset.ready ∧ State.reset.bw.isOpen = false) ∧
    ((writing []).unfaulted ∧ (writing []).bw.isOpen = true ∧ (writing []).dim.h = 0) := by decide +kernel

theorem witness_EncodeWritesTheStream :
    (holding 2 flatE1).ready ∧ (holding 2 flatE1).bw.isOpen = false ∧ (holding 2 flatE1).reliable ∧ (2 : BitVec 16) ≠ 0 ∧
      imageDefined (2 : BitVec 16).toNat (2 : BitVec 16).toNat (holding 2 flatE1).img ∧
      (∀ x ∈ codedFlat true (2 : BitVec 16).toNat (2 : BitVec 16).toNat (holding 2 flatE1).img, -255 ≤ x ∧ x ≤ 255) ∧
      ∀ e ∈ codeFor (codedFlat true (2 : BitVec 16).toNat (2 : BitVec 16).toNat (holding 2 flatE1).img),
        e.2.length ≤ 31 := by decide +kernel

theorem witness_HeaderReading :
    ((reading [0, 2, 255, 255]).unfaulted ∧ (reading [0, 2, 255, 255]).canRead ∧
      unread (reading [0, 2, 255, 255]) = headerBits 2 65535 ++ []) ∧
    (unread (reading [0, 2, 0])).length < 32 ∧ (State.reset.unfaulted ∧ State.reset.br.exh = true) := by decide +kernel

theorem witness_TableReading :
    ((reading (streamE1.drop 4)).unfaulted ∧ (reading (streamE1.drop 4)).canRead ∧ carriable codesE1 = true ∧
      unread (reading (streamE1.drop 4)) = tableOf codesE1 ++ (unread (reading (streamE1.drop 4))).drop 56) ∧
    ((reading []).canRead ∧ ∀ es rest, carriable es = true → unread (reading []) ≠ tableOf es ++ rest) ∧
    (State.reset.unfaulted ∧ State.reset.br.exh = true) :=
  ⟨by decide +kernel, ⟨by decide, fun es rest _ h => by
    have := congrArg List.length h
    simp [unread, reading, tableOf, sentinelBits, bitsOf] at this⟩, by decide⟩

/-- A decoder at payload bits. -/
def decoding (bytes : List Byte) : State := { reading bytes with dt := tableE1, dim := { h := 1, w := 1 } }

theorem key_at_two : ShortestKey (Table.get tableE1) (unread (decoding [0x60])) 2 0 :=
  ⟨by decide, by decide +kernel, by decide +kernel, fun j h1 h2 => by
    have : j = 1 := by omega
    subst this; decide +kernel⟩

theorem witness_ShortestKeyIsMatched :
    ((decoding [0x60]).unfaulted ∧ (decoding [0x60]).canRead ∧
      ShortestKey (Table.get (decoding [0x60]).dt) (unread (decoding [0x60])) 2 0) ∧
    ((decoding []).canRead ∧ NoKey (Table.get (decoding []).dt) (unread (decoding []))) ∧
    (State.reset.unfaulted ∧ State.reset.br.exh = true) :=
  ⟨⟨by decide, by decide, key_at_two⟩, ⟨by decide, fun j h1 h2 => by
    have : (unread (decoding [])).length = 0 := by decide +kernel
    omega⟩, by decide⟩

theorem key_at_one {d : Bits → Option Symbol} {u : Bits} {x : Symbol} (hl : 1 ≤ u.length) (h : d (u.take 1) = some x) :
    ShortestKey d u 1 x := ⟨by decide, hl, h, fun j h1 h2 => by omega⟩

/-- The bits `1 1 1` spell three tens. -/
theorem spells_tens :
    Spells (Table.get tableE1) [10, 10, 10] (unread (decoding [0xE0])) 3 :=
  ⟨1, key_at_one (by decide +kernel) (by decide +kernel), by decide, 1,
    key_at_one (by decide +kernel) (by decide +kernel), by decide, 1,
    key_at_one (by decide +kernel) (by decide +kernel), by decide, rfl⟩

theorem witness_PayloadReading :
    ((decoding [0xE0]).unfaulted ∧ (decoding [0xE0]).canRead ∧
      Spells (Table.get (decoding [0xE0]).dt) [10, 10, 10] (unread (decoding [0xE0])) 3 ∧
      [(10 : Symbol), 10, 10].length = (decoding [0xE0]).dim.h.toNat * (decoding [0xE0]).dim.w.toNat * 3) ∧
    ((decoding []).canRead ∧ Spells (Table.get (decoding []).dt) [] (unread (decoding [])) 0 ∧
      NoKey (Table.get (decoding []).dt) ((unread (decoding [])).drop 0) ∧
      ([] : List Symbol).length < (decoding []).dim.h.toNat * (decoding []).dim.w.toNat * 3) ∧
    ∃ s : State, s.unfaulted ∧ s.br.exh = true ∧ s.dim.h ≠ 0 ∧ s.dim.w ≠ 0 :=
  ⟨⟨by decide, by decide, spells_tens, by decide⟩, ⟨by decide, rfl, fun j h1 h2 => by
    have : ((unread (decoding [])).drop 0).length = 0 := by decide +kernel
    omega, by decide⟩, { State.reset with dim := { h := 1, w := 1 } }, by decide⟩

/-- V46.12's kind: one pixel, the table `"1" → 10`, and payload bits. -/
theorem spells_tens_by_entry :
    Spells (lastFor [(10, [true])]) [10, 10, 10] (b [1, 1, 1, 0, 0, 0]) 3 :=
  ⟨1, key_at_one (by decide) (by decide), by decide, 1, key_at_one (by decide) (by decide), by decide, 1,
    key_at_one (by decide) (by decide), by decide, rfl⟩

theorem witness_DecodeCompletes :
    ∃ s : State, s.ready ∧ s.br.isOpen = false ∧ s.reliable ∧ carriable [(10, [true])] = true ∧
      sourceBits s = headerBits 1 1 ++ (tableOf [(10, [true])] ++ b [1, 1, 1, 0, 0, 0, 0, 0]) ∧
      Spells (lastFor [(10, [true])]) [10, 10, 10] (b [1, 1, 1, 0, 0, 0, 0, 0]) 3 ∧
      [(10 : Symbol), 10, 10].length = (1 : BitVec 16).toNat * (1 : BitVec 16).toNat * 3 :=
  ⟨attached [0x00, 0x01, 0x00, 0x01, 0x84, 0x87, 0xFF, 0xE0], by decide, rfl, by decide, by decide, by decide +kernel,
    ⟨1, key_at_one (by decide) (by decide), by decide, 1, key_at_one (by decide) (by decide), by decide, 1,
      key_at_one (by decide) (by decide), by decide, rfl⟩, by decide⟩

theorem witness_DecodeStopsAtTheEndOfData :
    ((attached []).ready ∧ (attached []).br.isOpen = false ∧ (attached []).reliable ∧ (sourceBits (attached [])).length < 32) ∧
    (sourceBits (attached [0x00, 0x01, 0x00, 0x01]) = headerBits 1 1 ++ [] ∧
      ∀ es rest, carriable es = true → ([] : Bits) ≠ tableOf es ++ rest) ∧
    (sourceBits (attached [0x00, 0x01, 0x00, 0x01, 0x84, 0x87, 0xFF]) = headerBits 1 1 ++ (tableOf [(10, [true])] ++ []) ∧
      Spells (lastFor [(10, [true])]) [] [] 0 ∧ NoKey (lastFor [(10, [true])]) (([] : Bits).drop 0) ∧
      ([] : List Symbol).length < (1 : BitVec 16).toNat * (1 : BitVec 16).toNat * 3) :=
  ⟨by decide +kernel, ⟨by decide +kernel, fun es rest _ h => by
    have := congrArg List.length h
    simp [tableOf, sentinelBits, bitsOf] at this⟩, by decide +kernel, rfl, fun j h1 h2 => by simp at h2; omega, by decide⟩

theorem witness_RecordsLoadTheDecoder :
    (isRecord (.pad 0) = true ∧ (faulted State.reset).st.err ≠ 0) ∧ State.reset.unfaulted ∧
    ((decoding []).unfaulted ∧ ShortestKey (Table.get (decoding []).dt) [true] 1 10) ∧
    NoKey (Table.get (decoding []).dt) [false] :=
  ⟨by decide, by decide, ⟨by decide, key_at_one (by decide) (by decide +kernel)⟩, fun j h1 h2 => by
    have : j = 1 := by simp at h2; omega
    subst this; decide +kernel⟩

theorem witness_DecoderRunsTheRecords :
    ((reading [0, 2, 0, 3]).unfaulted ∧ (reading [0, 2, 0, 3]).canRead ∧ unread (reading [0, 2, 0, 3]) = headerBits 2 3 ++ []) ∧
    ((reading (streamE1.drop 4)).canRead ∧ carriable codesE1 = true ∧
      unread (reading (streamE1.drop 4)) = tableOf codesE1 ++ (unread (reading (streamE1.drop 4))).drop 56) ∧
    ShortestKey (Table.get (decoding [0x60]).dt) (unread (decoding [0x60])) 2 0 :=
  ⟨by decide +kernel, by decide +kernel, key_at_two⟩

theorem witness_RoundTrip :
    ((holding 2 flatE1).ready ∧ (holding 2 flatE1).bw.isOpen = false ∧ (holding 2 flatE1).reliable ∧ (2 : BitVec 16) ≠ 0 ∧
      imageDefined (2 : BitVec 16).toNat (2 : BitVec 16).toNat (holding 2 flatE1).img ∧
      (∀ x ∈ codedFlat false (2 : BitVec 16).toNat (2 : BitVec 16).toNat (holding 2 flatE1).img, -255 ≤ x ∧ x ≤ 255) ∧
      ∀ e ∈ codeFor (codedFlat false (2 : BitVec 16).toNat (2 : BitVec 16).toNat (holding 2 flatE1).img),
        e.2.length ≤ 31) ∧
    ((attached streamE1).ready ∧ (attached streamE1).br.isOpen = false ∧ (attached streamE1).reliable ∧
      (attached streamE1).src.bytes.drop (attached streamE1).src.pos = streamE1 ++ []) := by decide +kernel

theorem witness_ResetMeetsTheInvariant :
    ∃ e : Environment, e.img ≠ [] ∧ Memory.wf e.img = true ∧ e.src.pos = 1 ∧ e.src.pos ≤ e.src.bytes.length :=
  ⟨{ img := [({ r := 0, c := 0, k := 0 }, 7)], src := { bytes := [5], pos := 1 } }, by decide, by decide, rfl, by decide⟩

theorem witness_StepsKeepTheRegistersForms :
    (MapsOk State.reset ∧ StreamsOk State.reset ∧ SequencerOk State.reset) ∧
    (MapsOk (offer (.command 0x10 {}) State.reset) ∧ StreamsOk (offer (.command 0x10 {}) State.reset) ∧
      SequencerOk (offer (.command 0x10 {}) State.reset) ∧ ∃ t, step (offer (.command 0x10 {}) State.reset) = .next t) ∧
    (HistogramOk (offer (.command 0x41 { s := 5 }) State.reset) ∧
      ∃ t, step (offer (.command 0x41 { s := 5 }) State.reset) = .next t) :=
  ⟨by decide +kernel, ⟨by decide +kernel, by decide +kernel, by decide +kernel, _, rfl⟩, by decide +kernel, _, rfl⟩

theorem witness_StepsKeepATree :
    ∃ s t, TreeOk s ∧ s.ht.root = some 4 ∧ step (offer (.command 0x51 {}) s) = .next t :=
  ⟨{ State.reset with ht := treeE1 }, _, by decide +kernel, rfl, rfl⟩

/-! The row of R185 for a codeword over 31 bits needs an image whose counts are the first 33 Fibonacci numbers (R156): 1754 by
1754 pixels, too large to be written out, so its flat sequence is given by runs. -/

/-- The runs of equal samples: 33 symbols, their counts Fibonacci numbers, the last one filled up to the image's size. -/
def runs : List (Int × Nat) :=
  [(0, 1), (1, 1), (2, 2), (3, 3), (4, 5), (5, 8), (6, 13), (7, 21), (8, 34), (9, 55), (10, 89), (11, 144), (12, 233),
    (13, 377), (14, 610), (15, 987), (16, 1597), (17, 2584), (18, 4181), (19, 6765), (20, 10946), (21, 17711)] ++
  [(22, 28657), (23, 46368), (24, 75025), (25, 121393), (26, 196418), (27, 317811), (28, 514229), (29, 832040),
    (30, 1346269), (31, 2178309), (32, 3526662)]

/-- The samples of the image, flat. -/
def flatLong : List Int := runs.flatMap fun e => List.replicate e.2 e.1

/-- How often a symbol stands in the runs. -/
def runCount (x : Int) : Nat := (runs.map fun e => if e.1 = x then e.2 else 0).sum

/-- Image memory from the samples at its flat indices. -/
def imageFrom (w n : Nat) (f : Nat → Sample) : List (Loc × Sample) := (List.range n).map fun i => (flatLoc w i, f i)

/-- The sample at a flat index. -/
def sampleLong (i : Nat) : Sample := flatLong.getD i 0

/-- The state that holds the image. -/
def holdingLong : State := { State.reset with img := imageFrom 1754 9229548 sampleLong }

theorem flatLong_length : flatLong.length = 9229548 := by
  have : (runs.map fun e => e.2).sum = 9229548 := by decide +kernel
  rw [← this]; simp [flatLong, List.length_flatMap]

theorem flatLong_count (x : Int) : flatLong.count x = runCount x := by
  simp only [flatLong, runCount, List.count_flatMap, Function.comp_def, List.count_replicate, beq_iff_eq]

/-- Looking up a key in a table made from distinct keys. -/
theorem get_map {κ ν : Type} [DecidableEq κ] (g : Nat → κ) (f : Nat → ν) (l : List Nat) (j : Nat) (hj : j ∈ l)
    (hg : ∀ i ∈ l, g i = g j → i = j) : Table.get (l.map fun i => (g i, f i)) (g j) = some (f j) := by
  induction l with
  | nil => simp at hj
  | cons i rest ih =>
    simp only [List.map_cons, Table.get]
    split
    · next h => rw [hg i List.mem_cons_self h]
    · next h =>
      have : j ≠ i := fun e => h (by rw [e])
      exact ih ((List.mem_cons.mp hj).resolve_left this) fun k hk => hg k (List.mem_cons_of_mem _ hk)

theorem read_imageFrom {w n i : Nat} (f : Nat → Sample) (hw : 0 < w) (h : i < n) :
    Memory.read (imageFrom w n f) (flatLoc w i) = some (f i) :=
  get_map (flatLoc w) f (List.range n) i (List.mem_range.mpr h) fun k _ hk => by
    rw [← flatIndex_flatLoc hw k, hk, flatIndex_flatLoc hw]

theorem holdingLong_img : holdingLong.img = imageFrom 1754 9229548 sampleLong := by unfold holdingLong; with_reducible rfl

theorem holdingLong_read {i : Nat} (h : i < 9229548) :
    Memory.read holdingLong.img (flatLoc 1754 i) = some (sampleLong i) := by
  rw [holdingLong_img]; exact @read_imageFrom 1754 9229548 i sampleLong (by norm_num) h

theorem holdingLong_defined : imageDefined 1754 1754 holdingLong.img := by
  intro r hr c hc k hk
  have hs : inShape 1754 1754 { r := r, c := c, k := k } = true := by simp [inShape, hr, hc, hk]
  have := holdingLong_read (flatIndex_lt hs)
  rw [flatLoc_flatIndex hc hk] at this
  simp [this]

theorem codedFlat_of_read {h w n : Nat} {m : List (Loc × Sample)} {f : Nat → Sample} (hn : h * w * 3 = n)
    (hm : ∀ i, i < n → Memory.read m (flatLoc w i) = some (f i)) : codedFlat false h w m = (List.range n).map f := by
  subst hn
  exact List.map_congr_left fun i hi => by
    simp [codedAt, sampleAt, hm i (by simpa [sampleCount, Config.channels] using hi)]

theorem range_getD {n : Nat} (l : List Int) (h : l.length = n) : (List.range n).map (fun i => l.getD i 0) = l := by
  subst h
  exact List.ext_getElem (by simp) fun i h1 h2 => by simp [List.getD, List.getElem?_eq_getElem h2]

theorem holdingLong_flat : codedFlat false 1754 1754 holdingLong.img = flatLong :=
  (codedFlat_of_read (by norm_num) fun i hi => holdingLong_read hi).trans (range_getD flatLong flatLong_length)

/-- The code of the image. -/
theorem holdingLong_code : codeFor flatLong =
    codesOf (buildTree (allSymbols.filter fun x => decide (0 < runCount x))
      ((allSymbols.filter fun x => decide (0 < runCount x)).map fun x => mkRat (runCount x) 9229548)) := by
  have h : ∀ x, flatLong.contains x = decide (0 < runCount x) := fun x => by
    rw [← flatLong_count, Bool.eq_iff_iff]; simp [List.count_pos_iff]
  simp only [codeFor, empirical, h, flatLong_count, flatLong_length, List.map_map, Function.comp_def, List.map_id']

/-- The code of the image, from its counts. -/
def codesLong : List (Symbol × Bits) :=
  codesOf (buildTree (allSymbols.filter fun x => decide (0 < runCount x))
    ((allSymbols.filter fun x => decide (0 < runCount x)).map fun x => mkRat (runCount x) 9229548))

theorem side_toNat : (1754 : BitVec 16).toNat = 1754 := by decide

theorem long_codable : ∀ y ∈ flatLong, -255 ≤ y ∧ y ≤ 255 := by
  intro y hy
  obtain ⟨e, he, hy⟩ := List.mem_flatMap.mp hy
  have hr : ∀ e ∈ runs, -255 ≤ e.1 ∧ e.1 ≤ 255 := by decide
  rw [(List.mem_replicate.mp hy).2]; exact hr e he

theorem codesLong_row : codesLong = codesLong.take 30 ++ (1, List.replicate 30 true ++ [false, false]) :: codesLong.drop 31 ∧
    (∀ e ∈ codesLong.take 30, e.2.length ≤ 31) := by decide +kernel

theorem witness_EncodeFailures_long :
    holdingLong.ready ∧ holdingLong.bw.isOpen = false ∧ holdingLong.reliable ∧ (1754 : BitVec 16) ≠ 0 ∧
      imageDefined (1754 : BitVec 16).toNat (1754 : BitVec 16).toNat holdingLong.img ∧
      (∀ y ∈ codedFlat false (1754 : BitVec 16).toNat (1754 : BitVec 16).toNat holdingLong.img, -255 ≤ y ∧ y ≤ 255) ∧
      codeFor (codedFlat false (1754 : BitVec 16).toNat (1754 : BitVec 16).toNat holdingLong.img) =
        codesLong.take 30 ++ (1, List.replicate 30 true ++ [false, false]) :: codesLong.drop 31 ∧
      (∀ e ∈ codesLong.take 30, e.2.length ≤ 31) ∧ 31 < (List.replicate 30 true ++ [false, false]).length := by
  rw [side_toNat, holdingLong_flat, holdingLong_code]
  exact ⟨⟨rfl, rfl⟩, rfl, rfl, by decide, holdingLong_defined, long_codable, codesLong_row.1, codesLong_row.2, by decide⟩

theorem witness_EncodeFailures :
    (State.reset.ready ∧ State.reset.bw.isOpen = false ∧ ¬fits16 65536 ∧ ¬fits16 (-1)) ∧
    (State.reset.reliable ∧ fits16 0 ∧ fits16 65535) ∧
    ((holding 2 [0, 0, 0, 256, 0, 0]).ready ∧ (holding 2 [0, 0, 0, 256, 0, 0]).bw.isOpen = false ∧
      (holding 2 [0, 0, 0, 256, 0, 0]).reliable ∧
      imageDefined (1 : BitVec 16).toNat (2 : BitVec 16).toNat (holding 2 [0, 0, 0, 256, 0, 0]).img ∧
      codedFlat true (1 : BitVec 16).toNat (2 : BitVec 16).toNat (holding 2 [0, 0, 0, 256, 0, 0]).img =
        [0, 0, 0] ++ 256 :: [0, 0] ∧ (∀ y ∈ [(0 : Int), 0, 0], -255 ≤ y ∧ y ≤ 255) ∧ (255 : Int) < 256) ∧
    ((failing (holding 2 flatE1) [false, true]).ready ∧ (failing (holding 2 flatE1) [false, true]).bw.isOpen = false ∧
      (failing (holding 2 flatE1) [false, true]).failsAfter 1 [] ∧
      imageDefined (2 : BitVec 16).toNat (2 : BitVec 16).toNat (failing (holding 2 flatE1) [false, true]).img ∧
      1 < (packBytes (padded (streamBits 2 2 (codeFor (codedFlat true 2 2 (holding 2 flatE1).img))
        (codedFlat true 2 2 (holding 2 flatE1).img)))).length) := by decide +kernel

end Sys2Proof.Tests
end

/-! Every instruction ends in a next state with an outcome (00_scope.md R16): each way an operation can end reports on the
command port, so that an instruction reports whatever its body does. `HT.GEN` alone has an ending beside these. -/

namespace Sys2Proof.Machine

/-- The answer is a next state whose port holds an outcome (R16, R44). -/
def Reports (a : Answer) : Prop := ∃ t, a = .next t ∧ t.port.reply.isSome = true

theorem reports_reply (r : Reply) (s : State) : Reports (.next (reply r s)) := ⟨_, rfl, rfl⟩

/-- Going on and stopping for a cause both end with a reply (R16, R222). -/
theorem reports_deliver (e : Ending Result) : Reports (deliver e) := by
  cases e with
  | ok r s => exact reports_reply (.ok r) s
  | stop c s => exact reports_reply c.reply (abort c s)

theorem reports_refuseAtGate (r : RefuseKind) (s : State) : Reports (refuseAtGate r s) := reports_reply (.refused r) _

/-- The closed gate answers by itself (R226), so only the open one asks anything of the body. -/
theorem reports_gate {body : State → Answer} {s : State} (h : s.st.err = 0 → Reports (body s)) :
    Reports (gate body s) := by
  by_cases h0 : s.st.err = 0
  · rw [gate_open h0]; exact h h0
  · exact ⟨_, gate_closed h0, rfl⟩

theorem reports_issue (body : Op Result) (s : State) : Reports (issue body s) :=
  reports_gate fun _ => reports_deliver (body s)

theorem reports_execSysReset (s : State) : Reports (execSysReset s) := reports_deliver _

theorem reports_execSysStatus (s : State) : Reports (execSysStatus s) := reports_deliver _

theorem reports_execCodeword (cw : Bits) (s : State) : Reports (execCodeword cw s) := reports_issue _ s

theorem reports_execEncode (h w : Int) (p : Bool) (s : State) : Reports (execEncode h w p s) := by
  refine reports_gate fun _ => ?_
  split_ifs
  · exact reports_refuseAtGate .busy s
  · exact reports_refuseAtGate .alreadyOpen s
  · exact reports_deliver _

theorem reports_execDecode (p : Bool) (s : State) : Reports (execDecode p s) := by
  refine reports_gate fun _ => ?_
  split_ifs
  · exact reports_refuseAtGate .busy s
  · exact reports_refuseAtGate .alreadyOpen s
  · exact reports_deliver _

/-- `HT.GEN` behind the open gate stops the model on an arena that is no tree. -/
theorem execHtGen_brokenTree {s : State} (h0 : s.st.err = 0) (hb : s.ht.root ≠ none ∧ s.ht.isTree = false) :
    execHtGen s = .fault .brokenTree := by
  rw [execHtGen, gate_open h0, if_pos hb]

/-- On every other arena, and behind the closed gate, `HT.GEN` reports. -/
theorem reports_execHtGen {s : State} (h : s.st.err = 0 → ¬(s.ht.root ≠ none ∧ s.ht.isTree = false)) :
    Reports (execHtGen s) := by
  refine reports_gate fun h0 => ?_
  rw [if_neg (h h0)]
  exact reports_deliver _

/-- The four operations that pass the gate deliver, a call begins behind checks of its own, `HT.GEN` is set apart, and every
other instruction is issued (R226). -/
theorem reports_exec {i : Instr} (hi : i ≠ .htGen) (s : State) : Reports (exec i s) := by
  cases i with
  | sysReset => exact reports_execSysReset s
  | sysStatus => exact reports_execSysStatus s
  | bwClose | brClose => exact reports_deliver _
  | encode h w p => exact reports_execEncode h w p s
  | decode p => exact reports_execDecode p s
  | htGen => exact absurd rfl hi
  | codeword cw => exact reports_execCodeword cw s
  | _ => exact reports_issue _ s

/-- Settles O10: `HT.GEN` on an unfaulted block whose arena is no tree is the exception, and everything else reports. -/
theorem everyInstructionAnswers : Obligations.EveryInstructionAnswers := by
  intro i s
  by_cases hi : i = .htGen
  · subst hi
    by_cases hb : s.st.err = 0 ∧ s.ht.root ≠ none ∧ s.ht.isTree = false
    · obtain ⟨h0, hroot, htree⟩ := hb
      exact .inr ⟨rfl, h0, hroot, htree, execHtGen_brokenTree h0 ⟨hroot, htree⟩⟩
    · exact .inl (reports_execHtGen fun h0 h => hb ⟨h0, h⟩)
  · exact .inl (reports_exec hi s)

end Sys2Proof.Machine

/-! What the lines of pseudocode do to the state. An `Act` names one kind of line that writes something, `Move` says what such a
line can change, and `Op.Acts` says of a piece of pseudocode that it is made of such lines: it moves by them alone, however
it ends, and it never reads the sink. Each operation is looked at once, below; what every instruction keeps is then a
matter of single moves. -/

namespace Sys2Proof.Machine

/-! The sink in hand. -/

/-- The state with bytes that stood in the sink before its own. -/
def State.behind (p : List Byte) (s : State) : State := s.withSink (p ++ s.sink)

/-- The same, for how a piece of pseudocode ends. -/
def Ending.behind {α : Type} (p : List Byte) : Ending α → Ending α
  | .ok a t => .ok a (t.behind p)
  | .stop c t => .stop c (t.behind p)

/-- The same, for what a step answers. -/
def behindAnswer (p : List Byte) : Answer → Answer
  | .next t => .next (t.behind p)
  | .fault f => .fault f
  | .refused r => .refused r

/-- The pseudocode does the same whatever bytes stand in the sink before it (R42). -/
def Op.Blind {α : Type} (m : Op α) : Prop := ∀ p s, m (s.behind p) = (m s).behind p

theorem blind_andThen {α β : Type} {m : Op α} {f : α → Op β} (hm : m.Blind)
    (hf : ∀ a s t, m s = .ok a t → (f a).Blind) : (m.andThen f).Blind := by
  intro p s
  simp only [Op.andThen, hm p s]
  cases h : m s with
  | ok a t => exact hf a s t h p t
  | stop c t => rfl

theorem blind_assign {f : State → State} (h : ∀ p s, f (s.behind p) = (f s).behind p) : (assign f).Blind := fun p s => by
  rw [assign_apply, assign_apply, h]; rfl

theorem blind_next {α β : Type} {m : Op α} {f : Op β} (hm : m.Blind) (hf : f.Blind) : (m.next f).Blind :=
  blind_andThen hm fun _ _ _ _ => hf

theorem blind_sinkAppend (b : Byte) : (sinkAppend b).Blind := by
  intro p s
  rcases sinkAppend_cases b s with ⟨h, e⟩ | ⟨h, e⟩
  · rw [e]; exact if_pos h
  · have hp : p ++ (s.sink ++ [b]) = (p ++ s.sink) ++ [b] := (List.append_assoc _ _ _).symm
    rw [e]
    simp only [Ending.behind, State.behind, withSink_fields, hp]
    exact if_neg (Bool.eq_false_iff.mp h)

theorem blind_flushByte (b : Byte) : (flushByte b).Blind := by
  rw [flushByte]
  exact blind_next (blind_assign fun _ _ => rfl) (blind_next (blind_sinkAppend b) (blind_assign fun _ _ => rfl))

theorem blind_pushBit (b : Bool) : (pushBit b).Blind := by
  intro p s
  by_cases h : (s.bw.buf ++ [b]).length = 8
  · rw [pushBit_full b h, ← blind_flushByte]; exact if_pos h
  · rw [pushBit_short b h]; exact if_neg h

theorem blind_closeWriter : closeWriter.Blind := by
  intro p s
  have hb : (s.behind p).bw = s.bw := rfl
  simp only [closeWriter, hb]
  cases s.bw.lastByte with
  | none => rfl
  | some b =>
    simp only [blind_sinkAppend b p s]
    cases sinkAppend b s <;> rfl

theorem blind_srcNext : srcNext.Blind := by
  intro p s
  have hs : (s.behind p).src = s.src := rfl
  have hio : ioFailsNow (s.behind p) = ioFailsNow s := rfl
  simp only [srcNext, hs, hio]
  cases ioFailsNow s with
  | true => rfl
  | false => cases s.src.bytes[s.src.pos]? <;> rfl

theorem blind_takeBit : takeBit.Blind := by
  intro p s
  have hb : (s.behind p).br = s.br := rfl
  simp only [takeBit, hb]
  cases s.br.cur <;> rfl

theorem blind_readBit : readBit.Blind := by
  intro p s
  by_cases he : s.br.exh = true
  · rw [readBit_exhausted he]; exact readBit_exhausted he
  rw [Bool.not_eq_true] at he
  rcases hc : s.br.cur with _ | ⟨c, cs⟩
  · rw [readBit_refill he hc]
    refine (readBit_refill (s := s.behind p) he hc).trans (blind_andThen blind_srcNext (fun a _ _ _ => ?_) p s)
    cases a with
    | none => exact blind_next (blind_assign fun _ _ => rfl) fun _ _ => rfl
    | some b => exact blind_next (blind_assign fun _ _ => rfl) blind_takeBit
  · rw [readBit_inHand he hc]; exact readBit_inHand he hc

/-! The acts and their moves. -/

/-- The kinds of lines that write. -/
inductive Act where
  /-- Bits go through the writer to the sink. -/
  | write
  /-- A completed byte stays in the writer, its append having failed. -/
  | jam
  | openWriter | closeWriter
  /-- Bits are taken from the reader and bytes from the source. -/
  | read
  | openReader | closeReader
  | count | build | generate
  /-- The decode table loses its entries or gains one that a stream can carry. -/
  | table
  /-- The decode table gains an entry, whatever it is. -/
  | entry (x : Symbol) (cw : Bits)
  | vd | dim | cfg | dec | img | draw
  | begin | phase | idle

/-- The decode table is sorted and holds what a stream can carry. -/
abbrev TableOk (d : List (Bits × Symbol)) : Prop :=
  Table.sorted bitsLt d = true ∧ (d.all fun e => decide (e.1.length ≤ Config.lenMax) && isCodable e.2) = true

/-- What a line of each kind can do. -/
inductive Move : Act → State → State → Prop
  | write (s : State) (io : List Bool) (bytes : List Byte) (v : BitWriter)
      (hbuf : s.bw.buf.length ≤ 7 → v.buf.length ≤ 7) (hfull : s.bw.full = none → v.full = none) :
      Move .write s (((s.withIoFail io).withSink (s.sink ++ bytes)).withBw v)
  | jam (s : State) (io : List Bool) (b : Byte) :
      Move .jam s ((s.withIoFail io).withBw { s.bw with buf := [], full := some b })
  | openWriter (s : State) : Move .openWriter s (s.withBw { buf := [], isOpen := true })
  | closeWriter (s : State) (io : List Bool) (bytes : List Byte) :
      Move .closeWriter s (((s.withIoFail io).withSink (s.sink ++ bytes)).withBw closedWriter)
  | read (s : State) (io : List Bool) (pos : Nat) (v : BitReader) (hpos : s.src.pos ≤ pos)
      (hend : s.src.pos ≤ s.src.bytes.length → pos ≤ s.src.bytes.length) (hopen : v.isOpen = s.br.isOpen)
      (hcur : s.br.cur.length ≤ 8 → v.cur.length ≤ 8) (hstay : s.br.exh = true → v.exh = true)
      (hexh : v.exh = true → s.br.exh = true ∨ s.src.bytes.length ≤ pos) :
      Move .read s (((s.withIoFail io).withSrc { s.src with pos := pos }).withBr v)
  | openReader (s : State) : Move .openReader s (s.withBr { cur := [], exh := false, isOpen := true })
  | closeReader (s : State) : Move .closeReader s (s.withBr closedReader)
  | count (s : State) (v : Histogram) (h : s.hg.total = s.hg.count.toList.sum → v.total = v.count.toList.sum) :
      Move .count s (s.withHg v)
  | build (s : State) (xs : List Symbol) (ps : List Prob) (h : validAlphabet xs ps) :
      Move .build s (s.withHt (buildTree xs ps))
  | generate (s : State) (h : s.ht.root ≠ none) : Move .generate s (s.withCt { entries := codesOf s.ht })
  | table (s : State) (d : List (Bits × Symbol)) (h : TableOk s.dt → TableOk d) : Move .table s (s.withDt d)
  | entry (s : State) (x : Symbol) (cw : Bits) : Move (.entry x cw) s (insertEntry x cw s)
  | vd (s : State) (v : Decoder) : Move .vd s (s.withVd v)
  | dim (s : State) (v : Dims) : Move .dim s (s.withDim v)
  | cfg (s : State) (v : Cfg) : Move .cfg s (s.withCfg v)
  | dec (s : State) (d : DecStatus) : Move .dec s (setDec d s)
  | img (s : State) (m : List (Loc × Sample)) (h : Memory.wf s.img = true → Memory.wf m = true) : Move .img s (s.withImg m)
  | draw (s : State) (n : Nat) : Move .draw s (s.withDraws n)
  | phase (s : State) (p : Nat) : Move .phase s (s.withSeq { s.seq with phase := p })
  | begin (s : State) (op : SeqOp) : Move .begin s (s.withSeq { op := op, phase := 1 })
  | idle (s : State) : Move .idle s (Machine.idle s)

/-- Some moves of these kinds, one after the other. -/
abbrev Moves (as : List Act) : State → State → Prop := Relation.ReflTransGen fun s t => ∃ a ∈ as, Move a s t

theorem moves_one {as : List Act} {a : Act} {s t : State} (ha : a ∈ as) (h : Move a s t) : Moves as s t :=
  .single ⟨a, ha, h⟩

theorem moves_mono {as bs : List Act} (hab : as ⊆ bs) {s t : State} (h : Moves as s t) : Moves bs s t :=
  Relation.ReflTransGen.mono (fun _ _ ⟨a, ha, hm⟩ => ⟨a, hab ha, hm⟩) _ _ h

/-- What every move keeps, any number of them keep. -/
theorem moves_carry {R : State → State → Prop} (hR : Carries R) {as : List Act}
    (h : ∀ a ∈ as, ∀ s t, Move a s t → R s t) {s t : State} (hst : Moves as s t) : R s t := by
  induction hst with
  | refl => exact hR.refl _
  | tail _ hm ih => obtain ⟨a, ha, hm⟩ := hm; exact hR.trans _ _ _ ih (h a ha _ _ hm)

/-- Where a piece of pseudocode that stops has come to: the last thing before a fault may be the failed append of a completed
byte (R221). -/
def Stopped (as : List Act) (c : Cause) (s t : State) : Prop :=
  Moves as s t ∨ Act.write ∈ as ∧ (∃ e info, c = .fault e info) ∧ ∃ u, Moves as s u ∧ Move .jam u t

theorem stopped_after {as : List Act} {c : Cause} {s t u : State} (hst : Moves as s t) (h : Stopped as c t u) :
    Stopped as c s u := by
  rcases h with h | ⟨hw, hc, v, hv, hj⟩
  · exact .inl (hst.trans h)
  · exact .inr ⟨hw, hc, v, hst.trans hv, hj⟩

/-- What every move keeps and a failed append too, a piece of pseudocode that stops keeps. -/
theorem stopped_carry {R : State → State → Prop} (hR : Carries R) {as : List Act}
    (h : ∀ a ∈ as, ∀ s t, Move a s t → R s t) (hj : Act.write ∈ as → ∀ s t, Move .jam s t → R s t) {c : Cause} {s t : State}
    (hst : Stopped as c s t) : R s t := by
  rcases hst with hm | ⟨hw, -, u, hm, hjam⟩
  · exact moves_carry hR h hm
  · exact hR.trans _ _ _ (moves_carry hR h hm) (hj hw _ _ hjam)

/-- The pseudocode is made of lines of these kinds, and never reads the sink. -/
structure Op.Acts {α : Type} (as : List Act) (m : Op α) : Prop where
  ok : ∀ s a t, m s = .ok a t → Moves as s t
  stop : ∀ s c t, m s = .stop c t → Stopped as c s t
  blind : m.Blind

section acts

variable {as : List Act}

/-! How pseudocode is put together. -/

theorem acts_give {α : Type} (a : α) : (give a).Acts as where
  ok s b t h := by cases h; exact .refl
  stop s c t h := by cases h
  blind _ _ := rfl

theorem acts_raise {α : Type} (e : FaultKind) (info : Int × Int) : (raise e info : Op α).Acts as where
  ok s b t h := by cases h
  stop s c t h := by cases h; exact .inl .refl
  blind _ _ := rfl

theorem acts_refuse {α : Type} (r : RefuseKind) : (refuse r : Op α).Acts as where
  ok s b t h := by cases h
  stop s c t h := by cases h; exact .inl .refl
  blind _ _ := rfl

/-- One line and the rest, where the rest may count on how the line came by its value. -/
theorem acts_andThen_of {α β : Type} {m : Op α} {f : α → Op β} (hm : m.Acts as)
    (hf : ∀ a s t, m s = .ok a t → (f a).Acts as) : (m.andThen f).Acts as where
  ok s b t h := by
    obtain ⟨a, u, hu, hb⟩ := andThen_eq_ok h
    exact (hm.ok s a u hu).trans ((hf a s u hu).ok u b t hb)
  stop s c t h := by
    rcases andThen_eq_stop h with h | ⟨a, u, hu, hb⟩
    · exact hm.stop s c t h
    · exact stopped_after (hm.ok s a u hu) ((hf a s u hu).stop u c t hb)
  blind := blind_andThen hm.blind fun a s t h => (hf a s t h).blind

theorem acts_andThen {α β : Type} {m : Op α} {f : α → Op β} (hm : m.Acts as) (hf : ∀ a, (f a).Acts as) :
    (m.andThen f).Acts as := acts_andThen_of hm fun a _ _ _ => hf a

theorem acts_next {α β : Type} {m : Op α} {f : Op β} (hm : m.Acts as) (hf : f.Acts as) : (m.next f).Acts as :=
  acts_andThen hm fun _ => hf

theorem acts_done {α : Type} {m : Op α} (hm : m.Acts as) : m.done.Acts as := acts_andThen hm fun _ => acts_give _

/-- A line that looks at the state first, but not at the sink. -/
theorem acts_look {α β : Type} (g : State → β) (hg : ∀ p s, g (s.behind p) = g s) {f : β → Op α} (hf : ∀ b, (f b).Acts as) :
    Op.Acts as fun s => f (g s) s where
  ok s := (hf (g s)).ok s
  stop s := (hf (g s)).stop s
  blind p s := by simpa only [hg] using (hf (g s)).blind p s

theorem acts_ite {α : Type} (c : Prop) [Decidable c] {m n : Op α} (hm : m.Acts as) (hn : n.Acts as) :
    (if c then m else n).Acts as := by split <;> assumption

theorem acts_forEach {α : Type} {body : α → Op Unit} (l : List α) (h : ∀ x, (body x).Acts as) :
    (forEach l body).Acts as := by
  induction l with
  | nil => exact acts_give ()
  | cons x rest ih => exact acts_next (h x) ih

theorem acts_forUp {body : Nat → Op Unit} (start n : Nat) (h : ∀ i, (body i).Acts as) : (forUp start n body).Acts as := by
  rw [forUp_eq_forEach]; exact acts_forEach _ h

theorem acts_forDown {body : Nat → Op Unit} (n : Nat) (h : ∀ i, (body i).Acts as) : (forDown n body).Acts as := by
  induction n with
  | zero => exact acts_give ()
  | succ n ih => exact acts_next (h _) ih

/-- An assignment is one move. -/
theorem acts_assign {a : Act} (ha : a ∈ as) {f : State → State} (hm : ∀ s, Move a s (f s))
    (hb : ∀ p s, f (s.behind p) = (f s).behind p) : (assign f).Acts as where
  ok s b t h := by cases h; exact moves_one ha (hm s)
  stop s c t h := by cases h
  blind := blind_assign hb

/-- A line known by all its endings. -/
theorem acts_of_cases {α : Type} {m : Op α} (hb : m.Blind)
    (h : ∀ s, (∃ a t, m s = .ok a t ∧ Moves as s t) ∨ ∃ c t, m s = .stop c t ∧ Stopped as c s t) : m.Acts as where
  ok s a t he := by
    rcases h s with ⟨b, u, hu, hm⟩ | ⟨c, u, hu, -⟩ <;> rw [he] at hu <;> cases hu
    exact hm
  stop s c t he := by
    rcases h s with ⟨b, u, hu, -⟩ | ⟨d, u, hu, hm⟩ <;> rw [he] at hu <;> cases hu
    exact hm
  blind := hb

/-! The writer. -/

theorem acts_needWriter : needWriter.Acts as :=
  acts_look (fun s => s.bw.isOpen) (fun _ _ => rfl) (f := fun b s => if b then .ok () s else .stop (.refuse .notOpen) s)
    fun b => by
      cases b with
      | true => exact acts_give ()
      | false => exact acts_refuse .notOpen

theorem acts_openWriter (ho : .openWriter ∈ as) : openWriter.Acts as :=
  acts_look (fun s => s.bw.isOpen) (fun _ _ => rfl)
    (f := fun b s => if b then .stop (.refuse .alreadyOpen) s else .ok () (s.withBw { buf := [], isOpen := true }))
    fun b => by
      cases b with
      | true => exact acts_refuse .alreadyOpen
      | false => exact acts_assign ho .openWriter fun _ _ => rfl

theorem acts_pushBit (hw : .write ∈ as) (b : Bool) : (pushBit b).Acts as := by
  refine acts_of_cases (blind_pushBit b) fun s => ?_
  by_cases h8 : (s.bw.buf ++ [b]).length = 8
  · rw [pushBit_full b h8]
    rcases flushByte_cases (byteOf (s.bw.buf ++ [b])) s with ⟨-, h⟩ | ⟨-, h⟩
    · exact .inr ⟨_, _, h, .inr ⟨hw, ⟨_, _, rfl⟩, s, .refl, .jam s _ _⟩⟩
    · exact .inl ⟨_, _, h, moves_one hw (.write s _ _ _ (fun _ => Nat.zero_le 7) fun _ => rfl)⟩
  · refine .inl ⟨_, _, pushBit_short b h8, moves_one hw ?_⟩
    have hm := Move.write s s.ioFail [] { s.bw with buf := s.bw.buf ++ [b] } (fun h7 => ?_) id
    · rw [List.append_nil] at hm; exact hm
    · simp only [List.length_append, List.length_singleton] at h8 ⊢; omega

theorem acts_writeBits (hw : .write ∈ as) (bits : Bits) : (writeBits bits).Acts as :=
  acts_next acts_needWriter (acts_forEach bits (acts_pushBit hw))

/-- A writer is closed with nothing to send, or what it had to send was not taken. -/
theorem move_closeWriter_unsent (s : State) (io : List Bool) : Move .closeWriter s (releaseWriter (s.withIoFail io)) := by
  have h := Move.closeWriter s io []
  rwa [List.append_nil] at h

/-- However its append ends, closing the writer is one move (R108). -/
theorem move_closeWriter_state (s : State) : Move .closeWriter s (closeWriter s).state := by
  rcases closeWriter_cases s with ⟨-, h⟩ | ⟨b, -, -, h⟩ | ⟨b, -, -, h⟩ <;> rw [h]
  · exact move_closeWriter_unsent s s.ioFail
  · exact .closeWriter s s.ioFail.tail [b]
  · exact move_closeWriter_unsent s s.ioFail.tail

theorem acts_closeWriter (hc : .closeWriter ∈ as) : closeWriter.Acts as := by
  refine acts_of_cases blind_closeWriter fun s => ?_
  have hm := move_closeWriter_state s
  cases h : closeWriter s with
  | ok a t => rw [h] at hm; exact .inl ⟨a, t, rfl, moves_one hc hm⟩
  | stop c t => rw [h] at hm; exact .inr ⟨c, t, rfl, .inl (moves_one hc hm)⟩

/-! The reader. -/

theorem acts_openReader (ho : .openReader ∈ as) (hd : .dec ∈ as) : openReader.Acts as :=
  acts_look (fun s => s.br.isOpen) (fun _ _ => rfl)
    (f := fun b s => if b then .stop (.refuse .alreadyOpen) s
      else .ok () (setDec .none (s.withBr { cur := [], exh := false, isOpen := true })))
    fun b => by
      cases b with
      | true => exact acts_refuse .alreadyOpen
      | false =>
        exact acts_next (acts_assign ho .openReader fun _ _ => rfl) (acts_assign hd (.dec · .none) fun _ _ => rfl)

/-- A read that takes nothing from the source. -/
theorem move_read_same (s : State) (io : List Bool) (v : BitReader) (hopen : v.isOpen = s.br.isOpen)
    (hcur : s.br.cur.length ≤ 8 → v.cur.length ≤ 8) (hstay : s.br.exh = true → v.exh = true)
    (hexh : v.exh = true → s.br.exh = true ∨ s.src.bytes.length ≤ s.src.pos) :
    Move .read s ((s.withIoFail io).withBr v) := .read s io s.src.pos v (le_refl _) id hopen hcur hstay hexh

theorem acts_readBit (hr : .read ∈ as) : readBit.Acts as := by
  refine acts_of_cases blind_readBit fun s => ?_
  by_cases he : s.br.exh = true
  · exact .inl ⟨_, _, readBit_exhausted he, .refl⟩
  rw [Bool.not_eq_true] at he
  rcases hc : s.br.cur with _ | ⟨c, cs⟩
  · rw [readBit_refill he hc]
    rcases srcNext_cases s with ⟨-, h⟩ | ⟨-, b, hb, h⟩ | ⟨-, hlen, h⟩
    · exact .inr ⟨_, _, andThen_stop h, .inl (moves_one hr (move_read_same s s.ioFail.tail s.br rfl id id .inl))⟩
    · have hlt := (List.getElem?_eq_some_iff.mp hb).1
      obtain ⟨b0, bs, hB⟩ : ∃ b0 bs, bitsOfByte b = b0 :: bs := ⟨_, _, rfl⟩
      have h7 : bs.length ≤ 8 := by have := bitsOfByte_length b; rw [hB, List.length_cons] at this; omega
      refine .inl ⟨some b0, _, (andThen_ok h).trans ?_, moves_one hr
        (.read s s.ioFail.tail (s.src.pos + 1) { s.br with cur := bs } (by omega) (fun _ => hlt) rfl (fun _ => h7) id .inl)⟩
      simp only [assign_next, takeBit, withBr_fields, hB]
      rfl
    · exact .inl ⟨_, _, andThen_ok h, moves_one hr (move_read_same s _ _ rfl id (fun _ => rfl) fun _ => .inr hlen)⟩
  · refine .inl ⟨_, _, readBit_inHand he hc, moves_one hr (move_read_same s s.ioFail _ rfl (fun h8 => ?_) id .inl)⟩
    rw [hc, List.length_cons] at h8
    exact Nat.le_of_succ_le h8

theorem length_of_readBitsFrom (n : Nat) {sofar l : Bits} {s t : State} (h : readBitsFrom n sofar s = .ok (some l) t) :
    l.length = sofar.length + n := by
  induction n generalizing sofar s with
  | zero => cases h; rfl
  | succ n ih =>
    rw [readBitsFrom] at h
    obtain ⟨b, u, -, h⟩ := andThen_eq_ok h
    cases b with
    | none => cases h
    | some b => have := ih h; simp only [List.length_append, List.length_singleton] at this; omega

/-- `BR.READ_BITS n` delivers `n` bits or none (R112). -/
theorem length_of_readBits {n : Nat} {l : Bits} {s t : State} (h : readBits n s = .ok (some l) t) : l.length = n := by
  simpa using length_of_readBitsFrom n h

theorem acts_readBitsFrom (hr : .read ∈ as) (n : Nat) (sofar : Bits) : (readBitsFrom n sofar).Acts as := by
  induction n generalizing sofar with
  | zero => exact acts_give _
  | succ n ih =>
    refine acts_andThen (acts_readBit hr) fun b => ?_
    cases b with
    | none => exact acts_give none
    | some b => exact ih _

theorem acts_readBits (hr : .read ∈ as) (n : Nat) : (readBits n).Acts as := acts_readBitsFrom hr n []

/-! Image memory and the predictor. -/

theorem acts_imgRead (hd : .draw ∈ as) (l : Loc) : (imgRead l).Acts as := by
  refine acts_of_cases (fun p s => ?_) fun s => ?_
  · have hs : (s.behind p).img = s.img := rfl
    simp only [imgRead, hs]
    cases Memory.read s.img l <;> rfl
  · rcases imgRead_cases l s with ⟨v, -, h⟩ | ⟨-, h⟩
    · exact .inl ⟨_, _, h, .refl⟩
    · exact .inl ⟨_, _, h, moves_one hd (.draw s _)⟩

theorem acts_imgWrite (hi : .img ∈ as) (l : Loc) (v : Sample) : (imgWrite l v).Acts as :=
  acts_assign hi (fun s => .img s _ (Memory.wf_write l v)) fun _ _ => rfl

theorem acts_imgCombine (hi : .img ∈ as) (f : Sample → Sample → Sample) (a b l : Loc) : (imgCombine f a b l).Acts as :=
  acts_assign hi (fun s => .img s _ (Memory.wf_combine f a b l)) fun _ _ => rfl

theorem acts_readFlat (hd : .draw ∈ as) (w start n : Nat) : (readFlat w start n).Acts as := by
  induction n generalizing start with
  | zero => exact acts_give []
  | succ n ih => exact acts_andThen (acts_imgRead hd _) fun _ => acts_andThen (ih _) fun _ => acts_give _

theorem acts_predictForward (hi : .img ∈ as) (h w : Nat) : (predictForward h w).Acts as :=
  acts_forUp _ _ fun _ => acts_forUp _ _ fun _ => acts_forDown _ fun _ => acts_imgCombine hi _ _ _ _

theorem acts_predictInverse (hi : .img ∈ as) (h w : Nat) : (predictInverse h w).Acts as :=
  acts_forUp _ _ fun _ => acts_forUp _ _ fun _ => acts_forUp _ _ fun _ => acts_imgCombine hi _ _ _ _

/-! The histogram, the tree and the code table. -/

theorem acts_clearHistogram (hc : .count ∈ as) : clearHistogram.Acts as :=
  acts_assign hc (fun s => .count s _ fun _ => by rw [Vector.toList_replicate, List.sum_replicate]; rfl) fun _ _ => rfl

theorem acts_accumulate (hc : .count ∈ as) (x : Sample) : (accumulate x).Acts as := by
  cases hx : isCodable x with
  | true =>
    refine acts_of_cases (fun p s => ?_) fun s => .inl ⟨_, _, accumulate_codable hx s, moves_one hc (.count s _ fun h => ?_)⟩
    · rw [accumulate_codable hx, accumulate_codable hx]; rfl
    · rw [sum_bump s.hg hx, bump_total, h]
  | false =>
    refine acts_of_cases (fun p s => ?_) fun s => .inr ⟨_, _, accumulate_uncodable hx s, .inl .refl⟩
    rw [accumulate_uncodable hx, accumulate_uncodable hx]; rfl

theorem acts_emitHistogram (lo hi : Int) : (emitHistogram lo hi).Acts as :=
  acts_look (fun s => s.hg) (fun _ _ => rfl)
    (f := fun g s => if g.total = 0 then .stop (.refuse .emptyHistogram) s else .ok (g.emit lo hi) s) fun g => by
      by_cases h : g.total = 0
      · simp only [h, if_true]; exact acts_refuse _
      · simp only [h, if_false]; exact acts_give _

theorem acts_buildHistogram (hc : .count ∈ as) (samples : List Sample) (lo hi : Int) :
    (buildHistogram samples lo hi).Acts as :=
  acts_next (acts_clearHistogram hc) (acts_next (acts_forEach _ (acts_accumulate hc)) (acts_emitHistogram lo hi))

theorem acts_buildHuffman (hb : .build ∈ as) (xs : List Symbol) (ps : List Prob) : (buildHuffman xs ps).Acts as := by
  cases h : alphabetCause xs ps with
  | none =>
    have e : buildHuffman xs ps = assign fun s => s.withHt (buildTree xs ps) := by funext s; simp only [buildHuffman, h]; rfl
    rw [e]
    exact acts_assign hb (fun s => .build s xs ps ((alphabetCause_none xs ps).mp h)) fun _ _ => rfl
  | some c =>
    have e : ∀ s, buildHuffman xs ps s = .stop c s := fun s => by simp only [buildHuffman, h]
    exact acts_of_cases (fun p s => by rw [e, e]; rfl) fun s => .inr ⟨_, _, e s, .inl .refl⟩

theorem acts_generateCodes (hg : .generate ∈ as) : generateCodes.Acts as := by
  refine acts_of_cases (fun p s => ?_) fun s => ?_
  · have hs : (s.behind p).ht = s.ht := rfl
    simp only [generateCodes, hs]
    cases s.ht.root <;> rfl
  · cases h : s.ht.root with
    | none => exact .inr ⟨.refuse .noTree, s, by simp only [generateCodes, h], .inl .refl⟩
    | some r => exact .inl ⟨_, _, by simp only [generateCodes, h]; rfl, moves_one hg (.generate s (by simp [h]))⟩

/-! The encoder. -/

theorem acts_fixedEncode (x : Int) (width : Nat) : (fixedEncode x width).Acts as :=
  acts_ite _ (acts_raise _ _) (acts_give _)

theorem acts_writeField (hw : .write ∈ as) (x : Int) (width : Nat) : (writeField x width).Acts as :=
  acts_andThen (acts_fixedEncode x width) (acts_writeBits hw)

theorem acts_writeHeader (hw : .write ∈ as) (hd : .dim ∈ as) (h w : Int) : (writeHeader h w).Acts as :=
  acts_next acts_needWriter <| acts_next (acts_writeField hw h _) <| acts_next (acts_writeField hw w _) <|
    acts_assign hd (fun s => .dim s _) fun _ _ => rfl

theorem acts_writeEntry (hw : .write ∈ as) (e : Symbol × Bits) : (writeEntry e).Acts as :=
  acts_next (acts_writeField hw _ _) (acts_next (acts_writeField hw _ _) (acts_writeBits hw _))

theorem acts_writeTable (hw : .write ∈ as) : writeTable.Acts as :=
  acts_next acts_needWriter <| acts_look (fun s => s.ct.entries) (fun _ _ => rfl) fun es =>
    acts_next (acts_forEach es (acts_writeEntry hw)) (acts_writeField hw _ _)

theorem acts_writeSymbol (hw : .write ∈ as) (x : Sample) : (writeSymbol x).Acts as :=
  acts_next acts_needWriter <| acts_look (fun s => if isCodable x then s.ct.code x else none) (fun _ _ => rfl)
    (f := fun cw s => match cw with | none => .stop (.refuse .noCode) s | some cw => writeBits cw s) fun cw => by
      cases cw with
      | none => exact acts_refuse .noCode
      | some cw => exact acts_writeBits hw cw

theorem acts_writePayload (hw : .write ∈ as) (hd : .draw ∈ as) : writePayload.Acts as :=
  acts_next acts_needWriter <| acts_look (fun s => s.dim) (fun _ _ => rfl)
    (f := fun d => forUp 0 d.count (writeSample d.w.toNat)) fun _ =>
      acts_forUp _ _ fun _ => acts_andThen (acts_imgRead hd _) (acts_writeSymbol hw)

theorem acts_rangeScan (hd : .draw ∈ as) (w n : Nat) : (rangeScan w n).Acts as :=
  acts_forUp _ _ fun _ => acts_andThen (acts_imgRead hd _) fun _ => acts_ite _ (acts_give _) (acts_raise _ _)

theorem acts_buildCode (hd : .draw ∈ as) (hc : .count ∈ as) (hb : .build ∈ as) (hg : .generate ∈ as) (w n : Nat) :
    (buildCode w n).Acts as :=
  acts_andThen (acts_readFlat hd w 0 n) fun flat => acts_andThen (acts_buildHistogram hc flat _ _) fun _ =>
    acts_next (acts_buildHuffman hb _ _) <| acts_andThen (acts_generateCodes hg) fun _ => acts_give ()

theorem acts_setPhase (hp : .phase ∈ as) (p : Nat) : (setPhase p).Acts as :=
  acts_assign hp (fun s => .phase s p) fun _ _ => rfl

theorem acts_setPrediction (hc : .cfg ∈ as) (p : Bool) : (setPrediction p).Acts as :=
  acts_assign hc (fun s => .cfg s _) fun _ _ => rfl

/-- The lines of `ENCODE` between its beginning and its last line, which is `idle` (R184). -/
def encodeBody (h w : Int) (p : Bool) : Op Unit :=
  (writeHeader h w).next <|
  (setPhase 2).next <| (setPrediction p).next <|
    (if p then predictForward h.toNat w.toNat else give ()).next <|
  (setPhase 3).next <| (rangeScan w.toNat (sampleCount h.toNat w.toNat)).next <|
  (setPhase 4).next <|
    (if h * w = 0 then refuse .emptyHistogram else buildCode w.toNat (sampleCount h.toNat w.toNat)).next <|
  (setPhase 5).next <| writeTable.next <|
  (setPhase 6).next <| writePayload.next <|
  (setPhase 7).next closeWriter

theorem encodeSteps_eq (h w : Int) (p : Bool) :
    encodeSteps h w p = (beginCall .encode).next ((encodeBody h w p).next (assign idle)) := by
  simp only [encodeSteps, encodeBody, Op.next, andThen_assoc]

/-- The kinds of lines between the beginning and the end of `ENCODE`. -/
def encodeActs : List Act := [.write, .closeWriter, .dim, .cfg, .img, .draw, .count, .build, .generate, .phase]

theorem acts_encodeBody (h w : Int) (p : Bool) : (encodeBody h w p).Acts encodeActs := by
  have hphase (n : Nat) : (setPhase n).Acts encodeActs := acts_setPhase (by simp [encodeActs]) n
  have hw : Act.write ∈ encodeActs := by simp [encodeActs]
  have hd : Act.draw ∈ encodeActs := by simp [encodeActs]
  refine acts_next (acts_writeHeader hw (by simp [encodeActs]) h w) ?_
  refine acts_next (hphase 2) (acts_next (acts_setPrediction (by simp [encodeActs]) p) ?_)
  refine acts_next (acts_ite _ (acts_predictForward (by simp [encodeActs]) _ _) (acts_give ())) ?_
  refine acts_next (hphase 3) (acts_next (acts_rangeScan hd _ _) ?_)
  refine acts_next (hphase 4) (acts_next (acts_ite _ (acts_refuse _) ?_) ?_)
  · exact acts_buildCode hd (by simp [encodeActs]) (by simp [encodeActs]) (by simp [encodeActs]) _ _
  refine acts_next (hphase 5) (acts_next (acts_writeTable hw) ?_)
  refine acts_next (hphase 6) (acts_next (acts_writePayload hw hd) ?_)
  exact acts_next (hphase 7) (acts_closeWriter (by simp [encodeActs]))

/-! The decoder. -/

theorem acts_setDec (hd : .dec ∈ as) (d : DecStatus) : (assign (setDec d)).Acts as :=
  acts_assign hd (fun s => .dec s d) fun _ _ => rfl

theorem acts_noImage {α : Type} (hd : .dec ∈ as) (a : α) : (noImage a).Acts as :=
  acts_next (acts_setDec hd _) (acts_give a)

theorem acts_loadHeader (hm : .dim ∈ as) (h w : BitVec 16) : (assign (loadHeader h w)).Acts as :=
  acts_assign hm (fun s => .dim s _) fun _ _ => rfl

theorem acts_readHeader (hr : .read ∈ as) (hm : .dim ∈ as) (hd : .dec ∈ as) : readHeader.Acts as :=
  acts_andThen (acts_readBits hr 32) fun l => by
    cases l with
    | none => exact acts_noImage hd none
    | some l => exact acts_next (acts_loadHeader hm _ _) (acts_give _)

/-- An entry read from nine bits that are not the sentinel, and no more bits than five can count, is one a stream can carry
(R77, R192). -/
theorem tableOk_insert {sb lb cw : Bits} (hsb : sb.length = 9) (hns : valOf sb ≠ Config.sentinel) (hlb : lb.length = 5)
    (hcw : cw.length = valOf lb) {d : List (Bits × Symbol)} (hd : TableOk d) :
    TableOk (Table.put bitsLt cw ((valOf sb : Int) - Config.bias) d) := by
  obtain ⟨hsort, hall⟩ := hd
  refine ⟨Table.sorted_put bitsLt_order _ _ hsort, List.all_eq_true.mpr fun e he => ?_⟩
  rcases Table.mem_put he with rfl | he
  · have h1 := valOf_lt sb; have h2 := valOf_lt lb
    rw [hsb] at h1; rw [hlb] at h2
    have hx : isCodable ((valOf sb : Int) - Config.bias) = true := by
      rw [isCodable_iff]; simp only [Config.bias, Config.sentinel] at hns ⊢; omega
    have hl : cw.length ≤ Config.lenMax := by rw [hcw]; simp only [Config.lenMax]; omega
    simp [hx, hl]
  · exact List.all_eq_true.mp hall e he

theorem acts_readEntries (hr : .read ∈ as) (ht : .table ∈ as) (hd : .dec ∈ as) (n : Nat) : (readEntries n).Acts as := by
  induction n with
  | zero => exact acts_noImage hd false
  | succ n ih =>
    refine acts_andThen_of (acts_readBits hr 9) fun sb _ _ hsb => ?_
    cases sb with
    | none => exact acts_noImage hd false
    | some sb =>
    by_cases hs : valOf sb = Config.sentinel
    · simp only [hs, if_true]; exact acts_give true
    simp only [hs, if_false]
    refine acts_andThen_of (acts_readBits hr 5) fun lb _ _ hlb => ?_
    cases lb with
    | none => exact acts_noImage hd false
    | some lb =>
    refine acts_andThen_of (acts_readBits hr _) fun cw _ _ hcw => ?_
    cases cw with
    | none => exact acts_noImage hd false
    | some cw =>
    refine acts_next (acts_assign ht (fun s => .table s _ ?_) fun _ _ => rfl) ih
    exact tableOk_insert (length_of_readBits hsb) hs (length_of_readBits hlb) (length_of_readBits hcw)

theorem acts_readTable (hr : .read ∈ as) (ht : .table ∈ as) (hd : .dec ∈ as) : readTable.Acts as :=
  acts_next (acts_assign ht (fun s => .table s [] fun _ => ⟨rfl, rfl⟩) fun _ _ => rfl) <|
    acts_look bitsLeft (fun _ _ => rfl) fun n => acts_readEntries hr ht hd (n + 1)

theorem acts_setAcc (hv : .vd ∈ as) (acc : Bits) : (assign (setAcc acc)).Acts as :=
  acts_assign hv (fun s => .vd s _) fun _ _ => rfl

theorem acts_matchLoop (hr : .read ∈ as) (hv : .vd ∈ as) (n : Nat) : (matchLoop n).Acts as := by
  induction n with
  | zero => exact acts_give none
  | succ n ih =>
    refine acts_andThen (acts_readBit hr) fun b => ?_
    cases b with
    | none => exact acts_give none
    | some b =>
      refine acts_look (fun s => (s.vd.acc ++ [b], Table.get s.dt (s.vd.acc ++ [b]))) (fun _ _ => rfl)
        (f := fun u s => match u.2 with | some x => .ok (some x) (setAcc [] s) | none => matchLoop n (setAcc u.1 s))
        fun u => ?_
      obtain ⟨acc, x⟩ := u
      cases x with
      | none => exact acts_next (acts_setAcc hv acc) ih
      | some x => exact acts_next (acts_setAcc hv []) (acts_give (some x))

theorem acts_readSymbol (hr : .read ∈ as) (hv : .vd ∈ as) : readSymbol.Acts as :=
  acts_next (acts_setAcc hv []) <| acts_look bitsLeft (fun _ _ => rfl) fun n => acts_matchLoop hr hv (n + 1)

theorem acts_setDone (hv : .vd ∈ as) (n : Nat) : (assign (setDone n)).Acts as :=
  acts_assign hv (fun s => .vd s _) fun _ _ => rfl

theorem acts_stopShort (hi : .img ∈ as) (hd : .dec ∈ as) (i : Nat) : (assign (stopShort i)).Acts as :=
  acts_next (f := assign (setDec .short))
    (acts_assign hi (fun s => .img s (Memory.forgetFrom s.dim.h.toNat s.dim.w.toNat i s.img) (Memory.wf_forgetFrom _ _ _))
      fun _ _ => rfl)
    (acts_setDec hd .short)

theorem acts_readSamples (hr : .read ∈ as) (hv : .vd ∈ as) (hi : .img ∈ as) (hd : .dec ∈ as) (w i n : Nat) :
    (readSamples w i n).Acts as := by
  induction n generalizing i with
  | zero => exact acts_next (acts_setDec hd .complete) (acts_give i)
  | succ n ih =>
    refine acts_andThen (acts_readSymbol hr hv) fun x => ?_
    cases x with
    | none =>
      exact acts_next (acts_stopShort hi hd i) (acts_look (fun s => s.vd.ndone) (fun _ _ => rfl) fun k => acts_give k)
    | some x => exact acts_next (acts_imgWrite hi _ x) (acts_next (acts_setDone hv _) (ih _))

theorem acts_readPayload (hr : .read ∈ as) (hv : .vd ∈ as) (hi : .img ∈ as) (hd : .dec ∈ as) : readPayload.Acts as :=
  acts_next (acts_setDone hv 0) <| acts_look (fun s => s.dim) (fun _ _ => rfl)
    (f := fun d => readSamples d.w.toNat 0 d.count) fun _ => acts_readSamples hr hv hi hd _ _ _

theorem acts_undoPrediction (hc : .cfg ∈ as) (hi : .img ∈ as) (p : Bool) : (undoPrediction p).Acts as := by
  refine acts_next (acts_setPrediction hc p) ?_
  cases p with
  | true =>
    exact acts_look (fun s => s.dim) (fun _ _ => rfl) (f := fun d => predictInverse d.h.toNat d.w.toNat) fun _ =>
      acts_predictInverse hi _ _
  | false => exact acts_give ()

/-- The lines of `DECODE` between its beginning and the label `finish` (R203), with whether the header was read. -/
def decodeBody (p : Bool) : Op Bool := readHeader.andThen fun
  | none => give false
  | some _ => (setPhase 2).next <| readTable.andThen fun
    | false => give true
    | true =>
      (setPhase 3).next <| readPayload.next <|
      (setPhase 4).next <|
      (setPhase 5).next <| (undoPrediction p).next (give true)

theorem decodeSteps_eq (p : Bool) :
    decodeSteps p = (beginCall .decode).next ((decodeBody p).andThen finishDecode) := by
  simp only [decodeSteps, decodeBody, andThen_assoc]
  congr 2
  funext d
  cases d with
  | none => rfl
  | some d =>
    simp only [Op.next, andThen_assoc]
    congr 1
    funext u
    congr 1
    funext ok
    cases ok with
    | false => rfl
    | true => simp only [andThen_assoc, give_andThen]

/-- The kinds of lines between the beginning and the end of `DECODE`. -/
def decodeActs : List Act := [.read, .dim, .dec, .table, .vd, .img, .cfg, .phase]

theorem acts_decodeBody (p : Bool) : (decodeBody p).Acts decodeActs := by
  have hphase (n : Nat) : (setPhase n).Acts decodeActs := acts_setPhase (by simp [decodeActs]) n
  have hr : Act.read ∈ decodeActs := by simp [decodeActs]
  have hd : Act.dec ∈ decodeActs := by simp [decodeActs]
  have hi : Act.img ∈ decodeActs := by simp [decodeActs]
  refine acts_andThen (acts_readHeader hr (by simp [decodeActs]) hd) fun d => ?_
  cases d with
  | none => exact acts_give false
  | some d =>
  refine acts_next (hphase 2) (acts_andThen (acts_readTable hr (by simp [decodeActs]) hd) fun ok => ?_)
  cases ok with
  | false => exact acts_give true
  | true =>
    refine acts_next (hphase 3) (acts_next (acts_readPayload hr (by simp [decodeActs]) hi hd) ?_)
    refine acts_next (hphase 4) (acts_next (hphase 5) (acts_next (acts_undoPrediction ?_ hi p) (acts_give true)))
    simp [decodeActs]

theorem acts_finishDecode (hc : .closeReader ∈ as) (hi : .idle ∈ as) (b : Bool) : (finishDecode b).Acts as :=
  acts_next (acts_assign hc .closeReader fun _ _ => rfl) <| acts_next (acts_assign hi .idle fun _ _ => rfl) <|
    acts_look (fun s => Result.decoded (if b then some s.dim else none) s.st.dec) (fun _ _ => rfl) acts_give

/-- Matching the bits of a codeword record moves the decoder's accumulator alone (R194). -/
theorem matchBits_vd (cw : Bits) (s : State) : ∃ v, (matchBits cw s).2 = s.withVd v := by
  induction cw generalizing s with
  | nil => exact ⟨s.vd, rfl⟩
  | cons b rest ih =>
    simp only [matchBits]
    split
    · exact ⟨_, rfl⟩
    · obtain ⟨v, hv⟩ := ih (setAcc (s.vd.acc ++ [b]) s)
      exact ⟨v, hv.trans rfl⟩

theorem matchBits_behind (p : List Byte) (cw : Bits) (s : State) :
    matchBits cw (s.behind p) = ((matchBits cw s).1, (matchBits cw s).2.behind p) := by
  induction cw generalizing s with
  | nil => rfl
  | cons b rest ih =>
    have hget : Table.get (s.behind p).dt ((s.behind p).vd.acc ++ [b]) = Table.get s.dt (s.vd.acc ++ [b]) := rfl
    simp only [matchBits, hget]
    cases Table.get s.dt (s.vd.acc ++ [b]) with
    | some x => rfl
    | none => exact ih (setAcc (s.vd.acc ++ [b]) s)

theorem acts_matchBits (hv : .vd ∈ as) (cw : Bits) :
    Op.Acts (α := Result) as fun s => .ok (.symbol (matchBits cw s).1) (matchBits cw s).2 := by
  refine acts_of_cases (fun p s => ?_) fun s => .inl ⟨_, _, rfl, ?_⟩
  · rw [matchBits_behind]; rfl
  · obtain ⟨v, hm⟩ := matchBits_vd cw s
    rw [hm]
    exact moves_one hv (.vd s v)

end acts


/-! What an instruction does. -/

/-- The call an instruction is, if it is one (R184, R203). -/
def callOf : Instr → SeqOp
  | .encode _ _ _ => .encode
  | .decode _ => .decode
  | _ => .idle

/-- The pseudocode of an instruction past its gate. -/
def opOf : Instr → Op Result
  | .sysReset => (assign resetRegisters).done
  | .sysStatus => fun s => .ok (.status (statusRecord s)) s
  | .bwOpen => openWriter.done
  | .bwWrite bits => (writeBits bits).done
  | .bwClose => (needWriter.next closeWriter).done
  | .brOpen => openReader.done
  | .brReadBit => readBit.andThen fun b => give (.bit b)
  | .brReadBits n => (readBits n).andThen fun b => give (.bits b)
  | .brClose => fun s => if s.br.isOpen then .ok .done (closeReader s) else .stop (.refuse .notOpen) s
  | .fwEnc x width => (fixedEncode x width).andThen fun b => give (.bits (some b))
  | .fwDec bits => give (.value (valOf bits))
  | .hgClear => clearHistogram.done
  | .hgAcc x => (accumulate x).done
  | .hgEmit lo hi => (emitHistogram lo hi).andThen fun ps => give (.pairs ps)
  | .hgBuild samples lo hi => (buildHistogram samples lo hi).andThen fun ps => give (.pairs ps)
  | .htBuild symbols probs => (buildHuffman symbols probs).done
  | .htGen => generateCodes.andThen fun cs => give (.codes cs)
  | .dpFwd h w => (predictForward h.toNat w.toNat).done
  | .dpInv h w => (predictInverse h.toNat w.toNat).done
  | .veHdr h w => (writeHeader h w).done
  | .veTable => writeTable.done
  | .veSym x => (writeSymbol x).done
  | .vePayload => writePayload.done
  | .encode h w p => (openWriter.next (encodeSteps h w p)).done
  | .vdHdr => readHeader.andThen fun d => give (.dims d)
  | .vdTable => readTable.andThen fun ok => give (if ok then .done else .noTable)
  | .vdSym => readSymbol.andThen fun x => give (.symbol x)
  | .vdPayload => readPayload.andThen fun n => give (.count n)
  | .decode p => openReader.next (decodeSteps p)
  | .header h w => (assign (loadHeader h w)).next (give (.dims (some { h := h, w := w })))
  | .entry x cw => (assign (insertEntry x cw)).done
  | .sentinel => give .done
  | .codeword cw => (assign (setAcc [])).next fun s => .ok (.symbol (matchBits cw s).1) (matchBits cw s).2
  | .pad _ => give .done

/-- The kinds of lines an instruction is made of; `SYS.RESET` is set apart. -/
def acts : Instr → List Act
  | .sysReset | .sysStatus | .fwEnc _ _ | .fwDec _ | .hgEmit _ _ | .sentinel | .pad _ => []
  | .bwOpen => [.openWriter]
  | .bwWrite _ | .veTable | .veSym _ => [.write]
  | .bwClose => [.closeWriter]
  | .brOpen => [.openReader, .dec]
  | .brReadBit | .brReadBits _ => [.read]
  | .brClose => [.closeReader]
  | .hgClear | .hgAcc _ | .hgBuild _ _ _ => [.count]
  | .htBuild _ _ => [.build]
  | .htGen => [.generate]
  | .dpFwd _ _ | .dpInv _ _ => [.img]
  | .veHdr _ _ => [.write, .dim]
  | .vePayload => [.write, .draw]
  | .encode _ _ _ => .openWriter :: .begin :: .idle :: encodeActs
  | .vdHdr => [.read, .dim, .dec]
  | .vdTable => [.read, .table, .dec]
  | .vdSym => [.read, .vd]
  | .vdPayload => [.read, .vd, .img, .dec]
  | .decode _ => .openReader :: .begin :: .closeReader :: .idle :: decodeActs
  | .header _ _ => [.dim]
  | .entry x cw => [.entry x cw]
  | .codeword _ => [.vd]

theorem acts_mono {α : Type} {as bs : List Act} (h : as ⊆ bs) {m : Op α} (hm : m.Acts as) : m.Acts bs where
  ok s a t he := moves_mono h (hm.ok s a t he)
  stop s c t he := by
    rcases hm.stop s c t he with hs | ⟨hw, hc, u, hu, hj⟩
    · exact .inl (moves_mono h hs)
    · exact .inr ⟨h hw, hc, u, moves_mono h hu, hj⟩
  blind := hm.blind

theorem acts_closeReader {as : List Act} (hc : .closeReader ∈ as) : (opOf .brClose).Acts as :=
  acts_look (fun s => s.br.isOpen) (fun _ _ => rfl)
    (f := fun b s => if b then .ok Result.done (closeReader s) else .stop (.refuse .notOpen) s) fun b => by
      cases b with
      | true => exact acts_done (acts_assign hc .closeReader fun _ _ => rfl)
      | false => exact acts_refuse .notOpen

theorem acts_encode (h w : Int) (p : Bool) : (opOf (.encode h w p)).Acts (acts (.encode h w p)) := by
  have hsub : encodeActs ⊆ acts (.encode h w p) := fun a ha => by simp [acts, ha]
  refine acts_done (acts_next (acts_openWriter (by simp [acts])) ?_)
  rw [encodeSteps_eq]
  refine acts_next (acts_assign (a := .begin) (by simp [acts]) (fun s => .begin s .encode) fun _ _ => rfl) ?_
  refine acts_next (acts_mono hsub (acts_encodeBody h w p)) (acts_assign (a := .idle) (by simp [acts]) .idle fun _ _ => rfl)

theorem acts_decode (p : Bool) : (opOf (.decode p)).Acts (acts (.decode p)) := by
  have hsub : decodeActs ⊆ acts (.decode p) := fun a ha => by simp [acts, ha]
  refine acts_next (acts_openReader (by simp [acts]) (by simp [acts, decodeActs])) ?_
  rw [decodeSteps_eq]
  refine acts_next (acts_assign (a := .begin) (by simp [acts]) (fun s => .begin s .decode) fun _ _ => rfl) ?_
  exact acts_andThen (acts_mono hsub (acts_decodeBody p)) (acts_finishDecode (by simp [acts]) (by simp [acts]))

/-- Every instruction but `SYS.RESET` is made of the lines of its list. -/
theorem acts_opOf {i : Instr} (hreset : i ≠ .sysReset) : (opOf i).Acts (acts i) := by
  cases i with
  | sysReset => exact absurd rfl hreset
  | sysStatus => exact acts_look statusRecord (fun _ _ => rfl) fun r => acts_give (Result.status r)
  | bwOpen => exact acts_done (acts_openWriter (by simp [acts]))
  | bwWrite bits => exact acts_done (acts_writeBits (by simp [acts]) bits)
  | bwClose => exact acts_done (acts_next acts_needWriter (acts_closeWriter (by simp [acts])))
  | brOpen => exact acts_done (acts_openReader (by simp [acts]) (by simp [acts]))
  | brReadBit => exact acts_andThen (acts_readBit (by simp [acts])) fun _ => acts_give _
  | brReadBits n => exact acts_andThen (acts_readBits (by simp [acts]) n) fun _ => acts_give _
  | brClose => exact acts_closeReader (by simp [acts])
  | fwEnc x width => exact acts_andThen (acts_fixedEncode x width) fun _ => acts_give _
  | fwDec bits => exact acts_give _
  | hgClear => exact acts_done (acts_clearHistogram (by simp [acts]))
  | hgAcc x => exact acts_done (acts_accumulate (by simp [acts]) x)
  | hgEmit lo hi => exact acts_andThen (acts_emitHistogram lo hi) fun _ => acts_give _
  | hgBuild samples lo hi => exact acts_andThen (acts_buildHistogram (by simp [acts]) samples lo hi) fun _ => acts_give _
  | htBuild xs ps => exact acts_done (acts_buildHuffman (by simp [acts]) xs ps)
  | htGen => exact acts_andThen (acts_generateCodes (by simp [acts])) fun _ => acts_give _
  | dpFwd h w => exact acts_done (acts_predictForward (by simp [acts]) _ _)
  | dpInv h w => exact acts_done (acts_predictInverse (by simp [acts]) _ _)
  | veHdr h w => exact acts_done (acts_writeHeader (by simp [acts]) (by simp [acts]) h w)
  | veTable => exact acts_done (acts_writeTable (by simp [acts]))
  | veSym x => exact acts_done (acts_writeSymbol (by simp [acts]) x)
  | vePayload => exact acts_done (acts_writePayload (by simp [acts]) (by simp [acts]))
  | encode h w p => exact acts_encode h w p
  | vdHdr => exact acts_andThen (acts_readHeader (by simp [acts]) (by simp [acts]) (by simp [acts])) fun _ => acts_give _
  | vdTable => exact acts_andThen (acts_readTable (by simp [acts]) (by simp [acts]) (by simp [acts])) fun _ => acts_give _
  | vdSym => exact acts_andThen (acts_readSymbol (by simp [acts]) (by simp [acts])) fun _ => acts_give _
  | vdPayload =>
    exact acts_andThen (acts_readPayload (by simp [acts]) (by simp [acts]) (by simp [acts]) (by simp [acts])) fun _ => acts_give _
  | decode p => exact acts_decode p
  | header h w => exact acts_next (acts_loadHeader (by simp [acts]) h w) (acts_give _)
  | entry x cw => exact acts_done (acts_assign (a := .entry x cw) (by simp [acts]) (.entry · x cw) fun _ _ => rfl)
  | sentinel => exact acts_give _
  | codeword cw => exact acts_next (acts_setAcc (by simp [acts]) []) (acts_matchBits (by simp [acts]) cw)
  | pad n => exact acts_give _

/-! How `exec` runs it. -/

theorem exec_ungated {i : Instr} (h : ungated i = true) (s : State) : exec i s = deliver (opOf i s) := by
  cases i with
  | sysReset | sysStatus | bwClose | brClose => rfl
  | _ => cases h

/-- The closed gate (R226). -/
theorem exec_closed {i : Instr} {s : State} (hu : ungated i = false) (h : s.st.err ≠ 0) :
    exec i s = .next (s.refusedBy .faulted) := by
  cases i with
  | sysReset | sysStatus | bwClose | brClose => cases hu
  | encode => rw [exec, execEncode, gate_closed h]
  | decode => rw [exec, execDecode, gate_closed h]
  | htGen => rw [exec, execHtGen, gate_closed h]
  | codeword => rw [exec, execCodeword, issue_closed h]
  | _ => exact issue_closed h

/-- A call may begin: none is in progress and its stream is closed (R184, R203). -/
def MayBegin : SeqOp → State → Prop
  | .idle, _ => True
  | .encode, s => s.seq.op = .idle ∧ s.bw.isOpen = false
  | .decode, s => s.seq.op = .idle ∧ s.br.isOpen = false

/-- An instruction that is answered by a next state is refused before it begins, or it runs to its end. -/
theorem exec_cases {i : Instr} {s t : State} (h : exec i s = .next t) :
    (∃ r, t = s.refusedBy r) ∨
    (s.st.err = 0 ∨ ungated i = true) ∧ MayBegin (callOf i) s ∧ deliver (opOf i s) = .next t := by
  have refused (r : RefuseKind) (h : refuseAtGate r s = .next t) : ∃ r, t = s.refusedBy r :=
    ⟨r, by rw [refuseAtGate_eq] at h; cases h; rfl⟩
  cases hu : ungated i with
  | true =>
    rw [exec_ungated hu] at h
    refine .inr ⟨.inr rfl, ?_, h⟩
    cases i with
    | sysReset | sysStatus | bwClose | brClose => trivial
    | _ => cases hu
  | false =>
  by_cases h0 : s.st.err = 0
  · cases i with
    | sysReset | sysStatus | bwClose | brClose => cases hu
    | encode a b p =>
      rw [exec, execEncode, gate_open h0] at h
      split_ifs at h with hbusy hopen
      · exact .inl (refused _ h)
      · exact .inl (refused _ h)
      · exact .inr ⟨.inl h0, ⟨not_not.mp hbusy, Bool.eq_false_iff.mpr hopen⟩, h⟩
    | decode p =>
      rw [exec, execDecode, gate_open h0] at h
      split_ifs at h with hbusy hopen
      · exact .inl (refused _ h)
      · exact .inl (refused _ h)
      · exact .inr ⟨.inl h0, ⟨not_not.mp hbusy, Bool.eq_false_iff.mpr hopen⟩, h⟩
    | htGen =>
      rw [exec, execHtGen, gate_open h0] at h
      split_ifs at h
      exact .inr ⟨.inl h0, trivial, h⟩
    | codeword cw => exact .inr ⟨.inl h0, trivial, (issue_unfaulted h0).symm.trans h⟩
    | _ => exact .inr ⟨.inl h0, trivial, (issue_unfaulted h0).symm.trans h⟩
  · rw [exec_closed hu h0] at h
    cases h
    exact .inl ⟨_, rfl⟩

/-! Which parts of the state a move leaves (R50). -/

/-- The parts a line of each kind writes. -/
def Act.parts : Act → List Part
  | .write | .jam | .closeWriter => [.bw, .sink, .io]
  | .openWriter => [.bw]
  | .read => [.br, .src, .io]
  | .openReader | .closeReader => [.br]
  | .count => [.hg]
  | .build => [.ht]
  | .generate => [.ct]
  | .table | .entry _ _ => [.dt]
  | .vd => [.vd]
  | .dim => [.dim]
  | .cfg => [.cfg]
  | .dec => [.dec]
  | .img => [.img]
  | .draw => [.draws]
  | .begin | .phase | .idle => [.seq]

/-- What no line of pseudocode touches: the recorded outcome and the port (R39, R44). -/
def SameOutcome (s t : State) : Prop :=
  t.st.err = s.st.err ∧ t.st.info = s.st.info ∧ t.st.ref = s.st.ref ∧ t.port = s.port

theorem carries_sameOutcome : Carries SameOutcome where
  refl _ := ⟨rfl, rfl, rfl, rfl⟩
  trans _ _ _ h g := ⟨g.1.trans h.1, g.2.1.trans h.2.1, g.2.2.1.trans h.2.2.1, g.2.2.2.trans h.2.2.2⟩

theorem move_sameOutcome {a : Act} {s t : State} (h : Move a s t) : SameOutcome s t := by
  cases h <;> exact ⟨rfl, rfl, rfl, rfl⟩

theorem carries_same (p : Part) : Carries p.same where
  refl s := by cases p <;> rfl
  trans s t u h g := by cases p <;> exact Eq.trans g h

/-- Each part is among those a line of the kind writes, or the move leaves it. -/
theorem move_same {a : Act} {s t : State} (h : Move a s t) (p : Part) : p ∈ a.parts ∨ p.same s t := by
  cases h <;> cases p <;> simp [Act.parts, Part.same, insertEntry, setDec, Machine.idle]

/-- The parts that lines of these kinds write. -/
def written (as : List Act) : List Part := as.flatMap Act.parts

theorem moves_same {as : List Act} {p : Part} (hp : p ∉ written as) {s t : State} (h : Moves as s t) : p.same s t :=
  moves_carry (carries_same p) (fun a ha _ _ hm =>
    (move_same hm p).resolve_left fun h => hp (List.mem_flatMap.mpr ⟨a, ha, h⟩)) h

/-- What a piece of pseudocode that stops does not write it leaves, a failed append included. -/
theorem stopped_same {as : List Act} {p : Part} (hp : p ∉ written as) {c : Cause} {s t : State} (h : Stopped as c s t) :
    p.same s t := by
  refine stopped_carry (carries_same p) (fun a ha _ _ hm => (move_same hm p).resolve_left fun h =>
    hp (List.mem_flatMap.mpr ⟨a, ha, h⟩)) (fun hw _ _ hm => (move_same hm p).resolve_left fun h => hp ?_) h
  exact List.mem_flatMap.mpr ⟨.write, hw, h⟩

theorem stopped_sameOutcome {as : List Act} {c : Cause} {s t : State} (h : Stopped as c s t) : SameOutcome s t :=
  stopped_carry carries_sameOutcome (fun _ _ _ _ => move_sameOutcome) (fun _ _ _ => move_sameOutcome) h

theorem moves_sameOutcome {as : List Act} {s t : State} (h : Moves as s t) : SameOutcome s t :=
  moves_carry carries_sameOutcome (fun _ _ _ _ => move_sameOutcome) h

/-- An instruction that is no call leaves the sequencer (R37). -/
theorem seq_not_written {i : Instr} (hc : callOf i = .idle) : Part.seq ∉ written (acts i) := by
  cases i with
  | encode | decode => cases hc
  | _ => simp [written, acts, Act.parts]

/-- What an instruction's lines write, its rule says it writes; and a call writes the sequencer. -/
theorem written_acts (i : Instr) : written (acts i) ⊆ .seq :: touches i := by
  cases i <;> simp [written, acts, encodeActs, decodeActs, Act.parts, touches]

/-! The abort procedure (R222). -/

/-- What the abort procedure does for a call: its stream is closed, and the sequencer is idle again. -/
def closing : SeqOp → List Act
  | .idle => [.idle]
  | .encode => [.closeWriter, .idle]
  | .decode => [.closeReader, .idle]

theorem closing_acts {op : SeqOp} {a : Act} (h : a ∈ closing op) : a = .closeWriter ∨ a = .closeReader ∨ a = .idle := by
  cases op <;> simp only [closing, List.mem_cons, List.not_mem_nil, or_false] at h <;> tauto

theorem abortStream_moves (c : Cause) (s : State) : Moves (closing s.seq.op) s (abortStream c s) := by
  rw [abortStream]
  split_ifs with he hio hd
  · rw [he.1]; exact moves_one (by simp [closing]) (move_closeWriter_unsent s s.ioFail)
  · rw [he.1]; exact moves_one (by simp [closing]) (move_closeWriter_state s)
  · rw [hd.1]; exact moves_one (by simp [closing]) (.closeReader s)
  · exact .refl

/-- The cause is recorded; then the stream of the call is closed and the sequencer is idle (R222). -/
theorem abort_moves (c : Cause) (s : State) : Moves (closing s.seq.op) (s.withSt (s.st.record c)) (abort c s) := by
  refine (abortStream_moves c (s.withSt (s.st.record c))).tail ⟨.idle, ?_, .idle _⟩
  show Act.idle ∈ closing s.seq.op
  cases s.seq.op <;> simp [closing]

theorem abort_idleNow (c : Cause) (s : State) : (abort c s).idleNow := rfl

/-- A call that has begun to read ends with its reader closed (R222). -/
theorem abort_decode {c : Cause} {s : State} (hop : s.seq.op = .decode) (ho : s.br.isOpen = true) :
    (abort c s).br = closedReader := by
  simp [abort, abortStream, hop, ho, Machine.idle, closeReader, closedReader]

/-! How an instruction runs. -/

/-- `ENCODE` has opened its writer and begun (R184). -/
def begunEncode (s : State) : State := (s.withBw { buf := [], isOpen := true }).withSeq { op := .encode, phase := 1 }

/-- `DECODE` has opened its reader and begun (R203). -/
def begunDecode (s : State) : State :=
  (setDec .none (s.withBr { cur := [], exh := false, isOpen := true })).withSeq { op := .decode, phase := 1 }

theorem encode_begun {s : State} (ho : s.bw.isOpen = false) (h w : Int) (p : Bool) :
    opOf (.encode h w p) s = ((encodeBody h w p).next (assign Machine.idle)).done (begunEncode s) := by
  have hopen : openWriter s = .ok () (s.withBw { buf := [], isOpen := true }) := by simp [openWriter, ho]
  rw [opOf, Op.done, Op.done, encodeSteps_eq]
  simp only [Op.andThen, next_ok hopen, beginCall, assign_next]; rfl

theorem decode_begun {s : State} (ho : s.br.isOpen = false) (p : Bool) :
    opOf (.decode p) s = (decodeBody p).andThen finishDecode (begunDecode s) := by
  have hopen : openReader s = .ok () (setDec .none (s.withBr { cur := [], exh := false, isOpen := true })) := by
    simp [openReader, ho]
  rw [opOf, next_ok hopen, decodeSteps_eq]; rfl

/-- Every way an instruction but `SYS.RESET` can be answered by a next state. -/
inductive Ran (i : Instr) (s : State) : State → Prop
  /-- It is refused before it begins (R92, R217, R226). -/
  | refused (r : RefuseKind) : Ran i s (s.refusedBy r)
  /-- It ends well; a `DECODE` has closed its reader. -/
  | finished (r : Result) (u : State) (gate : s.st.err = 0 ∨ ungated i = true) (moves : Moves (acts i) s u)
      (seq : s.idleNow → u.idleNow) (closed : callOf i = .decode → u.br = closedReader) : Ran i s (reply (.ok r) u)
  /-- It stops for a cause; a call is still in progress then, with its reader open. -/
  | stopped (c : Cause) (u : State) (gate : s.st.err = 0 ∨ ungated i = true) (moves : Stopped (acts i) c s u)
      (op : s.seq.op = .idle → u.seq.op = callOf i)
      (opened : callOf i = .decode → u.seq.op = .decode ∧ u.br.isOpen = true) : Ran i s (reply c.reply (abort c u))

/-- Only the beginning and the end of a call change the operation in the sequencer (R37). -/
theorem move_op {a : Act} {s t : State} (h : Move a s t) : t.seq.op = s.seq.op ∨ a = .begin ∨ a = .idle := by
  cases h <;> simp [insertEntry, setDec]

/-- Only opening and closing the reader change that it is open (R25). -/
theorem move_readerOpen {a : Act} {s t : State} (h : Move a s t) :
    t.br.isOpen = s.br.isOpen ∨ a = .openReader ∨ a = .closeReader := by
  cases h <;> simp [insertEntry, setDec, Machine.idle, *]

/-- Pseudocode that stops inside a call has kept its operation in the sequencer. -/
theorem stopped_op {as : List Act} (hb : .begin ∉ as) (hi : .idle ∉ as) {c : Cause} {s t : State} (h : Stopped as c s t) :
    t.seq.op = s.seq.op := by
  refine stopped_carry (R := fun s t => t.seq.op = s.seq.op) ⟨fun _ => rfl, fun _ _ _ h g => g.trans h⟩
    (fun a ha _ _ hm => (move_op hm).resolve_right ?_) (fun _ _ _ hm => (move_op hm).resolve_right (by simp)) h
  rintro (rfl | rfl) <;> contradiction

theorem stopped_readerOpen {as : List Act} (hb : .openReader ∉ as) (hi : .closeReader ∉ as) {c : Cause} {s t : State}
    (h : Stopped as c s t) : t.br.isOpen = s.br.isOpen := by
  refine stopped_carry (R := fun s t => t.br.isOpen = s.br.isOpen) ⟨fun _ => rfl, fun _ _ _ h g => g.trans h⟩
    (fun a ha _ _ hm => (move_readerOpen hm).resolve_right ?_) (fun _ _ _ hm => (move_readerOpen hm).resolve_right (by simp)) h
  rintro (rfl | rfl) <;> contradiction

/-- Last lines that always go on, to a state with a property: the whole ends there, or stops before them. -/
theorem andThen_last {α β : Type} {P : State → Prop} {m : Op α} {f : α → Op β}
    (hf : ∀ a u, ∃ b v, f a u = .ok b v ∧ P v) (s : State) :
    (∀ b t, m.andThen f s = .ok b t → P t) ∧ ∀ c t, m.andThen f s = .stop c t → m s = .stop c t := by
  constructor
  · intro b t h
    obtain ⟨a, u, -, hb⟩ := andThen_eq_ok h
    obtain ⟨b', v, hv, hP⟩ := hf a u
    rw [hb] at hv; cases hv; exact hP
  · intro c t h
    rcases andThen_eq_stop h with h | ⟨a, u, -, hb⟩
    · exact h
    · obtain ⟨b', v, hv, -⟩ := hf a u
      rw [hb] at hv; cases hv

/-- How a call of `ENCODE` ends (R184): idle, or stopped while it is in progress. -/
theorem encode_ends {s : State} (ho : s.bw.isOpen = false) (h w : Int) (p : Bool) :
    (∀ r u, opOf (.encode h w p) s = .ok r u → u.idleNow) ∧
    ∀ c u, opOf (.encode h w p) s = .stop c u → u.seq.op = .encode := by
  have hlast := andThen_last (P := State.idleNow) (m := encodeBody h w p) (f := fun _ => (assign Machine.idle).done)
    (fun _ u => ⟨.done, idle u, rfl, rfl⟩) (begunEncode s)
  rw [encode_begun ho, Op.done, Op.next, andThen_assoc]
  refine ⟨hlast.1, fun c u hu => ?_⟩
  exact stopped_op (by simp [encodeActs]) (by simp [encodeActs]) ((acts_encodeBody h w p).stop _ _ _ (hlast.2 c u hu))

/-- How a call of `DECODE` ends (R203): idle with its reader closed, or stopped while it is in progress and its reader open. -/
theorem decode_ends {s : State} (ho : s.br.isOpen = false) (p : Bool) :
    (∀ r u, opOf (.decode p) s = .ok r u → u.idleNow ∧ u.br = closedReader) ∧
    ∀ c u, opOf (.decode p) s = .stop c u → u.seq.op = .decode ∧ u.br.isOpen = true := by
  have hlast := andThen_last (P := fun u => u.idleNow ∧ u.br = closedReader) (m := decodeBody p) (f := finishDecode)
    (fun _ u => ⟨_, _, rfl, rfl, rfl⟩) (begunDecode s)
  rw [decode_begun ho]
  refine ⟨hlast.1, fun c u hu => ?_⟩
  have hs := (acts_decodeBody p).stop _ _ _ (hlast.2 c u hu)
  exact ⟨stopped_op (by simp [decodeActs]) (by simp [decodeActs]) hs,
    stopped_readerOpen (by simp [decodeActs]) (by simp [decodeActs]) hs⟩

/-- What a call ends in, as an instruction that may begin (R184, R203). -/
theorem opOf_ends {i : Instr} {s : State} (hi : i ≠ .sysReset) (hb : MayBegin (callOf i) s) :
    (∀ r u, opOf i s = .ok r u → (s.idleNow → u.idleNow) ∧ (callOf i = .decode → u.br = closedReader)) ∧
    ∀ c u, opOf i s = .stop c u → (s.seq.op = .idle → u.seq.op = callOf i) ∧
      (callOf i = .decode → u.seq.op = .decode ∧ u.br.isOpen = true) := by
  have hacts := acts_opOf hi
  cases hc : callOf i with
  | idle =>
    have hseq := seq_not_written hc
    refine ⟨fun r u hu => ⟨fun h => ?_, nofun⟩, fun c u hu => ⟨fun h => ?_, nofun⟩⟩
    · exact Eq.trans (moves_same hseq (hacts.ok s r u hu)) h
    · exact (congrArg Sequencer.op (stopped_same hseq (hacts.stop s c u hu))).trans h
  | encode =>
    cases i with
    | encode h w p =>
      have he := encode_ends hb.2 h w p
      exact ⟨fun r u hu => ⟨fun _ => he.1 r u hu, nofun⟩, fun c u hu => ⟨fun _ => he.2 c u hu, nofun⟩⟩
    | _ => cases hc
  | decode =>
    cases i with
    | decode p =>
      have hd := decode_ends hb.2 p
      exact ⟨fun r u hu => ⟨fun _ => (hd.1 r u hu).1, fun _ => (hd.1 r u hu).2⟩,
        fun c u hu => ⟨fun _ => (hd.2 c u hu).1, fun _ => hd.2 c u hu⟩⟩
    | _ => cases hc

/-- What an instruction but `SYS.RESET` can do, said once. -/
theorem exec_ran {i : Instr} {s t : State} (hi : i ≠ .sysReset) (h : exec i s = .next t) : Ran i s t := by
  rcases exec_cases h with ⟨r, rfl⟩ | ⟨hgate, hb, hd⟩
  · exact .refused r
  obtain ⟨hok, hstop⟩ := opOf_ends hi hb
  cases he : opOf i s with
  | ok r u =>
    rw [he, deliver_ok] at hd; cases hd
    exact .finished r u hgate ((acts_opOf hi).ok s r u he) (hok r u he).1 (hok r u he).2
  | stop c u =>
    rw [he, deliver_stop] at hd; cases hd
    exact .stopped c u hgate ((acts_opOf hi).stop s c u he) (hstop c u he).1 (hstop c u he).2

/-- What every move an instruction can make keeps, and what the port and the status registers have no part in, the
instruction keeps. -/
theorem ran_carry {R : State → State → Prop} (hR : Carries R) {i : Instr}
    (hmove : ∀ a, a ∈ acts i ∨ a = .jam ∧ .write ∈ acts i ∨ a ∈ [.closeWriter, .closeReader, .idle] →
      ∀ s t, Move a s t → R s t)
    (hst : ∀ s v, R s (s.withSt v)) (hport : ∀ s v, R s (s.withPort v)) {s t : State} (h : Ran i s t) : R s t := by
  cases h with
  | refused r =>
    have hrefused := hR.trans _ _ _ (hst s (s.refusedBy r).st) (hport _ (s.refusedBy r).port)
    exact hrefused
  | finished r u _ hm _ _ => exact hR.trans _ _ _ (moves_carry hR (fun a ha => hmove a (.inl ha)) hm) (hport _ _)
  | stopped c u _ hm _ _ =>
    have hclose : Moves [.closeWriter, .closeReader, .idle] (u.withSt (u.st.record c)) (abort c u) :=
      moves_mono (fun a ha => by simpa using closing_acts ha) (abort_moves c u)
    have hstop := stopped_carry hR (fun a ha => hmove a (.inl ha)) (fun hw => hmove .jam (.inr (.inl ⟨rfl, hw⟩))) hm
    have habort := moves_carry hR (fun a ha => hmove a (.inr (.inr ha))) hclose
    exact hR.trans _ _ _ hstop (hR.trans _ _ _ (hst u _) (hR.trans _ _ _ habort (hport _ _)))

end Sys2Proof.Machine

/-! What every step keeps (R44): the canonical maps, the histogram's total, the recorded outcome, the stream units and the idle
sequencer, each from what single moves keep. -/

namespace Sys2Proof.Machine

/-! Steps (R44, R92, R236). -/

theorem decodeCommand_wf {op : Byte} {o : Operands} {i : Instr} (h : decodeCommand op o = .ok i) : i.wf = true := by
  rw [decodeCommand] at h
  split at h <;> cases h <;> rfl

theorem decodeRecord_wf {part : StreamPart} {bits : Bits} {i : Instr} (h : decodeRecord part bits = .ok i) :
    i.wf = true := by
  cases part with
  | header =>
    rw [decodeRecord] at h
    split_ifs at h
    cases h; rfl
  | table =>
    rw [decodeRecord] at h
    split_ifs at h with hs he
    · cases h; rfl
    · cases h
      have h1 := biasedField_lt bits
      have h2 := lengthField_lt bits
      obtain ⟨-, hne, hlen⟩ := he
      have hcod : Symbol.codable ((biasedField bits : Int) - Config.bias) = true := by
        rw [codable_iff]; simp only [Config.bias, Config.sentinel] at hne ⊢; omega
      have hcw : (bits.drop 14).length ≤ Config.lenMax := by rw [List.length_drop]; simp only [Config.lenMax]; omega
      rw [Instr.wf, hcod, decide_eq_true hcw]; rfl
  | payload =>
    rw [decodeRecord] at h
    split_ifs at h with hp
    cases h
    simp [Instr.wf, hp]
  | padding =>
    rw [decodeRecord] at h
    split_ifs at h with hp
    cases h
    simp [Instr.wf, hp.1]

/-- What the decoder accepts is well formed (R77, R79, R80). -/
theorem decode_wf {r : Request} {i : Instr} (h : decode r = .ok i) : i.wf = true := by
  cases r with
  | command op o => exact decodeCommand_wf h
  | record part bits => exact decodeRecord_wf h

/-- Every way a step can go on: the block waits, a reserved code is refused, or a well-formed instruction runs, in the state
without the request. -/
theorem step_cases {s t : State} (h : step s = .next t) :
    t = s ∨ ∃ port, t = (s.withPort port).refusedBy .illegalOp ∨ ∃ i, i.wf = true ∧ exec i (s.withPort port) = .next t := by
  rw [step, nextRequest] at h
  cases hp : s.port.pending with
  | nil => rw [hp] at h; cases h; exact .inl rfl
  | cons r rest =>
    rw [hp] at h
    refine .inr ⟨{ s.port with pending := rest }, ?_⟩
    simp only at h
    cases hd : decode r with
    | ok i => rw [hd] at h; exact .inr ⟨i, decode_wf hd, h⟩
    | error e =>
      rw [hd] at h
      cases e with
      | notARecord part => cases h
      | reservedOp op =>
        simp only [rejectRequest, refuseAtGate_eq] at h
        cases h
        exact .inl rfl

/-- What offering a request, refusing it, resetting the registers and running an instruction keep, every step keeps. -/
theorem step_keeps {P : State → Prop} (hport : ∀ s v, P s → P (s.withPort v)) (hrefused : ∀ s r, P s → P (s.refusedBy r))
    (hreset : ∀ s, P s → P (resetRegisters s)) (hran : ∀ i s t, i.wf = true → P s → Ran i s t → P t) {s t : State}
    (hs : P s) (h : step s = .next t) : P t := by
  rcases step_cases h with rfl | ⟨port, rfl | ⟨i, hwf, he⟩⟩
  · exact hs
  · exact hrefused _ _ (hport s port hs)
  by_cases hi : i = .sysReset
  · subst hi
    cases he
    exact hport _ _ (hreset _ (hport s port hs))
  · exact hran i _ t hwf (hport s port hs) (exec_ran hi he)

/-! The canonical maps (R33, R41). -/

/-- A relation that says a property is kept. -/
def Kept (P : State → Prop) (s t : State) : Prop := P s → P t

theorem carries_kept (P : State → Prop) : Carries (Kept P) := ⟨fun _ h => h, fun _ _ _ h g hs => g (h hs)⟩

/-- The record of an entry a stream can carry keeps the decode table's form. -/
theorem tableOk_entry {x : Symbol} {cw : Bits} (h : (Instr.entry x cw).wf = true) {d : List (Bits × Symbol)}
    (hd : TableOk d) : TableOk (Table.put bitsLt cw x d) := by
  rw [Instr.wf, Bool.and_eq_true] at h
  refine ⟨Table.sorted_put bitsLt_order _ _ hd.1, List.all_eq_true.mpr fun e he => ?_⟩
  rcases Table.mem_put he with rfl | he
  · rw [Bool.and_eq_true]; exact ⟨h.2, h.1⟩
  · exact List.all_eq_true.mp hd.2 e he

theorem move_mapsOk {a : Act} {s t : State} (hm : Move a s t)
    (ha : ∀ x cw, a = .entry x cw → (Instr.entry x cw).wf = true) : Kept MapsOk s t := by
  rintro ⟨himg, hdt⟩
  cases hm with
  | img _ m h => exact ⟨h himg, hdt⟩
  | table _ d h => exact ⟨himg, h hdt⟩
  | entry _ x cw => exact ⟨himg, tableOk_entry (ha x cw rfl) hdt⟩
  | _ => exact ⟨himg, hdt⟩

/-- Only the record of an entry puts one into the decode table unread. -/
theorem entry_mem_acts {i : Instr} {x : Symbol} {cw : Bits} (h : .entry x cw ∈ acts i) : i = .entry x cw := by
  cases i with
  | entry y cv => simpa [acts, eq_comm] using h
  | _ => simp [acts, encodeActs, decodeActs] at h

theorem ran_mapsOk {i : Instr} (hwf : i.wf = true) {s t : State} (h : Ran i s t) : Kept MapsOk s t := by
  refine ran_carry (carries_kept MapsOk) (fun a ha _ _ hm => move_mapsOk hm fun x cw he => ?_) (fun _ _ h => h)
    (fun _ _ h => h) h
  subst he
  rcases ha with ha | ⟨ha, -⟩ | ha
  · rw [entry_mem_acts ha] at hwf; exact hwf
  · cases ha
  · simp at ha

theorem step_mapsOk {s t : State} (hs : MapsOk s) (h : step s = .next t) : MapsOk t :=
  step_keeps (P := MapsOk) (fun _ _ h => h) (fun _ _ h => h) (fun _ h => ⟨h.1, rfl, rfl⟩)
    (fun _ _ _ hwf hs hr => ran_mapsOk hwf hr hs) hs h

/-! The histogram (R28). -/

theorem move_histogramOk {a : Act} {s t : State} (hm : Move a s t) : Kept HistogramOk s t := by
  intro hs
  cases hm with
  | count _ v h => exact h hs
  | _ => exact hs

theorem ran_histogramOk {i : Instr} {s t : State} (h : Ran i s t) : Kept HistogramOk s t :=
  ran_carry (carries_kept HistogramOk) (fun _ _ _ _ hm => move_histogramOk hm) (fun _ _ h => h) (fun _ _ h => h) h

theorem histogramOk_initial (e : Environment) : HistogramOk (State.initial e) := by
  show 0 = (Vector.replicate 511 0).toList.sum
  rw [Vector.toList_replicate, List.sum_replicate]; rfl

theorem step_histogramOk {s t : State} (hs : HistogramOk s) (h : step s = .next t) : HistogramOk t :=
  step_keeps (P := HistogramOk) (fun _ _ h => h) (fun _ _ h => h) (fun s _ => histogramOk_initial s.environment)
    (fun _ _ _ _ hs hr => ran_histogramOk hr hs) hs h

/-! The outcome (R39, R211, R218, R222). -/

theorem refusedBy_st (s : State) (r : RefuseKind) : (s.refusedBy r).st.err = s.st.err ∧ (s.refusedBy r).st.info = s.st.info ∧
    (s.refusedBy r).st.ref = if s.st.ref = 0 then refusalNumber r else s.st.ref := ⟨rfl, rfl, rfl⟩

theorem withSt_st (s : State) (v : Status) : (s.withSt v).st = v := rfl

theorem abort_st (c : Cause) (s : State) : SameOutcome (s.withSt (s.st.record c)) (abort c s) :=
  moves_sameOutcome (abort_moves c s)

/-- What a state records of the outcome its port reports, the state before being `s`. -/
def Recorded (s t : State) : Prop :=
  match t.port.reply with
  | none => False
  | some (.ok _) => t.st.err = s.st.err ∧ t.st.info = s.st.info ∧ t.st.ref = s.st.ref
  | some (.fault e info) => t.st.ref = s.st.ref ∧
      (s.st.err = 0 → t.st.err = faultNumber e ∧ t.st.info = info) ∧
      (s.st.err ≠ 0 → t.st.err = s.st.err ∧ t.st.info = s.st.info)
  | some (.refused r) => t.st.err = s.st.err ∧ t.st.info = s.st.info ∧
      t.st.ref = if s.st.ref = 0 then refusalNumber r else s.st.ref

/-- A stop records its cause, when it is the first of its kind (R222). -/
theorem recorded_abort {c : Cause} {s u : State} (h : SameOutcome s u) : Recorded s (reply c.reply (abort c u)) := by
  obtain ⟨he, hi, hr, -⟩ := h
  obtain ⟨ae, ai, ar, -⟩ := abort_st c u
  rw [withSt_st] at ae ai ar
  cases c with
  | fault e info =>
    show (abort _ u).st.ref = _ ∧ (_ → (abort _ u).st.err = _ ∧ (abort _ u).st.info = _) ∧
      (_ → (abort _ u).st.err = _ ∧ (abort _ u).st.info = _)
    rw [ae, ai, ar, ← he, ← hi, ← hr, faultNumber_eq, Status.record, Status.recordFault]
    by_cases h0 : u.st.err = 0
    · rw [if_pos h0]; exact ⟨rfl, fun _ => ⟨rfl, rfl⟩, fun h => absurd h0 h⟩
    · rw [if_neg h0]; exact ⟨rfl, fun h => absurd h h0, fun _ => ⟨rfl, rfl⟩⟩
  | refuse r =>
    show (abort _ u).st.err = _ ∧ (abort _ u).st.info = _ ∧ (abort _ u).st.ref = _
    rw [ae, ai, ar, ← he, ← hi, ← hr, refusalNumber_eq, Status.record, Status.recordRefusal]
    by_cases h0 : u.st.ref = 0
    · rw [if_pos h0, if_pos h0]; exact ⟨rfl, rfl, rfl⟩
    · rw [if_neg h0, if_neg h0]; exact ⟨rfl, rfl, rfl⟩

theorem ran_recorded {i : Instr} {s t : State} (h : Ran i s t) : Recorded s t := by
  cases h with
  | refused r => exact refusedBy_st s r
  | finished r u _ hm _ _ => obtain ⟨he, hi, hr, -⟩ := moves_sameOutcome hm; exact ⟨he, hi, hr⟩
  | stopped c u _ hm _ _ => exact recorded_abort (stopped_sameOutcome hm)

/-- Settles O9: a move leaves the recorded outcome, and the abort procedure records the cause. -/
theorem outcomesAreRecorded : Obligations.OutcomesAreRecorded := fun _ _ _ h hi => ran_recorded (exec_ran hi h)

/-- A recorded fault stays (R39). -/
theorem ran_faultStays {i : Instr} {s t : State} (h : Ran i s t) (h0 : s.st.err ≠ 0) : t.st.err ≠ 0 := by
  have hr := ran_recorded h
  rw [Recorded] at hr
  split at hr
  · exact hr.elim
  · rw [hr.1]; exact h0
  · rw [(hr.2.2 h0).1]; exact h0
  · rw [hr.1]; exact h0

/-! The stream units (R21, R23, R25, R43). -/

/-- The bounds of the stream units, which hold in the middle of an operation too. -/
def UnitsOk (s : State) : Prop :=
  s.bw.buf.length ≤ 7 ∧ s.br.cur.length ≤ 8 ∧ (s.br.isOpen = false → s.br.exh = true) ∧ s.src.pos ≤ s.src.bytes.length

/-- A completed byte waits only after a fault, and no bit beside it (R221). -/
def WaitingOk (s : State) : Prop := s.bw.full ≠ none → s.st.err ≠ 0 ∧ s.bw.buf = []

theorem streamsOk_iff (s : State) : StreamsOk s ↔ UnitsOk s ∧ WaitingOk s := by
  simp only [StreamsOk, UnitsOk, WaitingOk]; tauto

theorem move_unitsOk {a : Act} {s t : State} (hm : Move a s t) : Kept UnitsOk s t := by
  rintro ⟨hbuf, hcur, hclosed, hpos⟩
  cases hm with
  | write _ io bytes v hb _ => exact ⟨hb hbuf, hcur, hclosed, hpos⟩
  | jam | openWriter | closeWriter => exact ⟨Nat.zero_le 7, hcur, hclosed, hpos⟩
  | read _ io pos v _ hend hopen hc hstay _ =>
    exact ⟨hbuf, hc hcur, fun ho => hstay (hclosed (hopen.symm.trans ho)), hend hpos⟩
  | openReader => exact ⟨hbuf, Nat.zero_le 8, nofun, hpos⟩
  | closeReader => exact ⟨hbuf, Nat.zero_le 8, fun _ => rfl, hpos⟩
  | _ => exact ⟨hbuf, hcur, hclosed, hpos⟩

theorem ran_unitsOk {i : Instr} {s t : State} (h : Ran i s t) : Kept UnitsOk s t :=
  ran_carry (carries_kept UnitsOk) (fun _ _ _ _ hm => move_unitsOk hm) (fun _ _ h => h) (fun _ _ h => h) h

/-- No byte begins to wait in the writer but by a failed append. -/
theorem move_full {a : Act} {s t : State} (hm : Move a s t) (ha : a ≠ .jam) : Kept (fun s => s.bw.full = none) s t := by
  intro hs
  cases hm with
  | jam => exact absurd rfl ha
  | write _ io bytes v _ hf => exact hf hs
  | openWriter | closeWriter => rfl
  | _ => exact hs

theorem moves_full {as : List Act} (hj : .jam ∉ as) {s t : State} (h : Moves as s t) (hs : s.bw.full = none) :
    t.bw.full = none :=
  moves_carry (carries_kept fun s => s.bw.full = none) (fun _ ha _ _ hm => move_full hm fun he => hj (he ▸ ha)) h hs

theorem jam_not_mem_acts (i : Instr) : Act.jam ∉ acts i := by cases i <;> simp [acts, encodeActs, decodeActs]

/-- The writer is as before, or no byte waits in it. -/
def WriterKept (s t : State) : Prop := t.bw = s.bw ∨ t.bw.full = none

theorem carries_writerKept : Carries WriterKept where
  refl _ := .inl rfl
  trans s t u h g := by
    rcases g with g | g
    · rw [WriterKept, g]; exact h
    · exact .inr g

theorem move_writerKept {a : Act} {s t : State} (hm : Move a s t) (hw : a ≠ .write) (hj : a ≠ .jam) : WriterKept s t := by
  cases hm with
  | write => exact absurd rfl hw
  | jam => exact absurd rfl hj
  | openWriter | closeWriter => exact .inr rfl
  | _ => exact .inl rfl

/-- The abort procedure leaves the writer or releases it (R222). -/
theorem abort_writerKept (c : Cause) (u : State) : WriterKept u (abort c u) := by
  have h : WriterKept (u.withSt (u.st.record c)) (abort c u) :=
    moves_carry carries_writerKept (fun a ha _ _ hm => by
      rcases closing_acts ha with rfl | rfl | rfl <;> exact move_writerKept hm nofun nofun) (abort_moves c u)
  exact h

/-- What the gate lets pass writes no bits (R226). -/
theorem ungated_acts {i : Instr} (hu : ungated i = true) : Act.write ∉ acts i := by
  cases i with
  | sysReset | sysStatus | bwClose | brClose => simp [acts]
  | _ => cases hu

theorem faultNumber_ne (e : FaultKind) : faultNumber e ≠ 0 := by cases e <;> decide

theorem abort_fault_err (e : FaultKind) (info : Int × Int) (u : State) : (abort (.fault e info) u).st.err ≠ 0 := by
  rw [(abort_st _ u).1, withSt_st, Status.record, Status.recordFault]
  split_ifs with h
  · exact faultNumber_eq e ▸ faultNumber_ne e
  · exact h

/-- Behind the open gate no byte waits, and only a fault can leave one. -/
theorem waitingOk_ran_unfaulted {i : Instr} {s t : State} (h : Ran i s t) (hn : s.bw.full = none) : WaitingOk t := by
  cases h with
  | refused r => exact fun hf => absurd hn hf
  | finished r u _ hm _ _ => exact fun hf => absurd (moves_full (jam_not_mem_acts i) hm hn) hf
  | stopped c u _ hm _ _ =>
    intro (hf : (abort c u).bw.full ≠ none)
    have hu := (abort_writerKept c u).resolve_right hf
    rw [hu] at hf
    rcases hm with hm | ⟨-, ⟨e, info, rfl⟩, v, hv, hjam⟩
    · exact absurd (moves_full (jam_not_mem_acts i) hm hn) hf
    · refine ⟨abort_fault_err e info u, ?_⟩
      cases hjam
      exact congrArg BitWriter.buf hu

/-- While a fault is recorded the writer is left or released. -/
theorem waitingOk_ran_faulted {i : Instr} {s t : State} (h : Ran i s t) (h0 : s.st.err ≠ 0) (hs : WaitingOk s) :
    WaitingOk t := by
  have hstays := ran_faultStays h h0
  have hgate : (∃ r, t = s.refusedBy r) ∨ ungated i = true := by
    cases h with
    | refused r => exact .inl ⟨r, rfl⟩
    | finished r u hg => exact .inr (hg.resolve_left h0)
    | stopped c u hg => exact .inr (hg.resolve_left h0)
  rcases hgate with ⟨r, rfl⟩ | hu
  · exact hs
  have hw := ungated_acts hu
  have hkept : WriterKept s t := by
    refine ran_carry carries_writerKept (fun a ha _ _ hm => move_writerKept hm ?_ ?_) (fun _ _ => .inl rfl)
      (fun _ _ => .inl rfl) h
    · rintro rfl; simp [hw] at ha
    · rintro rfl; simp [hw, jam_not_mem_acts] at ha
  intro hf
  have hbw := hkept.resolve_right hf
  rw [hbw] at hf
  exact ⟨hstays, (congrArg BitWriter.buf hbw).trans (hs hf).2⟩

theorem ran_waitingOk {i : Instr} {s t : State} (h : Ran i s t) : Kept WaitingOk s t := by
  intro hs
  by_cases h0 : s.st.err = 0
  · exact waitingOk_ran_unfaulted h (by by_contra hf; exact (hs hf).1 h0)
  · exact waitingOk_ran_faulted h h0 hs

theorem step_streamsOk {s t : State} (hs : StreamsOk s) (h : step s = .next t) : StreamsOk t :=
  step_keeps (P := StreamsOk) (fun _ _ h => h) (fun _ _ h => h)
    (fun _ h => ⟨Nat.zero_le 7, nofun, Nat.zero_le 8, fun _ => rfl, h.2.2.2.2⟩)
    (fun _ _ _ _ hs hr => by
      obtain ⟨hu, hw⟩ := (streamsOk_iff _).mp hs
      exact (streamsOk_iff _).mpr ⟨ran_unitsOk hr hu, ran_waitingOk hr hw⟩) hs h

/-! The sequencer and the status registers (R44, R211, R218). -/

theorem ran_idleNow {i : Instr} {s t : State} (h : Ran i s t) (hs : s.idleNow) : t.idleNow := by
  cases h with
  | refused r => exact hs
  | finished r u _ _ hseq _ => exact hseq hs
  | stopped c u => exact abort_idleNow c u

theorem faultNumber_le (e : FaultKind) : (faultNumber e).toNat ≤ 4 := by cases e <;> decide

theorem refusalNumber_le (r : RefuseKind) : (refusalNumber r).toNat ≤ 11 := by cases r <;> decide

theorem refusal_le {s : State} (r : RefuseKind) (h : s.st.ref.toNat ≤ 11) :
    (if s.st.ref = 0 then refusalNumber r else s.st.ref).toNat ≤ 11 := by
  split
  · exact refusalNumber_le r
  · exact h

theorem recorded_codes {s t : State} (h : Recorded s t) (he : s.st.err.toNat ≤ 4) (hr : s.st.ref.toNat ≤ 11) :
    t.st.err.toNat ≤ 4 ∧ t.st.ref.toNat ≤ 11 := by
  rw [Recorded] at h
  split at h
  · exact h.elim
  · rw [h.1, h.2.2]; exact ⟨he, hr⟩
  · rename_i e info _
    obtain ⟨href, hfirst, hlater⟩ := h
    rw [href]
    refine ⟨?_, hr⟩
    by_cases h0 : s.st.err = 0
    · rw [(hfirst h0).1]; exact faultNumber_le e
    · rw [(hlater h0).1]; exact he
  · rw [h.1, h.2.2]; exact ⟨he, refusal_le _ hr⟩

theorem step_sequencerOk {s t : State} (hs : SequencerOk s) (h : step s = .next t) : SequencerOk t :=
  step_keeps (P := SequencerOk) (fun _ _ h => h) (fun _ r h => ⟨h.1, h.2.1, refusal_le r h.2.2⟩)
    (fun _ _ => ⟨rfl, Nat.zero_le 4, Nat.zero_le 11⟩)
    (fun _ _ _ _ hs hr => ⟨ran_idleNow hr hs.1, recorded_codes (ran_recorded hr) hs.2.1 hs.2.2⟩) hs h

/-- Settles O58: each part of the invariant by itself, from what single moves keep. -/
theorem stepsKeepTheRegistersForms : Obligations.StepsKeepTheRegistersForms :=
  ⟨fun _ _ => step_mapsOk, fun _ _ => step_streamsOk, fun _ _ => step_histogramOk, fun _ _ => step_sequencerOk⟩

end Sys2Proof.Machine

/-! The rest of the state's family: the tree (R29, R32), the frame of every instruction (R50), the sink and the source (R42,
R43), failing accesses (R215), steps and reset (R44, R48). -/

namespace Sys2Proof.Machine

/-! The tree and the code table (R29, R32, R155, R156). -/

theorem allSymbols_length : allSymbols.length = 511 := by rw [allSymbols, List.length_map, List.length_range]; rfl

/-- There are no more than 511 codable symbols (R8). -/
theorem length_le_of_codable {xs : List Symbol} (hd : xs.Nodup) (hc : ∀ x ∈ xs, isCodable x = true) : xs.length ≤ 511 := by
  rw [← allSymbols_length]
  exact (hd.subperm fun x hx => (mem_allSymbols x).mpr (hc x hx)).length_le

theorem beginsNoOther_of_pairwise {es : List (Symbol × Bits)} (h : es.Pairwise fun a b => ¬a.2 <+: b.2 ∧ ¬b.2 <+: a.2) :
    beginsNoOther es = true := by
  induction h with
  | nil => rfl
  | cons hhead _ ih =>
    rw [beginsNoOther, Bool.and_eq_true, List.all_eq_true]
    exact ⟨fun e he => by simpa [← List.isPrefixOf_iff_prefix] using hhead e he, ih⟩

/-- Below an internal node a path has a bit at least. -/
theorem codesBelow_internal_length {node : List Node} (h : ChildrenFirst node) {i l r : Nat} {w : Prob}
    (hn : node[i]? = some (.internal w l r)) : ∀ e ∈ codesBelow node i, 1 ≤ e.2.length := by
  intro e he
  rw [codesBelow_internal h hn, List.mem_append, List.mem_map, List.mem_map] at he
  rcases he with ⟨e, -, rfl⟩ | ⟨e, -, rfl⟩ <;> exact Nat.le_add_left 1 _

/-- The codewords of a tree: 1 to 510 bits, and none the beginning of another (R155, R156). -/
theorem codesOf_codewords {t : HuffmanTree} (h : t.isTree = true) :
    (∀ e ∈ codesOf t, 1 ≤ e.2.length ∧ e.2.length ≤ 510) ∧ beginsNoOther (codesOf t) = true := by
  obtain ⟨hnn, hcf, ⟨r, hroot, hr⟩, hnodup, hcod⟩ := isTree_facts h
  cases hn : t.node[r] with
  | leaf x w =>
    rw [codesOf_leaf hroot ((List.getElem?_eq_getElem hr).trans (congrArg some hn))]
    exact ⟨fun e he => by rw [List.mem_singleton.mp he]; exact ⟨le_refl 1, by simp⟩, rfl⟩
  | internal w a b =>
    have hget := (List.getElem?_eq_getElem hr).trans (congrArg some hn)
    have hcodes := codesOf_internal hcf (hnn ▸ hr) hroot hget
    have hlen : (codesOf t).length ≤ 511 := by
      simpa using length_le_of_codable hnodup fun x hx => by
        obtain ⟨e, he, rfl⟩ := List.mem_map.mp hx
        exact hcod e he
    rw [hcodes] at hlen ⊢
    refine ⟨fun e he => ⟨codesBelow_internal_length hcf hget e he, ?_⟩, beginsNoOther_of_pairwise (codesBelow_prefix hcf r hr)⟩
    have := codesBelow_length hcf r hr e he
    omega

/-- `HT.GEN` on a tree makes a code table of the form every code table has. -/
theorem codesOf_wf {t : HuffmanTree} (h : t.isTree = true) : CodeTable.wf { entries := codesOf t } = true := by
  obtain ⟨-, -, -, hnodup, hcod⟩ := isTree_facts h
  obtain ⟨hlen, hbegins⟩ := codesOf_codewords h
  have hrep : hasRepeat (CodeTable.order { entries := codesOf t }) = false := by
    rw [Bool.eq_false_iff, Ne, hasRepeat_iff, not_not]; exact hnodup
  simp only [CodeTable.wf, hrep, hbegins, Bool.not_false, Bool.true_and, Bool.and_true, List.all_eq_true, Bool.and_eq_true,
    decide_eq_true_eq]
  exact fun e he => ⟨⟨hcod e he, (hlen e he).1⟩, (hlen e he).2⟩

/-- A tree of the most symbols there are has 1021 nodes (R8). -/
theorem buildTree_nn_le {xs : List Symbol} {ps : List Prob} (h : validAlphabet xs ps) :
    (buildTree xs ps).nn ≤ Config.maxNodes := by
  obtain ⟨hl, h0, -, -, -, h511⟩ := h
  obtain ⟨-, -, -, hnn⟩ := buildTree_forest hl h0
  rw [hnn]; show _ ≤ 1021; omega

theorem move_treeOk {a : Act} {s t : State} (hm : Move a s t) : Kept TreeOk s t := by
  rintro ⟨htree, hnn, hct⟩
  cases hm with
  | build _ xs ps h => exact ⟨.inr (buildTree_isTree h), buildTree_nn_le h, hct⟩
  | generate _ h => exact ⟨htree, hnn, codesOf_wf (htree.resolve_left h)⟩
  | _ => exact ⟨htree, hnn, hct⟩

theorem ran_treeOk {i : Instr} {s t : State} (h : Ran i s t) : Kept TreeOk s t :=
  ran_carry (carries_kept TreeOk) (fun _ _ _ _ hm => move_treeOk hm) (fun _ _ h => h) (fun _ _ h => h) h

theorem treeOk_initial (e : Environment) : TreeOk (State.initial e) := ⟨.inl rfl, Nat.zero_le _, rfl⟩

/-- Settles O59: a built arena is a tree, and the codes of a tree are a code table. -/
theorem stepsKeepATree : Obligations.StepsKeepATree := fun _ _ =>
  step_keeps (P := TreeOk) (fun _ _ h => h) (fun _ _ h => h) (fun s _ => treeOk_initial s.environment)
    fun _ _ _ _ hs hr => ran_treeOk hr hs

/-! The frame (R50). -/

/-- The port's reply and the recorded outcome are no part. -/
theorem same_reply (p : Part) (r : Reply) (s : State) : p.same s (reply r s) := by cases p <;> rfl

theorem same_refusedBy (p : Part) (r : RefuseKind) (s : State) : p.same s (s.refusedBy r) := by cases p <;> rfl

theorem record_dec (st : Status) (c : Cause) : (st.record c).dec = st.dec := by
  cases c with
  | fault e info => rw [Status.record, Status.recordFault]; split <;> rfl
  | refuse r => rw [Status.record, Status.recordRefusal]; split <;> rfl

theorem same_record (p : Part) (c : Cause) (s : State) : p.same s (s.withSt (s.st.record c)) := by
  cases p with
  | dec => exact record_dec s.st c
  | _ => rfl

/-- Closing a call's stream writes what the call writes. -/
theorem written_closing (i : Instr) : written (closing (callOf i)) ⊆ .seq :: touches i := by
  cases i <;> simp [written, callOf, closing, Act.parts, touches]

/-- Between calls an instruction leaves every part it does not write. -/
theorem ran_same {i : Instr} {s t : State} {p : Part} (hs : s.idleNow) (hp : p ∉ touches i)
    (h : Ran i s t) : p.same s t := by
  by_cases hseq : p = .seq
  · subst hseq; exact (ran_idleNow h hs).trans (Eq.symm hs)
  have hnot : p ∉ .seq :: touches i := fun h => (List.mem_cons.mp h).elim hseq hp
  have hacts : p ∉ written (acts i) := fun hw => hnot (written_acts i hw)
  have trans := fun {s t u : State} => (carries_same p).trans s t u
  cases h with
  | refused r => exact same_refusedBy p r s
  | finished r u _ hm _ _ => exact trans (moves_same hacts hm) (same_reply p _ u)
  | stopped c u _ hm hop _ =>
    have hclose : p ∉ written (closing u.seq.op) := by
      rw [hop (congrArg Sequencer.op hs)]
      exact fun hw => hnot (written_closing i hw)
    have habort := trans (same_record p c u) (moves_same hclose (abort_moves c u))
    exact trans (stopped_same hacts hm) (trans habort (same_reply p _ _))

theorem sysReset_same {s t : State} {p : Part} (hs : s.idleNow) (hp : p ∉ touches .sysReset) (h : exec .sysReset s = .next t) :
    p.same s t := by
  cases h
  cases p with
  | seq => exact Eq.symm hs
  | img | sink | src | io | draws | pending => rfl
  | _ => simp [touches] at hp

/-- Settles O11: the lines an instruction is made of write no other part, and the abort procedure closes the call's own
stream. -/
theorem instructionsLeaveOtherPartsAlone : Obligations.InstructionsLeaveOtherPartsAlone := by
  intro i s t p hs h hp
  by_cases hi : i = .sysReset
  · subst hi; exact sysReset_same hs hp h
  · exact ran_same hs hp (exec_ran hi h)

/-! The sink (R42). -/

theorem abort_behind (c : Cause) (p : List Byte) (s : State) : abort c (s.behind p) = (abort c s).behind p := by
  have hst (u : State) : (closeWriter (u.behind p)).state = (closeWriter u).state.behind p := by
    rw [blind_closeWriter]; cases closeWriter u <;> rfl
  have hstream (u : State) : abortStream c (u.behind p) = (abortStream c u).behind p := by
    have hseq : (u.behind p).seq = u.seq := rfl
    have hbw : (u.behind p).bw = u.bw := rfl
    have hbr : (u.behind p).br = u.br := rfl
    simp only [abortStream, hseq, hbw, hbr, hst]
    split_ifs <;> rfl
  exact congrArg Machine.idle (hstream (s.withSt (s.st.record c)))

theorem deliver_behind (p : List Byte) (e : Ending Result) : deliver (e.behind p) = behindAnswer p (deliver e) := by
  cases e with
  | ok r s => rfl
  | stop c s => rw [Ending.behind, deliver_stop, deliver_stop, abort_behind]; rfl

/-- The same operation on the same sink and on another (R42), for what a step answers. -/
def BlindAnswer (f : State → Answer) : Prop := ∀ p s, f (s.behind p) = behindAnswer p (f s)

theorem blindAnswer_deliver {body : Op Result} (h : body.Blind) : BlindAnswer fun s => deliver (body s) := fun p s => by
  simp only [h p s, deliver_behind]

theorem blindAnswer_refuseAtGate (r : RefuseKind) : BlindAnswer (refuseAtGate r) := fun _ _ => rfl

/-- A choice by what is not in the sink. -/
theorem blindAnswer_ite {c : State → Prop} [DecidablePred c] (hc : ∀ p s, c (s.behind p) ↔ c s) {f g : State → Answer}
    (hf : BlindAnswer f) (hg : BlindAnswer g) : BlindAnswer fun s => if c s then f s else g s := fun p s => by
  by_cases h : c s
  · simp only [(hc p s).mpr h, h, if_true, hf p s]
  · simp only [mt (hc p s).mp h, h, if_false, hg p s]

theorem blindAnswer_gate {body : State → Answer} (h : BlindAnswer body) : BlindAnswer (gate body) :=
  blindAnswer_ite (c := fun s => s.st.err ≠ 0) (fun _ _ => Iff.rfl) (blindAnswer_refuseAtGate .faulted) h

theorem blind_opOf (i : Instr) : (opOf i).Blind := by
  by_cases hi : i = .sysReset
  · subst hi; exact fun _ _ => rfl
  · exact (acts_opOf hi).blind

/-- No instruction looks at the sink. -/
theorem blindAnswer_exec (i : Instr) : BlindAnswer (exec i) := by
  have hbody := blindAnswer_deliver (blind_opOf i)
  cases i with
  | sysReset | sysStatus | bwClose | brClose => exact hbody
  | encode h w p =>
    exact blindAnswer_gate <| blindAnswer_ite (c := fun s => s.seq.op ≠ .idle) (fun _ _ => Iff.rfl)
      (blindAnswer_refuseAtGate .busy) <| blindAnswer_ite (c := fun s => s.bw.isOpen = true) (fun _ _ => Iff.rfl)
      (blindAnswer_refuseAtGate .alreadyOpen) hbody
  | decode p =>
    exact blindAnswer_gate <| blindAnswer_ite (c := fun s => s.seq.op ≠ .idle) (fun _ _ => Iff.rfl)
      (blindAnswer_refuseAtGate .busy) <| blindAnswer_ite (c := fun s => s.br.isOpen = true) (fun _ _ => Iff.rfl)
      (blindAnswer_refuseAtGate .alreadyOpen) hbody
  | htGen =>
    exact blindAnswer_gate <| blindAnswer_ite (c := fun s => s.ht.root ≠ none ∧ s.ht.isTree = false) (fun _ _ => Iff.rfl)
      (fun _ _ => rfl) hbody
  | codeword cw => exact blindAnswer_gate hbody
  | _ => exact blindAnswer_gate hbody

/-- Settles O12: what an instruction appends is what it appends to an empty sink. -/
theorem sinkGrowsAndIsNeverRead : Obligations.SinkGrowsAndIsNeverRead := by
  intro i s t h
  have hrun (p : List Byte) : exec i (s.withSink p) = behindAnswer p (exec i (s.withSink [])) := by
    have := blindAnswer_exec i p (s.withSink [])
    rwa [State.behind, withSink_withSink, show (s.withSink []).sink = [] from rfl, List.append_nil] at this
  have hs := hrun s.sink
  rw [withSink_self, h] at hs
  cases he : exec i (s.withSink []) with
  | next u =>
    rw [he] at hs hrun
    cases hs
    exact ⟨u.sink, rfl, fun other => hrun other⟩
  | fault f => rw [he] at hs; cases hs
  | refused r => rw [he] at hs; cases hs

/-! The source (R24, R43, R57). -/

/-- The source's bytes stay, and its position moves forward within them. -/
def SourceAdvances (s t : State) : Prop :=
  t.src.bytes = s.src.bytes ∧ s.src.pos ≤ t.src.pos ∧ (s.src.pos ≤ s.src.bytes.length → t.src.pos ≤ t.src.bytes.length)

theorem carries_sourceAdvances : Carries SourceAdvances where
  refl _ := ⟨rfl, le_refl _, id⟩
  trans _ _ _ h g := ⟨g.1.trans h.1, h.2.1.trans g.2.1, g.2.2 ∘ h.2.2⟩

theorem move_sourceAdvances {a : Act} {s t : State} (hm : Move a s t) : SourceAdvances s t := by
  cases hm with
  | read _ io pos v hpos hend _ _ _ _ => exact ⟨rfl, hpos, hend⟩
  | _ => exact ⟨rfl, le_refl _, id⟩

theorem ran_sourceAdvances {i : Instr} {s t : State} (h : Ran i s t) : SourceAdvances s t :=
  ran_carry carries_sourceAdvances (fun _ _ _ _ hm => move_sourceAdvances hm) (fun s _ => carries_sourceAdvances.refl s)
    (fun s _ => carries_sourceAdvances.refl s) h

theorem move_exhausted {a : Act} {s t : State} (hm : Move a s t) (ha : a ≠ .openReader) :
    Kept (fun s => s.br.exh = true) s t := by
  intro hs
  cases hm with
  | read _ io pos v _ _ _ _ hstay _ => exact hstay hs
  | openReader => exact absurd rfl ha
  | closeReader => rfl
  | _ => exact hs

theorem openReader_mem_acts {i : Instr} (h : Act.openReader ∈ acts i) : i = .brOpen ∨ callOf i = .decode := by
  cases i <;> simp [acts, encodeActs, callOf] at h ⊢

/-- An exhausted reader stays so until `BR.OPEN`; a `DECODE` closes the one it opens. -/
theorem ran_exhausted {i : Instr} {s t : State} (h : Ran i s t) (hi : i ≠ .brOpen) (hs : s.br.exh = true) :
    t.br.exh = true := by
  by_cases hd : callOf i = .decode
  · cases h with
    | refused r => exact hs
    | finished r u _ _ _ hclosed => exact congrArg BitReader.exh (hclosed hd)
    | stopped c u _ _ _ hopened =>
      obtain ⟨hop, ho⟩ := hopened hd
      exact congrArg BitReader.exh (abort_decode hop ho)
  · refine ran_carry (carries_kept fun s => s.br.exh = true) (fun a ha _ _ hm => move_exhausted hm ?_) (fun _ _ h => h)
      (fun _ _ h => h) h hs
    rintro rfl
    rcases ha with ha | ⟨ha, -⟩ | ha
    · exact (openReader_mem_acts ha).elim hi hd
    · cases ha
    · simp at ha

/-- A reader becomes exhausted only at the end of the data. -/
def ExhaustsAtEnd (s t : State) : Prop :=
  SourceAdvances s t ∧ (t.br.exh = true → s.br.exh = true ∨ s.src.bytes.length ≤ t.src.pos)

theorem carries_exhaustsAtEnd : Carries ExhaustsAtEnd where
  refl s := ⟨carries_sourceAdvances.refl s, .inl⟩
  trans s t u h g := by
    obtain ⟨hsrc, hexh⟩ := h
    obtain ⟨gsrc, gexh⟩ := g
    refine ⟨carries_sourceAdvances.trans s t u hsrc gsrc, fun hu => ?_⟩
    rcases gexh hu with ht | hend
    · exact (hexh ht).imp_right fun hend => hend.trans gsrc.2.1
    · exact .inr (hsrc.1 ▸ hend)

theorem move_exhaustsAtEnd {a : Act} {s t : State} (hm : Move a s t) (ha : a ≠ .closeReader) : ExhaustsAtEnd s t := by
  refine ⟨move_sourceAdvances hm, ?_⟩
  cases hm with
  | read _ io pos v _ _ _ _ _ hexh => exact hexh
  | openReader => exact nofun
  | closeReader => exact absurd rfl ha
  | _ => exact .inl

theorem closeReader_mem_acts {i : Instr} (h : Act.closeReader ∈ acts i) : i = .brClose ∨ ∃ p, i = .decode p := by
  cases i <;> simp [acts, encodeActs] at h ⊢

/-- Between calls a reader becomes exhausted only at the end of the data, but for `BR.CLOSE` and `DECODE`. -/
theorem ran_exhaustsAtEnd {i : Instr} {s t : State} (h : Ran i s t) (hs : s.idleNow)
    (hi : ¬(i = .brClose ∨ ∃ p, i = .decode p)) : ExhaustsAtEnd s t := by
  have hacts : ∀ a ∈ acts i, ∀ s t, Move a s t → ExhaustsAtEnd s t := fun a ha _ _ hm =>
    move_exhaustsAtEnd hm fun he => hi (closeReader_mem_acts (he ▸ ha))
  cases h with
  | refused r => exact carries_exhaustsAtEnd.refl s
  | finished r u _ hm _ _ =>
    have hmoves : ExhaustsAtEnd s u := moves_carry carries_exhaustsAtEnd hacts hm
    exact hmoves
  | stopped c u _ hm hop _ =>
    have hstop := stopped_carry carries_exhaustsAtEnd hacts (fun _ _ _ hm => move_exhaustsAtEnd hm nofun) hm
    have hclose : Act.closeReader ∉ closing u.seq.op := by
      rw [hop (congrArg Sequencer.op hs)]
      cases i <;> simp [callOf, closing] at hi ⊢
    have habort : ExhaustsAtEnd (u.withSt (u.st.record c)) (abort c u) :=
      moves_carry carries_exhaustsAtEnd (fun a ha _ _ hm => move_exhaustsAtEnd hm fun he => hclose (he ▸ ha)) (abort_moves c u)
    exact carries_exhaustsAtEnd.trans s u _ hstop habort

/-- Settles O13: each clause is one relation that single moves keep. -/
theorem sourceAdvancesAndExhaustionSticks : Obligations.SourceAdvancesAndExhaustionSticks := by
  intro i s t h
  by_cases hi : i = .sysReset
  · subst hi
    cases h
    exact ⟨rfl, le_refl _, id, fun _ _ => rfl, fun _ _ _ => .inr (.inl rfl)⟩
  have hr := exec_ran hi h
  obtain ⟨hbytes, hpos, hend⟩ := ran_sourceAdvances hr
  refine ⟨hbytes, hpos, hbytes ▸ hend, fun he hb => ran_exhausted hr hb he, fun hs he ht => ?_⟩
  by_cases hc : i = .brClose ∨ ∃ p, i = .decode p
  · rcases hc with hc | hc
    · exact .inl hc
    · exact .inr (.inr (.inl hc))
  · have := (ran_exhaustsAtEnd hr hs hc).2 ht
    rw [he] at this
    exact .inr (.inr (.inr (this.resolve_left nofun)))

/-! Failing accesses (R215, R221). -/

/-- A failing append ends `BW.WRITE` there, its byte staying in the writer (R107, R221). -/
theorem bwWrite_fails {s : State} {bits : Bits} {j : Nat} {later : List Bool} (hs : s.ready) (ho : s.bw.isOpen = true)
    (hb : s.bw.buf.length ≤ 7) (hf : s.failsAfter j later) (hj : j < (packBytes (s.bw.buf ++ bits)).length) :
    exec (.bwWrite bits) s = .next ({ s with
      sink := s.sink ++ (packBytes (s.bw.buf ++ bits)).take j
      bw := { s.bw with buf := [], full := (packBytes (s.bw.buf ++ bits))[j]? }
      ioFail := later }.faultedBy .ioFailure (0, 0)) :=
  issue_faults hs.1 (done_stop (writeBits_fails bits ho hb hf hj)) hs.2 hs.1

/-- `BW.CLOSE` sends the byte that a failed append left (R108, R221). -/
theorem bwClose_sends_full {s : State} {b : Byte} (ho : s.bw.isOpen = true) (hf : s.bw.full = some b)
    (hio : s.ioFail.headD false = false) :
    exec .bwClose s = .next ({ s with
      sink := s.sink ++ [b], bw := closedWriter, ioFail := s.ioFail.tail }.finished .done) := by
  have hlast := lastByte_full hf
  have hclose : closeWriter s = .ok () (releaseWriter ((tickIo s).withSink (s.sink ++ [b]))) := by
    rcases closeWriter_cases s with ⟨h, -⟩ | ⟨b', h, -, hc⟩ | ⟨b', -, h, -⟩
    · rw [hlast] at h; cases h
    · rw [hlast] at h; cases h; exact hc
    · rw [ioFailsNow, hio] at h; cases h
  rw [exec, execBwClose, done_ok ((next_ok (needWriter_open ho)).trans hclose), deliver_ok]
  rfl

/-- A failing fetch ends `BR.READ_BITS` there (R112, R215). -/
theorem brReadBits_fails {s : State} {n j : Nat} {later : List Bool} (hs : s.ready) (he : s.br.exh = false)
    (hf : s.failsAfter j later) (hj : j ≤ s.src.bytes.length - s.src.pos) (hn : s.br.cur.length + 8 * j < n) :
    exec (.brReadBits n) s = .next ({ s with
      br := { s.br with cur := [] }
      src := { s.src with pos := s.src.pos + j }
      ioFail := later }.faultedBy .ioFailure (1, 0)) :=
  issue_faults hs.1 (andThen_stop (readBitsFrom_fails n [] he hf hj hn)) hs.2 hs.1

/-- Settles O22: a failing append, the close that makes up for it, and a failing fetch. -/
theorem ioFailureStopsTheTransfer : Obligations.IoFailureStopsTheTransfer :=
  ⟨fun _ _ _ _ => bwWrite_fails, fun _ _ => bwClose_sends_full, fun _ _ _ _ => brReadBits_fails⟩

/-! The built arena (R143 to R149). -/

theorem htBuild_valid {s : State} {xs : List Symbol} {ps : List Prob} (hs : s.unfaulted) (h : validAlphabet xs ps) :
    exec (.htBuild xs ps) s = .next ({ s with ht := buildTree xs ps }.finished .done) := by
  have hb : buildHuffman xs ps s = .ok () (s.withHt (buildTree xs ps)) := by
    simp only [buildHuffman, (alphabetCause_none xs ps).mpr h]
  exact issue_finished hs (done_ok hb)

theorem map_weight_leaves {xs : List Symbol} {ps : List Prob} (hl : xs.length = ps.length) :
    (List.zipWith Node.leaf xs ps).map Node.weight = ps :=
  List.ext_getElem (by simp [hl]) fun i _ _ => by simp [Node.weight]

/-- Settles O35: what the merge loop keeps from round to round (`Forest`), read off at its end. -/
theorem huffmanTreeMergesTheLightest : Obligations.HuffmanTreeMergesTheLightest := by
  intro s xs ps hs h
  have hl := h.1
  obtain ⟨hf, hset, hroot, hnn⟩ := buildTree_forest hl h.2.1
  have hlen : (List.zipWith Node.leaf xs ps).length = xs.length := by simp [hl]
  refine ⟨buildTree xs ps, htBuild_valid hs h, hnn, hf.size.symm, hroot, hset, ?_, fun i hi => ?_, fun i hi hin => ?_⟩
  · have ht := hf.total
    rw [hset, map_weight_leaves hl, List.map_singleton, List.sum_singleton] at ht
    exact ht
  · have hi' : i < ps.length := hl ▸ hi
    refine ⟨xs[i], ps[i], List.getElem?_eq_getElem hi, List.getElem?_eq_getElem hi', ?_⟩
    rw [hf.leaf i (hlen ▸ hi)]
    simp [hi, hi']
  · exact hf.merged i (hlen ▸ hi) hin

/-! Steps and reset (R44, R48, R228, R236). -/

/-- Settles O4, by the three ways the first request can be. -/
theorem stepRunsTheDecodedInstruction : Obligations.StepRunsTheDecodedInstruction := by
  refine ⟨fun s r rest i hp hd => ?_, fun s r rest part hp hd => ?_, fun s hp => ?_⟩
  · simp only [step, nextRequest, hp, hd]; rfl
  · simp only [step, nextRequest, hp, hd]; rfl
  · simp only [step, nextRequest, hp]

/-- Settles O6: the initial state and the reset registers are written out. -/
theorem resetLoadsEveryRegister : Obligations.ResetLoadsEveryRegister :=
  ⟨fun _ => ⟨none, 0, rfl⟩, fun _ => rfl⟩

theorem streamsOk_initial {e : Environment} (h : e.src.pos ≤ e.src.bytes.length) : StreamsOk (State.initial e) :=
  ⟨Nat.zero_le 7, nofun, Nat.zero_le 8, fun _ => rfl, h⟩

theorem sequencerOk_initial (e : Environment) : SequencerOk (State.initial e) := ⟨rfl, Nat.zero_le 4, Nat.zero_le 11⟩

theorem inv_initial {e : Environment} (himg : Memory.wf e.img = true) (hsrc : e.src.pos ≤ e.src.bytes.length) :
    Inv (State.initial e) :=
  ⟨⟨himg, rfl, rfl⟩, streamsOk_initial hsrc, histogramOk_initial e, treeOk_initial e, sequencerOk_initial e⟩

/-- Settles O60: each part of the invariant holds of the initial state, the environment being canonical. -/
theorem resetMeetsTheInvariant : Obligations.ResetMeetsTheInvariant :=
  ⟨fun _ => inv_initial, inv_initial (e := {}) rfl (le_refl _)⟩

end Sys2Proof.Machine

/-! The memory family: what a whole `ENCODE` of a written image leaves (R63, R181, R184, R187). The coded image, the code of
its values, the padded stream and the lines of the pipeline are each looked at once. -/

namespace Sys2Proof.Machine

/-! The coded image (R161, R181, R182). -/

/-- Image memory holds the coded values of an `h` by `w` image, and elsewhere what it held before (R181, R186). -/
def HoldsCoded (p : Bool) (h w : Nat) (m before : List (Loc × Sample)) : Prop :=
  ∀ l, Memory.read m l = if inShape h w l then some (codedAt p before l) else Memory.read before l

theorem imageDefined_inShape {h w : Nat} {m : List (Loc × Sample)} (hd : imageDefined h w m) {l : Loc}
    (hl : inShape h w l = true) : Memory.read m l = some (sampleAt m l) := by
  simp only [inShape, Bool.and_eq_true, decide_eq_true_eq] at hl
  obtain ⟨v, hv⟩ := Option.isSome_iff_exists.mp (hd l.r hl.1.1 l.c hl.1.2 l.k hl.2)
  simp [sampleAt, hv]

/-- On a written image the predictor's value is the coded one (R161). -/
theorem residualAt_defined {h w : Nat} {m : List (Loc × Sample)} (hd : imageDefined h w m) {l : Loc}
    (hl : inShape h w l = true) : residualAt m l = some (codedAt true m l) := by
  by_cases hc : l.c = 0
  · simp [residualAt, codedAt, hc, imageDefined_inShape hd hl]
  · have hleft : inShape h w { l with c := l.c - 1 } = true := by
      simp only [inShape, Bool.and_eq_true, decide_eq_true_eq] at hl ⊢; omega
    rw [residualAt, if_neg hc, imageDefined_inShape hd hl, imageDefined_inShape hd hleft, codedAt,
      if_pos ⟨rfl, Nat.pos_of_ne_zero hc⟩]
    rfl

/-- Step 2 of `ENCODE` on a written image leaves its coded values (R181, R184). -/
theorem prediction_ok {s : State} {h w : Nat} (p : Bool) (hd : imageDefined h w s.img) :
    ∃ m, (if p then predictForward h w else give ()) s = .ok () (s.withImg m) ∧ HoldsCoded p h w m s.img := by
  cases p with
  | true =>
    obtain ⟨m, hrun, hm⟩ := predictForward_ok h w s
    refine ⟨m, hrun, fun l => ?_⟩
    rw [hm l]
    split
    · exact residualAt_defined hd ‹_›
    · rfl
  | false =>
    refine ⟨s.img, rfl, fun l => ?_⟩
    split
    · simpa [codedAt] using imageDefined_inShape hd ‹_›
    · rfl

theorem HoldsCoded.imageDefined {p : Bool} {h w : Nat} {m before : List (Loc × Sample)} (hm : HoldsCoded p h w m before) :
    imageDefined h w m := fun r hr c hc k hk => by
  rw [hm, if_pos (by simp [inShape, hr, hc, hk])]; rfl

/-- The flat sequence then in memory is the coded one (R182). -/
theorem HoldsCoded.flatOf {p : Bool} {h w : Nat} {m before : List (Loc × Sample)} (hm : HoldsCoded p h w m before) :
    flatOf w 0 (sampleCount h w) m = codedFlat p h w before := by
  simp only [Machine.flatOf, codedFlat, List.range_eq_range']
  refine List.map_congr_left fun i hi => ?_
  have hi' : i < sampleCount h w := by simpa using hi
  rw [sampleAt, hm, if_pos (inShape_flatLoc hi')]; rfl

theorem codedFlat_ne_nil {p : Bool} {h w : Nat} {m : List (Loc × Sample)} (h0 : 0 < sampleCount h w) :
    codedFlat p h w m ≠ [] := by
  simp only [codedFlat, ne_eq, List.map_eq_nil_iff, List.range_eq_nil]; omega

/-! The code of the coded values (R155, R183). -/

/-- A key that is listed has a value. -/
theorem Table.get_isSome {κ ν : Type} [DecidableEq κ] {m : List (κ × ν)} {k : κ} (h : k ∈ m.map (·.1)) :
    (Table.get m k).isSome = true := by
  induction m with
  | nil => simp at h
  | cons e rest ih =>
    rw [Table.get]
    split
    · rfl
    · next hne => exact ih ((List.mem_cons.mp h).resolve_left (Ne.symm hne))

section code

variable {flat : List Sample}

theorem empirical_symbols (flat : List Sample) :
    (empirical flat).map (·.1) = allSymbols.filter fun x => flat.contains x := by
  simp [empirical, List.map_map, Function.comp_def]

/-- Exactly the occurring symbols have a codeword (R155, R183). -/
theorem mem_symbols_codeFor (hc : ∀ x ∈ flat, isCodable x = true) (h0 : flat ≠ []) (x : Symbol) :
    x ∈ (codeFor flat).map (·.1) ↔ x ∈ flat := by
  obtain ⟨hl, hne, -⟩ := empirical_valid hc h0
  rw [codeFor, (buildTree_symbols hl hne).mem_iff, empirical_symbols, List.mem_filter, mem_allSymbols, List.contains_iff_mem]
  exact ⟨And.right, fun hx => ⟨hc x hx, hx⟩⟩

theorem codeFor_isSome (hc : ∀ x ∈ flat, isCodable x = true) {x : Sample} (hx : x ∈ flat) :
    (Table.get (codeFor flat) x).isSome = true :=
  Table.get_isSome ((mem_symbols_codeFor hc (List.ne_nil_of_mem hx) x).mpr hx)

/-- A code whose codewords are short enough can be carried (R77, R187). -/
theorem carriable_codeFor (hc : ∀ x ∈ flat, isCodable x = true) (h0 : flat ≠ [])
    (hlen : ∀ e ∈ codeFor flat, e.2.length ≤ 31) : carriable (codeFor flat) = true := by
  simp only [carriable, List.all_eq_true, Bool.and_eq_true, decide_eq_true_eq]
  exact fun e he => ⟨hc _ ((mem_symbols_codeFor hc h0 _).mp (List.mem_map_of_mem he)), hlen e he⟩

end code

/-! The padded stream (R59, R63, R108). -/

/-- Padding is done on the bits after the last whole byte (R108). -/
theorem packBytes_padded_leftover (s : Bits) : packBytes (padded s) = packBytes s ++ packBytes (padded (leftover s)) := by
  rw [padded, (packBytes_append s _).1, padded, leftover_length, Nat.mod_mod]

theorem packBytes_padded_length (s : Bits) : (packBytes (padded s)).length = (s.length + 7) / 8 := by
  rw [packBytes_length, padded, List.length_append, zeros_length]; omega

theorem streamBits_length (h w : BitVec 16) (codes : List (Symbol × Bits)) (flat : List Sample) :
    (streamBits h w codes flat).length = 41 + (codes.map fun e => 14 + e.2.length).sum +
      (flat.map fun x => (codewordIn codes x).length).sum := by
  simp only [streamBits, List.length_append, headerBits_length, sentinelBits_length, List.length_flatMap, entryBits_length]
  omega

/-- What an open writer holds after `bits` and its close, on a reliable sink (R108, R109): all of it is in the sink. -/
theorem closeWriter_afterWrite {s : State} (bits : Bits) (hs : s.canWrite) :
    closeWriter (afterWrite bits s) = .ok () (((s.withSink (s.sink ++ packBytes (padded (s.bw.buf ++ bits)))).withBw
      closedWriter).withIoFail (s.ioFail.drop (packBytes (padded (s.bw.buf ++ bits))).length)) := by
  obtain ⟨-, hbuf, hio, hfull⟩ := canWrite_afterWrite bits hs
  rw [closeWriter_reliable hio hbuf hfull, packBytes_padded_leftover (s.bw.buf ++ bits), List.length_append,
    ← List.drop_drop, ← List.append_assoc]
  rfl

/-! The pipeline (R184). -/

theorem fits16_toNat (h : BitVec 16) : fits16 h.toNat := ⟨by omega, by have := h.isLt; omega⟩

theorem sampleCount_pos {h w : BitVec 16} (hh : h ≠ 0) (hw : w ≠ 0) : 0 < sampleCount h.toNat w.toNat := by
  have h1 : 0 < h.toNat := Nat.pos_of_ne_zero fun e => hh (BitVec.eq_of_toNat_eq e)
  have h2 : 0 < w.toNat := Nat.pos_of_ne_zero fun e => hw (BitVec.eq_of_toNat_eq e)
  exact Nat.mul_pos (Nat.mul_pos h1 h2) (by decide)

/-- Steps 1 and 2 of `ENCODE` (R184): the header and the prediction. -/
def encodeHead (h w : Int) (p : Bool) : Op Unit :=
  (writeHeader h w).next <| (setPhase 2).next <| (setPrediction p).next <|
    if p then predictForward h.toNat w.toNat else give ()

/-- Steps 3 and 4 of `ENCODE` (R184): the range scan and the code. -/
def encodeCode (h w : Int) : Op Unit :=
  (setPhase 3).next <| (rangeScan w.toNat (sampleCount h.toNat w.toNat)).next <| (setPhase 4).next <|
    if h * w = 0 then refuse .emptyHistogram else buildCode w.toNat (sampleCount h.toNat w.toNat)

/-- Steps 5 to 7 of `ENCODE` (R184): the table, the payload, the padding. -/
def encodeOutput : Op Unit :=
  (setPhase 5).next <| writeTable.next <| (setPhase 6).next <| writePayload.next <| (setPhase 7).next closeWriter

theorem encodeBody_eq (h w : Int) (p : Bool) :
    encodeBody h w p = (encodeHead h w p).next ((encodeCode h w).next encodeOutput) := by
  simp only [encodeBody, encodeHead, encodeCode, encodeOutput, Op.next, andThen_assoc]

/-- The sequencer has come to a step of the call (R37). -/
def State.inPhase (s : State) (n : Nat) : State := { s with seq := { s.seq with phase := n } }

/-- What steps 1 and 2 load beside the writer (R173, R181, R184). -/
def State.loaded (s : State) (d : Dims) (p : Bool) (m : List (Loc × Sample)) : State :=
  { s with dim := d, cfg := { p := p }, img := m, seq := { s.seq with phase := 2 } }

/-- What steps 3 and 4 load (R183, R184). -/
def State.coded (s : State) (g : Histogram) (t : HuffmanTree) (codes : List (Symbol × Bits)) : State :=
  { s with hg := g, ht := t, ct := { entries := codes }, seq := { s.seq with phase := 4 } }

theorem afterWrite_inPhase (bits : Bits) (s : State) (n : Nat) :
    afterWrite bits (s.inPhase n) = (afterWrite bits s).inPhase n := rfl

theorem afterWrite_loaded (bits : Bits) (s : State) (d : Dims) (p : Bool) (m : List (Loc × Sample)) :
    afterWrite bits (s.loaded d p m) = (afterWrite bits s).loaded d p m := rfl

theorem afterWrite_coded (bits : Bits) (s : State) (g : Histogram) (t : HuffmanTree) (codes : List (Symbol × Bits)) :
    afterWrite bits (s.coded g t codes) = (afterWrite bits s).coded g t codes := rfl

theorem encodeHead_ok {s : State} {h w : BitVec 16} (p : Bool) (hs : s.canWrite)
    (hd : imageDefined h.toNat w.toNat s.img) :
    ∃ m, HoldsCoded p h.toNat w.toNat m s.img ∧ encodeHead h.toNat w.toNat p s =
      .ok () ((afterWrite (headerBits h w) s).loaded { h := h, w := w } p m) := by
  have hhead := writeHeader_ok hs (fits16_toNat h) (fits16_toNat w)
  simp only [Int.toNat_natCast, BitVec.ofInt_natCast, BitVec.ofNat_toNat, BitVec.setWidth_eq] at hhead
  obtain ⟨m, hrun, hm⟩ := prediction_ok (s := (afterWrite (headerBits h w) s).loaded { h := h, w := w } p s.img) p hd
  exact ⟨m, hm, (next_ok hhead).trans hrun⟩

theorem encodeCode_ok {s : State} {h w : BitVec 16} {flat : List Sample} (hh : h ≠ 0) (hw : w ≠ 0)
    (hd : imageDefined h.toNat w.toNat s.img) (hf : flatOf w.toNat 0 (sampleCount h.toNat w.toNat) s.img = flat)
    (hc : ∀ x ∈ flat, isCodable x = true) :
    ∃ g t, encodeCode h.toNat w.toNat s = .ok () (s.coded g t (codeFor flat)) := by
  subst hf
  have hpos := sampleCount_pos hh hw
  have hhw : (h.toNat : Int) * w.toNat ≠ 0 := by exact_mod_cast (Nat.pos_of_mul_pos_right hpos).ne'
  have hscan : rangeScan w.toNat (sampleCount h.toNat w.toNat) (s.inPhase 3) = .ok () (s.inPhase 3) :=
    forUp_scanSample_ok _ 0 hd (Nat.zero_add _).le hc
  obtain ⟨g, t, hcode⟩ := buildCode_ok (s := s.inPhase 4) hd hc hpos
  refine ⟨g, t, ?_⟩
  rw [encodeCode, if_neg hhw]
  exact (next_ok hscan).trans hcode

/-- Steps 5 to 7 write the table and the payload, and what then waits in the writer goes to its close (R187). -/
theorem encodeOutput_ok {s : State} (hs : s.canWrite) (hd : imageDefined s.dim.h.toNat s.dim.w.toNat s.img)
    (hc : ∀ x ∈ flatOf s.dim.w.toNat 0 s.dim.count s.img, isCodable x = true ∧ (s.ct.code x).isSome = true)
    (ht : carriable s.ct.entries = true) :
    encodeOutput s = closeWriter (afterWrite (tableOf s.ct.entries ++
      (flatOf s.dim.w.toNat 0 s.dim.count s.img).flatMap (codewordIn s.ct.entries)) (s.inPhase 7)) := by
  have htable : writeTable (s.inPhase 5) = .ok () (afterWrite (tableOf s.ct.entries) (s.inPhase 5)) := writeTable_ok hs ht
  have hpayload := writePayload_ok (s := afterWrite (tableOf s.ct.entries) (s.inPhase 6)) (canWrite_afterWrite _ hs) hd hc
  rw [afterWrite_append] at hpayload
  exact (next_ok htable).trans (next_ok hpayload)

/-- Steps 1 to 7 of `ENCODE` on a written image, up to the close of the writer (R184, R187). -/
theorem encodeBody_ok {s : State} {h w : BitVec 16} {p : Bool} {flat : List Sample} {codes : List (Symbol × Bits)}
    (hs : s.canWrite) (hh : h ≠ 0) (hw : w ≠ 0) (hd : imageDefined h.toNat w.toNat s.img)
    (hf : codedFlat p h.toNat w.toNat s.img = flat) (hcodes : codeFor flat = codes)
    (hc : ∀ x ∈ flat, isCodable x = true) (hlen : ∀ e ∈ codes, e.2.length ≤ 31) :
    ∃ m g t, HoldsCoded p h.toNat w.toNat m s.img ∧ encodeBody h.toNat w.toNat p s = closeWriter (afterWrite
      (streamBits h w codes flat) (((s.loaded { h := h, w := w } p m).coded g t codes).inPhase 7)) := by
  have h0 : flat ≠ [] := hf ▸ codedFlat_ne_nil (sampleCount_pos hh hw)
  have hcarry : carriable codes = true := hcodes ▸ carriable_codeFor hc h0 (hcodes ▸ hlen)
  have hsome : ∀ x ∈ flat, (Table.get codes x).isSome = true := fun x hx => hcodes ▸ codeFor_isSome hc hx
  obtain ⟨m, hm, hhead⟩ := encodeHead_ok p hs hd
  have hflat := hm.flatOf.trans hf
  obtain ⟨g, t, hcode⟩ := encodeCode_ok (s := (afterWrite (headerBits h w) s).loaded { h := h, w := w } p m) hh hw
    hm.imageDefined hflat hc
  rw [hcodes] at hcode
  have hwrite : (((afterWrite (headerBits h w) s).loaded { h := h, w := w } p m).coded g t codes).canWrite :=
    canWrite_afterWrite _ hs
  have hout := encodeOutput_ok hwrite hm.imageDefined (hflat.symm ▸ fun x hx => ⟨hc x hx, hsome x hx⟩) hcarry
  change _ = closeWriter (afterWrite (tableOf codes ++ (flatOf w.toNat 0
    (sampleCount h.toNat w.toNat) m).flatMap (codewordIn codes)) _) at hout
  refine ⟨m, g, t, hm, ?_⟩
  rw [encodeBody_eq, next_ok hhead, next_ok hcode, hout, hflat, ← afterWrite_loaded, ← afterWrite_coded,
    ← afterWrite_inPhase, afterWrite_append]
  simp only [streamBits, tableOf, List.append_assoc]

/-- A call of `ENCODE` begins when none is in progress and the writer is closed (R184). -/
theorem exec_encode {s : State} (hs : s.ready) (ho : s.bw.isOpen = false) (h w : Int) (p : Bool) :
    exec (.encode h w p) s = deliver (opOf (.encode h w p) s) := by
  have hseq : s.seq.op = .idle := by rw [hs.2]
  rw [exec, execEncode, gate_open hs.1, if_neg (not_not.mpr hseq), if_neg (by simp [ho])]; rfl

/-- `ENCODE` whose lines go on ends idle (R184). -/
theorem exec_encode_ok {s u : State} {h w : Int} {p : Bool} (hs : s.ready) (ho : s.bw.isOpen = false)
    (hb : encodeBody h w p (begunEncode s) = .ok () u) : exec (.encode h w p) s = .next ((idle u).finished .done) := by
  have hend : (encodeBody h w p).next (assign Machine.idle) (begunEncode s) = .ok () (idle u) := next_ok hb
  rw [exec_encode hs ho, encode_begun ho, done_ok hend]; rfl

theorem canWrite_begunEncode {s : State} (h : s.reliable) : (begunEncode s).canWrite := ⟨rfl, Nat.zero_le 7, h, rfl⟩

/-- Settles O47: steps 1 to 7 write the bits of the stream, and the close pads them. -/
theorem encodeWritesTheStream : Obligations.EncodeWritesTheStream := by
  intro s h w p hs ho hio hh hw hd hrange hlen
  generalize hf : codedFlat p h.toNat w.toNat s.img = flat at *
  generalize hcodes : codeFor flat = codes at *
  have hc : ∀ x ∈ flat, isCodable x = true := fun x hx => (isCodable_iff x).mpr (hrange x hx)
  have hbegun := canWrite_begunEncode hio
  obtain ⟨m, g, t, hm, hrun⟩ := encodeBody_ok hbegun hh hw hd hf hcodes hc hlen
  have hclosed := hrun.trans (closeWriter_afterWrite _ hbegun)
  have hsize : (s.sink ++ packBytes (padded (streamBits h w codes flat))).length = s.sink.length +
      (41 + (codes.map fun e => 14 + e.2.length).sum + (flat.map fun x => (codewordIn codes x).length).sum + 7) / 8 := by
    rw [List.length_append, packBytes_padded_length, streamBits_length]
  exact ⟨_, exec_encode_ok hs ho hclosed, rfl, rfl, hsize, rfl, rfl, hs.2.symm, rfl, rfl, rfl, rfl, hm⟩

end Sys2Proof.Machine

/-! The encoding family: the encoder and the decoder are inverse on the well-formed instructions (R75 to R80, R90 to R93), a
reserved code is refused (R92), and the decoder's operations are the records of the bits they read (R84, R85, R191 to R195). -/

namespace Sys2Proof

open Machine

/-! The operation codes (R90 to R92). -/

/-- What the table of R91 makes of an operation code: the instruction of a listed code is encoded by that code, and a code
that is not listed is reserved. -/
def ReadsCode (op : Byte) : Except DecodeError Instr → Prop
  | .ok i => op.toNat ∈ operationCodes ∧ ∃ o, encode i = .command op o
  | .error e => op.toNat ∉ operationCodes ∧ e = .reservedOp op

theorem readsCode_listed {op code : Byte} {i : Instr} {o : Operands} (hop : op.toNat = code.toNat)
    (hi : encode i = .command code o) (hcode : code.toNat ∈ operationCodes) : ReadsCode op (.ok i) := by
  obtain rfl := BitVec.eq_of_toNat_eq hop
  exact ⟨hcode, o, hi⟩

/-- One case for each row of R91, and the reserved codes. -/
theorem decodeCommand_readsCode (op : Byte) (o : Operands) : ReadsCode op (decodeCommand op o) := by
  rw [decodeCommand]
  split
  case h_30 => exact ⟨by simp only [operationCodes, List.mem_cons, List.not_mem_nil, or_false, not_or]; tauto, rfl⟩
  all_goals exact readsCode_listed ‹_› rfl (by decide)

/-- The rows of R91, read back (R90, R93): each code selects its operation, and the operation reads its own lines. -/
theorem decode_encode_operation {i : Instr} (h : isRecord i = false) : decode (encode i) = .ok i := by
  cases i with
  | header | entry | sentinel | codeword | pad => cases h
  | _ => rfl

theorem decode_reserved_iff (op : Byte) (o : Operands) :
    decode (.command op o) = .error (.reservedOp op) ↔ op.toNat ∉ operationCodes := by
  have h := decodeCommand_readsCode op o
  rw [decode]
  cases hd : decodeCommand op o with
  | ok i => rw [hd] at h; simp [h.1]
  | error e => rw [hd] at h; simp [h.1, h.2]

/-- Settles O3: the gate is not asked, the refusal is recorded at once. -/
theorem reservedCodesAreRefused : Obligations.ReservedCodesAreRefused := by
  refine ⟨decode_reserved_iff, fun s op o rest hop hp => ?_⟩
  have hd := (decode_reserved_iff op o).mpr hop
  simp only [step, nextRequest, hp, hd, rejectRequest, refuseAtGate_eq]
  rfl

/-! The records (R75 to R80). -/

theorem take_headerBits (h w : BitVec 16) : (headerBits h w).take 16 = bitsOf 16 h.toNat := List.take_left' (by simp)

theorem drop_headerBits (h w : BitVec 16) : (headerBits h w).drop 16 = bitsOf 16 w.toNat := List.drop_left' (by simp)

theorem decodeRecord_headerBits (h w : BitVec 16) : decodeRecord .header (headerBits h w) = .ok (.header h w) := by
  rw [decodeRecord, if_pos (headerBits_length h w), take_headerBits, drop_headerBits, valOf_bitsOf h.isLt,
    valOf_bitsOf w.isLt]
  simp

/-- An entry is no sentinel, and its length field tells its length (R77, R84). -/
theorem decodeRecord_entryBits {x : Symbol} {cw : Bits} (hx : Symbol.codable x = true) (hcw : cw.length ≤ Config.lenMax) :
    decodeRecord .table (entryBits x cw) = .ok (.entry x cw) := by
  obtain ⟨h0, h511⟩ := biased_range hx
  have hb := biasedField_entry cw [] hx
  have hl := lengthField_entry x [] hcw
  rw [List.append_nil] at hb hl
  have hne : biasedField (entryBits x cw) ≠ Config.sentinel := by rw [hb]; simp only [Config.sentinel]; omega
  have hback : (biasedField (entryBits x cw) : Int) - Config.bias = x := by rw [hb]; omega
  have hlen : (entryBits x cw).length = 14 + lengthField (entryBits x cw) := by rw [hl, entryBits_length]
  rw [decodeRecord, if_neg fun h => hne h.2, if_pos ⟨by omega, hne, hlen⟩, hback, drop_entry]

theorem decodeRecord_sentinelBits : decodeRecord .table sentinelBits = .ok .sentinel := by decide

theorem decodeRecord_zeros {n : Nat} (h : n ≤ 7) : decodeRecord .padding (zeros n) = .ok (.pad n) := by
  rw [decodeRecord, if_pos ⟨by simpa using h, by simp [zeros]⟩, zeros_length]

/-- Settles O1: the operations by their codes, each record by its own fields. -/
theorem decodeOfEncodeIsTheInstruction : Obligations.DecodeOfEncodeIsTheInstruction := by
  intro i hwf
  cases i with
  | header h w => exact decodeRecord_headerBits h w
  | entry x cw =>
    obtain ⟨hx, hcw⟩ := Bool.and_eq_true_iff.mp hwf
    exact decodeRecord_entryBits hx (of_decide_eq_true hcw)
  | sentinel => exact decodeRecord_sentinelBits
  | codeword cw =>
    obtain ⟨h1, h31⟩ := Bool.and_eq_true_iff.mp hwf
    exact if_pos ⟨of_decide_eq_true h1, of_decide_eq_true h31⟩
  | pad n => exact decodeRecord_zeros (of_decide_eq_true hwf)
  | _ => exact decode_encode_operation rfl

/-- The two fields of 32 bits, encoded, are the 32 bits (R76). -/
theorem headerBits_of_fields {bits : Bits} (h : bits.length = 32) :
    headerBits (BitVec.ofNat 16 (valOf (bits.take 16))) (BitVec.ofNat 16 (valOf (bits.drop 16))) = bits := by
  have htake : bitsOf 16 (valOf (bits.take 16)) = bits.take 16 := bitsOf_valOf_take (by omega)
  have hdrop : bitsOf 16 (valOf (bits.drop 16)) = bits.drop 16 := by
    simpa [h] using bitsOf_valOf (bits.drop 16)
  rw [headerBits, BitVec.toNat_ofNat, BitVec.toNat_ofNat, bitsOf_mod _ _ _ le_rfl, bitsOf_mod _ _ _ le_rfl, htake, hdrop,
    List.take_append_drop]

/-- Nine bits with the sentinel's value are the sentinel (R78). -/
theorem sentinelBits_of_field {bits : Bits} (h9 : bits.length = 9) (h : biasedField bits = Config.sentinel) :
    sentinelBits = bits := by
  rw [sentinelBits, ← h, biasedField, bitsOf_valOf_take h9.ge, List.take_of_length_le h9.le]

theorem zeros_of_all {bits : Bits} (h : bits.all (! ·) = true) : zeros bits.length = bits :=
  (List.eq_replicate_iff.mpr ⟨rfl, by simpa using h⟩).symm

/-- What is read as a record is that record's encoding, bit for bit (R75 to R80). -/
theorem encode_of_decodeRecord {part : StreamPart} {bits : Bits} {i : Instr} (h : decodeRecord part bits = .ok i) :
    encode i = .record part bits := by
  cases part with
  | header =>
    rw [decodeRecord] at h
    split_ifs at h with h32
    cases h
    exact congrArg _ (headerBits_of_fields h32)
  | table =>
    rw [decodeRecord] at h
    split_ifs at h with hs he
    · cases h
      exact congrArg _ (sentinelBits_of_field hs.1 hs.2)
    · cases h
      obtain ⟨h14, -, hlen⟩ := he
      exact congrArg _ (entryBits_of_fields h14 hlen)
  | payload =>
    rw [decodeRecord] at h
    split_ifs at h
    cases h; rfl
  | padding =>
    rw [decodeRecord] at h
    split_ifs at h with hz
    cases h
    exact congrArg _ (zeros_of_all hz.2)

/-- Settles O2: an accepted code is its row's of R91, an accepted record its own encoding. -/
theorem decodedRequestIsItsEncoding : Obligations.DecodedRequestIsItsEncoding := by
  intro r i h
  refine ⟨decode_wf h, ?_⟩
  cases r with
  | record part bits => exact encode_of_decodeRecord h
  | command op o =>
    have hcode := decodeCommand_readsCode op o
    rw [show decodeCommand op o = .ok i from h] at hcode
    exact hcode.2

/-- Settles O5: the words are closed, and the decoder runs on them. -/
theorem specWordsDecode : Obligations.SpecWordsDecode := by
  unfold Obligations.SpecWordsDecode
  decide

end Sys2Proof

namespace Sys2Proof.Machine

/-! The records as instructions (R191 to R198). -/

theorem exec_header {s : State} (h0 : s.unfaulted) (h w : BitVec 16) :
    exec (.header h w) s = .next ((loadHeader h w s).finished (.dims (some { h := h, w := w }))) := issue_finished h0 rfl

theorem exec_entry {s : State} (h0 : s.unfaulted) (x : Symbol) (cw : Bits) :
    exec (.entry x cw) s = .next ((insertEntry x cw s).finished .done) := issue_finished h0 rfl

theorem exec_sentinel {s : State} (h0 : s.unfaulted) : exec .sentinel s = .next (s.finished .done) := issue_finished h0 rfl

theorem exec_pad {s : State} (h0 : s.unfaulted) (n : Nat) : exec (.pad n) s = .next (s.finished .done) :=
  issue_finished h0 rfl

/-- A codeword record reports what its bits match, and leaves what the matching leaves (R194). -/
theorem exec_codeword {s u : State} {cw : Bits} {x : Option Symbol} (h0 : s.unfaulted)
    (hm : matchBits cw (setAcc [] s) = (x, u)) : exec (.codeword cw) s = .next (u.finished (.symbol x)) := by
  rw [exec, execCodeword]
  exact issue_finished h0 (by rw [hm])

/-- A codeword record with a key among its beginnings: the shortest one counts (R195). -/
theorem exec_codeword_some {s : State} {cw : Bits} {k : Nat} {x : Symbol} (h0 : s.unfaulted)
    (hk : ShortestKey (Table.get s.dt) cw k x) :
    exec (.codeword cw) s = .next ((setAcc [] s).finished (.symbol (some x))) := by
  obtain ⟨hpos, hle, hx, hno⟩ := hk
  exact exec_codeword h0 (matchBits_some (s := setAcc [] s) k hpos hle hx hno)

theorem exec_codeword_none {s : State} {cw : Bits} (h0 : s.unfaulted) (hno : NoKey (Table.get s.dt) cw) :
    exec (.codeword cw) s = .next ((setAcc cw s).finished (.symbol none)) :=
  exec_codeword h0 (matchBits_none (s := setAcc [] s) hno)

theorem ungated_of_isRecord {i : Instr} (h : isRecord i = true) : ungated i = false := by
  cases i with
  | header | entry | sentinel | codeword | pad => rfl
  | _ => cases h

/-- An inserted entry is found under its codeword, and every other codeword as before (R193). -/
theorem get_insertEntry (x : Symbol) (cw k : Bits) (s : State) :
    Table.get (insertEntry x cw s).dt k = if k = cw then some x else Table.get s.dt k := by
  split_ifs with h
  · rw [h]; exact Table.get_put_same cw x s.dt
  · exact Table.get_put_other h x s.dt

/-- Settles O55: the closed gate, then each record by what it does behind the open one. -/
theorem recordsLoadTheDecoder : Obligations.RecordsLoadTheDecoder :=
  ⟨fun _ _ hi h => exec_closed (ungated_of_isRecord hi) h, fun _ h w h0 => exec_header h0 h w,
    fun s x cw h0 => ⟨_, exec_entry h0 x cw, fun k => get_insertEntry x cw k s⟩, fun _ => exec_sentinel,
    fun _ _ _ _ => exec_codeword_some, fun _ _ => exec_codeword_none, fun _ n h0 => exec_pad h0 n⟩

/-! The decoder's operations run the records (R84, R85, R191 to R195). -/

/-- The records of a table, one after the other: its entries in order, then the sentinel (R192). -/
theorem runAll_table (es : List (Symbol × Bits)) {s : State} (h0 : s.unfaulted) :
    runAll (es.map (fun e => .entry e.1 e.2) ++ [.sentinel]) s = .next ((s.withDt (putAll es s.dt)).finished .done) := by
  induction es generalizing s with
  | nil => exact runAll_cons (exec_sentinel h0)
  | cons e es ih => exact (runAll_cons (exec_entry h0 e.1 e.2)).trans (ih h0)

theorem exec_vdHdr {s : State} {h w : BitVec 16} {rest : Bits} (h0 : s.unfaulted) (hs : s.canRead)
    (hu : unread s = headerBits h w ++ rest) :
    exec .vdHdr s = .next ((loadHeader h w (afterRead 32 s)).finished (.dims (some { h := h, w := w }))) :=
  issue_finished h0 (andThen_ok (readHeader_ok hs hu).1)

theorem exec_vdTable {s : State} {es : List (Symbol × Bits)} {rest : Bits} (h0 : s.unfaulted) (hs : s.canRead)
    (hc : carriable es = true) (hu : unread s = tableOf es ++ rest) :
    exec .vdTable s = .next (((afterRead (tableOf es).length s).withDt (putAll es [])).finished .done) :=
  issue_finished h0 (andThen_ok (readTable_ok hs hc hu).1)

theorem exec_vdSym {s : State} {k : Nat} {x : Symbol} (h0 : s.unfaulted) (hs : s.canRead)
    (hk : ShortestKey (Table.get s.dt) (unread s) k x) :
    exec .vdSym s = .next ((setAcc [] (afterRead k s)).finished (.symbol (some x))) :=
  issue_finished h0 (andThen_ok (readSymbol_ok hs hk))

/-- The bits up to the end of the shortest key have that shortest key (R195). -/
theorem ShortestKey.take {d : Bits → Option Symbol} {u : Bits} {k : Nat} {x : Symbol} (h : ShortestKey d u k x) :
    ShortestKey d (u.take k) k x := by
  obtain ⟨hpos, hle, hx, hno⟩ := h
  refine ⟨hpos, (List.length_take_of_le hle).ge, ?_, fun j h1 hj => ?_⟩
  · rwa [List.take_take, Nat.min_self]
  · rw [List.take_take, Nat.min_eq_left hj.le]; exact hno j h1 hj

/-- Settles O56: both sides end in the same state, the operation by what it reads, the records by what they load. -/
theorem decoderRunsTheRecords : Obligations.DecoderRunsTheRecords := by
  refine ⟨fun s h w rest h0 hs hu => ?_, fun s es rest h0 hs hc hu => ?_, fun s k x h0 hs hk => ?_⟩
  · rw [exec_vdHdr h0 hs hu, exec_header (s := afterRead 32 s) h0]
  · rw [exec_vdTable h0 hs hc hu, runAll_table (s := { afterRead (tableOf es).length s with dt := [] }) es h0]; rfl
  · rw [exec_vdSym h0 hs hk, exec_codeword_some (s := afterRead k s) h0 hk.take]

end Sys2Proof.Machine

/-! The family of the BitWriter and the BitReader (40_bitwriter_bitreader.md R106 to R115): each instruction in each of its
cases, from how its pseudocode ends, and the two laws R109 and R114, from runs of writes and of reads. -/

namespace Sys2Proof.Machine

/-! Opening a stream (R106, R110, R115). -/

theorem openWriter_open {s : State} (ho : s.bw.isOpen = true) : openWriter s = .stop (.refuse .alreadyOpen) s := if_pos ho

theorem openWriter_closed {s : State} (ho : s.bw.isOpen = false) :
    openWriter s = .ok () (s.withBw { buf := [], isOpen := true }) := if_neg (by simp [ho])

theorem openReader_open {s : State} (ho : s.br.isOpen = true) : openReader s = .stop (.refuse .alreadyOpen) s := if_pos ho

theorem openReader_closed {s : State} (ho : s.br.isOpen = false) :
    openReader s = .ok () (setDec .none (s.withBr { cur := [], exh := false, isOpen := true })) := if_neg (by simp [ho])

theorem exec_bwOpen_open {s : State} (hs : s.ready) (ho : s.bw.isOpen = true) :
    exec .bwOpen s = .next (s.refusedBy .alreadyOpen) := issue_refused hs.1 (done_stop (openWriter_open ho)) hs.2

theorem exec_bwOpen_closed {s : State} (h0 : s.unfaulted) (ho : s.bw.isOpen = false) :
    exec .bwOpen s = .next ({ s with bw := { buf := [], isOpen := true } }.finished .done) :=
  issue_finished h0 (done_ok (openWriter_closed ho))

theorem exec_brOpen_open {s : State} (hs : s.ready) (ho : s.br.isOpen = true) :
    exec .brOpen s = .next (s.refusedBy .alreadyOpen) := issue_refused hs.1 (done_stop (openReader_open ho)) hs.2

theorem exec_brOpen_closed {s : State} (h0 : s.unfaulted) (ho : s.br.isOpen = false) :
    exec .brOpen s = .next ({ s with
      br := { cur := [], exh := false, isOpen := true }, st := { s.st with dec := .none } }.finished .done) :=
  issue_finished h0 (done_ok (openReader_closed ho))

/-! How an operation without a gate ends between calls (R217, R222). -/

theorem deliver_refused {s : State} (r : RefuseKind) (h : s.idleNow) :
    deliver (.stop (.refuse r) s) = .next (s.refusedBy r) := by rw [deliver_stop, abort_refuse r h]

/-- A fault is recorded only when it is the first (R222). -/
theorem deliver_fault {s : State} (e : FaultKind) (info : Int × Int) (h : s.idleNow) :
    deliver (.stop (.fault e info) s) = .next ({ s with
      st := if s.st.err = 0 then { s.st with err := faultNumber e, info := info } else s.st }.replied (.fault e info)) := by
  rw [deliver_stop, abort_idle (by rw [h]), idle_self (by exact h), faultNumber_eq]
  rfl

/-! `BW.WRITE` and `BW.CLOSE` (R107, R108). -/

theorem exec_bwWrite_closed {s : State} (bits : Bits) (hs : s.ready) (ho : s.bw.isOpen = false) :
    exec (.bwWrite bits) s = .next (s.refusedBy .notOpen) := issue_refused hs.1 (done_stop (writeBits_closed bits ho)) hs.2

theorem exec_bwWrite_ok {s : State} (bits : Bits) (h0 : s.unfaulted) (hs : s.canWrite) :
    exec (.bwWrite bits) s = .next ((afterWrite bits s).finished .done) := issue_finished h0 (done_ok (writeBits_ok bits hs))

theorem exec_bwClose_closed {s : State} (h : s.idleNow) (ho : s.bw.isOpen = false) :
    exec .bwClose s = .next (s.refusedBy .notOpen) := by
  rw [exec, execBwClose, done_stop (next_stop (needWriter_closed ho)), deliver_refused _ h]

/-- `BW.CLOSE` on an open writer ends as the close does. -/
theorem exec_bwClose_open {s : State} (ho : s.bw.isOpen = true) : exec .bwClose s = deliver (closeWriter.done s) := by
  rw [exec, execBwClose, Op.done, Op.next, andThen_assoc, andThen_ok (needWriter_open ho)]
  rfl

theorem exec_bwClose_ok {s t : State} (ho : s.bw.isOpen = true) (hc : closeWriter s = .ok () t) :
    exec .bwClose s = .next (t.finished .done) := by rw [exec_bwClose_open ho, done_ok hc]; rfl

theorem closeWriter_nothing {s : State} (hl : s.bw.lastByte = none) : closeWriter s = .ok () (releaseWriter s) := by
  simp only [closeWriter, hl]

theorem closeWriter_sends {s : State} {b : Byte} (hl : s.bw.lastByte = some b) (hio : ioFailsNow s = false) :
    closeWriter s = .ok () (releaseWriter ((tickIo s).withSink (s.sink ++ [b]))) := by
  simp only [closeWriter, hl, sinkAppend, hio, Bool.false_eq_true, if_false]

theorem closeWriter_fails {s : State} {b : Byte} (hl : s.bw.lastByte = some b) (hio : ioFailsNow s = true) :
    closeWriter s = .stop (.fault .ioFailure (0, 0)) (releaseWriter (tickIo s)) := by
  simp only [closeWriter, hl, sinkAppend, hio, if_true]

/-- A writer with bits in hand has a byte to send: these bits padded, or the byte a failed append left. -/
theorem lastByte_isSome {w : BitWriter} (h : w.buf ≠ []) : ∃ b, w.lastByte = some b := by
  cases hf : w.full with
  | none => exact ⟨_, (lastByte_padded hf).trans (if_neg h)⟩
  | some b => exact ⟨b, lastByte_full hf⟩

theorem exec_bwClose_empty {s : State} (ho : s.bw.isOpen = true) (hf : s.bw.full = none) (hb : s.bw.buf = []) :
    exec .bwClose s = .next ({ s with bw := closedWriter }.finished .done) :=
  exec_bwClose_ok ho (closeWriter_nothing ((lastByte_padded hf).trans (if_pos hb)))

theorem exec_bwClose_pads {s : State} (ho : s.bw.isOpen = true) (hf : s.bw.full = none) (hb : s.bw.buf ≠ [])
    (hio : s.ioFail.headD false = false) :
    exec .bwClose s = .next ({ s with
      sink := s.sink ++ [byteOf (s.bw.buf ++ zeros (8 - s.bw.buf.length))]
      bw := closedWriter
      ioFail := s.ioFail.tail }.finished .done) :=
  exec_bwClose_ok ho (closeWriter_sends ((lastByte_padded hf).trans (if_neg hb)) hio)

/-- The release is guaranteed (R108). -/
theorem exec_bwClose_fails {s : State} (h : s.idleNow) (ho : s.bw.isOpen = true) (hb : s.bw.buf ≠ [])
    (hio : s.ioFail.headD false = true) :
    exec .bwClose s = .next ({ s with
      bw := closedWriter
      ioFail := s.ioFail.tail
      st := if s.st.err = 0 then { s.st with err := 4, info := (0, 0) } else s.st }.replied (.fault .ioFailure (0, 0))) := by
  obtain ⟨b, hl⟩ := lastByte_isSome hb
  rw [exec_bwClose_open ho, done_stop (closeWriter_fails hl hio)]
  exact deliver_fault .ioFailure (0, 0) h

/-! The law of the BitWriter (R109). -/

/-- After `BW.OPEN` the writer may write, nothing waiting in it, and the sink is as it was (R106). -/
theorem exec_bwOpen_writes {s : State} (h0 : s.unfaulted) (ho : s.bw.isOpen = false) (hr : s.reliable) :
    ∃ t, exec .bwOpen s = .next t ∧ t.unfaulted ∧ t.canWrite ∧ t.bw.buf = [] ∧ t.sink = s.sink :=
  ⟨_, exec_bwOpen_closed h0 ho, h0, ⟨rfl, by exact Nat.zero_le 7, hr, rfl⟩, rfl, rfl⟩

/-- Pieces written one after the other are their concatenation written; only the reply tells (it is the last piece's). -/
theorem runAll_bwWrite (pieces : List Bits) {s : State} (h0 : s.unfaulted) (hs : s.canWrite) :
    ∃ p, runAll (pieces.map .bwWrite) s = .next ((afterWrite pieces.flatten s).withPort p) := by
  induction pieces generalizing s with
  | nil => exact ⟨s.port, by rw [List.flatten_nil, afterWrite_nil hs.2.1]; rfl⟩
  | cons bits rest ih =>
    obtain ⟨p, hp⟩ := ih (s := (afterWrite bits s).finished .done) h0 (canWrite_afterWrite bits hs)
    refine ⟨p, ?_⟩
    rw [List.map_cons, runAll_cons (exec_bwWrite_ok bits h0 hs), hp, List.flatten_cons, ← afterWrite_append]
    rfl

/-- Writes and then the close: the sink has the bytes of all the bits, padded (R108, R109). -/
theorem runAll_bwWrite_bwClose (pieces : List Bits) {s : State} (h0 : s.unfaulted) (hs : s.canWrite) :
    ∃ t, runAll (pieces.map .bwWrite ++ [.bwClose]) s = .next t ∧ t.says (.ok .done) ∧ t.bw = closedWriter ∧
      t.sink = s.sink ++ packBytes (padded (s.bw.buf ++ pieces.flatten)) := by
  obtain ⟨p, hp⟩ := runAll_bwWrite pieces h0 hs
  have hclose := exec_bwClose_ok (s := (afterWrite pieces.flatten s).withPort p) hs.1
    (closeWriter_afterWrite (s := s.withPort p) pieces.flatten hs)
  exact ⟨_, by rw [runAll_append _ _ hp, runAll_cons hclose]; rfl, rfl, rfl, rfl⟩

/-- Byte `j` of a packed sequence is made of its bits `8j` to `8j + 7` (R69, R109). -/
theorem packBytes_eq_map (s : Bits) :
    packBytes s = (List.range (s.length / 8)).map fun j => byteOf ((s.drop (8 * j)).take 8) := by
  induction s using byte_induction with
  | short s h => simp [packBytes_short h, Nat.div_eq_of_lt h]
  | byte a s h ih =>
    have hlen : (a ++ s).length / 8 = s.length / 8 + 1 := by rw [List.length_append, h]; omega
    have hdrop (j : Nat) : (a ++ s).drop (8 * (j + 1)) = s.drop (8 * j) := by
      rw [Nat.mul_succ, Nat.add_comm, ← List.drop_drop, List.drop_left' h]
    rw [(packBytes_cons8 s h).1, ih, hlen, List.range_succ_eq_map, List.map_cons, List.map_map, Nat.mul_zero, List.drop_zero,
      List.take_left' h]
    simp only [Function.comp_def, hdrop]

/-! `BR.READ_BIT`, `BR.READ_BITS` and `BR.CLOSE` (R111, R112, R113). -/

theorem srcNext_byte {s : State} {b : Byte} (hio : ioFailsNow s = false) (hb : s.src.bytes[s.src.pos]? = some b) :
    srcNext s = .ok (some b) ((tickIo s).withSrc { s.src with pos := s.src.pos + 1 }) := by
  simp only [srcNext, hio, Bool.false_eq_true, if_false, hb]

theorem srcNext_end {s : State} (hio : ioFailsNow s = false) (hp : s.src.bytes.length ≤ s.src.pos) :
    srcNext s = .ok none (tickIo s) := by
  simp only [srcNext, hio, Bool.false_eq_true, if_false, List.getElem?_eq_none hp]

theorem srcNext_fails {s : State} (hio : ioFailsNow s = true) : srcNext s = .stop (.fault .ioFailure (1, 0)) (tickIo s) :=
  if_pos hio

/-- `BR.READ_BIT` reports what the read delivers. -/
theorem exec_brReadBit_ok {s t : State} {b : Option Bool} (h0 : s.unfaulted) (hb : readBit s = .ok b t) :
    exec .brReadBit s = .next (t.finished (.bit b)) := issue_finished h0 (andThen_ok hb)

theorem exec_brReadBit_inHand {s : State} {b : Bool} {rest : Bits} (h0 : s.unfaulted) (he : s.br.exh = false)
    (hc : s.br.cur = b :: rest) :
    exec .brReadBit s = .next ({ s with br := { s.br with cur := rest } }.finished (.bit (some b))) :=
  exec_brReadBit_ok h0 (readBit_inHand he hc)

/-- A refill delivers bit 7 of the fetched byte and keeps the other seven (R111). -/
theorem exec_brReadBit_fetches {s : State} {b : Byte} (h0 : s.unfaulted) (he : s.br.exh = false) (hc : s.br.cur = [])
    (hio : s.ioFail.headD false = false) (hb : s.src.bytes[s.src.pos]? = some b) :
    exec .brReadBit s = .next ({ s with
      br := { s.br with cur := [6, 5, 4, 3, 2, 1, 0].map fun k => b.getLsbD k }
      src := { s.src with pos := s.src.pos + 1 }
      ioFail := s.ioFail.tail }.finished (.bit (some (b.getLsbD 7)))) :=
  exec_brReadBit_ok h0 (by rw [readBit_refill he hc, andThen_ok (srcNext_byte hio hb)]; rfl)

/-- Exhaustion is found at the refill, not earlier (R111). -/
theorem exec_brReadBit_end {s : State} (h0 : s.unfaulted) (he : s.br.exh = false) (hc : s.br.cur = [])
    (hio : s.ioFail.headD false = false) (hp : s.src.bytes.length ≤ s.src.pos) :
    exec .brReadBit s = .next ({ s with
      br := { s.br with exh := true }, ioFail := s.ioFail.tail }.finished (.bit none)) :=
  exec_brReadBit_ok h0 (by rw [readBit_refill he hc, andThen_ok (srcNext_end hio hp)]; rfl)

theorem exec_brReadBit_fails {s : State} (hs : s.ready) (he : s.br.exh = false) (hc : s.br.cur = [])
    (hio : s.ioFail.headD false = true) :
    exec .brReadBit s = .next ({ s with ioFail := s.ioFail.tail }.faultedBy .ioFailure (1, 0)) :=
  issue_faults hs.1 (andThen_stop ((readBit_refill he hc).trans (andThen_stop (srcNext_fails hio)))) hs.2 hs.1

theorem exec_brReadBit_exhausted {s : State} (h0 : s.unfaulted) (he : s.br.exh = true) :
    exec .brReadBit s = .next (s.finished (.bit none)) := exec_brReadBit_ok h0 (readBit_exhausted he)

/-- `BR.READ_BITS` reports what the read delivers. -/
theorem exec_brReadBits_ok {s t : State} {n : Nat} {b : Option Bits} (h0 : s.unfaulted) (hb : readBits n s = .ok b t) :
    exec (.brReadBits n) s = .next (t.finished (.bits b)) := issue_finished h0 (andThen_ok hb)

theorem exec_brReadBits_exhausted {s : State} (n : Nat) (h0 : s.unfaulted) (he : s.br.exh = true) :
    exec (.brReadBits n) s = .next (s.finished (.bits (if n = 0 then some [] else none))) :=
  exec_brReadBits_ok h0 (readBits_exhausted n he)

theorem exec_brReadBits_enough {s : State} {n : Nat} (h0 : s.unfaulted) (hs : s.canRead) (hn : n ≤ (unread s).length) :
    exec (.brReadBits n) s = .next ((afterRead n s).finished (.bits (some ((unread s).take n)))) :=
  exec_brReadBits_ok h0 ((readBits_reliable n hs.2 hs.1).1 hn)

theorem exec_brReadBits_short {s : State} {n : Nat} (h0 : s.unfaulted) (hs : s.canRead) (hn : (unread s).length < n) :
    exec (.brReadBits n) s = .next ((afterExhaustion s).finished (.bits none)) :=
  exec_brReadBits_ok h0 ((readBits_reliable n hs.2 hs.1).2 hn)

theorem exec_brClose_closed {s : State} (h : s.idleNow) (ho : s.br.isOpen = false) :
    exec .brClose s = .next (s.refusedBy .notOpen) := by
  rw [exec, execBrClose, if_neg (by simp [ho]), deliver_refused _ h]

theorem exec_brClose_open {s : State} (ho : s.br.isOpen = true) :
    exec .brClose s = .next ({ s with br := closedReader }.finished .done) := by
  rw [exec, execBrClose, if_pos ho]; rfl

/-! The law of the BitReader (R114). -/

/-- Bit `q` of a byte sequence is bit `7 − (q mod 8)` of byte `⌊q/8⌋` (R51, R70). -/
theorem getElem?_flatMap_bitsOfByte (l : List Byte) (q : Nat) :
    (l.flatMap bitsOfByte)[q]? = (l[q / 8]?).map fun b => b.getLsbD (7 - q % 8) := by
  induction l generalizing q with
  | nil => simp
  | cons b rest ih =>
    rw [List.flatMap_cons]
    rcases Nat.lt_or_ge q 8 with hlt | hge
    · rw [List.getElem?_append_left (by simpa using hlt), Nat.div_eq_of_lt hlt, Nat.mod_eq_of_lt hlt]
      interval_cases q <;> rfl
    · obtain ⟨k, rfl⟩ := Nat.exists_eq_add_of_le' hge
      rw [List.getElem?_append_right (by simp), bitsOfByte_length, Nat.add_sub_cancel, ih, Nat.add_div_right k (by decide),
        Nat.add_mod_right, List.getElem?_cons_succ]

/-- The reply is no part of what a reader can still deliver. -/
theorem unread_finished (r : Result) (s : State) : unread (s.finished r) = unread s := rfl

theorem exec_brReadBit_reliable {s : State} (h0 : s.unfaulted) (hs : s.canRead) (hu : unread s ≠ []) :
    exec .brReadBit s = .next ((afterRead 1 s).finished (.bit (unread s).head?)) := by
  obtain ⟨b, rest, hb⟩ := List.exists_cons_of_ne_nil hu
  rw [hb]
  exact exec_brReadBit_ok h0 (readBit_reliable hs.2 hs.1 hb).1

theorem exec_brReadBit_runsOut {s : State} (h0 : s.unfaulted) (hs : s.canRead) (hu : unread s = []) :
    exec .brReadBit s = .next ((afterExhaustion s).finished (.bit none)) := exec_brReadBit_ok h0 (readBit_end hs.2 hs.1 hu)

/-- Bit after bit while unread bits are left (R111). -/
theorem runAll_brReadBit {s : State} (q : Nat) (h0 : s.unfaulted) (hs : s.canRead) (hq : q < (unread s).length) :
    runAll (List.replicate (q + 1) .brReadBit) s = .next ((afterRead (q + 1) s).finished (.bit (unread s)[q]?)) := by
  induction q with
  | zero =>
    rw [← List.head?_eq_getElem?]
    exact runAll_cons (exec_brReadBit_reliable h0 hs (List.ne_nil_of_length_pos hq))
  | succ q ih =>
    have hleft : unread (afterRead (q + 1) s) = (unread s).drop (q + 1) := unread_afterRead hq.le
    have hlast := exec_brReadBit_reliable (s := (afterRead (q + 1) s).finished (.bit (unread s)[q]?)) h0
      ⟨hs.1, afterRead_reliable _ hs.2⟩ (by rw [unread_finished, hleft, ne_eq, List.drop_eq_nil_iff]; omega)
    rw [unread_finished, hleft, List.head?_drop] at hlast
    rw [List.replicate_succ', runAll_append _ _ (ih (by omega)), runAll_cons hlast, ← afterRead_succ hq]
    rfl

/-- Past the last unread bit every read reports none (R111: exhaustion is sticky). -/
theorem runAll_brReadBit_past {s : State} (q : Nat) (h0 : s.unfaulted) (hs : s.canRead) (hq : (unread s).length ≤ q) :
    runAll (List.replicate (q + 1) .brReadBit) s = .next ((afterExhaustion s).finished (.bit none)) := by
  induction q with
  | zero => exact runAll_cons (exec_brReadBit_runsOut h0 hs (List.eq_nil_of_length_eq_zero (Nat.le_zero.mp hq)))
  | succ q ih =>
    rw [List.replicate_succ']
    rcases Nat.le_or_eq_of_le_succ hq with hle | heq
    · rw [runAll_append _ _ (ih hle)]
      exact runAll_cons (exec_brReadBit_exhausted (s := (afterExhaustion s).finished (.bit none)) h0 rfl)
    · have hleft : unread (afterRead (q + 1) s) = [] := by rw [unread_afterRead heq.ge, ← heq, List.drop_length]
      have hlast := exec_brReadBit_runsOut (s := (afterRead (q + 1) s).finished (.bit (unread s)[q]?)) h0
        ⟨hs.1, afterRead_reliable _ hs.2⟩ hleft
      rw [runAll_append _ _ (runAll_brReadBit q h0 hs heq.ge), runAll_cons hlast, ← afterExhaustion_afterRead heq.ge]
      rfl

/-- What the last of `q + 1` reads reports, and how far the source has advanced (R70, R114). -/
theorem runAll_brReadBit_says {s : State} (q : Nat) (h0 : s.unfaulted) (hs : s.canRead) :
    ∃ t, runAll (List.replicate (q + 1) .brReadBit) s = .next t ∧ t.says (.ok (.bit (unread s)[q]?)) ∧
      (q < (unread s).length → t.src.pos = s.src.pos + fetches (q + 1) s) := by
  rcases Nat.lt_or_ge q (unread s).length with hlt | hge
  · exact ⟨_, runAll_brReadBit q h0 hs hlt, rfl, fun _ => rfl⟩
  · refine ⟨_, runAll_brReadBit_past q h0 hs hge, ?_, fun h => absurd h (by omega)⟩
    rw [List.getElem?_eq_none hge]
    rfl

/-- After `BR.OPEN` the unread bits are those of the source's unread bytes, and the reader may read (R110, R114). -/
theorem exec_brOpen_reads {s : State} (h0 : s.unfaulted) (ho : s.br.isOpen = false) (hr : s.reliable) :
    ∃ t, exec .brOpen s = .next t ∧ t.unfaulted ∧ t.canRead ∧ t.br.cur = [] ∧ t.src = s.src ∧ unread t = sourceBits s :=
  ⟨_, exec_brOpen_closed h0 ho, h0, ⟨rfl, hr⟩, rfl, rfl, rfl⟩

/-! The statements of the family. -/

/-- Settles O17: each refusal by its operation's first line, and the reads by the exhausted reader's. -/
theorem unitsNotOpenRefuse : Obligations.UnitsNotOpenRefuse :=
  ⟨fun _ => exec_bwWrite_closed, fun _ => exec_bwClose_closed, fun _ => exec_brClose_closed, fun _ => exec_bwOpen_open,
    fun _ => exec_brOpen_open,
    fun _ h0 _ he => ⟨exec_brReadBit_exhausted h0 he, fun n => exec_brReadBits_exhausted n h0 he⟩⟩

/-- Settles O18: the lines of R106 and R110 in the order of their checks. -/
theorem openingAStream : Obligations.OpeningAStream :=
  ⟨fun _ h => ⟨exec_closed rfl h, exec_closed rfl h⟩, fun _ => exec_bwOpen_open, fun _ => exec_bwOpen_closed,
    fun _ => exec_brOpen_open, fun _ => exec_brOpen_closed⟩

/-- Settles O19: the gate, the closed writer, all bits written, and the failing append. -/
theorem writingBits : Obligations.WritingBits := by
  refine ⟨fun _ _ => exec_closed rfl, fun _ => exec_bwWrite_closed, fun s bits h0 hs => ?_,
    fun s bits j rest hs ho hb hf hj => ?_⟩
  · exact ⟨afterWrite_buf bits s, exec_bwWrite_ok bits h0 hs⟩
  · exact ⟨_, bwWrite_fails hs ho hb hf hj, rfl, rfl, rfl, rfl, Nat.zero_le 7⟩

/-- Settles O20: what the close does by what is left to send and by the answer of the sink. -/
theorem closingTheWriter : Obligations.ClosingTheWriter :=
  ⟨fun _ => exec_bwClose_closed, fun _ => exec_bwClose_empty, fun _ ho hf hb _ => exec_bwClose_pads ho hf hb,
    fun _ h ho hb _ => exec_bwClose_fails h ho hb⟩

/-- Settles O21: the pieces are written as their concatenation, and the padded bits are packed byte by byte. -/
theorem writerLaw : Obligations.WriterLaw := by
  intro s pieces h0 ho hr
  obtain ⟨u, hopen, hu0, hwrite, hbuf, husink⟩ := exec_bwOpen_writes h0 ho hr
  obtain ⟨t, hrun, hsays, hbw, hsink⟩ := runAll_bwWrite_bwClose pieces hu0 hwrite
  refine ⟨t, (runAll_cons hopen).trans hrun, hsays, hbw, ?_⟩
  rw [hsink, hbuf, List.nil_append, husink, packBytes_eq_map, ← packBytes_length, packBytes_padded_length]
  rfl

/-- Settles O23: the gate, then the branches of R111 in turn. -/
theorem readingABit : Obligations.ReadingABit :=
  ⟨fun _ => exec_closed rfl, fun _ => exec_brReadBit_exhausted, fun _ _ _ => exec_brReadBit_inHand,
    fun _ _ => exec_brReadBit_fetches, fun _ => exec_brReadBit_end, fun _ => exec_brReadBit_fails⟩

/-- Settles O24: enough bits, too few, or a reader that is exhausted already. -/
theorem readingBits : Obligations.ReadingBits :=
  ⟨fun _ _ => exec_brReadBits_enough, fun _ _ => exec_brReadBits_short, fun _ => exec_brReadBits_exhausted⟩

/-- Settles O25: the reads after `BR.OPEN` deliver the bits of the source, and unpacking what was packed gives it back. -/
theorem readerLaw : Obligations.ReaderLaw := by
  refine ⟨fun s q h0 ho hr => ?_, fun s bits h0 ho hr hsrc => ?_⟩
  · obtain ⟨u, hopen, hu0, hread, hcur, hus, hbits⟩ := exec_brOpen_reads h0 ho hr
    obtain ⟨t, hrun, hsays, hpos⟩ := runAll_brReadBit_says q hu0 hread
    refine ⟨t, (runAll_cons hopen).trans hrun, ?_, fun hq => ?_⟩
    · rwa [hbits, sourceBits, getElem?_flatMap_bitsOfByte] at hsays
    · rw [hpos (by rw [unread_length, hcur, hus]; simpa using hq), fetches, hcur, hus]
      rfl
  · obtain ⟨u, hopen, hu0, hread, -, -, hbits⟩ := exec_brOpen_reads h0 ho hr
    rw [sourceBits, hsrc, unpack_padded] at hbits
    refine ⟨_, (runAll_cons hopen).trans (runAll_cons (exec_brReadBits_enough hu0 hread (by rw [hbits]))), ?_⟩
    rw [hbits, List.take_length]
    rfl

/-- Settles O26: the refusal, the close in any state, and a read of the exhausted reader it leaves. -/
theorem closingTheReader : Obligations.ClosingTheReader := by
  refine ⟨fun _ => exec_brClose_closed, fun _ => exec_brClose_open, fun s h0 ho => ?_⟩
  have hread := exec_brReadBit_exhausted (s := { s with br := closedReader }.finished .done) h0 rfl
  exact ⟨_, (runAll_cons (exec_brClose_open ho)).trans (runAll_cons hread), rfl⟩

end Sys2Proof.Machine

/-! The family of the FixedWidthCodec (41_fixedwidth.md R121 to R126): how each of its two operations ends behind the open
gate, with the bits and the value as the rules write them, and the inverse laws from those of `bitsOf` and `valOf`. -/

namespace Sys2Proof.Machine

/-- `FW.ENC` reports the bits that the encoding gives (R121). -/
theorem exec_fwEnc_ok {s : State} {x : Int} {width : Nat} {bits : Bits} (h0 : s.unfaulted)
    (hb : fixedEncode x width s = .ok bits s) :
    exec (.fwEnc x width) s = .next (s.finished (.bits (some bits))) := issue_finished h0 (andThen_ok hb)

/-- An integer outside the range is a fault, and the encoding changes nothing before it (R121, R122). -/
theorem exec_fwEnc_range {s : State} {x : Int} {width : Nat} (hs : s.ready) (hx : x < 0 ∨ x > 2 ^ width - 1) :
    exec (.fwEnc x width) s = .next (s.faultedBy .rangeError (x, width)) :=
  issue_faults hs.1 (andThen_stop (fixedEncode_range hx s)) hs.2 hs.1

/-- A natural number below `2^width` is reported as its `width` low-order bits (R121). -/
theorem exec_fwEnc_nat {s : State} {n width : Nat} (h0 : s.unfaulted) (hn : n < 2 ^ width) :
    exec (.fwEnc n width) s = .next (s.finished (.bits (some (bitsOf width n)))) :=
  exec_fwEnc_ok h0 (fixedEncode_nat hn s)

/-- `FW.DEC` reports the value of its bits, whatever they are (R124). -/
theorem exec_fwDec_valOf {s : State} (bits : Bits) (h0 : s.unfaulted) :
    exec (.fwDec bits) s = .next (s.finished (.value (valOf bits))) := issue_finished h0 rfl

/-- Settles O27: the gate, an integer in the range with its bits by index, and one outside it. -/
theorem fixedWidthEncode : Obligations.FixedWidthEncode := by
  refine ⟨fun _ _ _ => exec_closed rfl, fun s x width h0 hx hle => ?_, fun _ _ _ => exec_fwEnc_range⟩
  rw [← bitsOf_eq_map]
  exact exec_fwEnc_ok h0 (fixedEncode_fits hx hle s)

/-- Settles O28: the gate, and the value as the sum of R124. -/
theorem fixedWidthDecode : Obligations.FixedWidthDecode := by
  refine ⟨fun _ _ => exec_closed rfl, fun s bits h0 => ?_⟩
  rw [← valOf_eq_sum]
  exact exec_fwDec_valOf bits h0

/-- Settles O29: the value of `n` bits is below `2^n`, so it is encoded again, and `bitsOf` and `valOf` undo each other. -/
theorem fixedWidthInverse : Obligations.FixedWidthInverse := by
  refine ⟨fun s bits h0 => ⟨valOf bits, exec_fwDec_valOf bits h0, ?_⟩,
    fun s x width h0 hx => ⟨bitsOf width x, bitsOf_length width x, exec_fwEnc_nat h0 hx, ?_⟩⟩
  · have henc := exec_fwEnc_nat h0 (valOf_lt bits)
    rwa [bitsOf_valOf] at henc
  · have hdec := exec_fwDec_valOf (bitsOf width x) h0
    rwa [valOf_bitsOf hx] at hdec

end Sys2Proof.Machine

/-! The family of the histogram accumulator (42_histogram.md R129 to R134): how each of its four operations ends behind the
open gate, the single operations of which `HG.BUILD` is the expansion, and the emitted pairs as a probability
distribution. -/

namespace Sys2Proof.Machine

theorem uncodable_of_outside {x : Int} (h : x < -255 ∨ 255 < x) : isCodable x = false := by
  rw [Bool.eq_false_iff, ne_eq, isCodable_iff]
  omega

/-! `HG.CLEAR` and `HG.ACC` (R129, R130). -/

theorem exec_hgClear {s : State} (h0 : s.unfaulted) :
    exec .hgClear s = .next ((s.withHg Histogram.cleared).finished .done) := issue_finished h0 rfl

theorem exec_hgAcc_codable {s : State} {x : Sample} (h0 : s.unfaulted) (hx : isCodable x = true) :
    exec (.hgAcc x) s = .next ((s.withHg (s.hg.bump x)).finished .done) :=
  issue_finished h0 (done_ok (accumulate_codable hx s))

theorem exec_hgAcc_uncodable {s : State} {x : Sample} (hs : s.ready) (hx : isCodable x = false) :
    exec (.hgAcc x) s = .next (s.faultedBy .sampleRangeError (x, s.hg.total)) :=
  issue_faults hs.1 (done_stop (accumulate_uncodable hx s)) hs.2 hs.1

/-- Settles O30: the gate, the clear, and a codable and an uncodable sample. -/
theorem countingSamples : Obligations.CountingSamples := by
  refine ⟨fun _ _ h => ⟨exec_closed rfl h, exec_closed rfl h⟩, fun _ => exec_hgClear, fun s x h0 hlo hhi => ?_,
    fun _ _ hs hx => exec_hgAcc_uncodable hs (uncodable_of_outside hx)⟩
  have hx : isCodable x = true := (isCodable_iff x).mpr ⟨hlo, hhi⟩
  refine ⟨s.hg.bump x, exec_hgAcc_codable h0 hx, bump_total _ x, ?_, fun y hy => ?_⟩
  · rw [counter_bump _ hx, if_pos rfl]
  · rw [counter_bump _ hx, if_neg hy, Nat.add_zero]

/-! `HG.EMIT` (R131). -/

theorem emitHistogram_empty {s : State} (lo hi : Int) (ht : s.hg.total = 0) :
    emitHistogram lo hi s = .stop (.refuse .emptyHistogram) s := if_pos ht

theorem emitHistogram_counted {s : State} (lo hi : Int) (ht : s.hg.total ≠ 0) :
    emitHistogram lo hi s = .ok (s.hg.emit lo hi) s := if_neg ht

theorem exec_hgEmit_empty {s : State} (lo hi : Int) (hs : s.ready) (ht : s.hg.total = 0) :
    exec (.hgEmit lo hi) s = .next (s.refusedBy .emptyHistogram) :=
  issue_refused hs.1 (andThen_stop (emitHistogram_empty lo hi ht)) hs.2

theorem exec_hgEmit_counted {s : State} (lo hi : Int) (h0 : s.unfaulted) (ht : s.hg.total ≠ 0) :
    exec (.hgEmit lo hi) s = .next (s.finished (.pairs (s.hg.emit lo hi))) :=
  issue_finished h0 (andThen_ok (emitHistogram_counted lo hi ht))

/-- Settles O31: the gate, the empty histogram, and the pairs of a histogram that counted something. -/
theorem emittingProbabilities : Obligations.EmittingProbabilities := by
  refine ⟨fun _ _ _ => exec_closed rfl, fun _ => exec_hgEmit_empty, fun s lo hi h0 ht => ?_⟩
  refine ⟨s.hg.emit lo hi, exec_hgEmit_counted lo hi h0 ht, emit_sorted _ lo hi, fun x p => ?_⟩
  rw [mem_emit, Rat.mkRat_eq_div, Int.cast_natCast]

/-! `HG.BUILD` and the operations it expands to (R132). -/

theorem runAll_singleton (i : Instr) (s : State) : runAll [i] s = exec i s := by
  simp only [runAll]
  cases exec i s <;> rfl

/-- The reply of the operation before it is lost on `HG.EMIT`, which reports its own outcome. -/
theorem exec_hgEmit_finished {s : State} (lo hi : Int) (r : Result) (hs : s.ready) :
    exec (.hgEmit lo hi) (s.finished r) = exec (.hgEmit lo hi) s := by
  by_cases ht : s.hg.total = 0
  · rw [exec_hgEmit_empty lo hi hs ht, exec_hgEmit_empty (s := s.finished r) lo hi hs ht]
    rfl
  · rw [exec_hgEmit_counted lo hi hs.1 ht, exec_hgEmit_counted (s := s.finished r) lo hi hs.1 ht]
    rfl

/-- One `HG.ACC` for each of some codable samples counts them all. -/
theorem runAll_hgAcc {l : List Sample} (hl : ∀ x ∈ l, isCodable x = true) {s : State} (h0 : s.unfaulted) (g : Histogram) :
    runAll (l.map .hgAcc) ((s.withHg g).finished .done) = .next ((s.withHg (g.counted l)).finished .done) := by
  induction l generalizing g with
  | nil => rfl
  | cons x rest ih =>
    have hacc := exec_hgAcc_codable (s := (s.withHg g).finished .done) h0 (hl x List.mem_cons_self)
    exact (runAll_cons hacc).trans (ih (fun y hy => hl y (List.mem_cons_of_mem _ hy)) (g.bump x))

theorem runAll_hgClear_hgAcc {l : List Sample} (hl : ∀ x ∈ l, isCodable x = true) {s : State} (h0 : s.unfaulted) :
    runAll (.hgClear :: l.map .hgAcc) s = .next ((s.withHg (Histogram.cleared.counted l)).finished .done) :=
  (runAll_cons (exec_hgClear h0)).trans (runAll_hgAcc hl h0 _)

/-- `HG.BUILD` counts from a cleared histogram on, then emits (R132). -/
theorem buildHistogram_from_cleared (l : List Sample) (lo hi : Int) (s : State) :
    buildHistogram l lo hi s = (forEach l accumulate).next (emitHistogram lo hi) (s.withHg Histogram.cleared) := rfl

/-- After codable samples `HG.BUILD` ends as `HG.EMIT` does on the samples counted, none or some. -/
theorem exec_hgBuild_codable {l : List Sample} (hl : ∀ x ∈ l, isCodable x = true) {s : State} (lo hi : Int)
    (h0 : s.unfaulted) :
    exec (.hgBuild l lo hi) s = exec (.hgEmit lo hi) (s.withHg (Histogram.cleared.counted l)) := by
  have hbuild : buildHistogram l lo hi s = emitHistogram lo hi (s.withHg (Histogram.cleared.counted l)) :=
    (buildHistogram_from_cleared l lo hi s).trans (next_ok (forEach_accumulate hl _))
  rw [exec, exec, execHgBuild, execHgEmit, issue_unfaulted h0,
    issue_unfaulted (s := s.withHg (Histogram.cleared.counted l)) h0, Op.andThen, Op.andThen, hbuild]

/-- The first sample that is not codable ends `HG.BUILD`, the samples before it being counted. -/
theorem exec_hgBuild_uncodable {before : List Sample} (hb : ∀ y ∈ before, isCodable y = true) {x : Sample}
    (hx : isCodable x = false) (after : List Sample) (lo hi : Int) {s : State} (hs : s.ready) :
    exec (.hgBuild (before ++ x :: after) lo hi) s = .next ((s.withHg (Histogram.cleared.counted before)).faultedBy
      .sampleRangeError (x, (Histogram.cleared.counted before).total)) := by
  have hloop : forEach (before ++ x :: after) accumulate (s.withHg Histogram.cleared) =
      .stop (.fault .sampleRangeError (x, (Histogram.cleared.counted before).total))
        (s.withHg (Histogram.cleared.counted before)) := by
    rw [forEach_append, next_ok (forEach_accumulate hb _)]
    exact next_stop (accumulate_uncodable hx _)
  exact issue_faults hs.1 (andThen_stop ((buildHistogram_from_cleared _ lo hi s).trans (next_stop hloop))) hs.2 hs.1

/-- Settles O32: both sides count the codable samples; then both emit, or both end on the first sample out of range. -/
theorem histogramBuildExpands : Obligations.HistogramBuildExpands := by
  refine ⟨fun _ _ _ _ => exec_closed rfl, fun s l lo hi hs hl => ?_, fun s before x after lo hi hs hb hx => ?_⟩
  · have hc : ∀ x ∈ l, isCodable x = true := fun x hx => (isCodable_iff x).mpr (hl x hx)
    rw [← List.cons_append, runAll_append _ _ (runAll_hgClear_hgAcc hc hs.1), runAll_singleton,
      exec_hgEmit_finished lo hi _ (by exact hs), exec_hgBuild_codable hc lo hi hs.1]
  · have hc : ∀ y ∈ before, isCodable y = true := fun y hy => (isCodable_iff y).mpr (hb y hy)
    have hu := uncodable_of_outside hx
    rw [List.map_append, ← List.cons_append, runAll_append _ _ (runAll_hgClear_hgAcc hc hs.1), List.map_singleton,
      runAll_singleton, exec_hgAcc_uncodable (by exact hs) hu, exec_hgBuild_uncodable hc hu after lo hi hs]
    rfl

/-! The order of the samples does not matter (R132). -/

/-- The counter file by the symbols of its entries (R27). -/
theorem count_eq_counter (g : Histogram) {i : Nat} (hi : i < 511) : g.count[i] = g.counter (i - 255) := by
  have hc : isCodable ((i : Int) - 255) = true := (isCodable_iff _).mpr (by omega)
  have hidx : counterIndex ((i : Int) - 255) = i := by simp only [counterIndex, Config.bias]; omega
  simp only [counter_codable hc, hidx]

/-- A histogram is its counters and its total (R27, R28). -/
theorem Histogram.ext_counter {g g' : Histogram} (hc : ∀ x, g.counter x = g'.counter x) (ht : g.total = g'.total) :
    g = g' := by
  have hcount : g.count = g'.count := Vector.ext fun i hi => by rw [count_eq_counter g hi, count_eq_counter g' hi, hc]
  cases g
  cases g'
  congr

theorem counted_perm (g : Histogram) {l l' : List Sample} (hl : ∀ x ∈ l, isCodable x = true) (hp : l'.Perm l) :
    g.counted l' = g.counted l := by
  refine Histogram.ext_counter (fun x => ?_) ?_
  · rw [counter_counted g (fun y hy => hl y (hp.mem_iff.mp hy)), counter_counted g hl, hp.count_eq]
  · rw [counted_total, counted_total, hp.length_eq]

/-! The pairs of a list of samples are a probability distribution (R134). -/

/-- Any range that covers the samples gives what their own range gives (R131, R183). -/
theorem emit_counted_covered {l : List Sample} {lo hi : Int} (hl : ∀ x ∈ l, isCodable x = true)
    (hcov : ∀ x ∈ l, lo ≤ x ∧ x ≤ hi) : (Histogram.cleared.counted l).emit lo hi = empirical l := by
  rw [← emit_counted hl, Histogram.emit, Histogram.emit]
  refine congrArg _ (List.filter_congr fun x _ => ?_)
  by_cases hx : x ∈ l
  · simp [hcov x hx, minOf_le hx, le_maxOf hx]
  · simp [counter_counted _ hl, counter_cleared, hx]

theorem empirical_sorted (l : List Sample) : ((empirical l).map (·.1)).Pairwise (· < ·) := by
  rw [empirical_symbols]
  exact allSymbols_sorted.filter _

theorem mem_symbols_empirical {l : List Sample} (hl : ∀ x ∈ l, isCodable x = true) (x : Symbol) :
    x ∈ (empirical l).map (·.1) ↔ x ∈ l := by
  rw [empirical_symbols, List.mem_filter, mem_allSymbols, List.contains_iff_mem]
  exact ⟨And.right, fun hx => ⟨hl x hx, hx⟩⟩

/-- Every pair is a symbol with the fraction of the samples it is (R133). -/
theorem empirical_probabilities (l : List Sample) :
    (empirical l).map (·.2) = ((empirical l).map (·.1)).map fun x => (l.count x : Rat) / l.length := by
  simp only [empirical, List.map_map]
  exact List.map_congr_left fun x _ => by simp [Rat.mkRat_eq_div]

/-- The counts of the occurring symbols add up to the number of samples, so their fractions add up to 1 (R134). -/
theorem empirical_sum {l : List Sample} (hl : ∀ x ∈ l, isCodable x = true) (h0 : l ≠ []) :
    ((empirical l).map (·.2)).sum = 1 := by
  have hlen : (l.length : Rat) ≠ 0 := Nat.cast_ne_zero.mpr (by simpa using h0)
  have hset : ((empirical l).map (·.1)).toFinset = l.toFinset := by
    ext x
    rw [List.mem_toFinset, List.mem_toFinset, mem_symbols_empirical hl]
  rw [empirical_probabilities, ← List.sum_toFinset _ (empirical_sorted l).nodup, hset, ← Finset.sum_div, ← Nat.cast_sum,
    List.sum_toFinset_count_eq_length, div_self hlen]

/-- Samples that are all equal give one symbol, with probability 1 (R132). -/
theorem empirical_constant {l : List Sample} {x : Sample} (hl : ∀ y ∈ l, isCodable y = true) (h0 : l ≠ [])
    (hx : ∀ y ∈ l, y = x) : empirical l = [(x, 1)] := by
  have hmem : x ∈ l := by
    obtain ⟨y, hy⟩ := List.exists_mem_of_ne_nil l h0
    rwa [← hx y hy]
  have hsymbols : (empirical l).map (·.1) = [x] := by
    refine List.perm_singleton.mp ((List.perm_ext_iff_of_nodup (empirical_sorted l).nodup (List.nodup_singleton x)).mpr ?_)
    intro y
    rw [mem_symbols_empirical hl, List.mem_singleton]
    exact ⟨hx y, fun hy => hy ▸ hmem⟩
  obtain ⟨⟨y, p⟩, hpair, rfl⟩ := List.map_eq_singleton_iff.mp hsymbols
  have hsum := empirical_sum hl h0
  rw [hpair, List.map_singleton, List.sum_singleton] at hsum
  rw [hpair, ← hsum]

/-- `HG.BUILD` over a range that covers its samples reports the distribution of the samples (R132). -/
theorem exec_hgBuild_covered {l : List Sample} (hl : ∀ x ∈ l, isCodable x = true) (hne : l ≠ []) {lo hi : Int}
    (hcov : ∀ x ∈ l, lo ≤ x ∧ x ≤ hi) {s : State} (h0 : s.unfaulted) :
    exec (.hgBuild l lo hi) s =
      .next ((s.withHg (Histogram.cleared.counted l)).finished (.pairs (empirical l))) := by
  rw [← emit_counted_covered hl hcov]
  exact issue_finished h0 (andThen_ok (buildHistogram_codable hl hne lo hi s))

/-- Settles O33: the reported pairs are the distribution of the samples, and permuted samples are counted alike. -/
theorem histogramProperties : Obligations.HistogramProperties := by
  intro s l lo hi hs hne hrange
  have hl : ∀ x ∈ l, isCodable x = true := fun x hx =>
    (isCodable_iff x).mpr ⟨(hrange x hx).1, (hrange x hx).2.1⟩
  have hcov : ∀ x ∈ l, lo ≤ x ∧ x ≤ hi := fun x hx => (hrange x hx).2.2
  have hexec := exec_hgBuild_covered hl hne hcov hs.1
  obtain ⟨-, hnil, hpos, -, -, hmax⟩ := empirical_valid hl hne
  have hlen : 1 ≤ (empirical l).length := List.length_pos_iff.mpr fun h => hnil (by rw [h]; rfl)
  refine ⟨_, empirical l, hexec, rfl, empirical_sorted l, fun e he => hpos _ (List.mem_map_of_mem he),
    empirical_sum hl hne, hlen, (List.length_map _).ge.trans hmax, fun x => empirical_constant hl hne, fun l' hp => ?_⟩
  have hl' : ∀ x ∈ l', isCodable x = true := fun x hx => hl x (hp.mem_iff.mp hx)
  rw [← hexec, exec_hgBuild_codable hl' lo hi hs.1, exec_hgBuild_codable hl lo hi hs.1, counted_perm _ hl hp]

end Sys2Proof.Machine

/-! The Huffman family (43_huffman_tree.md R141 to R156): the checks of `HT.BUILD`, the sort as an insertion sort, the table
of `HT.GEN`, and the code that the two operations make together. -/

namespace Sys2Proof.Machine

/-! The checks (R142). -/

/-- What `HT.BUILD` stops for is found before anything is built. -/
theorem buildHuffman_stop {xs : List Symbol} {ps : List Prob} {c : Cause} (h : alphabetCause xs ps = some c) (s : State) :
    buildHuffman xs ps s = .stop c s := by simp only [buildHuffman, h]

theorem exec_htBuild_fault {s : State} {xs : List Symbol} {ps : List Prob} {e : FaultKind} {info : Int × Int}
    (hs : s.ready) (h : alphabetCause xs ps = some (.fault e info)) :
    exec (.htBuild xs ps) s = .next (s.faultedBy e info) :=
  issue_faults hs.1 (done_stop (buildHuffman_stop h s)) hs.2 hs.1

theorem exec_htBuild_refused {s : State} {xs : List Symbol} {ps : List Prob} {r : RefuseKind} (hs : s.ready)
    (h : alphabetCause xs ps = some (.refuse r)) : exec (.htBuild xs ps) s = .next (s.refusedBy r) :=
  issue_refused hs.1 (done_stop (buildHuffman_stop h s)) hs.2

theorem alphabetCause_lengths {xs : List Symbol} {ps : List Prob} (hl : xs.length ≠ ps.length) :
    alphabetCause xs ps = some (.fault .lengthMismatch (xs.length, ps.length)) := if_pos hl

theorem alphabetCause_probability {xs : List Symbol} {ps : List Prob} (hl : xs.length = ps.length)
    (hp : ∃ p ∈ ps, p ≤ 0) : alphabetCause xs ps = some (.refuse .badProbability) := by
  obtain ⟨p, hp, h0⟩ := hp
  have hne : xs ≠ [] := List.ne_nil_of_length_pos (hl ▸ List.length_pos_of_mem hp)
  have hany : (ps.any fun p => decide (p ≤ 0)) = true := List.any_eq_true.mpr ⟨p, hp, decide_eq_true h0⟩
  rw [alphabetCause, if_neg (not_not.mpr hl), if_neg hne, if_pos hany]

theorem alphabetCause_symbol {xs : List Symbol} {ps : List Prob} (hl : xs.length = ps.length) (hne : xs ≠ [])
    (hp : ∀ p ∈ ps, 0 < p) (hx : (∃ x ∈ xs, x < -255 ∨ 255 < x) ∨ ¬xs.Nodup ∨ 511 < xs.length) :
    alphabetCause xs ps = some (.refuse .badSymbol) := by
  have hany : ¬(ps.any fun p => decide (p ≤ 0)) = true := by simpa using hp
  have hbad : (xs.any (fun x => !isCodable x) || hasRepeat xs || decide (Config.symbolCount < xs.length)) = true := by
    simp only [Bool.or_eq_true, hasRepeat_iff, decide_eq_true_eq, or_assoc, List.any_eq_true, Bool.not_eq_true']
    exact hx.imp_left fun ⟨x, hx, ho⟩ => ⟨x, hx, uncodable_of_outside ho⟩
  rw [alphabetCause, if_neg (not_not.mpr hl), if_neg hne, if_neg hany, if_pos hbad]

/-- Settles O34: the cause that each check names, and an alphabet that passes them all. -/
theorem huffmanBuildChecks : Obligations.HuffmanBuildChecks :=
  ⟨fun _ _ _ hs hl => exec_htBuild_fault hs (alphabetCause_lengths hl),
    fun _ hs => exec_htBuild_refused hs rfl,
    fun _ _ _ hs hl hp => exec_htBuild_refused hs (alphabetCause_probability hl hp),
    fun _ _ _ hs hl hne hp hx => exec_htBuild_refused hs (alphabetCause_symbol hl hne hp hx),
    fun _ xs ps hs h => ⟨buildTree xs ps, htBuild_valid hs h⟩⟩

/-! The sort (R145). -/

/-- Node `i` is no heavier than node `j`. -/
abbrev noHeavier (node : List Node) (i j : Nat) : Prop := weightAt node i ≤ weightAt node j

theorem insertByWeight_eq_orderedInsert (node : List Node) (i : Nat) (l : List Nat) :
    insertByWeight node i l = l.orderedInsert (noHeavier node) i := by
  induction l with
  | nil => rfl
  | cons j rest ih =>
    rw [insertByWeight, List.orderedInsert_cons, ← ih]
    by_cases hw : weightAt node j < weightAt node i
    · rw [if_pos hw, if_neg (not_le.mpr hw)]
    · rw [if_neg hw, if_pos (not_lt.mp hw)]

/-- The sort of the merge loop is the library's insertion sort, which is known to be stable. -/
theorem stableSort_eq_insertionSort (node : List Node) (l : List Nat) :
    stableSort node l = l.insertionSort (noHeavier node) := by
  induction l with
  | nil => rfl
  | cons i rest ih => rw [List.insertionSort_cons, ← ih, ← insertByWeight_eq_orderedInsert]; rfl

theorem stableSort_sorted (node : List Node) (l : List Nat) : (stableSort node l).Pairwise (noHeavier node) := by
  have : Std.Total (noHeavier node) := ⟨fun i j => le_total (weightAt node i) (weightAt node j)⟩
  have : IsTrans Nat (noHeavier node) := ⟨fun _ _ _ => le_trans⟩
  rw [stableSort_eq_insertionSort]
  exact List.pairwise_insertionSort (noHeavier node) l

/-- The indices of one weight are a sorted part of the list, so sorting keeps their order; and it loses none of them. -/
theorem stableSort_filter_weight (node : List Node) (l : List Nat) (w : Prob) :
    (stableSort node l).filter (fun i => weightAt node i == w) = l.filter fun i => weightAt node i == w := by
  have hequal : (l.filter fun i => weightAt node i == w).Pairwise (noHeavier node) :=
    List.pairwise_of_forall_mem_list fun i hi j hj => by
      have hi := eq_of_beq (List.mem_filter.mp hi).2
      have hj := eq_of_beq (List.mem_filter.mp hj).2
      exact (hi.trans hj.symm).le
  have hsub := (List.sublist_insertionSort hequal List.filter_sublist).filter fun i => weightAt node i == w
  rw [List.filter_filter, ← stableSort_eq_insertionSort] at hsub
  simp only [Bool.and_self] at hsub
  exact (hsub.eq_of_length ((stableSort_perm node l).filter _).length_eq.symm).symm

/-- Settles O36: the sort is a permutation, sorted by weight, and equal weights keep their order. -/
theorem sortIsStable : Obligations.SortIsStable := fun node l =>
  ⟨stableSort_perm node l, stableSort_sorted node l, stableSort_filter_weight node l⟩

/-! The table of `HT.GEN` (R151 to R154). -/

/-- `HT.GEN` on a tree: its code table is loaded and reported. -/
theorem exec_htGen_tree {s : State} (h0 : s.unfaulted) (h : s.ht.isTree = true) :
    exec .htGen s = .next ({ s with ct := { entries := codesOf s.ht } }.finished (.codes (codesOf s.ht))) := by
  obtain ⟨-, -, ⟨r, hroot, -⟩, -⟩ := isTree_facts h
  have hgen : generateCodes s = .ok (codesOf s.ht) (s.withCt { entries := codesOf s.ht }) := by
    simp only [generateCodes, hroot]
  rw [exec, execHtGen, gate_open h0, if_neg (by simp [h]), andThen_ok hgen]
  rfl

theorem exec_htGen_noTree {s : State} (hs : s.ready) (hroot : s.ht.root = none) :
    exec .htGen s = .next (s.refusedBy .noTree) := by
  have hgen : generateCodes s = .stop (.refuse .noTree) s := by simp only [generateCodes, hroot]
  rw [exec, execHtGen, gate_open hs.1, if_neg (by simp [hroot]), andThen_stop hgen, deliver_stop, abort_refuse .noTree hs.2]

/-- Settles O37: the table of a tree is one leaf's, or what lies below an internal root: the leaves with their paths, in
lexicographic order. -/
theorem codesAreTheLeafPaths : Obligations.CodesAreTheLeafPaths := by
  refine ⟨fun _ => exec_closed rfl, fun _ => exec_htGen_noTree, fun s r h0 hroot htree => ?_⟩
  obtain ⟨hnn, hcf, ⟨r', hroot', hr⟩, -⟩ := isTree_facts htree
  obtain rfl : r = r' := Option.some.inj (hroot.symm.trans hroot')
  refine ⟨codesOf s.ht, exec_htGen_tree h0 htree, fun x w => codesOf_leaf hroot, fun w a b hn => ?_⟩
  rw [codesOf_internal hcf (hnn ▸ hr) hroot hn]
  exact ⟨List.pairwise_map.mpr (codesBelow_sorted hcf r hr), mem_codesBelow hcf r hr⟩

/-! The code of a built tree (R155, R156). -/

/-- `HT.BUILD` on a valid alphabet, then `HT.GEN`. -/
theorem runAll_htBuild_htGen {s : State} {xs : List Symbol} {ps : List Prob} (h0 : s.unfaulted) (h : validAlphabet xs ps) :
    runAll [.htBuild xs ps, .htGen] s = .next ({ s with
      ht := buildTree xs ps, ct := { entries := codesOf (buildTree xs ps) }
      }.finished (.codes (codesOf (buildTree xs ps)))) := by
  rw [runAll_cons (htBuild_valid h0 h), runAll_singleton]
  exact exec_htGen_tree (s := { s with ht := buildTree xs ps }.finished .done) h0 (buildTree_isTree h)

/-- A built tree of two leaves or more, as the arena below its root. -/
theorem buildTree_below {xs : List Symbol} {ps : List Prob} (hl : xs.length = ps.length) (h2 : 2 ≤ xs.length) :
    ChildrenFirst (buildTree xs ps).node ∧ (buildTree xs ps).nn - 1 < (buildTree xs ps).node.length ∧
      codesOf (buildTree xs ps) = codesBelow (buildTree xs ps).node ((buildTree xs ps).nn - 1) := by
  have hne : xs ≠ [] := List.ne_nil_of_length_pos (by omega)
  obtain ⟨hf, -, -, hnn⟩ := buildTree_forest hl hne
  refine ⟨forest_childrenFirst hf, by rw [← hf.size]; omega, ?_⟩
  rcases buildTree_codes hl hne with ⟨x, rfl, -⟩ | ⟨-, hc⟩
  · simp at h2
  · exact hc

theorem codesOf_buildTree_length {xs : List Symbol} {ps : List Prob} (hl : xs.length = ps.length) (hne : xs ≠ []) :
    (codesOf (buildTree xs ps)).length = xs.length := by
  simpa using (buildTree_symbols (ps := ps) hl hne).length_eq

/-- A codeword has a bit at least, and fewer bits than there are symbols, or one bit for one symbol (R155, R156). -/
theorem buildTree_codeword_length {xs : List Symbol} {ps : List Prob} (h : validAlphabet xs ps) :
    ∀ e ∈ codesOf (buildTree xs ps), 1 ≤ e.2.length ∧ e.2.length ≤ max 1 (xs.length - 1) := by
  intro e he
  refine ⟨((codesOf_codewords (buildTree_isTree h)).1 e he).1, ?_⟩
  obtain ⟨hl, hne, -⟩ := h
  rcases buildTree_codes hl hne with ⟨x, rfl, hc⟩ | ⟨h2, hc⟩
  · rw [hc, List.mem_singleton] at he
    rw [he]
    exact le_max_left 1 _
  · obtain ⟨hcf, hroot, -⟩ := buildTree_below hl h2
    have hlen := codesBelow_length hcf _ hroot e (hc ▸ he)
    rw [← hc, codesOf_buildTree_length hl hne] at hlen
    omega

theorem buildTree_prefixFree {xs : List Symbol} {ps : List Prob} (hl : xs.length = ps.length) (hne : xs ≠ []) :
    (codesOf (buildTree xs ps)).Pairwise fun a b => ¬a.2 <+: b.2 ∧ ¬b.2 <+: a.2 := by
  rcases buildTree_codes hl hne with ⟨x, -, hc⟩ | ⟨h2, hc⟩
  · rw [hc]
    exact List.pairwise_singleton _ _
  · obtain ⟨hcf, hroot, -⟩ := buildTree_below hl h2
    rw [hc]
    exact codesBelow_prefix hcf _ hroot

/-- Long enough bits begin with exactly one codeword (R155). -/
theorem buildTree_complete {xs : List Symbol} {ps : List Prob} (hl : xs.length = ps.length) (h2 : 2 ≤ xs.length) {u : Bits}
    (hu : xs.length ≤ u.length + 1) : ∃! e, e ∈ codesOf (buildTree xs ps) ∧ e.2 <+: u := by
  obtain ⟨hcf, hroot, hc⟩ := buildTree_below hl h2
  rw [← codesOf_buildTree_length hl (List.ne_nil_of_length_pos (by omega)), hc] at hu
  rw [hc]
  obtain ⟨e, he, hp⟩ := codesBelow_complete hcf _ hroot u hu
  exact ⟨e, ⟨he, hp⟩, fun e' h' => codesBelow_unique hcf _ hroot e' h'.1 e he u h'.2 hp⟩

/-- Settles O38: each property of the code below the root of the built tree. -/
theorem builtCodeIsComplete : Obligations.BuiltCodeIsComplete := by
  intro s xs ps h0 h
  have ⟨hl, hne, _⟩ := h
  exact ⟨_, codesOf (buildTree xs ps), runAll_htBuild_htGen h0 h, rfl, rfl, buildTree_symbols hl hne,
    buildTree_codeword_length h, buildTree_prefixFree hl hne, fun h2 _ => buildTree_complete hl h2⟩

/-! Depths (R155). -/

/-- The arena's leaves are the first nodes, one for each pair of the input (R143). -/
theorem buildTree_leaf {xs : List Symbol} {ps : List Prob} (hl : xs.length = ps.length) (hne : xs ≠ []) {i : Nat}
    {x : Symbol} {w : Prob} (hn : (buildTree xs ps).node[i]? = some (.leaf x w)) :
    i < xs.length ∧ (x, w) ∈ xs.zip ps := by
  obtain ⟨hf, -⟩ := buildTree_forest hl hne
  have hlen : (List.zipWith Node.leaf xs ps).length = xs.length := by simp [hl]
  have hi : i < xs.length := by
    by_contra hge
    have hin := (List.getElem?_eq_some_iff.mp hn).1
    obtain ⟨l, r, -, -, -, hm, -⟩ := hf.merged i (by omega) (hf.size ▸ hin)
    rw [hn] at hm
    cases hm
  refine ⟨hi, List.mem_of_getElem? (i := i) ?_⟩
  rw [hf.leaf i (hlen ▸ hi), List.getElem?_zipWith_eq_some] at hn
  obtain ⟨a, b, ha, hb, hab⟩ := hn
  cases hab
  exact List.getElem?_zip_eq_some.mpr ⟨ha, hb⟩

/-- A codeword of the built code leads from the root to a leaf, of the symbol with the probability it has in the input. -/
theorem buildTree_codeword_walk {xs : List Symbol} {ps : List Prob} (h : validAlphabet xs ps) (h2 : 2 ≤ xs.length)
    {x : Symbol} {p : Prob} (hx : (x, p) ∈ xs.zip ps) {u : Bits} (hu : (x, u) ∈ codesOf (buildTree xs ps)) :
    ∃ i, walk (buildTree xs ps).node ((buildTree xs ps).nn - 1) u = some i ∧ i < xs.length ∧
      weightAt (buildTree xs ps).node i = p := by
  obtain ⟨hl, hne, -, -, hd, -⟩ := h
  obtain ⟨hcf, hroot, hc⟩ := buildTree_below hl h2
  obtain ⟨i, w, hw, hn⟩ := (mem_codesBelow hcf _ hroot x u).mp (hc ▸ hu)
  obtain ⟨hi, hmem⟩ := buildTree_leaf hl hne hn
  have hfst : (xs.zip ps).map Prod.fst = xs := List.map_fst_zip hl.le
  have hpw : (x, w) = (x, p) := List.inj_on_of_nodup_map (hfst.symm ▸ hd) hmem hx rfl
  cases hpw
  exact ⟨i, hw, hi, by rw [weightAt, hn]; rfl⟩

/-- A path that leads from the root to a leaf has a last branch. -/
theorem parent_of_walk {t : HuffmanTree} {u : Bits} {i : Nat} (hi : i < t.nn - 1)
    (hw : walk t.node (t.nn - 1) u = some i) : ∃ p, isChild t.node p i := by
  rcases List.eq_nil_or_concat u with rfl | ⟨v, b, rfl⟩
  · cases hw
    omega
  · obtain ⟨p, -, hc⟩ := walk_snoc (by simpa using hw)
    exact ⟨p, hc⟩

/-- Of two leaves the strictly lighter one gets its parent no later. -/
theorem lighter_parent_le {leaves : List Node} {t : HuffmanTree} (hf : Forest leaves t) {i j p q : Nat}
    (hi : i < leaves.length) (hlt : weightAt t.node i < weightAt t.node j) (hp : isChild t.node p i)
    (hq : isChild t.node q j) : p ≤ q := by
  by_contra hqp
  have hleaves := (isChild_merged hf hq).1
  exact absurd (standsBefore_le (removed_first hf hp hq (by omega) (by omega))) (not_le.mpr hlt)

/-- Settles O39: the lighter leaf gets its parent no later, so it is no less deep. -/
theorem lighterSymbolsAreNotShorter : Obligations.LighterSymbolsAreNotShorter := by
  intro s xs ps h0 h
  refine ⟨_, codesOf (buildTree xs ps), runAll_htBuild_htGen h0 h, rfl, fun x p u y q v hx hy hlt hu hv => ?_⟩
  have ⟨hl, hne, hpos, _⟩ := h
  rcases buildTree_codes hl hne with ⟨z, -, hc⟩ | ⟨h2, -⟩
  · rw [hc, List.mem_singleton, Prod.mk.injEq] at hu hv
    rw [hu.2, hv.2]
  obtain ⟨hf, -, -, hnn⟩ := buildTree_forest hl hne
  have hlen : (List.zipWith Node.leaf xs ps).length = xs.length := by simp [hl]
  have hweights : ∀ n ∈ List.zipWith Node.leaf xs ps, 0 < Node.weight n := fun n hn =>
    hpos _ (map_weight_leaves hl ▸ List.mem_map_of_mem hn)
  obtain ⟨i, hwu, hi, rfl⟩ := buildTree_codeword_walk h h2 hx hu
  obtain ⟨j, hwv, hj, rfl⟩ := buildTree_codeword_walk h h2 hy hv
  obtain ⟨a, ha⟩ := parent_of_walk (by omega) hwu
  obtain ⟨b, hb⟩ := parent_of_walk (by omega) hwv
  exact depth_order hf hweights u v hwu hwv (by omega) (.inr ⟨a, b, ha, hb, lighter_parent_le hf (by omega) hlt ha hb⟩)

end Sys2Proof.Machine

/-! The calls' family: the only ways in which an `ENCODE` of a written image and a `DECODE` can end (R142, R184, R203). The
pseudocode is followed line by line with what holds after each line; every stop on the way must be for a listed cause. -/

namespace Sys2Proof.Machine

/-! Endings with their causes (R15, R16). -/

/-- The pseudocode goes on with `Q`, or stops for one of the causes `C`. -/
def Ending.Within {α : Type} (C : Cause → Prop) (Q : α → State → Prop) : Ending α → Prop
  | .ok a t => Q a t
  | .stop c _ => C c

section within

variable {C : Cause → Prop}

theorem within_of_ok {α : Type} {Q : α → State → Prop} {e : Ending α} {a : α} {t : State} (he : e = .ok a t) (h : Q a t) :
    e.Within C Q := by rw [he]; exact h

theorem within_of_stop {α : Type} {Q : α → State → Prop} {e : Ending α} {c : Cause} {t : State} (he : e = .stop c t)
    (h : C c) : e.Within C Q := by rw [he]; exact h

theorem within_mono {α : Type} {P Q : α → State → Prop} {e : Ending α} (he : e.Within C P) (h : ∀ a t, P a t → Q a t) :
    e.Within C Q := by
  cases e with
  | ok a t => exact h a t he
  | stop c t => exact he

theorem within_andThen {α β : Type} {m : Op α} {f : α → Op β} {s : State} {P : α → State → Prop} {Q : β → State → Prop}
    (hm : (m s).Within C P) (hf : ∀ a t, P a t → (f a t).Within C Q) : (m.andThen f s).Within C Q := by
  cases he : m s with
  | ok a t =>
    rw [he] at hm
    rw [andThen_ok he]
    exact hf a t hm
  | stop c t =>
    rw [he] at hm
    exact within_of_stop (andThen_stop he) hm

theorem within_next {α β : Type} {m : Op α} {f : Op β} {s : State} {P : State → Prop} {Q : β → State → Prop}
    (hm : (m s).Within C fun _ => P) (hf : ∀ t, P t → (f t).Within C Q) : (m.next f s).Within C Q :=
  within_andThen hm fun _ => hf

/-- What every round keeps, the loop keeps. -/
theorem within_forEach {α : Type} {body : α → Op Unit} {P : State → Prop} {l : List α} {s : State} (hs : P s)
    (h : ∀ x ∈ l, ∀ t, P t → (body x t).Within C fun _ => P) : (forEach l body s).Within C fun _ => P := by
  induction l generalizing s with
  | nil => exact hs
  | cons x rest ih =>
    exact within_next (h x List.mem_cons_self s hs) fun t ht => ih ht fun y hy => h y (List.mem_cons_of_mem _ hy)

/-- Counting up, with what holds before round `i`. -/
theorem within_forUp {body : Nat → Op Unit} {P : Nat → State → Prop} {start n : Nat} {s : State} (hs : P start s)
    (h : ∀ i, i < start + n → ∀ t, P i t → (body i t).Within C fun _ => P (i + 1)) :
    (forUp start n body s).Within C fun _ => P (start + n) := by
  induction n generalizing start s with
  | zero => exact hs
  | succ n ih =>
    refine within_next (h start (by omega) s hs) fun t ht => ?_
    have hrest := ih ht fun i hi => h i (by omega)
    rwa [Nat.add_assoc, Nat.add_comm 1 n] at hrest

end within

/-! The causes for which `ENCODE` stops (R184). -/

/-- The faults and the refusal that R184 names. -/
inductive EncodeStop : Cause → Prop
  | range (x n : Int) : EncodeStop (.fault .rangeError (x, n))
  | sampleRange (x n : Int) : EncodeStop (.fault .sampleRangeError (x, n))
  | io : EncodeStop (.fault .ioFailure (0, 0))
  | empty : EncodeStop (.refuse .emptyHistogram)

/-- In the middle of an `ENCODE`: the writer is open, and these are the dimensions, the image and the code table. -/
structure Encoding (d : Dims) (m : List (Loc × Sample)) (ct : CodeTable) (s : State) : Prop where
  isOpen : s.bw.isOpen = true
  dim : s.dim = d
  img : s.img = m
  table : s.ct = ct

section encoding

variable {d : Dims} {m : List (Loc × Sample)} {ct : CodeTable} {s : State}

theorem Encoding.inPhase (hs : Encoding d m ct s) (n : Nat) : Encoding d m ct (s.inPhase n) :=
  ⟨hs.isOpen, hs.dim, hs.img, hs.table⟩

/-- A new phase, then the rest (R37). -/
theorem within_setPhase {β : Type} {f : Op β} {Q : β → State → Prop} {n : Nat} (h : (f (s.inPhase n)).Within EncodeStop Q) :
    ((setPhase n).next f s).Within EncodeStop Q := h

/-! What is written (R107, R172 to R179). -/

theorem pushBit_within (hs : Encoding d m ct s) (b : Bool) : (pushBit b s).Within EncodeStop fun _ => Encoding d m ct := by
  by_cases h8 : (s.bw.buf ++ [b]).length = 8
  · rw [pushBit_full b h8]
    rcases flushByte_cases (byteOf (s.bw.buf ++ [b])) s with ⟨-, h⟩ | ⟨-, h⟩
    · exact within_of_stop h .io
    · exact within_of_ok h ⟨hs.isOpen, hs.dim, hs.img, hs.table⟩
  · exact within_of_ok (pushBit_short b h8) ⟨hs.isOpen, hs.dim, hs.img, hs.table⟩

theorem writeBits_within (hs : Encoding d m ct s) (bits : Bits) :
    (writeBits bits s).Within EncodeStop fun _ => Encoding d m ct := by
  rw [writeBits, next_ok (needWriter_open hs.isOpen)]
  exact within_forEach hs fun b _ _ ht => pushBit_within ht b

/-- A field is written when it fits, and only then (R121). -/
theorem writeField_within (hs : Encoding d m ct s) (x : Int) (width : Nat) :
    (writeField x width s).Within EncodeStop fun _ t => Encoding d m ct t ∧ 0 ≤ x ∧ x ≤ 2 ^ width - 1 := by
  by_cases hx : 0 ≤ x ∧ x ≤ 2 ^ width - 1
  · rw [writeField, andThen_ok (fixedEncode_fits hx.1 hx.2 s)]
    simpa only [hx, and_true] using writeBits_within hs (bitsOf width x.toNat)
  · exact within_of_stop (writeField_range (by omega)) (.range x width)

theorem writeHeader_within (hs : Encoding d m ct s) (h w : Int) :
    (writeHeader h w s).Within EncodeStop fun _ t =>
      Encoding { h := BitVec.ofInt 16 h, w := BitVec.ofInt 16 w } m ct t ∧ fits16 h ∧ fits16 w := by
  rw [writeHeader, next_ok (needWriter_open hs.isOpen)]
  refine within_next (writeField_within hs h _) fun t ⟨ht, hh⟩ => within_next (writeField_within ht w _) fun u ⟨hu, hw⟩ => ?_
  exact ⟨⟨hu.isOpen, rfl, hu.img, hu.table⟩, hh, hw⟩

theorem writeEntry_within (hs : Encoding d m ct s) (e : Symbol × Bits) :
    (writeEntry e s).Within EncodeStop fun _ => Encoding d m ct :=
  within_next (writeField_within hs _ _) fun _ ht => within_next (writeField_within ht.1 _ _) fun _ hu =>
    writeBits_within hu.1 e.2

theorem writeTable_within (hs : Encoding d m ct s) : (writeTable s).Within EncodeStop fun _ => Encoding d m ct := by
  rw [writeTable, next_ok (needWriter_open hs.isOpen)]
  exact within_next (within_forEach hs fun e _ _ ht => writeEntry_within ht e) fun t ht =>
    within_mono (writeField_within ht _ _) fun _ _ hu => hu.1

/-- A sample with a codeword is not refused (R178). -/
theorem writeSymbol_within (hs : Encoding d m ct s) {x : Sample} (hx : isCodable x = true) (hc : (ct.code x).isSome = true) :
    (writeSymbol x s).Within EncodeStop fun _ => Encoding d m ct := by
  obtain ⟨cw, hcw⟩ := Option.isSome_iff_exists.mp hc
  rw [writeSymbol, next_ok (needWriter_open hs.isOpen)]
  simp only [hx, if_true, hs.table, hcw]
  exact writeBits_within hs cw

/-- The payload is written when every sample has a codeword (R179). -/
theorem writePayload_within (hs : Encoding d m ct s) (hd : imageDefined d.h.toNat d.w.toNat m)
    (hc : ∀ x ∈ flatOf d.w.toNat 0 d.count m, isCodable x = true ∧ (ct.code x).isSome = true) :
    (writePayload s).Within EncodeStop fun _ => Encoding d m ct := by
  rw [writePayload, next_ok (needWriter_open hs.isOpen), hs.dim]
  refine within_forUp (P := fun _ => Encoding d m ct) hs fun i hi t ht => ?_
  have hin : i < d.count := by omega
  have hread := imgRead_sampleAt (s := t) (ht.img ▸ imageDefined_flat hd hin)
  obtain ⟨hx, hcode⟩ := hc (sampleAt m (flatLoc d.w.toNat i)) (List.mem_map_of_mem (by simpa using hin))
  rw [writeSample, andThen_ok hread, ht.img]
  exact writeSymbol_within ht hx hcode

/-! What is read and computed (R161, R175, R183). -/

/-- The scan of a written image goes on when every sample is codable, and only then (R175). -/
theorem rangeScan_within {h w : Nat} (hs : Encoding d m ct s) (hd : imageDefined h w m) :
    (rangeScan w (sampleCount h w) s).Within EncodeStop fun _ t =>
      t = s ∧ ∀ x ∈ flatOf w 0 (sampleCount h w) m, isCodable x = true := by
  have hloop := within_forUp (C := EncodeStop) (body := scanSample w) (start := 0) (n := sampleCount h w) (s := s)
    (P := fun i t => t = s ∧ ∀ j, j < i → isCodable (sampleAt m (flatLoc w j)) = true) ⟨rfl, nofun⟩ ?_
  · refine within_mono hloop fun _ t ⟨ht, hc⟩ => ⟨ht, fun x hx => ?_⟩
    obtain ⟨i, hi, rfl⟩ := List.mem_map.mp hx
    exact hc i (by simpa using hi)
  · rintro i hi _ ⟨rfl, hc⟩
    have hread := imgRead_sampleAt (hs.img ▸ imageDefined_flat hd (show i < sampleCount h w by omega))
    rw [scanSample, andThen_ok hread, hs.img]
    by_cases hx : isCodable (sampleAt m (flatLoc w i)) = true
    · rw [if_pos hx]
      refine ⟨rfl, fun j hj => ?_⟩
      rcases Nat.lt_succ_iff_lt_or_eq.mp hj with hj | rfl
      · exact hc j hj
      · exact hx
    · rw [if_neg hx]
      exact .sampleRange _ _

/-- Steps 1 and 2 (R184): dimensions that fit, and an image that is still written. -/
theorem encodeHead_within (hs : Encoding d m ct s) {h w : Int} (p : Bool) (hd : imageDefined h.toNat w.toNat m) :
    (encodeHead h w p s).Within EncodeStop fun _ t => fits16 h ∧ fits16 w ∧ ∃ m', imageDefined h.toNat w.toNat m' ∧
      Encoding { h := BitVec.ofInt 16 h, w := BitVec.ofInt 16 w } m' ct t := by
  refine within_next (writeHeader_within hs h w) fun t ⟨ht, hh, hw⟩ => ?_
  obtain ⟨m', hrun, hm'⟩ := prediction_ok (s := (t.inPhase 2).withCfg { p := p }) p (ht.img ▸ hd)
  exact within_of_ok hrun ⟨hh, hw, m', hm'.imageDefined, ht.isOpen, ht.dim, rfl, ht.table⟩

/-- An image with a dimension other than 0 has a sample. -/
theorem sampleCount_toNat_pos {h w : Int} (hh : 0 ≤ h) (hw : 0 ≤ w) (h0 : h * w ≠ 0) : 0 < sampleCount h.toNat w.toNat := by
  obtain ⟨hh0, hw0⟩ := mul_ne_zero_iff.mp h0
  exact Nat.mul_pos (Nat.mul_pos (by omega) (by omega)) (by decide)

theorem code_entries (es : List (Symbol × Bits)) (x : Symbol) : CodeTable.code { entries := es } x = Table.get es x := rfl

/-- The block's code for some samples has a codeword for each of them (R155, R183). -/
theorem codeFor_covers {flat : List Sample} (hc : ∀ x ∈ flat, isCodable x = true) :
    ∀ x ∈ flat, isCodable x = true ∧ (CodeTable.code { entries := codeFor flat } x).isSome = true :=
  fun x hx => ⟨hc x hx, code_entries (codeFor flat) x ▸ codeFor_isSome hc hx⟩

/-- Steps 3 and 4 (R184): the code they make has a codeword for every sample, so no refusal of `HT.BUILD` or `HT.GEN` comes
before it and none of `VE.SYM` after it. -/
theorem encodeCode_within (hs : Encoding d m ct s) {h w : Int} (hh : 0 ≤ h) (hw : 0 ≤ w)
    (hd : imageDefined h.toNat w.toNat m) :
    (encodeCode h w s).Within EncodeStop fun _ t => ∃ ct', Encoding d m ct' t ∧
      ∀ x ∈ flatOf w.toNat 0 (sampleCount h.toNat w.toNat) m, isCodable x = true ∧ (ct'.code x).isSome = true := by
  refine within_setPhase (within_next (rangeScan_within (hs.inPhase 3) hd) ?_)
  rintro _ ⟨rfl, hc⟩
  refine within_setPhase ?_
  by_cases h0 : h * w = 0
  · rw [if_pos h0]
    exact .empty
  · rw [if_neg h0]
    obtain rfl := hs.img
    obtain ⟨g, t, hcode⟩ := buildCode_ok (s := (s.inPhase 3).inPhase 4) hd hc (sampleCount_toNat_pos hh hw h0)
    exact within_of_ok hcode ⟨_, ⟨hs.isOpen, hs.dim, rfl, rfl⟩, codeFor_covers hc⟩

theorem closeWriter_within (s : State) : (closeWriter s).Within EncodeStop fun _ _ => True := by
  rcases closeWriter_cases s with ⟨-, h⟩ | ⟨b, -, -, h⟩ | ⟨b, -, -, h⟩
  · exact within_of_ok h trivial
  · exact within_of_ok h trivial
  · exact within_of_stop h .io

/-- Steps 5 to 7 (R184). -/
theorem encodeOutput_within (hs : Encoding d m ct s) (hd : imageDefined d.h.toNat d.w.toNat m)
    (hc : ∀ x ∈ flatOf d.w.toNat 0 d.count m, isCodable x = true ∧ (ct.code x).isSome = true) :
    (encodeOutput s).Within EncodeStop fun _ _ => True := by
  refine within_setPhase (within_next (writeTable_within (hs.inPhase 5)) fun t ht => ?_)
  refine within_setPhase (within_next (writePayload_within (ht.inPhase 6) hd hc) fun u _ => ?_)
  exact within_setPhase (closeWriter_within _)

theorem toNat_ofInt_fits16 {x : Int} (h : fits16 x) : (BitVec.ofInt 16 x).toNat = x.toNat := by
  obtain ⟨h0, h1⟩ := h
  rw [BitVec.toNat_ofInt]
  omega

/-- The whole pipeline on a written image (R184). -/
theorem encodeBody_within (hs : Encoding d m ct s) {h w : Int} (p : Bool) (hd : imageDefined h.toNat w.toNat m) :
    (encodeBody h w p s).Within EncodeStop fun _ _ => True := by
  rw [encodeBody_eq]
  refine within_next (encodeHead_within hs p hd) fun t ⟨hh, hw, m', hd', ht⟩ => ?_
  refine within_next (encodeCode_within ht hh.1 hw.1 hd') fun u ⟨ct', hu, hc⟩ => ?_
  refine encodeOutput_within hu ?_ ?_
  · rwa [toNat_ofInt_fits16 hh, toNat_ofInt_fits16 hw]
  · rwa [Dims.count, toNat_ofInt_fits16 hh, toNat_ofInt_fits16 hw]

end encoding

/-- `ENCODE` whose lines stop is aborted and reports the cause (R184, R222). -/
theorem exec_encode_stop {s u : State} {h w : Int} {p : Bool} {c : Cause} (hs : s.ready) (ho : s.bw.isOpen = false)
    (hb : encodeBody h w p (begunEncode s) = .stop c u) :
    exec (.encode h w p) s = .next (reply c.reply (abort c u)) := by
  rw [exec_encode hs ho, encode_begun ho, done_stop (next_stop hb), deliver_stop]

/-! The causes for which `DECODE` stops (R203). -/

/-- The source failed an access (R57, R215). -/
def SourceFailure (c : Cause) : Prop := c = .fault .ioFailure (1, 0)

/-- The pseudocode stops only when the source fails. -/
def Op.StopsAtSource {α : Type} (m : Op α) : Prop := ∀ s, (m s).Within SourceFailure fun _ _ => True

theorem stopsAtSource_give {α : Type} (a : α) : (give a).StopsAtSource := fun _ => trivial

theorem stopsAtSource_assign (f : State → State) : (assign f).StopsAtSource := fun _ => trivial

theorem stopsAtSource_andThen {α β : Type} {m : Op α} {f : α → Op β} (hm : m.StopsAtSource)
    (hf : ∀ a, (f a).StopsAtSource) : (m.andThen f).StopsAtSource := fun s => within_andThen (hm s) fun a t _ => hf a t

theorem stopsAtSource_next {α β : Type} {m : Op α} {f : Op β} (hm : m.StopsAtSource) (hf : f.StopsAtSource) :
    (m.next f).StopsAtSource := stopsAtSource_andThen hm fun _ => hf

theorem stopsAtSource_assign_next {α : Type} (f : State → State) {m : Op α} (hm : m.StopsAtSource) :
    ((assign f).next m).StopsAtSource := stopsAtSource_next (stopsAtSource_assign f) hm

theorem stopsAtSource_srcNext : srcNext.StopsAtSource := fun s => by
  rcases srcNext_cases s with ⟨-, h⟩ | ⟨-, b, -, h⟩ | ⟨-, -, h⟩
  · exact within_of_stop h rfl
  · exact within_of_ok h trivial
  · exact within_of_ok h trivial

theorem stopsAtSource_takeBit : takeBit.StopsAtSource := fun s => by
  rw [takeBit]
  cases s.br.cur <;> trivial

theorem stopsAtSource_readBit : readBit.StopsAtSource := fun s => by
  rw [readBit]
  split_ifs
  · trivial
  · refine stopsAtSource_andThen stopsAtSource_srcNext (fun b => ?_) s
    cases b with
    | some b => exact stopsAtSource_assign_next _ stopsAtSource_takeBit
    | none => exact stopsAtSource_assign_next _ (stopsAtSource_give none)
  · exact stopsAtSource_takeBit s

theorem stopsAtSource_readBitsFrom (n : Nat) (sofar : Bits) : (readBitsFrom n sofar).StopsAtSource := by
  induction n generalizing sofar with
  | zero => exact stopsAtSource_give _
  | succ n ih =>
    refine stopsAtSource_andThen stopsAtSource_readBit fun b => ?_
    cases b with
    | some b => exact ih _
    | none => exact stopsAtSource_give none

theorem stopsAtSource_readBits (n : Nat) : (readBits n).StopsAtSource := stopsAtSource_readBitsFrom n []

theorem stopsAtSource_noImage {α : Type} (a : α) : (noImage a).StopsAtSource :=
  stopsAtSource_assign_next _ (stopsAtSource_give a)

theorem stopsAtSource_readHeader : readHeader.StopsAtSource := by
  refine stopsAtSource_andThen (stopsAtSource_readBits 32) fun l => ?_
  cases l with
  | none => exact stopsAtSource_noImage none
  | some l => exact stopsAtSource_assign_next _ (stopsAtSource_give _)

theorem stopsAtSource_readEntries (n : Nat) : (readEntries n).StopsAtSource := by
  induction n with
  | zero => exact stopsAtSource_noImage false
  | succ n ih =>
    refine stopsAtSource_andThen (stopsAtSource_readBits 9) fun sb => ?_
    cases sb with
    | none => exact stopsAtSource_noImage false
    | some sb =>
    dsimp only
    split
    · exact stopsAtSource_give true
    refine stopsAtSource_andThen (stopsAtSource_readBits 5) fun lb => ?_
    cases lb with
    | none => exact stopsAtSource_noImage false
    | some lb =>
    refine stopsAtSource_andThen (stopsAtSource_readBits _) fun cw => ?_
    cases cw with
    | none => exact stopsAtSource_noImage false
    | some cw => exact stopsAtSource_assign_next _ ih

theorem stopsAtSource_readTable : readTable.StopsAtSource :=
  stopsAtSource_assign_next _ fun s => stopsAtSource_readEntries _ s

theorem stopsAtSource_matchLoop (n : Nat) : (matchLoop n).StopsAtSource := by
  induction n with
  | zero => exact stopsAtSource_give none
  | succ n ih =>
    refine stopsAtSource_andThen stopsAtSource_readBit fun b => ?_
    cases b with
    | none => exact stopsAtSource_give none
    | some b =>
      intro s
      dsimp only
      split
      · trivial
      · exact ih _

theorem stopsAtSource_readSymbol : readSymbol.StopsAtSource :=
  stopsAtSource_assign_next _ fun s => stopsAtSource_matchLoop _ s

theorem stopsAtSource_readSamples (w i n : Nat) : (readSamples w i n).StopsAtSource := by
  induction n generalizing i with
  | zero => exact stopsAtSource_assign_next _ (stopsAtSource_give i)
  | succ n ih =>
    refine stopsAtSource_andThen stopsAtSource_readSymbol fun x => ?_
    cases x with
    | some x => exact stopsAtSource_assign_next _ (stopsAtSource_assign_next _ (ih _))
    | none => exact stopsAtSource_assign_next _ fun _ => trivial

theorem stopsAtSource_readPayload : readPayload.StopsAtSource :=
  stopsAtSource_assign_next _ fun s => stopsAtSource_readSamples _ _ _ s

theorem stopsAtSource_undoPrediction (p : Bool) : (undoPrediction p).StopsAtSource := by
  refine stopsAtSource_assign_next _ fun s => ?_
  cases p with
  | true =>
    obtain ⟨m, hrun, -⟩ := predictInverse_ok s.dim.h.toNat s.dim.w.toNat s
    exact within_of_ok hrun trivial
  | false => trivial

theorem stopsAtSource_decodeBody (p : Bool) : (decodeBody p).StopsAtSource := by
  refine stopsAtSource_andThen stopsAtSource_readHeader fun d => ?_
  cases d with
  | none => exact stopsAtSource_give false
  | some d =>
  refine stopsAtSource_assign_next _ (stopsAtSource_andThen stopsAtSource_readTable fun ok => ?_)
  cases ok with
  | false => exact stopsAtSource_give true
  | true =>
  refine stopsAtSource_assign_next _ (stopsAtSource_next stopsAtSource_readPayload ?_)
  refine stopsAtSource_assign_next _ (stopsAtSource_assign_next _ ?_)
  exact stopsAtSource_next (stopsAtSource_undoPrediction p) (stopsAtSource_give true)

/-- A call of `DECODE` begins when none is in progress and the reader is closed (R203). -/
theorem exec_decode {s : State} (hs : s.ready) (ho : s.br.isOpen = false) (p : Bool) :
    exec (.decode p) s = deliver ((decodeBody p).andThen finishDecode (begunDecode s)) := by
  have hseq : s.seq.op = .idle := by rw [hs.2]
  rw [← decode_begun ho, exec, execDecode, gate_open hs.1, if_neg (not_not.mpr hseq), if_neg (by simp [ho])]
  rfl

/-- Settles O16: the lines of each call go on to its last, or stop for a cause that its rule names. -/
theorem callsEndAsTheirRulesSay : Obligations.CallsEndAsTheirRulesSay := by
  refine ⟨fun s h w p hs ho hd => ?_, fun s p hs ho => ?_⟩
  · have hbegun : Encoding s.dim s.img s.ct (begunEncode s) := ⟨rfl, rfl, rfl, rfl⟩
    have hbody := encodeBody_within hbegun p hd
    cases he : encodeBody h w p (begunEncode s) with
    | ok a u => exact ⟨_, exec_encode_ok hs ho he, .inl rfl⟩
    | stop c u =>
      rw [he] at hbody
      refine ⟨_, exec_encode_stop hs ho he, .inr ?_⟩
      cases hbody with
      | range x n => exact .inl ⟨x, n, rfl⟩
      | sampleRange x n => exact .inr (.inl ⟨x, n, rfl⟩)
      | io => exact .inr (.inr (.inl rfl))
      | empty => exact .inr (.inr (.inr rfl))
  · have hbody := stopsAtSource_decodeBody p (begunDecode s)
    rw [exec_decode hs ho]
    cases he : decodeBody p (begunDecode s) with
    | ok b u =>
      rw [andThen_ok he]
      exact ⟨_, rfl, .inl ⟨_, rfl⟩⟩
    | stop c u =>
      rw [he] at hbody
      rw [andThen_stop he, deliver_stop]
      exact ⟨_, rfl, .inr (congrArg (fun c : Cause => some c.reply) hbody)⟩

end Sys2Proof.Machine

/-! The predictor family: what `DP.FWD` and `DP.INV` do behind the gate, and how the differences of a row and its sums undo
each other (R161 to R165). -/

namespace Sys2Proof.Machine

/-! The two instructions. -/

/-- `DP.FWD` behind the open gate (R161). -/
theorem exec_dpFwd {s : State} (h0 : s.unfaulted) (h w : Int) :
    ∃ m, exec (.dpFwd h w) s = .next ((s.withImg m).finished .done) ∧
      ∀ l, Memory.read m l = if inShape h.toNat w.toNat l then residualAt s.img l else Memory.read s.img l := by
  obtain ⟨m, hrun, hm⟩ := predictForward_ok h.toNat w.toNat s
  exact ⟨m, issue_finished h0 (done_ok hrun), hm⟩

/-- `DP.INV` behind the open gate (R163). -/
theorem exec_dpInv {s : State} (h0 : s.unfaulted) (h w : Int) :
    ∃ m, exec (.dpInv h w) s = .next ((s.withImg m).finished .done) ∧
      ∀ l, Memory.read m l = if inShape h.toNat w.toNat l then rowSum s.img l.r l.k l.c else Memory.read s.img l := by
  obtain ⟨m, hrun, hm⟩ := predictInverse_ok h.toNat w.toNat s
  exact ⟨m, issue_finished h0 (done_ok hrun), hm⟩

/-- Settles O40: the closed gate, and the closed form of the loops behind the open one. -/
theorem forwardPrediction : Obligations.ForwardPrediction :=
  ⟨fun _ _ _ hf => issue_closed hf, fun _ h w h0 => exec_dpFwd h0 h w⟩

/-- Settles O41: the closed gate, and the closed form of the loops behind the open one. -/
theorem inversePrediction : Obligations.InversePrediction :=
  ⟨fun _ _ _ hf => issue_closed hf, fun _ h w h0 => exec_dpInv h0 h w⟩

/-! Differences and sums along a row (R164). -/

/-- The columns to the left of a location of the shape are in the shape. -/
theorem inShape_left {h w r c c' k : Nat} (hl : inShape h w { r := r, c := c, k := k } = true) (hc : c' ≤ c) :
    inShape h w { r := r, c := c', k := k } = true := by
  simp only [inShape, Bool.and_eq_true, decide_eq_true_eq] at hl ⊢; omega

/-- The sum of a row's differences telescopes to the sample (R164). -/
theorem rowSum_of_residuals {h w : Nat} {m m' : List (Loc × Sample)} (hd : imageDefined h w m)
    (hm : ∀ l, inShape h w l = true → Memory.read m' l = residualAt m l) {r k : Nat} (c : Nat)
    (hl : inShape h w { r := r, c := c, k := k } = true) :
    rowSum m' r k c = Memory.read m { r := r, c := c, k := k } := by
  rw [imageDefined_inShape hd hl]
  induction c with
  | zero => rw [rowSum, hm _ hl, residualAt_defined hd hl]; rfl
  | succ c ih =>
    rw [rowSum, ih (inShape_left hl (Nat.le_succ c)), hm _ hl, residualAt_defined hd hl]
    simp [ofBoth, codedAt]

/-- On a written image every sum holds a value. -/
theorem rowSum_isSome {h w : Nat} {m : List (Loc × Sample)} (hd : imageDefined h w m) {r k : Nat} (c : Nat)
    (hl : inShape h w { r := r, c := c, k := k } = true) : ∃ v, rowSum m r k c = some v := by
  induction c with
  | zero => exact ⟨_, imageDefined_inShape hd hl⟩
  | succ c ih =>
    obtain ⟨v, hv⟩ := ih (inShape_left hl (Nat.le_succ c))
    exact ⟨_, by rw [rowSum, hv, imageDefined_inShape hd hl, ofBoth]⟩

/-- The difference of two successive sums is the sample between them (R164). -/
theorem residualAt_of_rowSums {h w : Nat} {m m' : List (Loc × Sample)} (hd : imageDefined h w m)
    (hm : ∀ l, inShape h w l = true → Memory.read m' l = rowSum m l.r l.k l.c) {l : Loc} (hl : inShape h w l = true) :
    residualAt m' l = Memory.read m l := by
  obtain ⟨r, c, k⟩ := l
  cases c with
  | zero => rw [residualAt, if_pos rfl, hm _ hl, rowSum]
  | succ c =>
    have hleft := inShape_left hl (Nat.le_succ c)
    obtain ⟨v, hv⟩ := rowSum_isSome hd c hleft
    rw [residualAt, if_neg (Nat.succ_ne_zero c), hm _ hl, Nat.add_sub_cancel, hm _ hleft, rowSum, hv,
      imageDefined_inShape hd hl]
    simp [ofBoth]

/-! The inverse law. -/

/-- Of two operations that write image memory alone, the second leaves its own image. -/
theorem runAll_two_images {i j : Instr} {s : State} {m m' : List (Loc × Sample)}
    (hi : exec i s = .next ((s.withImg m).finished .done))
    (hj : exec j ((s.withImg m).finished .done) = .next ((((s.withImg m).finished .done).withImg m').finished .done)) :
    runAll [i, j] s = .next ((s.withImg m').finished .done) := by
  rw [runAll_cons hi, runAll_singleton, hj]; rfl

/-- What a second rewriting of the shape restores in it, it restores everywhere. -/
theorem read_restored {h w : Nat} {m m' m'' : List (Loc × Sample)} {f g : Loc → Option Sample}
    (hm' : ∀ l, Memory.read m' l = if inShape h w l then f l else Memory.read m l)
    (hm'' : ∀ l, Memory.read m'' l = if inShape h w l then g l else Memory.read m' l)
    (hg : ∀ l, inShape h w l = true → g l = Memory.read m l) (l : Loc) : Memory.read m'' l = Memory.read m l := by
  rw [hm'' l]
  split
  · exact hg l ‹_›
  · rw [hm' l, if_neg ‹_›]

/-- `DP.INV` after `DP.FWD` restores every sample (R164). -/
theorem runAll_dpFwd_dpInv {s : State} {h w : Nat} (h0 : s.unfaulted) (hd : imageDefined h w s.img) :
    ∃ m, runAll [.dpFwd h w, .dpInv h w] s = .next ((s.withImg m).finished .done) ∧
      ∀ l, Memory.read m l = Memory.read s.img l := by
  obtain ⟨m, hfwd, hm⟩ := exec_dpFwd h0 h w
  obtain ⟨m', hinv, hm'⟩ := exec_dpInv (s := (s.withImg m).finished .done) h0 h w
  exact ⟨m', runAll_two_images hfwd hinv, read_restored hm hm' fun l hl =>
    rowSum_of_residuals hd (fun l' hl' => (hm l').trans (if_pos hl')) l.c hl⟩

/-- `DP.FWD` after `DP.INV` restores every sample (R164). -/
theorem runAll_dpInv_dpFwd {s : State} {h w : Nat} (h0 : s.unfaulted) (hd : imageDefined h w s.img) :
    ∃ m, runAll [.dpInv h w, .dpFwd h w] s = .next ((s.withImg m).finished .done) ∧
      ∀ l, Memory.read m l = Memory.read s.img l := by
  obtain ⟨m, hinv, hm⟩ := exec_dpInv h0 h w
  obtain ⟨m', hfwd, hm'⟩ := exec_dpFwd (s := (s.withImg m).finished .done) h0 h w
  exact ⟨m', runAll_two_images hinv hfwd, read_restored hm hm' fun l hl =>
    residualAt_of_rowSums hd (fun l' hl' => (hm l').trans (if_pos hl')) hl⟩

/-- Settles O42: the sums of the differences telescope, and the difference of two successive sums is the sample. -/
theorem predictionInverseLaw : Obligations.PredictionInverseLaw := by
  intro s h w h0 hd
  obtain ⟨m, hrun, hm⟩ := runAll_dpFwd_dpInv h0 hd
  obtain ⟨m', hrun', hm'⟩ := runAll_dpInv_dpFwd h0 hd
  exact ⟨⟨_, hrun, rfl, hm⟩, _, hrun', rfl, hm'⟩

end Sys2Proof.Machine

/-! The encoder family (45_encoder.md R173 to R188): each `VE` operation from how its pseudocode ends, what a call that
began leaves of its stream and of the sequencer (R222), and what a failed `ENCODE` has appended (R185). -/

namespace Sys2Proof.Machine

/-! `VE.HDR` (R173, R174). -/

theorem exec_veHdr_closed {s : State} (hs : s.ready) (ho : s.bw.isOpen = false) (h w : Int) :
    exec (.veHdr h w) s = .next (s.refusedBy .notOpen) :=
  issue_refused hs.1 (done_stop (next_stop (needWriter_closed ho))) hs.2

theorem ofInt_fits16 {x : Int} (hx : fits16 x) : BitVec.ofInt 16 x = BitVec.ofNat 16 x.toNat := by
  rw [← BitVec.ofInt_natCast, Int.toNat_of_nonneg hx.1]

theorem exec_veHdr_ok {s : State} {h w : Int} (h0 : s.unfaulted) (hs : s.canWrite) (hh : fits16 h) (hw : fits16 w) :
    exec (.veHdr h w) s = .next ((afterWrite (bitsOf 16 h.toNat ++ bitsOf 16 w.toNat) s).withDim
      { h := BitVec.ofNat 16 h.toNat, w := BitVec.ofNat 16 w.toNat } |>.finished .done) := by
  rw [← ofInt_fits16 hh, ← ofInt_fits16 hw]
  exact issue_finished h0 (done_ok (writeHeader_ok hs hh hw))

/-- Settles O43: a closed writer, two dimensions that fit, and each of the two that does not. -/
theorem headerWriting : Obligations.HeaderWriting :=
  ⟨fun _ h w hs ho => exec_veHdr_closed hs ho h w, fun _ _ _ => exec_veHdr_ok,
    fun _ _ w hs ho hh => issue_faults hs.1 (done_stop (writeHeader_badHeight w ho hh)) hs.2 hs.1,
    fun _ _ _ hs ho hh hw => issue_faults hs.1 (done_stop (writeHeader_badWidth ho hh hw)) hs.2 hs.1⟩

/-! `VE.TABLE` (R176, R177). -/

theorem writeTable_closed {s : State} (ho : s.bw.isOpen = false) : writeTable s = .stop (.refuse .notOpen) s :=
  next_stop (needWriter_closed ho)

/-- Settles O44: a closed writer, a table that a stream can carry, and the first entry that it cannot. -/
theorem tableWriting : Obligations.TableWriting := by
  refine ⟨fun s hs ho => issue_refused hs.1 (done_stop (writeTable_closed ho)) hs.2,
    fun s h0 hs hc => issue_finished h0 (done_ok (writeTable_ok hs hc)),
    fun s before x cw after hs hw he hb hx0 hx1 hl => ?_⟩
  have hx : isCodable x = true := (isCodable_iff x).mpr ⟨hx0, hx1⟩
  exact issue_faults hs.1 (done_stop (writeTable_long hw he hb hx hl)) hs.2 hs.1

/-! `VE.SYM` (R178). -/

theorem writeSymbol_closed {s : State} (ho : s.bw.isOpen = false) (x : Sample) :
    writeSymbol x s = .stop (.refuse .notOpen) s := next_stop (needWriter_closed ho)

/-- A sample that is no symbol, or a symbol without an entry, has no codeword (R178). -/
theorem noCode_of {ct : CodeTable} {x : Sample} (h : x < -255 ∨ 255 < x ∨ ct.code x = none) :
    isCodable x = false ∨ ct.code x = none := by
  rw [← or_assoc] at h
  exact h.imp_left uncodable_of_outside

/-- Settles O45: the two gates, a symbol without a codeword, and one with it. -/
theorem symbolWriting : Obligations.SymbolWriting := by
  refine ⟨fun s x => exec_closed rfl, fun s x hs ho => issue_refused hs.1 (done_stop (writeSymbol_closed ho x)) hs.2,
    fun s x hs ho hx => issue_refused hs.1 (done_stop (writeSymbol_noCode ho (noCode_of hx))) hs.2,
    fun s x cw h0 hs hx0 hx1 hc => ?_⟩
  have hx : isCodable x = true := (isCodable_iff x).mpr ⟨hx0, hx1⟩
  exact issue_finished h0 (done_ok (writeSymbol_ok hs hx hc))

/-! `VE.PAYLOAD` (R179). -/

theorem flatOf_add (w start m n : Nat) (img : List (Loc × Sample)) :
    flatOf w start (m + n) img = flatOf w start m img ++ flatOf w (start + m) n img := by
  rw [flatOf, ← List.range'_append_1, List.map_append, flatOf, flatOf]

theorem flatOf_length (w start n : Nat) (img : List (Loc × Sample)) : (flatOf w start n img).length = n := by
  simp [flatOf]

theorem flatOf_succ (w start n : Nat) (img : List (Loc × Sample)) :
    flatOf w start (n + 1) img = sampleAt img (flatLoc w start) :: flatOf w (start + 1) n img := by
  simp [flatOf, List.range'_succ]

theorem forUp_add (start m n : Nat) (body : Nat → Op Unit) :
    forUp start (m + n) body = (forUp start m body).next (forUp (start + m) n body) := by
  simp only [forUp_eq_forEach, ← List.range'_append_1, forEach_append]

theorem writeSample_noCode {s : State} {w i : Nat} (ho : s.bw.isOpen = true)
    (hd : (Memory.read s.img (flatLoc w i)).isSome = true)
    (hx : isCodable (sampleAt s.img (flatLoc w i)) = false ∨ s.ct.code (sampleAt s.img (flatLoc w i)) = none) :
    writeSample w i s = .stop (.refuse .noCode) s := by
  rw [writeSample, andThen_ok (imgRead_sampleAt hd), writeSymbol_noCode ho hx]

/-- The payload up to the first sample without a codeword (R179): the codewords before it are written. -/
theorem writePayload_noCode {s : State} {before after : List Sample} {x : Sample} (hs : s.canWrite)
    (hd : imageDefined s.dim.h.toNat s.dim.w.toNat s.img)
    (hf : flatOf s.dim.w.toNat 0 s.dim.count s.img = before ++ x :: after)
    (hb : ∀ y ∈ before, isCodable y = true ∧ (s.ct.code y).isSome = true)
    (hx : isCodable x = false ∨ s.ct.code x = none) :
    writePayload s = .stop (.refuse .noCode) (afterWrite (before.flatMap (codewordIn s.ct.entries)) s) := by
  have hcount : s.dim.count = before.length + (after.length + 1) := by
    rw [← flatOf_length s.dim.w.toNat 0 s.dim.count s.img, hf, List.length_append, List.length_cons]
  have hin : before.length < s.dim.count := by omega
  rw [hcount, flatOf_add, flatOf_succ, Nat.zero_add] at hf
  obtain ⟨hbefore, hrest⟩ := List.append_inj hf (flatOf_length _ _ _ _)
  have hsample := (List.cons.inj hrest).1
  have hok := forUp_writeSample before.length 0 hs hd (by rw [Nat.zero_add]; exact hin.le) (hbefore.symm ▸ hb)
  rw [hbefore] at hok
  have hstop := writeSample_noCode (s := afterWrite (before.flatMap (codewordIn s.ct.entries)) s) hs.1
    (imageDefined_flat hd hin) (hsample.symm ▸ hx)
  rw [writePayload, next_ok (needWriter_open hs.1), hcount, forUp_add, next_ok hok, Nat.zero_add, forUp, next_stop hstop]

/-- An image without a row or without a column has no sample (R179). -/
theorem count_eq_zero {d : Dims} (h : d.h = 0 ∨ d.w = 0) : d.count = 0 := by
  rcases h with h | h <;> simp [Dims.count, sampleCount, h]

theorem writePayload_empty {s : State} (ho : s.bw.isOpen = true) (h : s.dim.h = 0 ∨ s.dim.w = 0) :
    writePayload s = .ok () s := by
  rw [writePayload, next_ok (needWriter_open ho), count_eq_zero h]; rfl

/-- The range of the symbols is the check of `VE.SYM` (R7, R178). -/
theorem isCodable_and_code {ct : CodeTable} {l : List Sample}
    (h : ∀ x ∈ l, -255 ≤ x ∧ x ≤ 255 ∧ (ct.code x).isSome = true) :
    ∀ x ∈ l, isCodable x = true ∧ (ct.code x).isSome = true := fun x hx =>
  have ⟨h0, h1, hc⟩ := h x hx
  ⟨(isCodable_iff x).mpr ⟨h0, h1⟩, hc⟩

/-- Settles O46: every sample with a codeword, the first one without, a closed writer, and an image without samples. -/
theorem payloadWriting : Obligations.PayloadWriting := by
  refine ⟨fun s h0 hs hd hc => ?_, fun s before x after hs hw hd hf hb hx => ?_,
    fun s hs ho => issue_refused hs.1 (done_stop (writePayload_closed ho)) hs.2,
    fun s h0 ho h => issue_finished h0 (done_ok (writePayload_empty ho h))⟩
  · rw [codedFlat_false] at hc ⊢
    exact issue_finished h0 (done_ok (writePayload_ok hs hd (isCodable_and_code hc)))
  · rw [codedFlat_false] at hf
    exact issue_refused hs.1 (done_stop (writePayload_noCode hw hd hf (isCodable_and_code hb) (noCode_of hx))) hs.2

/-! A call that may not begin (R184, R203). -/

/-- Settles O15: the sequencer is looked at first, then the stream. -/
theorem callsAreRefusedBusyOrOpen : Obligations.CallsAreRefusedBusyOrOpen := by
  refine ⟨fun s h w p h0 hop => ?_, fun s h w p h0 hop ho => ?_, fun s p h0 hop => ?_, fun s p h0 hop ho => ?_⟩
  · rw [exec, execEncode, gate_open h0, if_pos hop, refuseAtGate_eq]
  · rw [exec, execEncode, gate_open h0, if_neg (not_not.mpr hop), if_pos ho, refuseAtGate_eq]
  · rw [exec, execDecode, gate_open h0, if_pos hop, refuseAtGate_eq]
  · rw [exec, execDecode, gate_open h0, if_neg (not_not.mpr hop), if_pos ho, refuseAtGate_eq]

/-! The writer of a call of `ENCODE` (R222): it stays open until its close, and its close always releases it. -/

/-- The writer is open, or it is released. -/
def Held (s : State) : Prop := s.bw.isOpen = true ∨ s.bw = closedWriter

theorem held_congr {s t : State} (h : t.bw = s.bw) : Kept Held s t := fun hs => by rwa [Held, h]

/-- Lines that do not write the writer leave it as it is. -/
theorem held_of_acts {α : Type} {as : List Act} {m : Op α} (hm : m.Acts as) (hbw : Part.bw ∉ written as) :
    m.Keeps (Kept Held) := by
  intro s
  cases he : m s with
  | ok a t => exact held_congr (moves_same hbw (hm.ok s a t he))
  | stop c t => exact held_congr (stopped_same hbw (hm.stop s c t he))

theorem pushBit_isOpen (b : Bool) (s : State) : (pushBit b s).state.bw.isOpen = s.bw.isOpen := by
  by_cases h8 : (s.bw.buf ++ [b]).length = 8
  · rw [pushBit_full b h8]
    rcases flushByte_cases (byteOf (s.bw.buf ++ [b])) s with ⟨-, h⟩ | ⟨-, h⟩ <;> rw [h] <;> rfl
  · rw [pushBit_short b h8]; rfl

theorem forEach_pushBit_isOpen (bits : Bits) :
    (forEach bits pushBit).Keeps fun s t => t.bw.isOpen = s.bw.isOpen :=
  keeps_forEach (R := fun s t => t.bw.isOpen = s.bw.isOpen) ⟨fun _ => rfl, fun _ _ _ h g => g.trans h⟩ bits
    fun b _ => pushBit_isOpen b

/-- Bits are written to an open writer, which stays open, or to none (R107, R115). -/
theorem held_writeBits (bits : Bits) : (writeBits bits).Keeps (Kept Held) := by
  intro s hs
  cases ho : s.bw.isOpen with
  | false => rw [writeBits_closed bits ho]; exact hs
  | true =>
    rw [writeBits, next_ok (needWriter_open ho)]
    exact .inl ((forEach_pushBit_isOpen bits s).trans ho)

theorem held_next {α β : Type} {m : Op α} {f : Op β} (hm : m.Keeps (Kept Held)) (hf : f.Keeps (Kept Held)) :
    (m.next f).Keeps (Kept Held) := keeps_next (carries_kept Held) hm hf

theorem held_needWriter_next {β : Type} {f : Op β} (hf : f.Keeps (Kept Held)) : (needWriter.next f).Keeps (Kept Held) :=
  held_next (keeps_needWriter (carries_kept Held)) hf

theorem held_writeField (x : Int) (width : Nat) : (writeField x width).Keeps (Kept Held) :=
  keeps_andThen (carries_kept Held) (held_of_acts (as := []) (acts_fixedEncode x width) (by simp [written])) held_writeBits

theorem held_writeHeader (h w : Int) : (writeHeader h w).Keeps (Kept Held) :=
  held_needWriter_next <| held_next (held_writeField _ _) <| held_next (held_writeField _ _) <|
    keeps_assign fun _ => held_congr rfl

theorem held_writeEntry (e : Symbol × Bits) : (writeEntry e).Keeps (Kept Held) :=
  held_next (held_writeField _ _) (held_next (held_writeField _ _) (held_writeBits e.2))

theorem held_writeTable : writeTable.Keeps (Kept Held) :=
  held_needWriter_next <| keeps_read (fun s => s.ct.entries) fun es =>
    held_next (keeps_forEach (carries_kept Held) es fun e _ => held_writeEntry e) (held_writeField _ _)

theorem held_writeSymbol (x : Sample) : (writeSymbol x).Keeps (Kept Held) := by
  refine held_needWriter_next fun s => ?_
  split
  · exact held_congr rfl
  · exact held_writeBits _ s

theorem held_writePayload : writePayload.Keeps (Kept Held) := by
  refine held_needWriter_next (keeps_read (fun s => s.dim) (f := fun d => forUp 0 d.count (writeSample d.w.toNat)) fun d => ?_)
  refine keeps_forUp (carries_kept Held) 0 _ fun i => ?_
  exact keeps_andThen (carries_kept Held) (held_of_acts (as := [.draw]) (acts_imgRead (by simp) _) (by decide))
    held_writeSymbol

/-- However its append ends, a close releases the writer (R108). -/
theorem closeWriter_released (s : State) : (closeWriter s).state.bw = closedWriter := by
  rcases closeWriter_cases s with ⟨-, h⟩ | ⟨b, -, -, h⟩ | ⟨b, -, -, h⟩ <;> rw [h] <;> rfl

theorem held_setPhase_next {β : Type} (n : Nat) {f : Op β} (hf : f.Keeps (Kept Held)) :
    ((setPhase n).next f).Keeps (Kept Held) := held_next (keeps_assign fun _ => held_congr rfl) hf

theorem held_encodeHead (h w : Int) (p : Bool) : (encodeHead h w p).Keeps (Kept Held) := by
  refine held_next (held_writeHeader h w) (held_of_acts (as := [.phase, .cfg, .img]) ?_ (by decide))
  refine acts_next (acts_setPhase (by simp) 2) (acts_next (acts_setPrediction (by simp) p) ?_)
  exact acts_ite _ (acts_predictForward (by simp) _ _) (acts_give ())

theorem held_encodeCode (h w : Int) : (encodeCode h w).Keeps (Kept Held) := by
  refine held_of_acts (as := [.phase, .draw, .count, .build, .generate]) ?_ (by decide)
  refine acts_next (acts_setPhase (by simp) 3) (acts_next (acts_rangeScan (by simp) _ _) ?_)
  exact acts_next (acts_setPhase (by simp) 4) (acts_ite _ (acts_refuse _)
    (acts_buildCode (by simp) (by simp) (by simp) (by simp) _ _))

theorem held_encodeOutput : encodeOutput.Keeps (Kept Held) :=
  held_setPhase_next 5 <| held_next held_writeTable <| held_setPhase_next 6 <| held_next held_writePayload <|
    held_setPhase_next 7 fun s _ => .inr (closeWriter_released s)

theorem held_encodeBody (h w : Int) (p : Bool) : (encodeBody h w p).Keeps (Kept Held) := by
  rw [encodeBody_eq]
  exact held_next (held_encodeHead h w p) (held_next (held_encodeCode h w) held_encodeOutput)

/-- Where pseudocode goes on, it has come to a state with this property. -/
def Op.Ends {α : Type} (P : State → Prop) (m : Op α) : Prop := ∀ s a t, m s = .ok a t → P t

theorem ends_next {α β : Type} {P : State → Prop} {m : Op α} {f : Op β} (hf : f.Ends P) : (m.next f).Ends P :=
  fun _ b t h => by
    obtain ⟨_, u, -, h⟩ := andThen_eq_ok h
    exact hf u b t h

theorem ends_closeWriter : closeWriter.Ends fun t => t.bw = closedWriter := fun s _ t h => by
  have hc := closeWriter_released s
  rwa [h] at hc

/-- The last line of `ENCODE` but one is its close (R184). -/
theorem ends_encodeBody (h w : Int) (p : Bool) : (encodeBody h w p).Ends fun t => t.bw = closedWriter := by
  rw [encodeBody_eq]
  exact ends_next (ends_next (ends_next (ends_next (ends_next (ends_next (ends_next ends_closeWriter))))))

/-- The abort procedure closes the writer of an `ENCODE`, whatever the cause (R222). -/
theorem abort_encode {c : Cause} {u : State} (hop : u.seq.op = .encode) (hu : Held u) : (abort c u).bw = closedWriter := by
  rcases hu with ho | hc
  · by_cases hio : c.isIo = true
    · simp [abort, abortStream, hop, ho, hio, Machine.idle, releaseWriter, closedWriter]
    · simp [abort, abortStream, hop, ho, hio, Machine.idle, closeWriter_released]
  · simp [abort, abortStream, hop, hc, closedWriter, Machine.idle]

theorem encodeBody_aborts {s u : State} {h w : Int} {p : Bool} {c : Cause}
    (hb : encodeBody h w p (begunEncode s) = .stop c u) : (abort c u).bw = closedWriter := by
  have hheld := held_encodeBody h w p (begunEncode s) (.inl rfl)
  have hstop := (acts_encodeBody h w p).stop _ _ _ hb
  rw [hb] at hheld
  exact abort_encode (stopped_op (by simp [encodeActs]) (by simp [encodeActs]) hstop) hheld

/-- A call of `DECODE` that began ends with its reader closed and the sequencer idle (R203, R222). -/
theorem decode_releases {s : State} (hs : s.ready) (ho : s.br.isOpen = false) (p : Bool) :
    ∃ t, exec (.decode p) s = .next t ∧ t.br = closedReader ∧ t.idleNow := by
  obtain ⟨hok, hstop⟩ := decode_ends ho p
  rw [exec_decode hs ho, ← decode_begun ho]
  cases he : opOf (.decode p) s with
  | ok r u =>
    obtain ⟨hidle, hclosed⟩ := hok r u he
    exact ⟨_, deliver_ok r u, hclosed, hidle⟩
  | stop c u =>
    obtain ⟨hop, hopen⟩ := hstop c u he
    exact ⟨_, deliver_stop c u, abort_decode hop hopen, abort_idleNow c u⟩

/-- A call of `ENCODE` that began ends with its writer closed and the sequencer idle (R184, R222). -/
theorem encode_releases {s : State} (hs : s.ready) (ho : s.bw.isOpen = false) (h w : Int) (p : Bool) :
    ∃ t, exec (.encode h w p) s = .next t ∧ t.bw = closedWriter ∧ t.idleNow := by
  cases hb : encodeBody h w p (begunEncode s) with
  | ok a u =>
    have hclosed : u.bw = closedWriter := ends_encodeBody h w p _ _ _ hb
    exact ⟨_, exec_encode_ok hs ho hb, hclosed, rfl⟩
  | stop c u => exact ⟨_, exec_encode_stop hs ho hb, encodeBody_aborts hb, abort_idleNow c u⟩

/-- Settles O14: both calls by their two endings, the last line or the abort procedure. -/
theorem callsReleaseTheirStreams : Obligations.CallsReleaseTheirStreams :=
  ⟨fun _ h w p hs ho => encode_releases hs ho h w p, fun _ p hs ho => decode_releases hs ho p⟩

/-! A sink that fails (R215, R221): what pseudocode appends while no access fails tells where it stops when one does. -/

/-- The environment answers `j` accesses and fails the next one. -/
def failing (j : Nat) (later : List Bool) : List Bool := List.replicate j false ++ true :: later

/-- Pseudocode that goes on and appends these bytes when no access fails does the same when the failure comes later, and is
cut short at the failing append when it comes earlier. -/
def Op.CutShort {α : Type} (m : Op α) : Prop :=
  ∀ (s : State) a t, m (s.withIoFail []) = .ok a t → t.ioFail = [] ∧ ∃ bytes, t.sink = s.sink ++ bytes ∧ ∀ later,
    (∀ j, m (s.withIoFail (failing (bytes.length + j) later)) = .ok a (t.withIoFail (failing j later))) ∧
    ∀ j < bytes.length, ∃ u, m (s.withIoFail (failing j later)) = .stop (.fault .ioFailure (0, 0)) u ∧
      u.sink = s.sink ++ bytes.take j

/-- Lines that reach no stream. -/
theorem cutShort_silent {α : Type} {m : Op α} (h : ∀ (s : State) io a t, m (s.withIoFail []) = .ok a t →
    t.ioFail = [] ∧ t.sink = s.sink ∧ m (s.withIoFail io) = .ok a (t.withIoFail io)) : m.CutShort := by
  intro s a t hm
  obtain ⟨hio, hsink, -⟩ := h s [] a t hm
  refine ⟨hio, [], by rw [hsink, List.append_nil], fun later => ⟨fun j => ?_, nofun⟩⟩
  rw [List.length_nil, Nat.zero_add]
  exact (h s _ a t hm).2.2

theorem cutShort_give {α : Type} (a : α) : (give a).CutShort :=
  cutShort_silent fun _ _ _ _ h => by cases h; exact ⟨rfl, rfl, rfl⟩

theorem cutShort_raise {α : Type} (e : FaultKind) (info : Int × Int) : (raise e info : Op α).CutShort :=
  fun _ _ _ h => by cases h

theorem cutShort_refuse {α : Type} (r : RefuseKind) : (refuse r : Op α).CutShort := fun _ _ _ h => by cases h

theorem cutShort_assign {f : State → State} (hio : ∀ (s : State) io, f (s.withIoFail io) = (f s).withIoFail io)
    (hsink : ∀ s, (f s).sink = s.sink) : (assign f).CutShort := by
  refine cutShort_silent fun s io a t h => ?_
  cases h
  rw [hio, assign_apply, hio]
  exact ⟨rfl, hsink s, rfl⟩

theorem cutShort_look {α β : Type} (g : State → β) (hg : ∀ (s : State) io, g (s.withIoFail io) = g s) {f : β → Op α}
    (hf : ∀ b, (f b).CutShort) : Op.CutShort fun s => f (g s) s := by
  intro s a t h
  simp only [hg] at h ⊢
  exact hf (g s) s a t h

theorem cutShort_ite {α : Type} (c : Prop) [Decidable c] {m n : Op α} (hm : m.CutShort) (hn : n.CutShort) :
    (if c then m else n).CutShort := by split <;> assumption

/-- The bytes of two parts are one after the other, so the failure comes in the first, in the second, or after both. -/
theorem cutShort_andThen {α β : Type} {m : Op α} {f : α → Op β} (hm : m.CutShort) (hf : ∀ a, (f a).CutShort) :
    (m.andThen f).CutShort := by
  intro s b v h
  obtain ⟨a, t, hma, hfa⟩ := andThen_eq_ok h
  obtain ⟨hio, first, hfirst, hm⟩ := hm s a t hma
  obtain ⟨hvio, second, hsecond, hf⟩ := hf a t b v (by rwa [← hio, withIoFail_self])
  refine ⟨hvio, first ++ second, by rw [hsecond, hfirst, List.append_assoc], fun later => ⟨fun j => ?_, fun j hj => ?_⟩⟩
  · rw [List.length_append, Nat.add_assoc, andThen_ok ((hm later).1 _), (hf later).1]
  rcases Nat.lt_or_ge j first.length with hlt | hge
  · obtain ⟨u, hu, husink⟩ := (hm later).2 j hlt
    exact ⟨u, andThen_stop hu, by rw [husink, List.take_append_of_le_length hlt.le]⟩
  · obtain ⟨k, rfl⟩ := Nat.exists_eq_add_of_le hge
    obtain ⟨u, hu, husink⟩ := (hf later).2 k (by rw [List.length_append] at hj; omega)
    refine ⟨u, (andThen_ok ((hm later).1 k)).trans hu, ?_⟩
    rw [husink, hfirst, List.take_length_add_append, List.append_assoc]

theorem cutShort_next {α β : Type} {m : Op α} {f : Op β} (hm : m.CutShort) (hf : f.CutShort) : (m.next f).CutShort :=
  cutShort_andThen hm fun _ => hf

theorem cutShort_forEach {α : Type} {body : α → Op Unit} (l : List α) (h : ∀ x, (body x).CutShort) :
    (forEach l body).CutShort := by
  induction l with
  | nil => exact cutShort_give ()
  | cons x rest ih => exact cutShort_next (h x) ih

theorem cutShort_forUp {body : Nat → Op Unit} (start n : Nat) (h : ∀ i, (body i).CutShort) :
    (forUp start n body).CutShort := by rw [forUp_eq_forEach]; exact cutShort_forEach _ h

theorem cutShort_forDown {body : Nat → Op Unit} (n : Nat) (h : ∀ i, (body i).CutShort) : (forDown n body).CutShort := by
  induction n with
  | zero => exact cutShort_give ()
  | succ n ih => exact cutShort_next (h _) ih

/-! The writer. -/

/-- A line with one append. -/
theorem cutShort_append {α : Type} {m : Op α} {a : α} {f : State → State} {b : Byte}
    (hsink : ∀ s, (f s).sink = s.sink ++ [b]) (hend : ∀ s : State, m (s.withIoFail []) = .ok a ((f s).withIoFail []))
    (hok : ∀ (s : State) io, m (s.withIoFail (false :: io)) = .ok a ((f s).withIoFail io))
    (hfail : ∀ (s : State) io, ∃ u, m (s.withIoFail (true :: io)) = .stop (.fault .ioFailure (0, 0)) u ∧ u.sink = s.sink) :
    m.CutShort := by
  intro s a' t h
  rw [hend] at h
  cases h
  refine ⟨rfl, [b], hsink s, fun later => ⟨fun j => ?_, fun j hj => ?_⟩⟩
  · rw [List.length_singleton, Nat.add_comm]
    exact hok s _
  · obtain rfl : j = 0 := by simpa using hj
    obtain ⟨u, hu, husink⟩ := hfail s later
    exact ⟨u, hu, by rw [husink, List.take_zero, List.append_nil]⟩

theorem cutShort_sinkAppend (b : Byte) : (sinkAppend b).CutShort :=
  cutShort_append (f := fun s => s.withSink (s.sink ++ [b])) (fun _ => rfl) (fun _ => rfl) (fun _ _ => rfl)
    fun _ _ => ⟨_, rfl, rfl⟩

theorem cutShort_flushByte (b : Byte) : (flushByte b).CutShort :=
  cutShort_next (cutShort_assign (fun _ _ => rfl) fun _ => rfl) <|
    cutShort_next (cutShort_sinkAppend b) (cutShort_assign (fun _ _ => rfl) fun _ => rfl)

theorem cutShort_pushBit (b : Bool) : (pushBit b).CutShort := by
  refine cutShort_look (fun s => s.bw) (fun _ _ => rfl) (f := fun v s => if (v.buf ++ [b]).length = 8
    then flushByte (byteOf (v.buf ++ [b])) s else .ok () (s.withBw { v with buf := v.buf ++ [b] })) fun v => ?_
  by_cases h8 : (v.buf ++ [b]).length = 8
  · simp only [h8, if_true]
    exact cutShort_flushByte (byteOf (v.buf ++ [b]))
  · simp only [h8, if_false]
    exact cutShort_assign (f := fun s => s.withBw { v with buf := v.buf ++ [b] }) (fun _ _ => rfl) fun _ => rfl

theorem cutShort_needWriter : needWriter.CutShort := by
  refine cutShort_look (fun s => s.bw.isOpen) (fun _ _ => rfl)
    (f := fun o s => if o then .ok () s else .stop (.refuse .notOpen) s) fun o => ?_
  cases o with
  | true => exact cutShort_give ()
  | false => exact cutShort_refuse .notOpen

theorem cutShort_writeBits (bits : Bits) : (writeBits bits).CutShort :=
  cutShort_next cutShort_needWriter (cutShort_forEach bits cutShort_pushBit)

/-- A close appends the last byte, if there is one (R108). -/
theorem cutShort_closeWriter : closeWriter.CutShort := by
  refine cutShort_look (fun s => s.bw.lastByte) (fun _ _ => rfl) (f := fun l s => match l with
    | none => .ok () (releaseWriter s)
    | some b =>
      match sinkAppend b s with
      | .ok _ t => .ok () (releaseWriter t)
      | .stop c t => .stop c (releaseWriter t)) fun l => ?_
  cases l with
  | none => exact cutShort_assign (f := releaseWriter) (fun _ _ => rfl) fun _ => rfl
  | some b =>
    exact cutShort_append (f := fun s => releaseWriter (s.withSink (s.sink ++ [b]))) (fun _ => rfl) (fun _ => rfl)
      (fun _ _ => rfl) fun _ _ => ⟨_, rfl, rfl⟩

/-! The pieces of `ENCODE` (R173 to R184). -/

theorem cutShort_writeField (x : Int) (width : Nat) : (writeField x width).CutShort :=
  cutShort_andThen (cutShort_ite _ (cutShort_raise _ _) (cutShort_give _)) cutShort_writeBits

theorem cutShort_writeHeader (h w : Int) : (writeHeader h w).CutShort :=
  cutShort_next cutShort_needWriter <| cutShort_next (cutShort_writeField _ _) <|
    cutShort_next (cutShort_writeField _ _) (cutShort_assign (fun _ _ => rfl) fun _ => rfl)

theorem cutShort_writeEntry (e : Symbol × Bits) : (writeEntry e).CutShort :=
  cutShort_next (cutShort_writeField _ _) (cutShort_next (cutShort_writeField _ _) (cutShort_writeBits e.2))

theorem cutShort_writeTable : writeTable.CutShort :=
  cutShort_next cutShort_needWriter <| cutShort_look (fun s => s.ct.entries) (fun _ _ => rfl)
    (f := fun es => (forEach es writeEntry).next (writeField Config.sentinel Config.symWidth)) fun es =>
    cutShort_next (cutShort_forEach es cutShort_writeEntry) (cutShort_writeField _ _)

theorem cutShort_imgRead (l : Loc) : (imgRead l).CutShort := by
  refine cutShort_look (fun s => (Memory.read s.img l, s.draws)) (fun _ _ => rfl) (f := fun r s => match r.1 with
    | some v => .ok v s
    | none => .ok (Config.freeSample r.2) (s.withDraws (r.2 + 1))) fun (v, n) => ?_
  cases v with
  | some v => exact cutShort_give v
  | none =>
    exact cutShort_next (cutShort_assign (f := fun s => s.withDraws (n + 1)) (fun _ _ => rfl) fun _ => rfl)
      (cutShort_give (Config.freeSample n))

theorem cutShort_writeSymbol (x : Sample) : (writeSymbol x).CutShort := by
  refine cutShort_next cutShort_needWriter (cutShort_look (fun s => if isCodable x then s.ct.code x else none)
    (fun _ _ => rfl) (f := fun cw s => match cw with
      | none => .stop (.refuse .noCode) s
      | some cw => writeBits cw s) fun cw => ?_)
  cases cw with
  | none => exact cutShort_refuse .noCode
  | some cw => exact cutShort_writeBits cw

theorem cutShort_writePayload : writePayload.CutShort :=
  cutShort_next cutShort_needWriter <| cutShort_look (fun s => s.dim) (fun _ _ => rfl)
    (f := fun d => forUp 0 d.count (writeSample d.w.toNat)) fun _ =>
    cutShort_forUp 0 _ fun _ => cutShort_andThen (cutShort_imgRead _) cutShort_writeSymbol

theorem cutShort_predictForward (h w : Nat) : (predictForward h w).CutShort :=
  cutShort_forUp _ _ fun _ => cutShort_forUp _ _ fun _ => cutShort_forDown _ fun _ =>
    cutShort_assign (fun _ _ => rfl) fun _ => rfl

theorem cutShort_rangeScan (w n : Nat) : (rangeScan w n).CutShort :=
  cutShort_forUp _ _ fun _ => cutShort_andThen (cutShort_imgRead _) fun _ =>
    cutShort_ite _ (cutShort_give ()) (cutShort_raise _ _)

theorem cutShort_readFlat (w start n : Nat) : (readFlat w start n).CutShort := by
  induction n generalizing start with
  | zero => exact cutShort_give []
  | succ n ih =>
    exact cutShort_andThen (cutShort_imgRead _) fun _ => cutShort_andThen (ih _) fun _ => cutShort_give _

theorem cutShort_accumulate (x : Sample) : (accumulate x).CutShort := by
  cases hx : isCodable x with
  | true =>
    rw [show accumulate x = assign fun s => s.withHg (s.hg.bump x) from funext (accumulate_codable hx)]
    exact cutShort_assign (fun _ _ => rfl) fun _ => rfl
  | false => exact fun s a t h => by rw [accumulate_uncodable hx] at h; cases h

theorem cutShort_buildHistogram (samples : List Sample) (lo hi : Int) : (buildHistogram samples lo hi).CutShort := by
  refine cutShort_next (cutShort_assign (fun _ _ => rfl) fun _ => rfl) <|
    cutShort_next (cutShort_forEach samples cutShort_accumulate) <|
    cutShort_look (fun s => s.hg) (fun _ _ => rfl)
      (f := fun g s => if g.total = 0 then .stop (.refuse .emptyHistogram) s else .ok (g.emit lo hi) s) fun g => ?_
  by_cases h0 : g.total = 0
  · simp only [h0, if_true]
    exact cutShort_refuse .emptyHistogram
  · simp only [h0, if_false]
    exact cutShort_give (g.emit lo hi)

theorem cutShort_buildHuffman (xs : List Symbol) (ps : List Prob) : (buildHuffman xs ps).CutShort := by
  cases hc : alphabetCause xs ps with
  | some c => exact fun s a t h => by rw [buildHuffman_stop hc] at h; cases h
  | none =>
    rw [show buildHuffman xs ps = assign fun s => s.withHt (buildTree xs ps) by funext s; simp [buildHuffman, hc]]
    exact cutShort_assign (fun _ _ => rfl) fun _ => rfl

theorem cutShort_generateCodes : generateCodes.CutShort := by
  refine cutShort_look (fun s => s.ht) (fun _ _ => rfl) (f := fun t s => match t.root with
    | none => .stop (.refuse .noTree) s
    | some _ => .ok (codesOf t) (s.withCt { entries := codesOf t })) fun t => ?_
  cases t.root with
  | none => exact cutShort_refuse .noTree
  | some r =>
    exact cutShort_next (cutShort_assign (f := fun s => s.withCt { entries := codesOf t }) (fun _ _ => rfl) fun _ => rfl)
      (cutShort_give (codesOf t))

theorem cutShort_buildCode (w n : Nat) : (buildCode w n).CutShort :=
  cutShort_andThen (cutShort_readFlat w 0 n) fun _ => cutShort_andThen (cutShort_buildHistogram _ _ _) fun _ =>
    cutShort_next (cutShort_buildHuffman _ _) (cutShort_andThen cutShort_generateCodes fun _ => cutShort_give ())

theorem cutShort_setPhase_next {β : Type} (n : Nat) {f : Op β} (hf : f.CutShort) : ((setPhase n).next f).CutShort :=
  cutShort_next (cutShort_assign (fun _ _ => rfl) fun _ => rfl) hf

/-- The whole pipeline (R184). -/
theorem cutShort_encodeBody (h w : Int) (p : Bool) : (encodeBody h w p).CutShort := by
  have hprediction : (if p then predictForward h.toNat w.toNat else give ()).CutShort :=
    cutShort_ite _ (cutShort_predictForward _ _) (cutShort_give ())
  have hcode : (if h * w = 0 then refuse .emptyHistogram else buildCode w.toNat (sampleCount h.toNat w.toNat)).CutShort :=
    cutShort_ite _ (cutShort_refuse _) (cutShort_buildCode _ _)
  refine cutShort_next (cutShort_writeHeader h w) <| cutShort_setPhase_next 2 <|
    cutShort_next (cutShort_assign (fun _ _ => rfl) fun _ => rfl) <| cutShort_next hprediction <| cutShort_setPhase_next 3 <|
    cutShort_next (cutShort_rangeScan _ _) <| cutShort_setPhase_next 4 <| cutShort_next hcode <| ?_
  exact cutShort_setPhase_next 5 <| cutShort_next cutShort_writeTable <| cutShort_setPhase_next 6 <|
    cutShort_next cutShort_writePayload <| cutShort_setPhase_next 7 cutShort_closeWriter

/-! What a failed `ENCODE` has appended (R185, R222). -/

theorem padded_whole {bits : Bits} (h : bits.length % 8 = 0) : padded bits = bits := by simp [padded, h, zeros]

/-- The call has begun, and no line has written since. -/
structure Unwritten (s v : State) : Prop where
  bw : v.bw = { buf := [], isOpen := true }
  sink : v.sink = s.sink
  io : v.ioFail = s.ioFail
  op : v.seq.op = .encode

theorem unwritten_begunEncode (s : State) : Unwritten s (begunEncode s) := ⟨rfl, rfl, rfl, rfl⟩

section unwritten

variable {s v : State}

theorem Unwritten.inPhase (hv : Unwritten s v) (n : Nat) : Unwritten s (v.inPhase n) := ⟨hv.bw, hv.sink, hv.io, hv.op⟩

theorem Unwritten.loaded (hv : Unwritten s v) (d : Dims) (p : Bool) (m : List (Loc × Sample)) :
    Unwritten s (v.loaded d p m) := ⟨hv.bw, hv.sink, hv.io, hv.op⟩

theorem Unwritten.coded (hv : Unwritten s v) (g : Histogram) (t : HuffmanTree) (codes : List (Symbol × Bits)) :
    Unwritten s (v.coded g t codes) := ⟨hv.bw, hv.sink, hv.io, hv.op⟩

theorem Unwritten.canWrite (hv : Unwritten s v) (hio : s.reliable) : v.canWrite := by
  rw [State.canWrite, State.reliable, hv.bw, hv.io]
  exact ⟨rfl, Nat.zero_le 7, hio, rfl⟩

/-- The abort of an `ENCODE` for another cause than an `IOFailure` closes its writer by the ordinary close (R222). -/
theorem abort_closes {c : Cause} {u : State} (hop : u.seq.op = .encode) (ho : u.bw.isOpen = true) (hc : c.isIo = false) :
    abort c u = idle (closeWriter (u.withSt (u.st.record c))).state := by
  rw [abort, abortStream, if_pos ⟨hop, ho⟩, if_neg (by simp [hc])]

/-- A call that stops after it has written some bits: the abort pads them to whole bytes (R108, R185, R222). -/
theorem exec_encode_flushes {h w : Int} {p : Bool} {c : Cause} {bits : Bits} (hs : s.ready) (ho : s.bw.isOpen = false)
    (hio : s.reliable) (hv : Unwritten s v) (hc : c.isIo = false)
    (hb : encodeBody h w p (begunEncode s) = .stop c (afterWrite bits v)) :
    ∃ t, exec (.encode h w p) s = .next t ∧ t.says c.reply ∧ t.sink = s.sink ++ packBytes (padded bits) ∧
      t.bw = closedWriter ∧ t.img = v.img := by
  have hw := hv.canWrite hio
  have habort := abort_closes (c := c) (u := afterWrite bits v) hv.op hw.1 hc
  have hclose := closeWriter_afterWrite (s := v.withSt (v.st.record c)) bits hw
  rw [show (afterWrite bits v).withSt ((afterWrite bits v).st.record c) = afterWrite bits (v.withSt (v.st.record c)) from rfl,
    hclose, Ending.state_ok] at habort
  refine ⟨_, exec_encode_stop hs ho hb, rfl, ?_, encodeBody_aborts hb, ?_⟩
  · rw [habort]
    show v.sink ++ packBytes (padded (v.bw.buf ++ bits)) = _
    rw [hv.sink, hv.bw, List.nil_append]
  · rw [habort]; rfl

/-- An `IOFailure` leaves the sink as it is (R222). -/
theorem abort_ioFailure_sink (info : Int × Int) (u : State) : (abort (.fault .ioFailure info) u).sink = u.sink := by
  rw [abort, abortStream]
  split_ifs with h h' h'
  · rfl
  · exact absurd rfl h'
  · rfl
  · rfl

end unwritten

/-! The lines that stop. -/

/-- Steps 3 and 4 on a first sample outside −255 .. 255 (R175). -/
theorem encodeCode_outside {s : State} {h w : BitVec 16} {before after : List Sample} {x : Sample}
    (hd : imageDefined h.toNat w.toNat s.img)
    (hf : flatOf w.toNat 0 (sampleCount h.toNat w.toNat) s.img = before ++ x :: after)
    (hb : ∀ y ∈ before, isCodable y = true) (hx : isCodable x = false) :
    encodeCode h.toNat w.toNat s = .stop (.fault .sampleRangeError (x, before.length)) (s.inPhase 3) := by
  have hscan := forUp_scanSample_bad (s := s.inPhase 3) _ 0 hd (Nat.zero_add _).le hf hb hx
  rw [Nat.zero_add] at hscan
  rw [encodeCode, setPhase, assign_next]
  exact next_stop hscan

/-- Steps 3 and 4 on an image without samples (R183, R184). -/
theorem encodeCode_empty {h w : BitVec 16} (h0 : h = 0 ∨ w = 0) (s : State) :
    encodeCode h.toNat w.toNat s = .stop (.refuse .emptyHistogram) (s.inPhase 4) := by
  have hcount : sampleCount h.toNat w.toNat = 0 := count_eq_zero (d := { h := h, w := w }) h0
  have hmul : (h.toNat : Int) * w.toNat = 0 := by rcases h0 with rfl | rfl <;> simp
  rw [encodeCode, Int.toNat_natCast, Int.toNat_natCast, hcount, if_pos hmul]
  rfl

theorem imageDefined_empty {h w : BitVec 16} (h0 : h = 0 ∨ w = 0) (m : List (Loc × Sample)) :
    imageDefined h.toNat w.toNat m := by
  rintro r hr c hc k -
  rcases h0 with rfl | rfl
  · exact absurd hr (Nat.not_lt_zero r)
  · exact absurd hc (Nat.not_lt_zero c)

/-- A call that stops in step 3 or 4, its header being written (R185). -/
theorem exec_encode_stopsAtCode {s : State} {h w : BitVec 16} {p : Bool} {c : Cause} {n : Nat} (hs : s.ready)
    (ho : s.bw.isOpen = false) (hio : s.reliable) (hd : imageDefined h.toNat w.toNat s.img) (hc : c.isIo = false)
    (hcode : ∀ u, HoldsCoded p h.toNat w.toNat u.img s.img → encodeCode h.toNat w.toNat u = .stop c (u.inPhase n)) :
    ∃ t, exec (.encode h.toNat w.toNat p) s = .next t ∧ t.says c.reply ∧ t.sink = s.sink ++ packBytes (headerBits h w) ∧
      t.bw = closedWriter ∧ HoldsCoded p h.toNat w.toNat t.img s.img := by
  have hbegun := unwritten_begunEncode s
  obtain ⟨m, hm, hhead⟩ := encodeHead_ok (s := begunEncode s) p (hbegun.canWrite hio) hd
  have hb : encodeBody h.toNat w.toNat p (begunEncode s) =
      .stop c (afterWrite (headerBits h w) (((begunEncode s).loaded { h := h, w := w } p m).inPhase n)) := by
    rw [encodeBody_eq, next_ok hhead]
    exact next_stop (hcode _ hm)
  obtain ⟨t, ht, hsays, hsink, hbw, himg⟩ := exec_encode_flushes hs ho hio ((hbegun.loaded _ _ _).inPhase n) hc hb
  rw [padded_whole (by rw [headerBits_length])] at hsink
  exact ⟨t, ht, hsays, hsink, hbw, himg ▸ hm⟩

/-! The rows of R185. -/

/-- A height that does not fit: nothing is appended. -/
theorem exec_encode_badHeight {s : State} {h : Int} (w : Int) (p : Bool) (hs : s.ready) (ho : s.bw.isOpen = false)
    (hh : ¬fits16 h) : ∃ t, exec (.encode h w p) s = .next t ∧ t.says (.fault .rangeError (h, 16)) ∧ t.sink = s.sink ∧
      t.bw = closedWriter := by
  have hb : encodeBody h w p (begunEncode s) = .stop (.fault .rangeError (h, 16)) (begunEncode s) :=
    next_stop (writeHeader_badHeight w rfl hh)
  refine ⟨_, exec_encode_stop hs ho hb, rfl, ?_, encodeBody_aborts hb⟩
  rw [abort_closes rfl rfl rfl]
  rfl

/-- A width that does not fit: the height's two bytes are appended. -/
theorem exec_encode_badWidth {s : State} {h w : Int} (p : Bool) (hs : s.ready) (ho : s.bw.isOpen = false)
    (hio : s.reliable) (hh : fits16 h) (hw : ¬fits16 w) : ∃ t, exec (.encode h w p) s = .next t ∧
      t.says (.fault .rangeError (w, 16)) ∧ t.sink = s.sink ++ packBytes (bitsOf 16 h.toNat) ∧ t.bw = closedWriter := by
  have hbegun := unwritten_begunEncode s
  have hb : encodeBody h w p (begunEncode s) =
      .stop (.fault .rangeError (w, 16)) (afterWrite (bitsOf 16 h.toNat) (begunEncode s)) :=
    next_stop (writeHeader_badWidth (hbegun.canWrite hio) hh hw)
  obtain ⟨t, ht, hsays, hsink, hbw, -⟩ := exec_encode_flushes hs ho hio hbegun rfl hb
  rw [padded_whole (by rw [bitsOf_length])] at hsink
  exact ⟨t, ht, hsays, hsink, hbw⟩

theorem encodeBody_stopsAtTable {s t u v : State} {h w : Int} {p : Bool} {c : Cause}
    (hhead : encodeHead h w p s = .ok () t) (hcode : encodeCode h w t = .ok () u)
    (htable : writeTable (u.inPhase 5) = .stop c v) : encodeBody h w p s = .stop c v := by
  rw [encodeBody_eq, next_ok hhead, next_ok hcode, encodeOutput, setPhase, assign_next]
  exact next_stop htable

/-- A codeword that is too long: the header, the entries before it and its own biased symbol are appended. -/
theorem exec_encode_longCodeword {s : State} {h w : BitVec 16} {p : Bool} {flat : List Sample}
    {codes before after : List (Symbol × Bits)} {e : Symbol × Bits} (hs : s.ready) (ho : s.bw.isOpen = false) (hio : s.reliable)
    (hh : h ≠ 0) (hw : w ≠ 0) (hd : imageDefined h.toNat w.toNat s.img) (hf : codedFlat p h.toNat w.toNat s.img = flat)
    (hc : ∀ y ∈ flat, isCodable y = true) (hcodes : codeFor flat = codes) (he : codes = before ++ e :: after)
    (hb : ∀ e ∈ before, e.2.length ≤ 31) (hl : 31 < e.2.length) :
    ∃ t, exec (.encode h.toNat w.toNat p) s = .next t ∧ t.says (.fault .rangeError (e.2.length, 5)) ∧
      t.sink = s.sink ++ packBytes (padded (headerBits h w ++ before.flatMap (fun e => entryBits e.1 e.2) ++
        bitsOf 9 (e.1 + 255).toNat)) ∧ t.bw = closedWriter := by
  have h0 : flat ≠ [] := hf ▸ codedFlat_ne_nil (sampleCount_pos hh hw)
  have hsymbol : ∀ e ∈ codes, isCodable e.1 = true := fun e he =>
    hc _ ((mem_symbols_codeFor hc h0 _).mp (List.mem_map_of_mem (hcodes ▸ he)))
  have hcarry : carriable before = true := by
    simp only [carriable, List.all_eq_true, Bool.and_eq_true, decide_eq_true_eq]
    exact fun e' he' => ⟨hsymbol e' (he ▸ List.mem_append_left _ he'), hb e' he'⟩
  have hbegun := unwritten_begunEncode s
  obtain ⟨m, hm, hhead⟩ := encodeHead_ok (s := begunEncode s) p (hbegun.canWrite hio) hd
  obtain ⟨g, t, hcode⟩ := encodeCode_ok (s := (afterWrite (headerBits h w) (begunEncode s)).loaded { h := h, w := w } p m)
    hh hw hm.imageDefined (hm.flatOf.trans hf) hc
  rw [hcodes] at hcode
  have hv := ((hbegun.loaded { h := h, w := w } p m).coded g t codes).inPhase 5
  have htable := writeTable_long (canWrite_afterWrite (headerBits h w) (hv.canWrite hio)) he hcarry
    (hsymbol e (by simp [he])) hl
  rw [afterWrite_append, ← List.append_assoc] at htable
  obtain ⟨t, ht, hsays, hsink, hbw, -⟩ :=
    exec_encode_flushes hs ho hio hv rfl (encodeBody_stopsAtTable hhead hcode htable)
  exact ⟨t, ht, hsays, hsink, hbw⟩

/-- A sink that fails: the bytes before the failing append are there, the first `j` of the stream. -/
theorem exec_encode_ioFailure {s : State} {h w : BitVec 16} {p : Bool} {flat : List Sample} {codes : List (Symbol × Bits)}
    {j : Nat} {later : List Bool} (hs : s.ready) (ho : s.bw.isOpen = false) (hfail : s.failsAfter j later)
    (hh : h ≠ 0) (hw : w ≠ 0) (hd : imageDefined h.toNat w.toNat s.img) (hf : codedFlat p h.toNat w.toNat s.img = flat)
    (hc : ∀ y ∈ flat, isCodable y = true) (hcodes : codeFor flat = codes) (hlen : ∀ e ∈ codes, e.2.length ≤ 31)
    (hj : j < (packBytes (padded (streamBits h w codes flat))).length) :
    ∃ t, exec (.encode h.toNat w.toNat p) s = .next t ∧ t.says (.fault .ioFailure (0, 0)) ∧
      t.sink = s.sink ++ (packBytes (padded (streamBits h w codes flat))).take j ∧ t.bw = closedWriter := by
  have htwin : ((begunEncode s).withIoFail []).canWrite := ⟨rfl, Nat.zero_le 7, rfl, rfl⟩
  obtain ⟨m, g, t, -, hrun⟩ := encodeBody_ok (p := p) htwin hh hw hd hf hcodes hc hlen
  have hends := hrun.trans (closeWriter_afterWrite _ htwin)
  obtain ⟨-, bytes, hbytes, hcut⟩ := cutShort_encodeBody _ _ _ _ _ _ hends
  obtain rfl : packBytes (padded (streamBits h w codes flat)) = bytes := List.append_cancel_left hbytes
  obtain ⟨u, hu, husink⟩ := (hcut later).2 j hj
  have hb : encodeBody h.toNat w.toNat p (begunEncode s) = .stop (.fault .ioFailure (0, 0)) u := by
    rwa [failing, ← hfail] at hu
  refine ⟨_, exec_encode_stop hs ho hb, rfl, ?_, encodeBody_aborts hb⟩
  exact (abort_ioFailure_sink (0, 0) u).trans husink

/-- Settles O48: each row by the line that stops and by what the abort procedure does with the writer. -/
theorem encodeFailures : Obligations.EncodeFailures := by
  refine ⟨fun s h w p hs ho hh => exec_encode_badHeight w p hs ho hh,
    fun s h w p hs ho hio hh hw => exec_encode_badWidth p hs ho hio hh hw,
    fun s h w p before x after hs ho hio hd hf hb hx => ?_, fun s h w p hs ho hio h0 => ?_,
    fun s h w p before x cw after hs ho hio hh hw hd hrange hcodes hb hl => ?_,
    fun s h w p j later hs ho hfail hh hw hd hrange hlen hj => ?_⟩
  · exact exec_encode_stopsAtCode (c := .fault .sampleRangeError (x, before.length)) hs ho hio hd rfl fun u hu =>
      encodeCode_outside hu.imageDefined (hu.flatOf.trans hf) (fun y hy => (isCodable_iff y).mpr (hb y hy))
        (uncodable_of_outside hx)
  · obtain ⟨t, ht, hsays, hsink, hbw, -⟩ := exec_encode_stopsAtCode (p := p) hs ho hio (imageDefined_empty h0 s.img) rfl
      fun u _ => encodeCode_empty h0 u
    exact ⟨t, ht, hsays, hsink, hbw⟩
  · exact exec_encode_longCodeword hs ho hio hh hw hd rfl (fun y hy => (isCodable_iff y).mpr (hrange y hy)) rfl hcodes hb hl
  · exact exec_encode_ioFailure hs ho hfail hh hw hd rfl (fun y hy => (isCodable_iff y).mpr (hrange y hy)) rfl hlen hj

end Sys2Proof.Machine

/-! The decoder family (46_decoder.md R191 to R209): each `VD` operation from how its pseudocode ends, the pipeline of `DECODE`
up to its payload and past it, and the round trip. -/

namespace Sys2Proof.Machine

/-! The operations of the decoder (R191 to R201). -/

/-- Settles O49: the header's 32 bits are read, or the reader runs out, or it was exhausted. -/
theorem headerReading : Obligations.HeaderReading :=
  ⟨fun _ _ _ _ h0 hs hu => exec_vdHdr h0 hs hu,
    fun _ h0 hs hu => issue_finished h0 (andThen_ok (readHeader_short hs hu)),
    fun _ h0 he => issue_finished h0 (andThen_ok (readHeader_exhausted he))⟩

/-- A decode table that was empty holds the last entry of each codeword (R193). -/
theorem get_putAll_nil (es : List (Symbol × Bits)) : Table.get (putAll es []) = lastFor es := by
  funext cw
  rw [get_putAll, Table.get_nil, Option.or_none]

/-- Settles O50: the entries up to the sentinel are inserted in order, or the reader runs out, or it was exhausted. -/
theorem tableReading : Obligations.TableReading := by
  refine ⟨fun s es rest h0 hs hc hu => ?_, fun s h0 hs hu => ?_, fun s h0 he => ?_⟩
  · exact ⟨putAll es [], exec_vdTable h0 hs hc hu, congrFun (get_putAll_nil es)⟩
  · obtain ⟨d, hd⟩ := readTable_short hs hu
    exact ⟨d, issue_finished h0 (andThen_ok hd)⟩
  · exact issue_finished h0 (andThen_ok (readTable_exhausted he))

/-- Settles O51: the shortest key is matched, or the reader runs out, or it was exhausted. -/
theorem shortestKeyIsMatched : Obligations.ShortestKeyIsMatched :=
  ⟨fun _ _ _ h0 hs hk => exec_vdSym h0 hs hk,
    fun _ h0 hs hk => issue_finished h0 (andThen_ok (readSymbol_none hs hk)),
    fun _ h0 he => issue_finished h0 (andThen_ok (readSymbol_exhausted he))⟩

theorem count_pos {d : Dims} (hh : d.h ≠ 0) (hw : d.w ≠ 0) : 0 < d.count := sampleCount_pos hh hw

/-- Settles O52: the samples are stored in flat order, and a payload cut short takes the value of the others away. -/
theorem payloadReading : Obligations.PayloadReading := by
  refine ⟨fun s xs n h0 hs hx hl => ?_, fun s xs n h0 hs hx hno hl => ?_, fun s h0 he hh hw => ?_⟩
  · exact ⟨_, issue_finished h0 (andThen_ok (readPayload_ok hs hx hl)), holdsFlat_putFlat s.img hl⟩
  · exact ⟨_, issue_finished h0 (andThen_ok (readPayload_short hs hx hno hl)), holdsFlat_stopShort s.img hl.le⟩
  · exact ⟨_, issue_finished h0 (andThen_ok (readPayload_exhausted he (count_pos hh hw))),
      holdsFlat_stopShort (xs := []) s.img (Nat.zero_le _)⟩

/-! What the lines of `DECODE` leave of the state. -/

@[simp] theorem setDec_fields (d : DecStatus) (s : State) :
    (setDec d s).br = s.br ∧ (setDec d s).dim = s.dim ∧ (setDec d s).vd = s.vd ∧ (setDec d s).img = s.img ∧
      (setDec d s).src = s.src ∧ (setDec d s).draws = s.draws ∧ (setDec d s).st = { s.st with dec := d } :=
  ⟨rfl, rfl, rfl, rfl, rfl, rfl, rfl⟩

/-- A reader that delivers bits leaves the dimensions, image memory and the status alone (R70). -/
@[simp] theorem afterRead_fields (n : Nat) (s : State) :
    (afterRead n s).dim = s.dim ∧ (afterRead n s).img = s.img ∧ (afterRead n s).draws = s.draws ∧
      (afterRead n s).st = s.st := ⟨rfl, rfl, rfl, rfl⟩

/-- So does a reader that runs out (R111). -/
@[simp] theorem afterExhaustion_fields (s : State) :
    (afterExhaustion s).dim = s.dim ∧ (afterExhaustion s).img = s.img ∧ (afterExhaustion s).draws = s.draws ∧
      (afterExhaustion s).st = s.st := ⟨rfl, rfl, rfl, rfl⟩

@[simp] theorem loadHeader_fields (h w : BitVec 16) (s : State) :
    (loadHeader h w s).dim = { h := h, w := w } ∧ (loadHeader h w s).img = s.img ∧ (loadHeader h w s).st = s.st :=
  ⟨rfl, rfl, rfl⟩

@[simp] theorem inPhase_fields (s : State) (n : Nat) :
    (s.inPhase n).dim = s.dim ∧ (s.inPhase n).img = s.img ∧ (s.inPhase n).st = s.st := ⟨rfl, rfl, rfl⟩

@[simp] theorem begunDecode_fields (s : State) :
    (begunDecode s).dim = s.dim ∧ (begunDecode s).img = s.img ∧ (begunDecode s).draws = s.draws ∧
      (begunDecode s).st = { s.st with dec := .none } := ⟨rfl, rfl, rfl, rfl⟩

@[simp] theorem stopShort_fields (i : Nat) (s : State) :
    (stopShort i s).dim = s.dim ∧ (stopShort i s).vd = s.vd ∧ (stopShort i s).st = { s.st with dec := .short } :=
  ⟨rfl, rfl, rfl⟩

/-! The pipeline of `DECODE` up to the payload (R203). -/

/-- The reader that `DECODE` has opened can read. -/
theorem canRead_begunDecode {s : State} (h : s.reliable) : (begunDecode s).canRead := ⟨rfl, h⟩

/-- It has the source's bytes before it. -/
theorem unread_begunDecode (s : State) : unread (begunDecode s) = sourceBits s := rfl

/-- What the last lines of `DECODE` leave of the state before them: all but the reader and the sequencer (R203). -/
structure EndsDecode (u t : State) : Prop where
  br : t.br = closedReader
  idle : t.idleNow
  cfg : t.cfg = u.cfg
  st : t.st = u.st
  dim : t.dim = u.dim
  vd : t.vd = u.vd
  img : t.img = u.img
  src : t.src = u.src
  draws : t.draws = u.draws

theorem endsDecode_finished (u : State) (r : Result) : EndsDecode u ((idle (closeReader u)).finished r) := by
  cases u; exact ⟨rfl, rfl, rfl, rfl, rfl, rfl, rfl, rfl, rfl⟩

/-- `DECODE` whose lines go on ends idle, with its reader closed (R203, R204). -/
theorem exec_decode_ok {s u : State} {p gotHeader : Bool} (hs : s.ready) (ho : s.br.isOpen = false)
    (hb : decodeBody p (begunDecode s) = .ok gotHeader u) :
    ∃ t, exec (.decode p) s = .next t ∧ t.says (.ok (.decoded (if gotHeader then some u.dim else none) u.st.dec)) ∧
      EndsDecode u t := by
  refine ⟨_, ?_, rfl, endsDecode_finished u _⟩
  rw [exec_decode hs ho, andThen_ok hb]; rfl

/-- A source that ends in the header (R200). -/
theorem decodeBody_noHeader {s : State} (p : Bool) (hs : s.canRead) (hu : (unread s).length < 32) :
    decodeBody p s = .ok false (setDec .noImage (afterExhaustion s)) :=
  andThen_ok (readHeader_short hs hu)

/-- A source that ends in the table (R200). -/
theorem decodeBody_noTable {s : State} {h w : BitVec 16} {u : Bits} (p : Bool) (hs : s.canRead)
    (hu : unread s = headerBits h w ++ u) (hno : ∀ es rest, carriable es = true → u ≠ tableOf es ++ rest) :
    ∃ d, decodeBody p s = .ok true (setDec .noImage
      ((afterExhaustion ((loadHeader h w (afterRead 32 s)).inPhase 2)).withDt d)) := by
  obtain ⟨hhead, hrest⟩ := readHeader_ok hs hu
  have hu2 : unread ((loadHeader h w (afterRead 32 s)).inPhase 2) = u := hrest
  obtain ⟨d, hd⟩ := readTable_short (s := (loadHeader h w (afterRead 32 s)).inPhase 2) (canRead_afterRead 32 hs)
    (by rwa [hu2])
  exact ⟨d, (andThen_ok hhead).trans (andThen_ok hd)⟩

/-- The state in which `DECODE` begins the payload: a header and a table have been read (R203). -/
def State.atPayload (s : State) (d : Dims) (es : List (Symbol × Bits)) : State :=
  { afterRead (32 + (tableOf es).length) s with dim := d, dt := putAll es [], seq := { s.seq with phase := 3 } }

@[simp] theorem atPayload_fields (s : State) (d : Dims) (es : List (Symbol × Bits)) :
    (s.atPayload d es).dim = d ∧ (s.atPayload d es).img = s.img ∧ (s.atPayload d es).draws = s.draws ∧
      (s.atPayload d es).st = s.st := ⟨rfl, rfl, rfl, rfl⟩

/-- The lines of `DECODE` from the payload on (R203). -/
def decodeSamples (p : Bool) : Op Bool :=
  readPayload.next <| (setPhase 4).next <| (setPhase 5).next <| (undoPrediction p).next (give true)

/-- A header and a table are read, and the payload comes next. -/
theorem decodeBody_atPayload {s : State} {h w : BitVec 16} {es : List (Symbol × Bits)} {payload : Bits} (p : Bool)
    (hs : s.canRead) (hc : carriable es = true) (hu : unread s = headerBits h w ++ (tableOf es ++ payload)) :
    decodeBody p s = decodeSamples p (s.atPayload { h := h, w := w } es) ∧
      (s.atPayload { h := h, w := w } es).canRead ∧ unread (s.atPayload { h := h, w := w } es) = payload := by
  obtain ⟨hhead, hrest⟩ := readHeader_ok hs hu
  have hu2 : unread ((loadHeader h w (afterRead 32 s)).inPhase 2) = tableOf es ++ payload := hrest
  obtain ⟨htable, hpayload⟩ := readTable_ok (s := (loadHeader h w (afterRead 32 s)).inPhase 2) (canRead_afterRead 32 hs)
    hc hu2
  have hlen : 32 + (tableOf es).length ≤ (unread s).length := by
    rw [hu, ← List.append_assoc, List.length_append, List.length_append, headerBits_length]; omega
  have hat : (((afterRead (tableOf es).length ((loadHeader h w (afterRead 32 s)).inPhase 2)).withDt
      (putAll es [])).inPhase 3) = s.atPayload { h := h, w := w } es := by
    rw [State.atPayload, ← afterRead_add hlen]; rfl
  refine ⟨?_, canRead_afterRead _ hs, ?_⟩
  · rw [← hat]
    exact (andThen_ok hhead).trans (andThen_ok htable)
  · rw [← hat]
    exact hpayload

/-! The samples of a payload as `DECODE` leaves them (R163, R197, R199). -/

/-- Step 5 of `DECODE` writes `cfg.P` and, with prediction on, the sums along each row (R203). -/
theorem undoPrediction_ok (p : Bool) (s : State) :
    ∃ m, undoPrediction p s = .ok () ((s.withCfg { p := p }).withImg m) ∧
      ∀ l, Memory.read m l =
        if inShape s.dim.h.toNat s.dim.w.toNat l then
          if p then rowSum s.img l.r l.k l.c else Memory.read s.img l
        else Memory.read s.img l := by
  cases p with
  | true => exact predictInverse_ok s.dim.h.toNat s.dim.w.toNat (s.withCfg { p := true })
  | false => exact ⟨s.img, rfl, fun l => by simp⟩

/-- What `DECODE` leaves at a location of the shape: the sample or the sum along its row, and no value from the first sample
on that was not decoded. -/
def decodedAt (p : Bool) (w : Nat) (xs : List Sample) (l : Loc) : Option Sample :=
  if flatIndex w l < xs.length then
    some (if p then flatRowSum w xs l.r l.k l.c else xs.getD (flatIndex w l) 0)
  else none

theorem getElem?_eq_getD (xs : List Sample) (i : Nat) :
    xs[i]? = if i < xs.length then some (xs.getD i 0) else none := by
  split
  · next hi => rw [List.getD_eq_getElem?_getD, List.getElem?_eq_getElem hi]; rfl
  · next hi => exact List.getElem?_eq_none (not_lt.mp hi)

theorem flatRowSum_zero (w : Nat) (xs : List Sample) (r k : Nat) :
    flatRowSum w xs r k 0 = xs.getD (flatIndex w { r := r, c := 0, k := k }) 0 := by
  simp [flatRowSum]

theorem flatRowSum_succ (w : Nat) (xs : List Sample) (r k c : Nat) :
    flatRowSum w xs r k (c + 1) = flatRowSum w xs r k c + xs.getD (flatIndex w { r := r, c := c + 1, k := k }) 0 := by
  simp only [flatRowSum, List.range_succ, List.map_append, List.sum_append, List.map_singleton, List.sum_singleton]

theorem HoldsFlat.read_eq {h w : Nat} {xs : List Sample} {m before : List (Loc × Sample)} (hm : HoldsFlat w xs m before h)
    {l : Loc} (hl : inShape h w l = true) :
    Memory.read m l = if flatIndex w l < xs.length then some (xs.getD (flatIndex w l) 0) else none := by
  rw [hm l, if_pos hl, getElem?_eq_getD]

theorem ofBoth_none (f : Sample → Sample → Sample) (x : Option Sample) : ofBoth f x none = none := by cases x <;> rfl

/-- Along a row the decoded samples come first, so a sum is of decoded samples exactly when its last one is. -/
theorem HoldsFlat.rowSum_eq {h w : Nat} {xs : List Sample} {m before : List (Loc × Sample)} (hm : HoldsFlat w xs m before h)
    {r k : Nat} (c : Nat) (hl : inShape h w { r := r, c := c, k := k } = true) :
    rowSum m r k c =
      if flatIndex w { r := r, c := c, k := k } < xs.length then some (flatRowSum w xs r k c) else none := by
  induction c with
  | zero => rw [rowSum, hm.read_eq hl, flatRowSum_zero]
  | succ c ih =>
    rw [rowSum, ih (inShape_left hl (Nat.le_succ c)), hm.read_eq hl, flatRowSum_succ]
    by_cases hlast : flatIndex w { r := r, c := c + 1, k := k } < xs.length
    · have hbefore : flatIndex w { r := r, c := c, k := k } < xs.length := by simp only [flatIndex] at hlast ⊢; omega
      rw [if_pos hlast, if_pos hbefore, if_pos hlast]; rfl
    · rw [if_neg hlast, if_neg hlast, ofBoth_none]

/-- A call of `DECODE` whose payload ends, whole or short (R203, R204): step 5 works on the samples it stored. -/
theorem exec_decode_payload {s u : State} {h w : BitVec 16} {es : List (Symbol × Bits)} {payload : Bits} {xs : List Sample}
    {n : Nat} (p : Bool) (hs : s.ready) (ho : s.br.isOpen = false) (hio : s.reliable) (hc : carriable es = true)
    (hu : sourceBits s = headerBits h w ++ (tableOf es ++ payload))
    (hrun : readPayload ((begunDecode s).atPayload { h := h, w := w } es) = .ok n u)
    (hdim : u.dim = { h := h, w := w }) (himg : HoldsFlat w.toNat xs u.img s.img h.toNat) :
    ∃ t, exec (.decode p) s = .next t ∧ t.says (.ok (.decoded (some { h := h, w := w }) u.st.dec)) ∧
      EndsDecode ((u.withCfg { p := p }).withImg t.img) t ∧ ∀ l, Memory.read t.img l =
        if inShape h.toNat w.toNat l then decodedAt p w.toNat xs l else Memory.read s.img l := by
  obtain ⟨hbody, -, -⟩ := decodeBody_atPayload p (canRead_begunDecode hio) hc hu
  obtain ⟨m, hundo, hm⟩ := undoPrediction_ok p (u.inPhase 5)
  have hsamples : decodeBody p (begunDecode s) = .ok true (((u.inPhase 5).withCfg { p := p }).withImg m) :=
    hbody.trans ((next_ok hrun).trans (next_ok hundo))
  have hdim5 : (u.inPhase 5).dim = { h := h, w := w } := hdim
  rw [hdim5] at hm
  obtain ⟨t, hexec, hsays, hend⟩ := exec_decode_ok hs ho hsamples
  obtain ⟨hbr, hidle, hcfg, hst, htdim, hvd, htimg, hsrc, hdraws⟩ := hend
  refine ⟨t, hexec, hsays.trans (by rw [← hdim]; rfl), ⟨hbr, hidle, hcfg, hst, htdim, hvd, rfl, hsrc, hdraws⟩, fun l => ?_⟩
  rw [htimg]
  refine (hm l).trans ?_
  split
  · next hl =>
    cases p with
    | true => exact himg.rowSum_eq l.c hl
    | false => exact himg.read_eq hl
  · next hl => exact (himg l).trans (if_neg hl)

/-- A decode table that was read is looked up by the last entry of each codeword. -/
theorem atPayload_get (s : State) (d : Dims) (es : List (Symbol × Bits)) :
    Table.get (s.atPayload d es).dt = lastFor es := get_putAll_nil es

/-- Where the source stands after the payload: past the bytes that hold all the bits read (R198). -/
theorem atPayload_src_pos {s : State} {d : Dims} {es : List (Symbol × Bits)} {n : Nat}
    (hlen : 32 + (tableOf es).length + n ≤ (sourceBits s).length) :
    (afterRead n ((begunDecode s).atPayload d es)).src.pos = s.src.pos + (32 + (tableOf es).length + n + 7) / 8 := by
  have hsrc : (afterRead n ((begunDecode s).atPayload d es)).src =
      (afterRead n (afterRead (32 + (tableOf es).length) (begunDecode s))).src := rfl
  rw [hsrc, afterRead_add (by rwa [unread_begunDecode])]
  simp [afterRead, fetches, begunDecode, setDec]

/-! `DECODE` (R203, R204). -/

/-- Settles O53: header, table and payload are read whole, and every location of the shape has its sample. -/
theorem decodeCompletes : Obligations.DecodeCompletes := by
  intro s h w es payload xs n p hs ho hio hc hu hx hl
  obtain ⟨-, hread, hpayload⟩ := decodeBody_atPayload p (canRead_begunDecode hio) hc hu
  have hlen : 32 + (tableOf es).length + n ≤ (sourceBits s).length := by
    have := spells_length hx
    rw [hu]
    simp only [List.length_append, headerBits_length]; omega
  rw [← hpayload, ← atPayload_get (begunDecode s) { h := h, w := w } es] at hx
  obtain ⟨t, hrun, hsays, hend, himg⟩ := exec_decode_payload p hs ho hio hc hu (readPayload_ok hread hx hl) rfl
    (holdsFlat_putFlat s.img hl)
  refine ⟨t, hrun, hsays, hend.br, hend.idle.trans hs.2.symm, hend.st.trans (by simp), hend.dim.trans (by simp),
    congrArg Cfg.p hend.cfg, by simp [hend.vd], hend.draws.trans (by simp), ?_, fun l => (himg l).trans ?_⟩
  · simpa [hend.src] using atPayload_src_pos hlen
  · split
    · next hin => rw [decodedAt, if_pos (hl ▸ flatIndex_lt hin)]
    · rfl

/-- Settles O54: the source ends in the header, in the table or in the payload, and the call goes on to its last lines. -/
theorem decodeStopsAtTheEndOfData : Obligations.DecodeStopsAtTheEndOfData := by
  refine ⟨fun s p hs ho hio hu => ?_, fun s h w u p hs ho hio hu hno => ?_,
    fun s h w es payload xs n p hs ho hio hc hu hx hno hl => ?_⟩
  · obtain ⟨t, hrun, hsays, hend⟩ := exec_decode_ok hs ho (decodeBody_noHeader p (canRead_begunDecode hio) hu)
    exact ⟨t, hrun, hsays, hend.img.trans (by simp), hend.dim.trans (by simp), hend.br, hend.st.trans (by simp)⟩
  · obtain ⟨d, hd⟩ := decodeBody_noTable p (canRead_begunDecode hio) hu hno
    obtain ⟨t, hrun, hsays, hend⟩ := exec_decode_ok hs ho hd
    exact ⟨t, hrun, hsays.trans (by simp), hend.img.trans (by simp), hend.dim.trans (by simp), hend.br,
      hend.st.trans (by simp)⟩
  · obtain ⟨-, hread, hpayload⟩ := decodeBody_atPayload p (canRead_begunDecode hio) hc hu
    rw [← hpayload, ← atPayload_get (begunDecode s) { h := h, w := w } es] at hx hno
    obtain ⟨t, hrun, hsays, hend, himg⟩ := exec_decode_payload p hs ho hio hc hu (readPayload_short hread hx hno hl) rfl
      (holdsFlat_stopShort s.img hl.le)
    exact ⟨t, hrun, hsays, by simp [hend.vd], hend.dim.trans (by simp), hend.br, hend.st.trans (by simp), himg⟩

/-! The code of an image, as the decoder reads it (R155, R195). -/

/-- An entry whose codeword no other symbol shares is the last for it (R193). -/
theorem lastFor_of_mem {es : List (Symbol × Bits)} {x : Symbol} {cw : Bits} (hmem : (x, cw) ∈ es)
    (huniq : ∀ e ∈ es, e.2 = cw → e = (x, cw)) : lastFor es cw = some x := by
  rw [lastFor]
  cases hfind : es.reverse.find? fun e => e.2 == cw with
  | none =>
    have := List.find?_eq_none.mp hfind (x, cw) (List.mem_reverse.mpr hmem)
    simp at this
  | some e =>
    have hcw : e.2 = cw := by simpa using List.find?_some hfind
    rw [huniq e (List.mem_reverse.mp (List.mem_of_find?_eq_some hfind)) hcw]; rfl

theorem lastFor_eq_none {es : List (Symbol × Bits)} {cw : Bits} (h : ∀ e ∈ es, e.2 ≠ cw) : lastFor es cw = none := by
  rw [lastFor, Option.map_eq_none_iff, List.find?_eq_none]
  exact fun e he => by simpa using h e (List.mem_reverse.mp he)

/-- The codes a decoder can tell apart: no codeword is empty, and none is the beginning of another entry's (R155). -/
structure PrefixCode (codes : List (Symbol × Bits)) : Prop where
  nonempty : ∀ e ∈ codes, 0 < e.2.length
  unique : ∀ e ∈ codes, ∀ e' ∈ codes, e.2 <+: e'.2 → e = e'

/-- The code of a sequence of samples is one (R155, R183). -/
theorem prefixCode_codeFor {flat : List Sample} (hc : ∀ x ∈ flat, isCodable x = true) (h0 : flat ≠ []) :
    PrefixCode (codeFor flat) := by
  have hvalid := empirical_valid hc h0
  have ⟨hl, hne, _⟩ := hvalid
  refine ⟨fun e he => ((codesOf_codewords (buildTree_isTree hvalid)).1 e he).1, fun e he e' he' hp => ?_⟩
  by_contra hdiff
  have hsymm : Std.Symm fun a b : Symbol × Bits => ¬a.2 <+: b.2 ∧ ¬b.2 <+: a.2 := ⟨fun _ _ h => h.symm⟩
  exact ((buildTree_prefixFree hl hne).forall he he' hdiff).1 hp

/-- A codeword is the shortest key that begins the bits it begins (R155, R195). -/
theorem PrefixCode.shortestKey {codes : List (Symbol × Bits)} (h : PrefixCode codes) {x : Symbol} {cw : Bits}
    (hmem : (x, cw) ∈ codes) (rest : Bits) : ShortestKey (lastFor codes) (cw ++ rest) cw.length x := by
  refine ⟨h.nonempty _ hmem, by simp, ?_, fun j _ hj => ?_⟩
  · rw [List.take_left]
    exact lastFor_of_mem hmem fun e he hcw => h.unique e he _ hmem (hcw ▸ List.prefix_refl _)
  · rw [List.take_append_of_le_length hj.le]
    refine lastFor_eq_none fun e he hcw => ?_
    have hsame := h.unique e he _ hmem (hcw ▸ List.take_prefix j cw)
    have hlen : cw.length = min j cw.length := by rw [← List.length_take, ← hcw, hsame]
    omega

/-- Codewords one after the other spell the symbols they stand for (R85, R178). -/
theorem PrefixCode.spells {codes : List (Symbol × Bits)} (h : PrefixCode codes) (rest : Bits) {xs : List Symbol}
    (hsome : ∀ x ∈ xs, (Table.get codes x).isSome = true) :
    Spells (lastFor codes) xs (xs.flatMap (codewordIn codes) ++ rest) (xs.flatMap (codewordIn codes)).length := by
  induction xs with
  | nil => rfl
  | cons x xs ih =>
    obtain ⟨cw, hcw⟩ := Option.isSome_iff_exists.mp (hsome x List.mem_cons_self)
    have hx : codewordIn codes x = cw := by rw [codewordIn, hcw]; rfl
    rw [List.flatMap_cons, hx, List.append_assoc, List.length_append]
    refine ⟨cw.length, h.shortestKey (Table.mem_of_get hcw) _, Nat.le_add_right _ _, ?_⟩
    rw [List.drop_left, Nat.add_sub_cancel_left]
    exact ih fun y hy => hsome y (List.mem_cons_of_mem x hy)

/-! The coded values, summed again (R161, R163, R164). -/

theorem codedFlat_length (p : Bool) (h w : Nat) (m : List (Loc × Sample)) : (codedFlat p h w m).length = h * w * 3 := by
  rw [codedFlat, List.length_map, List.length_range]; rfl

/-- The coded value of a location stands at its flat index (R55, R182). -/
theorem codedFlat_getD {h w : Nat} (p : Bool) (m : List (Loc × Sample)) {l : Loc} (hl : inShape h w l = true) :
    (codedFlat p h w m).getD (flatIndex w l) 0 = codedAt p m l := by
  have hlt : flatIndex w l < sampleCount h w := flatIndex_lt hl
  have hloc : flatLoc w (flatIndex w l) = l := by
    simp only [inShape, Bool.and_eq_true, decide_eq_true_eq] at hl
    exact flatLoc_flatIndex hl.1.2 hl.2
  simp [codedFlat, List.getD_eq_getElem?_getD, hlt, hloc]

/-- The differences of a row sum up to the sample (R164). -/
theorem flatRowSum_codedFlat {h w : Nat} (m : List (Loc × Sample)) {r k : Nat} (c : Nat)
    (hl : inShape h w { r := r, c := c, k := k } = true) :
    flatRowSum w (codedFlat true h w m) r k c = sampleAt m { r := r, c := c, k := k } := by
  induction c with
  | zero => rw [flatRowSum_zero, codedFlat_getD true m hl]; simp [codedAt]
  | succ c ih =>
    rw [flatRowSum_succ, ih (inShape_left hl (Nat.le_succ c)), codedFlat_getD true m hl]
    simp [codedAt]

/-- What `DECODE` makes of the coded values is the samples (R208). -/
theorem decoded_codedFlat {h w : Nat} (p : Bool) (m : List (Loc × Sample)) {l : Loc} (hl : inShape h w l = true) :
    (if p then flatRowSum w (codedFlat p h w m) l.r l.k l.c else (codedFlat p h w m).getD (flatIndex w l) 0) =
      sampleAt m l := by
  cases p with
  | true => exact flatRowSum_codedFlat m l.c hl
  | false => exact (codedFlat_getD false m hl).trans (by simp [codedAt])

/-! The round trip (R208). -/

/-- A source that begins with a packed stream begins with its header, its table and its payload (R59, R63). -/
theorem sourceBits_stream {s : State} {h w : BitVec 16} {codes : List (Symbol × Bits)} {flat : List Sample}
    {trailing : List Byte}
    (hsrc : s.src.bytes.drop s.src.pos = packBytes (padded (streamBits h w codes flat)) ++ trailing) :
    ∃ after, sourceBits s = headerBits h w ++ (tableOf codes ++ (flat.flatMap (codewordIn codes) ++ after)) := by
  refine ⟨zeros ((8 - (streamBits h w codes flat).length % 8) % 8) ++ trailing.flatMap bitsOfByte, ?_⟩
  rw [sourceBits, hsrc, List.flatMap_append, unpack_padded, padded]
  simp only [streamBits, tableOf, List.append_assoc]

/-- Settles O57: the stream holds the header, the table and the codewords that `DECODE` needs, and the sums of the coded
values are the samples. -/
theorem roundTrip : Obligations.RoundTrip := by
  intro s h w p hs ho hio hh hw hd hrange hlen
  obtain ⟨t, hrun, hsays, hsink, -⟩ := encodeWritesTheStream s h w p hs ho hio hh hw hd hrange hlen
  refine ⟨t, _, hrun, hsays, hsink, fun u trailing hu huo huio hsrc => ?_⟩
  have hc : ∀ x ∈ codedFlat p h.toNat w.toNat s.img, isCodable x = true := fun x hx => (isCodable_iff x).mpr (hrange x hx)
  have h0 : codedFlat p h.toNat w.toNat s.img ≠ [] := codedFlat_ne_nil (sampleCount_pos hh hw)
  obtain ⟨after, hbits⟩ := sourceBits_stream hsrc
  obtain ⟨v, hdec, hvsays, -, -, -, -, -, -, -, -, himg⟩ := decodeCompletes u h w _ _ _ _ p hu huo huio
    (carriable_codeFor hc h0 hlen) hbits ((prefixCode_codeFor hc h0).spells after fun x hx => codeFor_isSome hc hx)
    (codedFlat_length p _ _ _)
  refine ⟨v, hdec, hvsays, fun l hl => ?_⟩
  rw [himg l, if_pos hl, decoded_codedFlat p s.img hl, imageDefined_inShape hd hl]

end Sys2Proof.Machine

/-! The exceptions' family (60_exceptions.md R217 to R229): the gate of R226 is closed by a recorded fault alone. The pseudocode
behind it never looks at the recorded refusal, and refuses for reasons of its own, of which `Faulted` is none. -/

namespace Sys2Proof.Machine

/-! The status record (R229). -/

/-- Settles O7: the status is read from the state, and the reply is all that is written. -/
theorem statusReadsAndChangesNothing : Obligations.StatusReadsAndChangesNothing := fun s =>
  (exec_ungated rfl s).trans (congrArg Host.Outcome.next (reply_ok_eq (.status (statusRecord s)) s))

/-! The recorded fault (R39, R226). -/

/-- No answer changes a fault that is recorded (R222). -/
theorem recorded_faultStays {s t : State} (h : Recorded s t) (h0 : s.st.err ≠ 0) :
    t.st.err = s.st.err ∧ t.st.info = s.st.info := by
  rw [Recorded] at h
  split at h
  · exact h.elim
  · exact ⟨h.1, h.2.1⟩
  · exact h.2.2 h0
  · exact ⟨h.1, h.2.1⟩

/-- No answer changes a refusal that is recorded (R217). -/
theorem recorded_refusalStays {s t : State} (h : Recorded s t) (h0 : s.st.ref ≠ 0) : t.st.ref = s.st.ref := by
  rw [Recorded] at h
  split at h
  · exact h.elim
  · exact h.2.2
  · exact h.1
  · rw [h.2.2, if_neg h0]

/-! Pseudocode that is free of the recorded refusal. -/

/-- The state with another recorded refusal. -/
def State.withRef (s : State) (r : BitVec 4) : State := s.withSt { s.st with ref := r }

/-- The same, for how a piece of pseudocode ends. -/
def Ending.withRef {α : Type} (r : BitVec 4) : Ending α → Ending α
  | .ok a t => .ok a (t.withRef r)
  | .stop c t => .stop c (t.withRef r)

/-- A cause other than that of the gate (R226). -/
def NotTheGate (c : Cause) : Prop := c ≠ .refuse .faulted

/-- The pseudocode does the same whatever refusal is recorded, and does not refuse as the gate does. -/
structure Op.RefFree {α : Type} (m : Op α) : Prop where
  blind : ∀ r s, m (s.withRef r) = (m s).withRef r
  cause : ∀ s, (m s).Within NotTheGate fun _ _ => True

theorem refFree_ok {α : Type} {a : State → α} {f : State → State} (ha : ∀ r s, a (s.withRef r) = a s)
    (hf : ∀ r s, f (s.withRef r) = (f s).withRef r) : Op.RefFree fun s => .ok (a s) (f s) where
  blind r s := by rw [ha, hf]; rfl
  cause _ := trivial

theorem refFree_stop {α : Type} {c : Cause} {f : State → State} (hc : NotTheGate c)
    (hf : ∀ r s, f (s.withRef r) = (f s).withRef r) : Op.RefFree (α := α) fun s => .stop c (f s) where
  blind r s := by rw [hf]; rfl
  cause _ := hc

theorem refFree_give {α : Type} (a : α) : (give a).RefFree := refFree_ok (fun _ _ => rfl) fun _ _ => rfl

theorem refFree_assign {f : State → State} (hf : ∀ r s, f (s.withRef r) = (f s).withRef r) : (assign f).RefFree :=
  refFree_ok (fun _ _ => rfl) hf

theorem refFree_raise {α : Type} (e : FaultKind) (info : Int × Int) : (raise e info : Op α).RefFree :=
  refFree_stop nofun fun _ _ => rfl

theorem refFree_refuse {α : Type} {r : RefuseKind} (h : NotTheGate (.refuse r)) : (refuse r : Op α).RefFree :=
  refFree_stop h fun _ _ => rfl

theorem refFree_andThen {α β : Type} {m : Op α} {f : α → Op β} (hm : m.RefFree) (hf : ∀ a, (f a).RefFree) :
    (m.andThen f).RefFree where
  blind r s := by
    simp only [Op.andThen, hm.blind]
    cases m s with
    | ok a t => exact (hf a).blind r t
    | stop c t => rfl
  cause s := within_andThen (hm.cause s) fun a t _ => (hf a).cause t

theorem refFree_next {α β : Type} {m : Op α} {f : Op β} (hm : m.RefFree) (hf : f.RefFree) : (m.next f).RefFree :=
  refFree_andThen hm fun _ => hf

theorem refFree_assign_next {β : Type} {f : State → State} {m : Op β} (hf : ∀ r s, f (s.withRef r) = (f s).withRef r)
    (hm : m.RefFree) : ((assign f).next m).RefFree := refFree_next (refFree_assign hf) hm

theorem refFree_done {α : Type} {m : Op α} (hm : m.RefFree) : m.done.RefFree := refFree_andThen hm fun _ => refFree_give _

theorem refFree_ite {α : Type} (c : Prop) [Decidable c] {m n : Op α} (hm : m.RefFree) (hn : n.RefFree) :
    (if c then m else n).RefFree := by split <;> assumption

/-- A line that looks at the state first, but not at the recorded refusal. -/
theorem refFree_look {α β : Type} (g : State → β) (hg : ∀ r s, g (s.withRef r) = g s) {f : β → Op α}
    (hf : ∀ b, (f b).RefFree) : Op.RefFree fun s => f (g s) s where
  blind r s := by rw [hg]; exact (hf (g s)).blind r s
  cause s := (hf (g s)).cause s

/-- A choice by what is not the recorded refusal. -/
theorem refFree_cond {α : Type} {c : State → Prop} [DecidablePred c] (hc : ∀ r s, c (s.withRef r) ↔ c s) {m n : Op α}
    (hm : m.RefFree) (hn : n.RefFree) : Op.RefFree fun s => if c s then m s else n s where
  blind r s := by
    simp only [hc]
    split
    · exact hm.blind r s
    · exact hn.blind r s
  cause s := by
    split
    · exact hm.cause s
    · exact hn.cause s

theorem refFree_forEach {α : Type} {body : α → Op Unit} (l : List α) (h : ∀ x, (body x).RefFree) :
    (forEach l body).RefFree := by
  induction l with
  | nil => exact refFree_give ()
  | cons x rest ih => exact refFree_next (h x) ih

theorem refFree_forUp {body : Nat → Op Unit} (start n : Nat) (h : ∀ i, (body i).RefFree) :
    (forUp start n body).RefFree := by rw [forUp_eq_forEach]; exact refFree_forEach _ h

theorem refFree_forDown {body : Nat → Op Unit} (n : Nat) (h : ∀ i, (body i).RefFree) : (forDown n body).RefFree := by
  induction n with
  | zero => exact refFree_give ()
  | succ n ih => exact refFree_next (h _) ih

/-! The writer. -/

theorem refFree_needWriter : needWriter.RefFree :=
  refFree_cond (c := fun s => s.bw.isOpen = true) (fun _ _ => Iff.rfl) (refFree_give ()) (refFree_refuse nofun)

theorem refFree_openWriter : openWriter.RefFree :=
  refFree_cond (c := fun s => s.bw.isOpen = true) (fun _ _ => Iff.rfl) (refFree_refuse nofun) (refFree_assign fun _ _ => rfl)

theorem refFree_sinkAppend (b : Byte) : (sinkAppend b).RefFree :=
  refFree_cond (c := fun s => ioFailsNow s = true) (fun _ _ => Iff.rfl) (refFree_stop nofun fun _ _ => rfl)
    (refFree_assign (f := fun s => (tickIo s).withSink (s.sink ++ [b])) fun _ _ => rfl)

theorem refFree_flushByte (b : Byte) : (flushByte b).RefFree :=
  refFree_assign_next (fun _ _ => rfl) (refFree_next (refFree_sinkAppend b) (refFree_assign fun _ _ => rfl))

theorem refFree_pushBit (b : Bool) : (pushBit b).RefFree :=
  refFree_cond (c := fun s => (s.bw.buf ++ [b]).length = 8) (fun _ _ => Iff.rfl)
    (refFree_look (fun s => byteOf (s.bw.buf ++ [b])) (fun _ _ => rfl) refFree_flushByte)
    (refFree_assign (f := fun s => s.withBw { s.bw with buf := s.bw.buf ++ [b] }) fun _ _ => rfl)

theorem refFree_writeBits (bits : Bits) : (writeBits bits).RefFree :=
  refFree_next refFree_needWriter (refFree_forEach bits refFree_pushBit)

theorem refFree_closeWriter : closeWriter.RefFree := by
  refine refFree_look (fun s => s.bw.lastByte) (fun _ _ => rfl) (f := fun last s => match last with
    | none => .ok () (releaseWriter s)
    | some b =>
      match sinkAppend b s with
      | .ok _ t => .ok () (releaseWriter t)
      | .stop c t => .stop c (releaseWriter t)) fun last => ?_
  cases last with
  | none => exact refFree_assign fun _ _ => rfl
  | some b =>
    have happend := refFree_sinkAppend b
    refine ⟨fun r s => ?_, fun s => ?_⟩
    · simp only [happend.blind]
      cases sinkAppend b s <;> rfl
    · have hcause := happend.cause s
      dsimp only
      cases h : sinkAppend b s with
      | ok a t => trivial
      | stop c t => rwa [h] at hcause

/-! The reader. -/

theorem refFree_openReader : openReader.RefFree :=
  refFree_cond (c := fun s => s.br.isOpen = true) (fun _ _ => Iff.rfl) (refFree_refuse nofun)
    (refFree_assign (f := fun s => setDec .none (s.withBr { cur := [], exh := false, isOpen := true })) fun _ _ => rfl)

theorem refFree_closeReader : (opOf .brClose).RefFree :=
  refFree_cond (c := fun s => s.br.isOpen = true) (fun _ _ => Iff.rfl)
    (refFree_assign_next (f := closeReader) (fun _ _ => rfl) (refFree_give Result.done)) (refFree_refuse nofun)

theorem refFree_srcNext : srcNext.RefFree := by
  refine refFree_cond (c := fun s => ioFailsNow s = true) (fun _ _ => Iff.rfl) (refFree_stop nofun fun _ _ => rfl)
    (refFree_look (fun s => s.src.bytes[s.src.pos]?) (fun _ _ => rfl) (f := fun next s => match next with
      | some b => .ok (some b) ((tickIo s).withSrc { s.src with pos := s.src.pos + 1 })
      | none => .ok none (tickIo s)) fun next => ?_)
  cases next <;> exact refFree_ok (fun _ _ => rfl) fun _ _ => rfl

theorem refFree_takeBit : takeBit.RefFree := by
  refine refFree_look (fun s => s.br.cur) (fun _ _ => rfl) (f := fun cur s => match cur with
    | [] => .ok none s
    | b :: rest => .ok (some b) (s.withBr { s.br with cur := rest })) fun cur => ?_
  cases cur <;> exact refFree_ok (fun _ _ => rfl) fun _ _ => rfl

theorem refFree_readBit : readBit.RefFree := by
  refine refFree_cond (c := fun s => s.br.exh = true) (fun _ _ => Iff.rfl) (refFree_give none) <|
    refFree_cond (c := fun s => s.br.cur = []) (fun _ _ => Iff.rfl)
      (refFree_andThen refFree_srcNext fun next => ?_) refFree_takeBit
  cases next with
  | some b => exact refFree_assign_next (fun _ _ => rfl) refFree_takeBit
  | none => exact refFree_assign_next (fun _ _ => rfl) (refFree_give none)

theorem refFree_readBitsFrom (n : Nat) (sofar : Bits) : (readBitsFrom n sofar).RefFree := by
  induction n generalizing sofar with
  | zero => exact refFree_give _
  | succ n ih =>
    refine refFree_andThen refFree_readBit fun b => ?_
    cases b with
    | some b => exact ih _
    | none => exact refFree_give none

theorem refFree_readBits (n : Nat) : (readBits n).RefFree := refFree_readBitsFrom n []

/-! Image memory and the predictor. -/

theorem refFree_imgRead (l : Loc) : (imgRead l).RefFree := by
  refine refFree_look (fun s => Memory.read s.img l) (fun _ _ => rfl) (f := fun found s => match found with
    | some v => .ok v s
    | none => .ok (Config.freeSample s.draws) (s.withDraws (s.draws + 1))) fun found => ?_
  cases found <;> exact refFree_ok (fun _ _ => rfl) fun _ _ => rfl

theorem refFree_readFlat (w start n : Nat) : (readFlat w start n).RefFree := by
  induction n generalizing start with
  | zero => exact refFree_give []
  | succ n ih => exact refFree_andThen (refFree_imgRead _) fun _ => refFree_andThen (ih _) fun _ => refFree_give _

theorem refFree_imgCombine (f : Sample → Sample → Sample) (a b l : Loc) : (imgCombine f a b l).RefFree :=
  refFree_assign fun _ _ => rfl

theorem refFree_predictForward (h w : Nat) : (predictForward h w).RefFree :=
  refFree_forUp _ _ fun _ => refFree_forUp _ _ fun _ => refFree_forDown _ fun _ => refFree_imgCombine _ _ _ _

theorem refFree_predictInverse (h w : Nat) : (predictInverse h w).RefFree :=
  refFree_forUp _ _ fun _ => refFree_forUp _ _ fun _ => refFree_forUp _ _ fun _ => refFree_imgCombine _ _ _ _

/-! The histogram, the tree and the code table. -/

theorem refFree_accumulate (x : Sample) : (accumulate x).RefFree :=
  refFree_cond (c := fun _ => isCodable x = true) (fun _ _ => Iff.rfl) (refFree_assign fun _ _ => rfl)
    (refFree_look (fun s => s.hg.total) (fun _ _ => rfl) fun total => refFree_raise .sampleRangeError (x, total))

theorem refFree_emitHistogram (lo hi : Int) : (emitHistogram lo hi).RefFree :=
  refFree_cond (c := fun s => s.hg.total = 0) (fun _ _ => Iff.rfl) (refFree_refuse nofun)
    (refFree_ok (a := fun s => s.hg.emit lo hi) (fun _ _ => rfl) fun _ _ => rfl)

theorem refFree_buildHistogram (samples : List Sample) (lo hi : Int) : (buildHistogram samples lo hi).RefFree :=
  refFree_assign_next (fun _ _ => rfl) (refFree_next (refFree_forEach _ refFree_accumulate) (refFree_emitHistogram lo hi))

/-- The checks of an alphabet have causes of their own (R142). -/
theorem alphabetCause_notTheGate {xs : List Symbol} {ps : List Prob} {c : Cause} (h : alphabetCause xs ps = some c) :
    NotTheGate c := by
  rw [alphabetCause] at h
  split_ifs at h <;> cases h <;> nofun

theorem refFree_buildHuffman (xs : List Symbol) (ps : List Prob) : (buildHuffman xs ps).RefFree := by
  cases hc : alphabetCause xs ps with
  | some c =>
    rw [show buildHuffman xs ps = fun s => .stop c s from funext (buildHuffman_stop hc)]
    exact refFree_stop (alphabetCause_notTheGate hc) fun _ _ => rfl
  | none =>
    rw [show buildHuffman xs ps = assign fun s => s.withHt (buildTree xs ps) by funext s; simp [buildHuffman, hc]]
    exact refFree_assign fun _ _ => rfl

theorem refFree_generateCodes : generateCodes.RefFree := by
  refine refFree_look (fun s => s.ht.root) (fun _ _ => rfl) (f := fun root s => match root with
    | none => .stop (.refuse .noTree) s
    | some _ => .ok (codesOf s.ht) (s.withCt { entries := codesOf s.ht })) fun root => ?_
  cases root with
  | none => exact refFree_refuse nofun
  | some r => exact refFree_ok (fun _ _ => rfl) fun _ _ => rfl

/-! The encoder. -/

theorem refFree_fixedEncode (x : Int) (width : Nat) : (fixedEncode x width).RefFree :=
  refFree_ite _ (refFree_raise _ _) (refFree_give _)

theorem refFree_writeField (x : Int) (width : Nat) : (writeField x width).RefFree :=
  refFree_andThen (refFree_fixedEncode x width) refFree_writeBits

theorem refFree_writeHeader (h w : Int) : (writeHeader h w).RefFree :=
  refFree_next refFree_needWriter <| refFree_next (refFree_writeField _ _) <| refFree_next (refFree_writeField _ _) <|
    refFree_assign fun _ _ => rfl

theorem refFree_writeEntry (e : Symbol × Bits) : (writeEntry e).RefFree :=
  refFree_next (refFree_writeField _ _) (refFree_next (refFree_writeField _ _) (refFree_writeBits e.2))

theorem refFree_writeTable : writeTable.RefFree :=
  refFree_next refFree_needWriter <| refFree_look (fun s => s.ct.entries) (fun _ _ => rfl)
    (f := fun es => (forEach es writeEntry).next (writeField Config.sentinel Config.symWidth)) fun es =>
    refFree_next (refFree_forEach es refFree_writeEntry) (refFree_writeField _ _)

theorem refFree_writeSymbol (x : Sample) : (writeSymbol x).RefFree := by
  refine refFree_next refFree_needWriter (refFree_look (fun s => if isCodable x then s.ct.code x else none)
    (fun _ _ => rfl) (f := fun code s => match code with
      | none => .stop (.refuse .noCode) s
      | some cw => writeBits cw s) fun code => ?_)
  cases code with
  | none => exact refFree_refuse nofun
  | some cw => exact refFree_writeBits cw

theorem refFree_writePayload : writePayload.RefFree :=
  refFree_next refFree_needWriter <| refFree_look (fun s => s.dim) (fun _ _ => rfl)
    (f := fun d => forUp 0 d.count (writeSample d.w.toNat)) fun _ =>
    refFree_forUp 0 _ fun _ => refFree_andThen (refFree_imgRead _) refFree_writeSymbol

theorem refFree_rangeScan (w n : Nat) : (rangeScan w n).RefFree :=
  refFree_forUp _ _ fun _ => refFree_andThen (refFree_imgRead _) fun _ =>
    refFree_ite _ (refFree_give ()) (refFree_raise _ _)

theorem refFree_buildCode (w n : Nat) : (buildCode w n).RefFree :=
  refFree_andThen (refFree_readFlat w 0 n) fun _ => refFree_andThen (refFree_buildHistogram _ _ _) fun _ =>
    refFree_next (refFree_buildHuffman _ _) (refFree_andThen refFree_generateCodes fun _ => refFree_give ())

theorem refFree_setPhase_next {β : Type} (n : Nat) {m : Op β} (hm : m.RefFree) : ((setPhase n).next m).RefFree :=
  refFree_assign_next (fun _ _ => rfl) hm

theorem refFree_encodeHead (h w : Int) (p : Bool) : (encodeHead h w p).RefFree :=
  refFree_next (refFree_writeHeader h w) <| refFree_setPhase_next 2 <| refFree_assign_next (fun _ _ => rfl) <|
    refFree_ite _ (refFree_predictForward _ _) (refFree_give ())

theorem refFree_encodeCode (h w : Int) : (encodeCode h w).RefFree :=
  refFree_setPhase_next 3 <| refFree_next (refFree_rangeScan _ _) <| refFree_setPhase_next 4 <|
    refFree_ite _ (refFree_refuse nofun) (refFree_buildCode _ _)

theorem refFree_encodeOutput : encodeOutput.RefFree :=
  refFree_setPhase_next 5 <| refFree_next refFree_writeTable <| refFree_setPhase_next 6 <|
    refFree_next refFree_writePayload <| refFree_setPhase_next 7 refFree_closeWriter

theorem refFree_encodeSteps (h w : Int) (p : Bool) : (encodeSteps h w p).RefFree := by
  rw [encodeSteps_eq, encodeBody_eq]
  refine refFree_assign_next (fun _ _ => rfl) (refFree_next ?_ (refFree_assign fun _ _ => rfl))
  exact refFree_next (refFree_encodeHead h w p) (refFree_next (refFree_encodeCode h w) refFree_encodeOutput)

/-! The decoder. -/

theorem refFree_noImage {α : Type} (a : α) : (noImage a).RefFree := refFree_assign_next (fun _ _ => rfl) (refFree_give a)

theorem refFree_readHeader : readHeader.RefFree := by
  refine refFree_andThen (refFree_readBits 32) fun l => ?_
  cases l with
  | none => exact refFree_noImage none
  | some l => exact refFree_assign_next (fun _ _ => rfl) (refFree_give _)

theorem refFree_readEntries (n : Nat) : (readEntries n).RefFree := by
  induction n with
  | zero => exact refFree_noImage false
  | succ n ih =>
    refine refFree_andThen (refFree_readBits 9) fun sb => ?_
    cases sb with
    | none => exact refFree_noImage false
    | some sb =>
    refine refFree_ite _ (refFree_give true) (refFree_andThen (refFree_readBits 5) fun lb => ?_)
    cases lb with
    | none => exact refFree_noImage false
    | some lb =>
    refine refFree_andThen (refFree_readBits _) fun cw => ?_
    cases cw with
    | none => exact refFree_noImage false
    | some cw => exact refFree_assign_next (fun _ _ => rfl) ih

theorem refFree_readTable : readTable.RefFree :=
  refFree_assign_next (fun _ _ => rfl) (refFree_look bitsLeft (fun _ _ => rfl) fun n => refFree_readEntries (n + 1))

theorem refFree_setAcc (acc : Bits) : (assign (setAcc acc)).RefFree := refFree_assign fun _ _ => rfl

theorem refFree_matchLoop (n : Nat) : (matchLoop n).RefFree := by
  induction n with
  | zero => exact refFree_give none
  | succ n ih =>
    refine refFree_andThen refFree_readBit fun b => ?_
    cases b with
    | none => exact refFree_give none
    | some b =>
      refine refFree_look (fun s => (s.vd.acc ++ [b], Table.get s.dt (s.vd.acc ++ [b]))) (fun _ _ => rfl)
        (f := fun u s => match u.2 with | some x => .ok (some x) (setAcc [] s) | none => matchLoop n (setAcc u.1 s))
        fun (acc, x) => ?_
      cases x with
      | none => exact refFree_next (refFree_setAcc acc) ih
      | some x => exact refFree_next (refFree_setAcc []) (refFree_give (some x))

theorem refFree_readSymbol : readSymbol.RefFree :=
  refFree_next (refFree_setAcc []) (refFree_look bitsLeft (fun _ _ => rfl) fun n => refFree_matchLoop (n + 1))

theorem refFree_readSamples (w i n : Nat) : (readSamples w i n).RefFree := by
  induction n generalizing i with
  | zero => exact refFree_assign_next (fun _ _ => rfl) (refFree_give i)
  | succ n ih =>
    refine refFree_andThen refFree_readSymbol fun x => ?_
    cases x with
    | some x => exact refFree_assign_next (fun _ _ => rfl) (refFree_assign_next (fun _ _ => rfl) (ih _))
    | none => exact refFree_assign_next (fun _ _ => rfl) (refFree_ok (fun _ _ => rfl) fun _ _ => rfl)

theorem refFree_readPayload : readPayload.RefFree :=
  refFree_assign_next (fun _ _ => rfl) <| refFree_look (fun s => s.dim) (fun _ _ => rfl)
    (f := fun d => readSamples d.w.toNat 0 d.count) fun _ => refFree_readSamples _ _ _

theorem refFree_undoPrediction (p : Bool) : (undoPrediction p).RefFree := by
  refine refFree_assign_next (fun _ _ => rfl) ?_
  cases p with
  | true =>
    exact refFree_look (fun s => s.dim) (fun _ _ => rfl) (f := fun d => predictInverse d.h.toNat d.w.toNat) fun _ =>
      refFree_predictInverse _ _
  | false => exact refFree_give ()

theorem refFree_finishDecode (b : Bool) : (finishDecode b).RefFree :=
  refFree_assign_next (fun _ _ => rfl) <| refFree_assign_next (fun _ _ => rfl) <| refFree_ok (fun _ _ => rfl) fun _ _ => rfl

theorem refFree_decodeSteps (p : Bool) : (decodeSteps p).RefFree := by
  refine refFree_assign_next (fun _ _ => rfl) (refFree_andThen refFree_readHeader fun d => ?_)
  cases d with
  | none => exact refFree_finishDecode false
  | some d =>
  refine refFree_setPhase_next 2 (refFree_andThen refFree_readTable fun ok => ?_)
  cases ok with
  | false => exact refFree_finishDecode true
  | true =>
  refine refFree_setPhase_next 3 (refFree_next refFree_readPayload ?_)
  refine refFree_setPhase_next 4 (refFree_setPhase_next 5 ?_)
  exact refFree_next (refFree_undoPrediction p) (refFree_finishDecode true)

/-! The instructions. -/

theorem matchBits_withRef (r : BitVec 4) (cw : Bits) (s : State) :
    matchBits cw (s.withRef r) = ((matchBits cw s).1, (matchBits cw s).2.withRef r) := by
  induction cw generalizing s with
  | nil => rfl
  | cons b rest ih =>
    have hget : Table.get (s.withRef r).dt ((s.withRef r).vd.acc ++ [b]) = Table.get s.dt (s.vd.acc ++ [b]) := rfl
    simp only [matchBits, hget]
    cases Table.get s.dt (s.vd.acc ++ [b]) with
    | some x => rfl
    | none => exact ih (setAcc (s.vd.acc ++ [b]) s)

theorem refFree_matchBits (cw : Bits) :
    Op.RefFree (α := Result) fun s => .ok (.symbol (matchBits cw s).1) (matchBits cw s).2 :=
  refFree_ok (fun r s => by rw [matchBits_withRef]) fun r s => by rw [matchBits_withRef]

/-- Only `SYS.RESET` and `SYS.STATUS` have to do with the recorded refusal (R228, R229). -/
theorem refFree_opOf {i : Instr} (hreset : i ≠ .sysReset) (hstatus : i ≠ .sysStatus) : (opOf i).RefFree := by
  cases i with
  | sysReset => exact absurd rfl hreset
  | sysStatus => exact absurd rfl hstatus
  | bwOpen => exact refFree_done refFree_openWriter
  | bwWrite bits => exact refFree_done (refFree_writeBits bits)
  | bwClose => exact refFree_done (refFree_next refFree_needWriter refFree_closeWriter)
  | brOpen => exact refFree_done refFree_openReader
  | brReadBit => exact refFree_andThen refFree_readBit fun _ => refFree_give _
  | brReadBits n => exact refFree_andThen (refFree_readBits n) fun _ => refFree_give _
  | brClose => exact refFree_closeReader
  | fwEnc x width => exact refFree_andThen (refFree_fixedEncode x width) fun _ => refFree_give _
  | fwDec bits => exact refFree_give _
  | hgClear => exact refFree_done (refFree_assign fun _ _ => rfl)
  | hgAcc x => exact refFree_done (refFree_accumulate x)
  | hgEmit lo hi => exact refFree_andThen (refFree_emitHistogram lo hi) fun _ => refFree_give _
  | hgBuild samples lo hi => exact refFree_andThen (refFree_buildHistogram samples lo hi) fun _ => refFree_give _
  | htBuild xs ps => exact refFree_done (refFree_buildHuffman xs ps)
  | htGen => exact refFree_andThen refFree_generateCodes fun _ => refFree_give _
  | dpFwd h w => exact refFree_done (refFree_predictForward _ _)
  | dpInv h w => exact refFree_done (refFree_predictInverse _ _)
  | veHdr h w => exact refFree_done (refFree_writeHeader h w)
  | veTable => exact refFree_done refFree_writeTable
  | veSym x => exact refFree_done (refFree_writeSymbol x)
  | vePayload => exact refFree_done refFree_writePayload
  | encode h w p => exact refFree_done (refFree_next refFree_openWriter (refFree_encodeSteps h w p))
  | vdHdr => exact refFree_andThen refFree_readHeader fun _ => refFree_give _
  | vdTable => exact refFree_andThen refFree_readTable fun _ => refFree_give _
  | vdSym => exact refFree_andThen refFree_readSymbol fun _ => refFree_give _
  | vdPayload => exact refFree_andThen refFree_readPayload fun _ => refFree_give _
  | decode p => exact refFree_next refFree_openReader (refFree_decodeSteps p)
  | header h w => exact refFree_assign_next (fun _ _ => rfl) (refFree_give _)
  | entry x cw => exact refFree_done (refFree_assign fun _ _ => rfl)
  | sentinel => exact refFree_give _
  | codeword cw => exact refFree_next (refFree_setAcc []) (refFree_matchBits cw)
  | pad n => exact refFree_give _

/-! What the command port hears (R44). -/

/-- What an answer leaves on the command port, if it is a next state. -/
def heard : Answer → Option (Option Reply)
  | .next t => some t.port.reply
  | _ => none

theorem heard_next {a : Answer} {x : Option Reply} (h : heard a = some x) : ∃ t, a = .next t ∧ t.port.reply = x := by
  cases a with
  | next t => exact ⟨t, rfl, Option.some.inj h⟩
  | fault f => cases h
  | refused r => cases h

/-- The port hears the same whatever refusal is recorded, and hears no refusal of the gate. -/
structure HeardFree (f : State → Answer) : Prop where
  blind : ∀ r s, heard (f (s.withRef r)) = heard (f s)
  cause : ∀ s, heard (f s) ≠ some (some (.refused .faulted))

theorem heard_deliver_withRef (r : BitVec 4) (e : Ending Result) : heard (deliver (e.withRef r)) = heard (deliver e) := by
  cases e <;> rfl

theorem heard_deliver_cause {e : Ending Result} {Q : Result → State → Prop} (h : e.Within NotTheGate Q) :
    heard (deliver e) ≠ some (some (.refused .faulted)) := by
  cases e with
  | ok r t => exact nofun
  | stop c t =>
    cases c with
    | fault e info => exact nofun
    | refuse r => rintro ⟨⟩; exact h rfl

theorem heardFree_deliver {m : Op Result} (hm : m.RefFree) : HeardFree fun s => deliver (m s) where
  blind r s := by rw [hm.blind, heard_deliver_withRef]
  cause s := heard_deliver_cause (hm.cause s)

theorem heardFree_refuseAtGate {r : RefuseKind} (h : r ≠ .faulted) : HeardFree (refuseAtGate r) where
  blind _ _ := rfl
  cause _ := by rintro ⟨⟩; exact h rfl

theorem heardFree_cond {c : State → Prop} [DecidablePred c] (hc : ∀ r s, c (s.withRef r) ↔ c s) {f g : State → Answer}
    (hf : HeardFree f) (hg : HeardFree g) : HeardFree fun s => if c s then f s else g s where
  blind r s := by
    simp only [hc]
    split
    · exact hf.blind r s
    · exact hg.blind r s
  cause s := by
    split
    · exact hf.cause s
    · exact hg.cause s

/-- An instruction past its gate: a call looks whether it may begin (R184, R203), and `HT.GEN` at its arena. -/
def pastGate : Instr → State → Answer
  | .encode h w p, s =>
    if s.seq.op ≠ .idle then refuseAtGate .busy s
    else if s.bw.isOpen then refuseAtGate .alreadyOpen s
    else deliver (opOf (.encode h w p) s)
  | .decode p, s =>
    if s.seq.op ≠ .idle then refuseAtGate .busy s
    else if s.br.isOpen then refuseAtGate .alreadyOpen s
    else deliver (opOf (.decode p) s)
  | .htGen, s => if s.ht.root ≠ none ∧ s.ht.isTree = false then .fault .brokenTree else deliver (opOf .htGen s)
  | i, s => deliver (opOf i s)

/-- The instructions behind the gate (R226). -/
theorem exec_gated {i : Instr} (hu : ungated i = false) (s : State) : exec i s = gate (pastGate i) s := by
  cases i with
  | sysReset | sysStatus | bwClose | brClose => cases hu
  | _ => rfl

/-- The instructions that the gate lets pass (R226). -/
theorem pastGate_ungated {i : Instr} (hu : ungated i = true) (s : State) : pastGate i s = deliver (opOf i s) := by
  cases i with
  | sysReset | sysStatus | bwClose | brClose => rfl
  | _ => cases hu

/-- Past the open gate, or without one (R226). -/
theorem exec_open {i : Instr} {s : State} (h : s.st.err = 0 ∨ ungated i = true) : exec i s = pastGate i s := by
  cases hu : ungated i with
  | true => rw [exec_ungated hu, pastGate_ungated hu]
  | false => rw [exec_gated hu, gate_open (h.resolve_right (by simp [hu]))]

theorem heardFree_pastGate {i : Instr} (hreset : i ≠ .sysReset) (hstatus : i ≠ .sysStatus) : HeardFree (pastGate i) := by
  have hbody := heardFree_deliver (refFree_opOf hreset hstatus)
  cases i with
  | encode h w p =>
    exact heardFree_cond (c := fun s => s.seq.op ≠ .idle) (fun _ _ => Iff.rfl) (heardFree_refuseAtGate nofun) <|
      heardFree_cond (c := fun s => s.bw.isOpen = true) (fun _ _ => Iff.rfl) (heardFree_refuseAtGate nofun) hbody
  | decode p =>
    exact heardFree_cond (c := fun s => s.seq.op ≠ .idle) (fun _ _ => Iff.rfl) (heardFree_refuseAtGate nofun) <|
      heardFree_cond (c := fun s => s.br.isOpen = true) (fun _ _ => Iff.rfl) (heardFree_refuseAtGate nofun) hbody
  | htGen =>
    exact heardFree_cond (c := fun s => s.ht.root ≠ none ∧ s.ht.isTree = false) (fun _ _ => Iff.rfl)
      ⟨fun _ _ => rfl, fun _ => nofun⟩ hbody
  | _ => exact hbody

/-! The gate (R226). -/

/-- No instruction refuses as the gate does: `SYS.RESET` and `SYS.STATUS` refuse nothing. -/
theorem pastGate_notFaulted (i : Instr) (s : State) : heard (pastGate i s) ≠ some (some (.refused .faulted)) := by
  by_cases hreset : i = .sysReset
  · subst hreset; exact nofun
  by_cases hstatus : i = .sysStatus
  · subst hstatus; exact nofun
  exact (heardFree_pastGate hreset hstatus).cause s

/-- The port reports `Faulted` when the gate is closed, and only then. -/
theorem says_faulted_iff {i : Instr} {s t : State} (h : exec i s = .next t) :
    t.says (.refused .faulted) ↔ s.st.err ≠ 0 ∧ ungated i = false := by
  by_cases hg : s.st.err ≠ 0 ∧ ungated i = false
  · rw [exec_closed hg.2 hg.1] at h
    cases h
    exact iff_of_true rfl hg
  · have hopen : s.st.err = 0 ∨ ungated i = true := by
      rwa [not_and_or, not_not, Bool.not_eq_false] at hg
    rw [exec_open hopen] at h
    refine iff_of_false (fun hsays => pastGate_notFaulted i s ?_) hg
    rw [h]
    exact congrArg some hsays

/-- A recorded refusal blocks nothing: the port hears what it would hear without it. -/
theorem heard_exec_withRef {i : Instr} (hstatus : i ≠ .sysStatus) (r : BitVec 4) (s : State) :
    heard (exec i (s.withRef r)) = heard (exec i s) := by
  by_cases hreset : i = .sysReset
  · subst hreset; rfl
  by_cases hg : s.st.err = 0 ∨ ungated i = true
  · rw [exec_open (s := s.withRef r) hg, exec_open hg]
    exact (heardFree_pastGate hreset hstatus).blind r s
  · rw [not_or, Bool.not_eq_true] at hg
    rw [exec_closed (s := s.withRef r) hg.2 hg.1, exec_closed hg.2 hg.1]
    rfl

/-- Settles O8: the gate looks at the recorded fault alone, and what is recorded first stays. -/
theorem faultedBlockRefuses : Obligations.FaultedBlockRefuses := by
  refine ⟨fun i s _ h0 hu => exec_closed hu h0, fun i s t _ h => says_faulted_iff h,
    fun i s t h h0 hi => recorded_faultStays (ran_recorded (exec_ran hi h)) h0, fun i s t r h hi => ?_⟩
  have hheard := heard_exec_withRef hi r s
  rw [h] at hheard
  obtain ⟨u, hu, hreply⟩ := heard_next hheard
  exact ⟨u, hu, hreply, fun hr hreset => recorded_refusalStays (ran_recorded (exec_ran hreset hu)) hr⟩

end Sys2Proof.Machine
